-- ==== Sys2Proof/Word.lean ====
section
/-! DEFINITION. The word types of the block: 64-bit words, bytes, 5-bit register numbers
(00_scope.md R9, 30_encoding.md R110). -/

namespace Sys2Proof

/-- XLEN = 64: register values, addresses, decoded immediates and the PC (00_scope.md R7, R9). -/
abbrev Word := BitVec 64

/-- One byte of the data space or of a cache block (20_memory.md R61). -/
abbrev Byte := BitVec 8

/-- A register number 0..31 (30_encoding.md R110). -/
abbrev Reg := BitVec 5

end Sys2Proof
end

