-- ==== Sys2Proof/Config.lean ====
section
/-! DEFINITION. The implementation parameters of 00_scope.md R7. They are fixed for a run and no
instruction reads or writes one (R8). The spec leaves no value undefined, so there is no free value
here: every OPEN entry is a field, and a claim about all states is a claim about every value of it. -/

namespace Sys2Proof

/-- The parameters of 00_scope.md R7 that are numbers or switches. XLEN, NREG and INST_BYTES are the
constants 64, 32 and 4; LAT is `Instr.lat`; IS is `State.prog`; MEM_INIT and REG_INIT are arguments of
`Machine.construct`; `Exec`, `Predict` and `Update` are an argument of `Machine.tick`, of type
`Machine.Collaborators` (70_reset_and_hazards.md R348). -/
structure Config where
  /-- C, the data-cache capacity in bytes. -/
  cacheBytes : Nat
  /-- B, the cache block size in bytes. -/
  blockBytes : Nat
  /-- W, the number of ways allocated; only way 0 is used (20_memory.md R77). -/
  ways : Nat
  /-- MEM_SIZE, the data-memory capacity in bytes. -/
  memSize : Nat
  /-- L, the data-memory latency in ticks. -/
  memLatency : Nat
  /-- PRED_ENABLED. -/
  predEnabled : Bool
  /-- FORWARDING; only `false` is admitted (60_exceptions.md R315 (b)). A block with `true` is built as any
  other and refused at its first tick: DESIGN CHOICE (log entry 20). -/
  forwarding : Bool
  /-- RESET_PC. -/
  resetPc : Word
  /-- BHT_BITS. -/
  bhtBits : Nat
  /-- PHT_BITS. -/
  phtBits : Nat
  /-- HIST_BITS. -/
  histBits : Nat
  /-- BTB_SIZE. -/
  btbSize : Nat
  /-- PHT_ENTRY_BITS (92_eei_decisions.md D12). -/
  phtEntryBits : Nat
  /-- PRED_INDEX_SHIFT (92_eei_decisions.md D47). -/
  predIndexShift : Nat
deriving DecidableEq, Repr

/-- The configuration of the spec's reference start state (95_test_vectors.md section 0). The predictor
sizes have no value in the spec: DESIGN CHOICE (log entry 2); the baseline policy reads none of them. -/
def Config.reference : Config where
  cacheBytes := 1024
  blockBytes := 8
  ways := 1
  memSize := 4096
  memLatency := 3
  predEnabled := false
  forwarding := false
  resetPc := 0#64
  bhtBits := 4
  phtBits := 4
  histBits := 4
  btbSize := 16
  phtEntryBits := 2
  predIndexShift := 2

end Sys2Proof
end

