-- ==== Sys2Proof/Syntax.lean ====
section
/-! DEFINITION. The admitted instruction set: one constructor per row of opcode_table.json, 62 rows in
the table's order (30_encoding.md R112, R115). Fields hold what the encoding holds (R116): an immediate
at its encoded width, a branch or jump offset as the byte offset with its always-zero bit 0. -/

namespace Sys2Proof

/-- The `op`, `rd`, `rs1`, `rs2` and `imm` of an instruction record (30_encoding.md R110), as the
instruction source delivers them. -/
inductive Instr where
  /-- 41_integer_ops.md R203. -/
  | add (rd rs1 rs2 : Reg)
  /-- 41_integer_ops.md R204. -/
  | sub (rd rs1 rs2 : Reg)
  /-- 41_integer_ops.md R205. -/
  | sll (rd rs1 rs2 : Reg)
  /-- 41_integer_ops.md R206. -/
  | slt (rd rs1 rs2 : Reg)
  /-- 41_integer_ops.md R207. -/
  | sltu (rd rs1 rs2 : Reg)
  /-- 41_integer_ops.md R208. -/
  | xor (rd rs1 rs2 : Reg)
  /-- 41_integer_ops.md R209. -/
  | srl (rd rs1 rs2 : Reg)
  /-- 41_integer_ops.md R210. -/
  | sra (rd rs1 rs2 : Reg)
  /-- 41_integer_ops.md R211. -/
  | or (rd rs1 rs2 : Reg)
  /-- 41_integer_ops.md R212. -/
  | and (rd rs1 rs2 : Reg)
  /-- 41_integer_ops.md R213. -/
  | addw (rd rs1 rs2 : Reg)
  /-- 41_integer_ops.md R214. -/
  | subw (rd rs1 rs2 : Reg)
  /-- 41_integer_ops.md R215. -/
  | sllw (rd rs1 rs2 : Reg)
  /-- 41_integer_ops.md R216. -/
  | srlw (rd rs1 rs2 : Reg)
  /-- 41_integer_ops.md R217. -/
  | sraw (rd rs1 rs2 : Reg)
  /-- 41_integer_ops.md R218. -/
  | addi (rd rs1 : Reg) (imm : BitVec 12)
  /-- 41_integer_ops.md R219. -/
  | slti (rd rs1 : Reg) (imm : BitVec 12)
  /-- 41_integer_ops.md R220. -/
  | sltiu (rd rs1 : Reg) (imm : BitVec 12)
  /-- 41_integer_ops.md R221. -/
  | xori (rd rs1 : Reg) (imm : BitVec 12)
  /-- 41_integer_ops.md R222. -/
  | ori (rd rs1 : Reg) (imm : BitVec 12)
  /-- 41_integer_ops.md R223. -/
  | andi (rd rs1 : Reg) (imm : BitVec 12)
  /-- 41_integer_ops.md R224. -/
  | slli (rd rs1 : Reg) (shamt : BitVec 6)
  /-- 41_integer_ops.md R225. -/
  | srli (rd rs1 : Reg) (shamt : BitVec 6)
  /-- 41_integer_ops.md R226. -/
  | srai (rd rs1 : Reg) (shamt : BitVec 6)
  /-- 41_integer_ops.md R227. -/
  | addiw (rd rs1 : Reg) (imm : BitVec 12)
  /-- 41_integer_ops.md R228. -/
  | slliw (rd rs1 : Reg) (shamt : BitVec 5)
  /-- 41_integer_ops.md R229. -/
  | srliw (rd rs1 : Reg) (shamt : BitVec 5)
  /-- 41_integer_ops.md R230. -/
  | sraiw (rd rs1 : Reg) (shamt : BitVec 5)
  /-- 41_integer_ops.md R231. -/
  | lui (rd : Reg) (imm20 : BitVec 20)
  /-- 41_integer_ops.md R232. -/
  | auipc (rd : Reg) (imm20 : BitVec 20)
  /-- 41_integer_ops.md R233. -/
  | mul (rd rs1 rs2 : Reg)
  /-- 41_integer_ops.md R234. -/
  | mulh (rd rs1 rs2 : Reg)
  /-- 41_integer_ops.md R235. -/
  | mulhsu (rd rs1 rs2 : Reg)
  /-- 41_integer_ops.md R236. -/
  | mulhu (rd rs1 rs2 : Reg)
  /-- 41_integer_ops.md R237. -/
  | div (rd rs1 rs2 : Reg)
  /-- 41_integer_ops.md R238. -/
  | divu (rd rs1 rs2 : Reg)
  /-- 41_integer_ops.md R239. -/
  | rem (rd rs1 rs2 : Reg)
  /-- 41_integer_ops.md R240. -/
  | remu (rd rs1 rs2 : Reg)
  /-- 41_integer_ops.md R241. -/
  | mulw (rd rs1 rs2 : Reg)
  /-- 41_integer_ops.md R242. -/
  | divw (rd rs1 rs2 : Reg)
  /-- 41_integer_ops.md R243. -/
  | divuw (rd rs1 rs2 : Reg)
  /-- 41_integer_ops.md R244. -/
  | remw (rd rs1 rs2 : Reg)
  /-- 41_integer_ops.md R245. -/
  | remuw (rd rs1 rs2 : Reg)
  /-- 42_memory_ops.md R265. -/
  | lb (rd rs1 : Reg) (imm : BitVec 12)
  /-- 42_memory_ops.md R266. -/
  | lh (rd rs1 : Reg) (imm : BitVec 12)
  /-- 42_memory_ops.md R267. -/
  | lw (rd rs1 : Reg) (imm : BitVec 12)
  /-- 42_memory_ops.md R268. -/
  | ld (rd rs1 : Reg) (imm : BitVec 12)
  /-- 42_memory_ops.md R269. -/
  | lbu (rd rs1 : Reg) (imm : BitVec 12)
  /-- 42_memory_ops.md R270. -/
  | lhu (rd rs1 : Reg) (imm : BitVec 12)
  /-- 42_memory_ops.md R271. -/
  | lwu (rd rs1 : Reg) (imm : BitVec 12)
  /-- 42_memory_ops.md R272. -/
  | sb (rs2 rs1 : Reg) (imm : BitVec 12)
  /-- 42_memory_ops.md R273. -/
  | sh (rs2 rs1 : Reg) (imm : BitVec 12)
  /-- 42_memory_ops.md R274. -/
  | sw (rs2 rs1 : Reg) (imm : BitVec 12)
  /-- 42_memory_ops.md R275. -/
  | sd (rs2 rs1 : Reg) (imm : BitVec 12)
  /-- 43_control_ops.md R283. -/
  | beq (rs1 rs2 : Reg) (offset : BitVec 13)
  /-- 43_control_ops.md R284. -/
  | bne (rs1 rs2 : Reg) (offset : BitVec 13)
  /-- 43_control_ops.md R285. -/
  | blt (rs1 rs2 : Reg) (offset : BitVec 13)
  /-- 43_control_ops.md R286. -/
  | bge (rs1 rs2 : Reg) (offset : BitVec 13)
  /-- 43_control_ops.md R287. -/
  | bltu (rs1 rs2 : Reg) (offset : BitVec 13)
  /-- 43_control_ops.md R288. -/
  | bgeu (rs1 rs2 : Reg) (offset : BitVec 13)
  /-- 43_control_ops.md R290. -/
  | jal (rd : Reg) (offset : BitVec 21)
  /-- 43_control_ops.md R291. -/
  | jalr (rd rs1 : Reg) (imm : BitVec 12)
deriving DecidableEq, Repr

end Sys2Proof
end

