-- ==== Sys2Proof/WellFormed.lean ====
section
/-! DEFINITION. Which terms of `Instr` an encoding can spell: a branch offset and a jump offset are even
(30_encoding.md R117, the appended 0 of the B and J immediates). Every other field takes every value of
its width. -/

namespace Sys2Proof

/-- The bit the B and J formats do not encode is 0. -/
def offsetEven {w : Nat} (offset : BitVec w) : Bool := !offset.getLsbD 0

/-- The instructions an admitted word spells (30_encoding.md R116, R117). -/
def Instr.wellFormed : Instr → Bool
  | .beq _ _ offset | .bne _ _ offset | .blt _ _ offset | .bge _ _ offset | .bltu _ _ offset
  | .bgeu _ _ offset => offsetEven offset
  | .jal _ offset => offsetEven offset
  | .add _ _ _ | .sub _ _ _ | .sll _ _ _ | .slt _ _ _ | .sltu _ _ _ | .xor _ _ _ | .srl _ _ _
  | .sra _ _ _ | .or _ _ _ | .and _ _ _ | .addw _ _ _ | .subw _ _ _ | .sllw _ _ _ | .srlw _ _ _
  | .sraw _ _ _ | .addi _ _ _ | .slti _ _ _ | .sltiu _ _ _ | .xori _ _ _ | .ori _ _ _ | .andi _ _ _
  | .slli _ _ _ | .srli _ _ _ | .srai _ _ _ | .addiw _ _ _ | .slliw _ _ _ | .srliw _ _ _
  | .sraiw _ _ _ | .lui _ _ | .auipc _ _ | .mul _ _ _ | .mulh _ _ _ | .mulhsu _ _ _ | .mulhu _ _ _
  | .div _ _ _ | .divu _ _ _ | .rem _ _ _ | .remu _ _ _ | .mulw _ _ _ | .divw _ _ _ | .divuw _ _ _
  | .remw _ _ _ | .remuw _ _ _ | .lb _ _ _ | .lh _ _ _ | .lw _ _ _ | .ld _ _ _ | .lbu _ _ _
  | .lhu _ _ _ | .lwu _ _ _ | .sb _ _ _ | .sh _ _ _ | .sw _ _ _ | .sd _ _ _ | .jalr _ _ _ => true

end Sys2Proof
end

