-- ==== Sys2Proof/Decode.lean ====
section
/-! DEFINITION. The reference decoder and encoder (30_encoding.md R116, R117, R119; general knowledge of
RISC-V as the spec supplies it, log entry 12). The block itself never sees words; the decoder is the
collaborator that feeds the instruction source. Total on any word and any bytes, rejecting by name. -/

namespace Sys2Proof

/-- Why bytes spell no admitted instruction. -/
inductive DecodeError where
  /-- Fewer than the 4 bytes every instruction has (30_encoding.md R122). -/
  | tooShort
  /-- The word matches no row of opcode_table.json (30_encoding.md R120). -/
  | notAdmitted (word : BitVec 32)
deriving DecidableEq, Repr

/-! ## Fields of a word (R116) and the encoded immediates (R117) -/

/-- `w[6:0]`. -/
def fieldOpcode (w : BitVec 32) : BitVec 7 := w.extractLsb' 0 7

/-- `w[11:7]`. -/
def fieldRd (w : BitVec 32) : Reg := w.extractLsb' 7 5

/-- `w[14:12]`. -/
def fieldFunct3 (w : BitVec 32) : BitVec 3 := w.extractLsb' 12 3

/-- `w[19:15]`. -/
def fieldRs1 (w : BitVec 32) : Reg := w.extractLsb' 15 5

/-- `w[24:20]`. -/
def fieldRs2 (w : BitVec 32) : Reg := w.extractLsb' 20 5

/-- `w[31:25]`. -/
def fieldFunct7 (w : BitVec 32) : BitVec 7 := w.extractLsb' 25 7

/-- `w[31:26]`, the function field of the 64-bit shifts. -/
def fieldFunct6 (w : BitVec 32) : BitVec 6 := w.extractLsb' 26 6

/-- `w[25:20]`, the 6-bit shift amount. -/
def fieldShamt6 (w : BitVec 32) : BitVec 6 := w.extractLsb' 20 6

/-- `w[24:20]`, the 5-bit shift amount. -/
def fieldShamt5 (w : BitVec 32) : BitVec 5 := w.extractLsb' 20 5

/-- `w[31:20]`. -/
def fieldImmI (w : BitVec 32) : BitVec 12 := w.extractLsb' 20 12

/-- `w[31:25] ++ w[11:7]`. -/
def fieldImmS (w : BitVec 32) : BitVec 12 := w.extractLsb' 25 7 ++ w.extractLsb' 7 5

/-- `w[31] ++ w[7] ++ w[30:25] ++ w[11:8] ++ 0`. -/
def fieldImmB (w : BitVec 32) : BitVec 13 :=
  w.extractLsb' 31 1 ++ w.extractLsb' 7 1 ++ w.extractLsb' 25 6 ++ w.extractLsb' 8 4 ++ 0#1

/-- `w[31:12]`. -/
def fieldImmU (w : BitVec 32) : BitVec 20 := w.extractLsb' 12 20

/-- `w[31] ++ w[19:12] ++ w[20] ++ w[30:21] ++ 0`. -/
def fieldImmJ (w : BitVec 32) : BitVec 21 :=
  w.extractLsb' 31 1 ++ w.extractLsb' 12 8 ++ w.extractLsb' 20 1 ++ w.extractLsb' 21 10 ++ 0#1

/-! ## The opcode map (R119), one function per major opcode -/

/-- Major opcode 0x33, OP. -/
def decodeOp (funct7 : BitVec 7) (funct3 : BitVec 3) (rd rs1 rs2 : Reg) : Option Instr :=
  match funct7, funct3 with
  | 0x00#7, 0#3 => some (.add rd rs1 rs2)
  | 0x00#7, 1#3 => some (.sll rd rs1 rs2)
  | 0x00#7, 2#3 => some (.slt rd rs1 rs2)
  | 0x00#7, 3#3 => some (.sltu rd rs1 rs2)
  | 0x00#7, 4#3 => some (.xor rd rs1 rs2)
  | 0x00#7, 5#3 => some (.srl rd rs1 rs2)
  | 0x00#7, 6#3 => some (.or rd rs1 rs2)
  | 0x00#7, 7#3 => some (.and rd rs1 rs2)
  | 0x20#7, 0#3 => some (.sub rd rs1 rs2)
  | 0x20#7, 5#3 => some (.sra rd rs1 rs2)
  | 0x01#7, 0#3 => some (.mul rd rs1 rs2)
  | 0x01#7, 1#3 => some (.mulh rd rs1 rs2)
  | 0x01#7, 2#3 => some (.mulhsu rd rs1 rs2)
  | 0x01#7, 3#3 => some (.mulhu rd rs1 rs2)
  | 0x01#7, 4#3 => some (.div rd rs1 rs2)
  | 0x01#7, 5#3 => some (.divu rd rs1 rs2)
  | 0x01#7, 6#3 => some (.rem rd rs1 rs2)
  | 0x01#7, 7#3 => some (.remu rd rs1 rs2)
  | _, _ => none

/-- Major opcode 0x3B, OP-32. -/
def decodeOp32 (funct7 : BitVec 7) (funct3 : BitVec 3) (rd rs1 rs2 : Reg) : Option Instr :=
  match funct7, funct3 with
  | 0x00#7, 0#3 => some (.addw rd rs1 rs2)
  | 0x00#7, 1#3 => some (.sllw rd rs1 rs2)
  | 0x00#7, 5#3 => some (.srlw rd rs1 rs2)
  | 0x20#7, 0#3 => some (.subw rd rs1 rs2)
  | 0x20#7, 5#3 => some (.sraw rd rs1 rs2)
  | 0x01#7, 0#3 => some (.mulw rd rs1 rs2)
  | 0x01#7, 4#3 => some (.divw rd rs1 rs2)
  | 0x01#7, 5#3 => some (.divuw rd rs1 rs2)
  | 0x01#7, 6#3 => some (.remw rd rs1 rs2)
  | 0x01#7, 7#3 => some (.remuw rd rs1 rs2)
  | _, _ => none

/-- Major opcode 0x13, OP-IMM. -/
def decodeOpImm (w : BitVec 32) (funct3 : BitVec 3) (rd rs1 : Reg) : Option Instr :=
  match funct3 with
  | 0#3 => some (.addi rd rs1 (fieldImmI w))
  | 2#3 => some (.slti rd rs1 (fieldImmI w))
  | 3#3 => some (.sltiu rd rs1 (fieldImmI w))
  | 4#3 => some (.xori rd rs1 (fieldImmI w))
  | 6#3 => some (.ori rd rs1 (fieldImmI w))
  | 7#3 => some (.andi rd rs1 (fieldImmI w))
  | 1#3 =>
    match fieldFunct6 w with
    | 0x00#6 => some (.slli rd rs1 (fieldShamt6 w))
    | _ => none
  | 5#3 =>
    match fieldFunct6 w with
    | 0x00#6 => some (.srli rd rs1 (fieldShamt6 w))
    | 0x10#6 => some (.srai rd rs1 (fieldShamt6 w))
    | _ => none
  | _ => none

/-- Major opcode 0x1B, OP-IMM-32. -/
def decodeOpImm32 (w : BitVec 32) (funct3 : BitVec 3) (rd rs1 : Reg) : Option Instr :=
  match funct3 with
  | 0#3 => some (.addiw rd rs1 (fieldImmI w))
  | 1#3 =>
    match fieldFunct7 w with
    | 0x00#7 => some (.slliw rd rs1 (fieldShamt5 w))
    | _ => none
  | 5#3 =>
    match fieldFunct7 w with
    | 0x00#7 => some (.srliw rd rs1 (fieldShamt5 w))
    | 0x20#7 => some (.sraiw rd rs1 (fieldShamt5 w))
    | _ => none
  | _ => none

/-- Major opcode 0x03, LOAD. -/
def decodeLoad (funct3 : BitVec 3) (rd rs1 : Reg) (imm : BitVec 12) : Option Instr :=
  match funct3 with
  | 0#3 => some (.lb rd rs1 imm)
  | 1#3 => some (.lh rd rs1 imm)
  | 2#3 => some (.lw rd rs1 imm)
  | 3#3 => some (.ld rd rs1 imm)
  | 4#3 => some (.lbu rd rs1 imm)
  | 5#3 => some (.lhu rd rs1 imm)
  | 6#3 => some (.lwu rd rs1 imm)
  | _ => none

/-- Major opcode 0x23, STORE. -/
def decodeStore (funct3 : BitVec 3) (rs2 rs1 : Reg) (imm : BitVec 12) : Option Instr :=
  match funct3 with
  | 0#3 => some (.sb rs2 rs1 imm)
  | 1#3 => some (.sh rs2 rs1 imm)
  | 2#3 => some (.sw rs2 rs1 imm)
  | 3#3 => some (.sd rs2 rs1 imm)
  | _ => none

/-- Major opcode 0x63, BRANCH. -/
def decodeBranch (funct3 : BitVec 3) (rs1 rs2 : Reg) (offset : BitVec 13) : Option Instr :=
  match funct3 with
  | 0#3 => some (.beq rs1 rs2 offset)
  | 1#3 => some (.bne rs1 rs2 offset)
  | 4#3 => some (.blt rs1 rs2 offset)
  | 5#3 => some (.bge rs1 rs2 offset)
  | 6#3 => some (.bltu rs1 rs2 offset)
  | 7#3 => some (.bgeu rs1 rs2 offset)
  | _ => none

/-- Major opcode 0x67, JALR. -/
def decodeJalr (funct3 : BitVec 3) (rd rs1 : Reg) (imm : BitVec 12) : Option Instr :=
  match funct3 with
  | 0#3 => some (.jalr rd rs1 imm)
  | _ => none

/-- The instruction a word spells, or `none` where it matches no row of the table (R119, R120). -/
def decodeWord (w : BitVec 32) : Option Instr :=
  match fieldOpcode w with
  | 0x37#7 => some (.lui (fieldRd w) (fieldImmU w))
  | 0x17#7 => some (.auipc (fieldRd w) (fieldImmU w))
  | 0x6F#7 => some (.jal (fieldRd w) (fieldImmJ w))
  | 0x67#7 => decodeJalr (fieldFunct3 w) (fieldRd w) (fieldRs1 w) (fieldImmI w)
  | 0x63#7 => decodeBranch (fieldFunct3 w) (fieldRs1 w) (fieldRs2 w) (fieldImmB w)
  | 0x03#7 => decodeLoad (fieldFunct3 w) (fieldRd w) (fieldRs1 w) (fieldImmI w)
  | 0x23#7 => decodeStore (fieldFunct3 w) (fieldRs2 w) (fieldRs1 w) (fieldImmS w)
  | 0x13#7 => decodeOpImm w (fieldFunct3 w) (fieldRd w) (fieldRs1 w)
  | 0x1B#7 => decodeOpImm32 w (fieldFunct3 w) (fieldRd w) (fieldRs1 w)
  | 0x33#7 => decodeOp (fieldFunct7 w) (fieldFunct3 w) (fieldRd w) (fieldRs1 w) (fieldRs2 w)
  | 0x3B#7 => decodeOp32 (fieldFunct7 w) (fieldFunct3 w) (fieldRd w) (fieldRs1 w) (fieldRs2 w)
  | _ => none

/-- The word of four bytes, the first at the lowest address and least significant. The spec gives the
instruction space no byte order: DESIGN CHOICE, little-endian as the data space (log entry 16). -/
def wordOfBytes (b0 b1 b2 b3 : Byte) : BitVec 32 := b3 ++ b2 ++ b1 ++ b0

/-- The instruction at the front of a byte sequence and the bytes after it, or the reason there is none. -/
def decodeBytes : List Byte → Except DecodeError (Instr × List Byte)
  | b0 :: b1 :: b2 :: b3 :: rest =>
    match decodeWord (wordOfBytes b0 b1 b2 b3) with
    | some i => .ok (i, rest)
    | none => .error (.notAdmitted (wordOfBytes b0 b1 b2 b3))
  | _ => .error .tooShort

/-- The instruction of a row of opcode_table.json whose bits are `w`, bit 0 the least significant; bits
above `nbits` are 0. -/
def decodeTableWord (nbits w : Nat) : Option Instr :=
  decodeWord (BitVec.ofNat 32 (w % 2 ^ nbits))

/-! ## The encoder, from the same formats -/

/-- R format. -/
def formR (funct7 : BitVec 7) (funct3 : BitVec 3) (opcode : BitVec 7) (rd rs1 rs2 : Reg) : BitVec 32 :=
  funct7 ++ rs2 ++ rs1 ++ funct3 ++ rd ++ opcode

/-- I format. -/
def formI (funct3 : BitVec 3) (opcode : BitVec 7) (rd rs1 : Reg) (imm : BitVec 12) : BitVec 32 :=
  imm ++ rs1 ++ funct3 ++ rd ++ opcode

/-- I-shift64 format. -/
def formShift64 (funct6 : BitVec 6) (funct3 : BitVec 3) (opcode : BitVec 7) (rd rs1 : Reg)
    (shamt : BitVec 6) : BitVec 32 :=
  funct6 ++ shamt ++ rs1 ++ funct3 ++ rd ++ opcode

/-- I-shift32 format. -/
def formShift32 (funct7 : BitVec 7) (funct3 : BitVec 3) (opcode : BitVec 7) (rd rs1 : Reg)
    (shamt : BitVec 5) : BitVec 32 :=
  funct7 ++ shamt ++ rs1 ++ funct3 ++ rd ++ opcode

/-- S format. -/
def formS (funct3 : BitVec 3) (opcode : BitVec 7) (rs2 rs1 : Reg) (imm : BitVec 12) : BitVec 32 :=
  imm.extractLsb' 5 7 ++ rs2 ++ rs1 ++ funct3 ++ imm.extractLsb' 0 5 ++ opcode

/-- B format. -/
def formB (funct3 : BitVec 3) (opcode : BitVec 7) (rs1 rs2 : Reg) (offset : BitVec 13) : BitVec 32 :=
  offset.extractLsb' 12 1 ++ offset.extractLsb' 5 6 ++ rs2 ++ rs1 ++ funct3
    ++ offset.extractLsb' 1 4 ++ offset.extractLsb' 11 1 ++ opcode

/-- U format. -/
def formU (opcode : BitVec 7) (rd : Reg) (imm20 : BitVec 20) : BitVec 32 :=
  imm20 ++ rd ++ opcode

/-- J format. -/
def formJ (opcode : BitVec 7) (rd : Reg) (offset : BitVec 21) : BitVec 32 :=
  offset.extractLsb' 20 1 ++ offset.extractLsb' 1 10 ++ offset.extractLsb' 11 1
    ++ offset.extractLsb' 12 8 ++ rd ++ opcode

/-- The one word of an instruction (R116, R119). -/
def encode : Instr → BitVec 32
  | .add rd rs1 rs2 => formR 0x00 0 0x33 rd rs1 rs2
  | .sub rd rs1 rs2 => formR 0x20 0 0x33 rd rs1 rs2
  | .sll rd rs1 rs2 => formR 0x00 1 0x33 rd rs1 rs2
  | .slt rd rs1 rs2 => formR 0x00 2 0x33 rd rs1 rs2
  | .sltu rd rs1 rs2 => formR 0x00 3 0x33 rd rs1 rs2
  | .xor rd rs1 rs2 => formR 0x00 4 0x33 rd rs1 rs2
  | .srl rd rs1 rs2 => formR 0x00 5 0x33 rd rs1 rs2
  | .sra rd rs1 rs2 => formR 0x20 5 0x33 rd rs1 rs2
  | .or rd rs1 rs2 => formR 0x00 6 0x33 rd rs1 rs2
  | .and rd rs1 rs2 => formR 0x00 7 0x33 rd rs1 rs2
  | .addw rd rs1 rs2 => formR 0x00 0 0x3B rd rs1 rs2
  | .subw rd rs1 rs2 => formR 0x20 0 0x3B rd rs1 rs2
  | .sllw rd rs1 rs2 => formR 0x00 1 0x3B rd rs1 rs2
  | .srlw rd rs1 rs2 => formR 0x00 5 0x3B rd rs1 rs2
  | .sraw rd rs1 rs2 => formR 0x20 5 0x3B rd rs1 rs2
  | .addi rd rs1 imm => formI 0 0x13 rd rs1 imm
  | .slti rd rs1 imm => formI 2 0x13 rd rs1 imm
  | .sltiu rd rs1 imm => formI 3 0x13 rd rs1 imm
  | .xori rd rs1 imm => formI 4 0x13 rd rs1 imm
  | .ori rd rs1 imm => formI 6 0x13 rd rs1 imm
  | .andi rd rs1 imm => formI 7 0x13 rd rs1 imm
  | .slli rd rs1 shamt => formShift64 0x00 1 0x13 rd rs1 shamt
  | .srli rd rs1 shamt => formShift64 0x00 5 0x13 rd rs1 shamt
  | .srai rd rs1 shamt => formShift64 0x10 5 0x13 rd rs1 shamt
  | .addiw rd rs1 imm => formI 0 0x1B rd rs1 imm
  | .slliw rd rs1 shamt => formShift32 0x00 1 0x1B rd rs1 shamt
  | .srliw rd rs1 shamt => formShift32 0x00 5 0x1B rd rs1 shamt
  | .sraiw rd rs1 shamt => formShift32 0x20 5 0x1B rd rs1 shamt
  | .lui rd imm20 => formU 0x37 rd imm20
  | .auipc rd imm20 => formU 0x17 rd imm20
  | .mul rd rs1 rs2 => formR 0x01 0 0x33 rd rs1 rs2
  | .mulh rd rs1 rs2 => formR 0x01 1 0x33 rd rs1 rs2
  | .mulhsu rd rs1 rs2 => formR 0x01 2 0x33 rd rs1 rs2
  | .mulhu rd rs1 rs2 => formR 0x01 3 0x33 rd rs1 rs2
  | .div rd rs1 rs2 => formR 0x01 4 0x33 rd rs1 rs2
  | .divu rd rs1 rs2 => formR 0x01 5 0x33 rd rs1 rs2
  | .rem rd rs1 rs2 => formR 0x01 6 0x33 rd rs1 rs2
  | .remu rd rs1 rs2 => formR 0x01 7 0x33 rd rs1 rs2
  | .mulw rd rs1 rs2 => formR 0x01 0 0x3B rd rs1 rs2
  | .divw rd rs1 rs2 => formR 0x01 4 0x3B rd rs1 rs2
  | .divuw rd rs1 rs2 => formR 0x01 5 0x3B rd rs1 rs2
  | .remw rd rs1 rs2 => formR 0x01 6 0x3B rd rs1 rs2
  | .remuw rd rs1 rs2 => formR 0x01 7 0x3B rd rs1 rs2
  | .lb rd rs1 imm => formI 0 0x03 rd rs1 imm
  | .lh rd rs1 imm => formI 1 0x03 rd rs1 imm
  | .lw rd rs1 imm => formI 2 0x03 rd rs1 imm
  | .ld rd rs1 imm => formI 3 0x03 rd rs1 imm
  | .lbu rd rs1 imm => formI 4 0x03 rd rs1 imm
  | .lhu rd rs1 imm => formI 5 0x03 rd rs1 imm
  | .lwu rd rs1 imm => formI 6 0x03 rd rs1 imm
  | .sb rs2 rs1 imm => formS 0 0x23 rs2 rs1 imm
  | .sh rs2 rs1 imm => formS 1 0x23 rs2 rs1 imm
  | .sw rs2 rs1 imm => formS 2 0x23 rs2 rs1 imm
  | .sd rs2 rs1 imm => formS 3 0x23 rs2 rs1 imm
  | .beq rs1 rs2 offset => formB 0 0x63 rs1 rs2 offset
  | .bne rs1 rs2 offset => formB 1 0x63 rs1 rs2 offset
  | .blt rs1 rs2 offset => formB 4 0x63 rs1 rs2 offset
  | .bge rs1 rs2 offset => formB 5 0x63 rs1 rs2 offset
  | .bltu rs1 rs2 offset => formB 6 0x63 rs1 rs2 offset
  | .bgeu rs1 rs2 offset => formB 7 0x63 rs1 rs2 offset
  | .jal rd offset => formJ 0x6F rd offset
  | .jalr rd rs1 imm => formI 0 0x67 rd rs1 imm

/-- The bytes of an instruction, lowest address first (log entry 16). -/
def encodeBytes (i : Instr) : List Byte :=
  [(encode i).extractLsb' 0 8, (encode i).extractLsb' 8 8, (encode i).extractLsb' 16 8,
    (encode i).extractLsb' 24 8]

end Sys2Proof
end

