-- ==== Sys2Proof/Machine/State.lean ====
section
/-! DEFINITION. The state tuple of the block (10_state.md R20 to R35), the reasons a step can stop, and
the state after reset (70_reset_and_hazards.md R331). Plain data throughout. -/

namespace Sys2Proof.Machine

/-- The fatal codes (60_exceptions.md R302). -/
inductive FatalCode where
  | cfgMemSize
  | cfgCacheGeometry
  | memstateMalformed
  | memstateAddr
  | memstateConflict
  | accessMisaligned
  | accessOutOfRange
deriving DecidableEq, Repr

/-- The run status (10_state.md R35). -/
inductive Status where
  | running
  | done
  | fatal (code : FatalCode)
deriving DecidableEq, Repr

/-- Why the machine stops with a fault. Raising a `Fatal` is itself a NEXT state, whose status is
`Status.fatal` (60_exceptions.md R301); the fault is what any later step of such a state answers. -/
inductive Fault where
  /-- Raised by `step` and by every meaning on a state whose status is `Status.fatal code`: no further
  tick is performed (60_exceptions.md R301). Safe. -/
  | fatal (code : FatalCode)
deriving DecidableEq, Repr

/-- What is no behaviour of the block (60_exceptions.md R315): the model stops and picks none. -/
inductive Refusal where
  /-- An instruction without a meaning in this model. Raised by `exec`'s arms only; there is no such arm
  now. Safe. -/
  | notModelled (mnemonic : String)
  /-- R315 (a): the program holds, at an address fetch asks for, a word that spells no admitted
  instruction. Raised by the fetch stage and by `step`. Safe. -/
  | unadmittedOp (word : BitVec 32)
  /-- R315 (b): FORWARDING = true. Raised by `tick`, by `step` and by every meaning of a Running block;
  where the refusal comes is the model's choice (log entry 20). Safe. -/
  | forwarding
  /-- R315 (c): a write to an occupied latch. Raised by `Latch.write`; no stage reaches it. Safe. -/
  | latchOccupied
  /-- R315 (d): `fu_run` on a busy unit. Raised by `fuRun`; no stage reaches it. Safe. -/
  | fuBusy
  /-- R315 (e): a cache access while a miss is outstanding. Raised by `cacheAccess`; no stage reaches
  it. Safe. -/
  | cacheBusy
  /-- R315 (f): a second request to the data memory. Raised by `loadBlock`; only states that break
  40_pipeline_control.md R183 reach it. Safe. -/
  | requestPending
  /-- R315 (g): a replay that misses. Raised by `replay`; no state reaches it. Safe. -/
  | replayMiss
  /-- A response of the data memory with no missed instruction, against 40_pipeline_control.md R183.
  Raised by `handleResponse`; only states that break R183 reach it (log entry 11). Safe. -/
  | responseWithoutMiss
  /-- `exec` was asked to run an instruction that is not the next one of the block: another is ahead of
  it in the pipeline, or fetch is stopped, or the run is over. Raised by the meanings; `step` never asks
  for it (log entry 6). Safe. -/
  | notNext
deriving DecidableEq, Repr

/-- A memory of bytes by address, in the canonical form of `Memory.wf`; an unlisted address reads as 0
(10_state.md R28, 20_memory.md R61). -/
abbrev Memory := List Host.Cell

/-- An instruction record (30_encoding.md R110, R111). `instr` carries `op`, `rd`, `rs1`, `rs2` and `imm`
(see Operands.lean); a fresh record has every other field 0. -/
structure Rec where
  instr : Instr
  pc : Word := 0#64
  rs1Val : Word := 0#64
  rs2Val : Word := 0#64
  rdVal : Word := 0#64
  memAddr : Word := 0#64
  predTaken : Bool := false
  predTarget : Word := 0#64
  actTaken : Bool := false
  actTarget : Word := 0#64
deriving DecidableEq, Repr

/-- A cache block (10_state.md R26). `data` holds byte j of the block at address j. -/
structure Block where
  tag : Nat := 0
  valid : Bool := false
  dirty : Bool := false
  lastAccess : Nat := 0
  data : Memory := []
deriving DecidableEq, Repr

/-- A predictor table as allocated: how many entries, how many bits each, and the entries that are not 0
(10_state.md R31, 40_pipeline_control.md R175). It is read by `Table.read` and written by `Table.write`,
which keep both sizes. -/
structure Table where
  entries : Nat
  width : Nat
  cells : List (Nat × Nat) := []
deriving DecidableEq, Repr

/-- The predictor state (10_state.md R31), as the collaborators `Predict` and `Update` see it. -/
structure Tables where
  bht : Table
  pht : Table
  btb : Table
deriving DecidableEq, Repr

/-- The names of the three tables (10_state.md R31). -/
inductive TableName where
  | bht
  | pht
  | btb
deriving DecidableEq, Repr

/-- One write that an `Update` asks for: an entry of a table, and its new value. -/
structure TableWrite where
  table : TableName
  index : Nat
  value : Nat
deriving DecidableEq, Repr

/-- The statistics counters (10_state.md R34). -/
structure Stats where
  numInsts : Nat := 0
  numStalls : Nat := 0
  numBranches : Nat := 0
  numMispredictions : Nat := 0
  numFlushes : Nat := 0
  numAccesses : Nat := 0
  numLoads : Nat := 0
  numStores : Nat := 0
  numMisses : Nat := 0
  numWritebacks : Nat := 0
deriving DecidableEq, Repr

/-- The block's state (10_state.md R20). `cfg` and `prog` are the model's carriers of the parameters
that the spec keeps apart from the state; no step writes them (00_scope.md R8, log entry 1). -/
structure State where
  /-- The configuration (00_scope.md R7). -/
  cfg : Config
  /-- The program behind the instruction source IS: a partial map from PC to word (R41 (a)). -/
  prog : List (Nat × BitVec 32)
  /-- R21. -/
  tick : Nat
  /-- R22. -/
  pc : Word
  /-- R23, `pc_valid`. -/
  pcValid : Bool
  /-- R24, fetch to decode. -/
  lFD : Option Rec
  /-- R24, decode to execute. -/
  lDX : Option Rec
  /-- R24, execute to memory. -/
  lXM : Option Rec
  /-- R24, memory to writeback. -/
  lMW : Option Rec
  /-- R25, `fu_inst`. -/
  fuInst : Option Rec
  /-- R25, `fu_exit`. -/
  fuExit : Nat
  /-- R26, `Blk[s][w]` under the key `s * W + w`; an unlisted block is the reset block. -/
  blk : List (Nat × Block)
  /-- R27, `miss_inst`. -/
  missInst : Option Rec
  /-- R28, `Img`, as bytes. -/
  img : Memory
  /-- R29, `Acc[k]`; an unlisted word is not accessed. -/
  acc : List (Nat × Bool)
  /-- R30. -/
  pendValid : Bool
  /-- R30. -/
  pendAddr : Word
  /-- R30. -/
  pendSize : Nat
  /-- R30. -/
  pendTick : Nat
  /-- R31. -/
  bht : Table
  /-- R31. -/
  pht : Table
  /-- R31. -/
  btb : Table
  /-- R32, `x[0..31]`. -/
  x : Vector Word 32
  /-- R33, `dep[0..31]`. -/
  dep : Vector Nat 32
  /-- R34. -/
  stats : Stats
  /-- R35. -/
  status : Status
deriving DecidableEq, Repr

/-- Every state element allocated with its reset value, for any configuration and program
(70_reset_and_hazards.md R330 (2), R331), before registers and memory are loaded. -/
def State.allocate (cfg : Config) (prog : List (Nat × BitVec 32)) : State where
  cfg := cfg
  prog := prog
  tick := 0
  pc := cfg.resetPc
  pcValid := true
  lFD := none
  lDX := none
  lXM := none
  lMW := none
  fuInst := none
  fuExit := 0
  blk := []
  missInst := none
  img := []
  acc := []
  pendValid := false
  pendAddr := 0#64
  pendSize := 0
  pendTick := 0
  bht := { entries := 2 ^ cfg.bhtBits, width := cfg.histBits }
  pht := { entries := 2 ^ (cfg.phtBits + cfg.histBits), width := cfg.phtEntryBits }
  btb := { entries := cfg.btbSize, width := 64 }
  x := Vector.replicate 32 0#64
  dep := Vector.replicate 32 0
  stats := {}
  status := .running

/-- The machine right after reset: R331's values with the reference configuration, no program,
REG_INIT all zero and MEM_INIT empty (95_test_vectors.md section 0; log entry 2). -/
def State.reset : State := State.allocate Config.reference []

end Sys2Proof.Machine
end

