-- ==== Sys2Proof/Machine/Flags.lean ====
section
/-! DEFINITION. The block has no condition codes or status flags (10_state.md R38): a comparison's
result lives in `rd_val` or in the record's `act_taken`. This file holds those comparisons and the
sign and zero extensions of 00_scope.md R9. -/

namespace Sys2Proof.Machine

/-- `signed(a) < signed(b)` (41_integer_ops.md R206, 43_control_ops.md R285). -/
def ltSigned (a b : Word) : Bool := decide (a.toInt < b.toInt)

/-- `unsigned(a) < unsigned(b)` (41_integer_ops.md R207, 43_control_ops.md R287). -/
def ltUnsigned (a b : Word) : Bool := decide (a.toNat < b.toNat)

/-- A comparison as the register value 1 or 0. -/
def boolWord (c : Bool) : Word := if c then 1#64 else 0#64

/-- `sext_32` (00_scope.md R9). -/
def sext32 (v : BitVec 32) : Word := v.signExtend 64

/-- The low word of a register value, `a[31:0]`. -/
def low32 (a : Word) : BitVec 32 := a.setWidth 32

/-- `sext_8n` of the low `n` bytes, for the widths 1, 2, 4 and 8 (20_memory.md R78). -/
def extendSigned (n : Nat) (raw : Word) : Word := (raw.setWidth (8 * n)).signExtend 64

/-- `zext_8n` of the low `n` bytes, for the widths 1, 2, 4 and 8 (20_memory.md R78). -/
def extendUnsigned (n : Nat) (raw : Word) : Word := (raw.setWidth (8 * n)).setWidth 64

end Sys2Proof.Machine
end

