-- ==== Sys2Proof/Machine/Integer.lean ====
section
/-! DEFINITION. What the execution collaborator computes for the ALU and MULDIV opcodes
(41_integer_ops.md R202 to R245): one function per opcode, of the operand values `a`, `b`, the 64-bit
immediate `imm` and the record's own `pc`. Multiplication and division convert to integers, compute
exactly and narrow at the end. The values are the spec's reference semantics (log entry 12). -/

namespace Sys2Proof.Machine

/-! ## Shift amounts (R202) -/

/-- `b[5:0]`, or `imm[5:0]`. -/
def shamt6 (b : Word) : Nat := (b.extractLsb' 0 6).toNat

/-- `b[4:0]`, or `imm[4:0]`. -/
def shamt5 (b : Word) : Nat := (b.extractLsb' 0 5).toNat

/-! ## Register-register, 64-bit -/

/-- R203. -/
def addResult (a b : Word) : Word := a + b

/-- R204. -/
def subResult (a b : Word) : Word := a - b

/-- R205. -/
def sllResult (a b : Word) : Word := a <<< shamt6 b

/-- R206. -/
def sltResult (a b : Word) : Word := boolWord (ltSigned a b)

/-- R207. -/
def sltuResult (a b : Word) : Word := boolWord (ltUnsigned a b)

/-- R208. -/
def xorResult (a b : Word) : Word := a ^^^ b

/-- R209. -/
def srlResult (a b : Word) : Word := a >>> shamt6 b

/-- R210. -/
def sraResult (a b : Word) : Word := a.sshiftRight (shamt6 b)

/-- R211. -/
def orResult (a b : Word) : Word := a ||| b

/-- R212. -/
def andResult (a b : Word) : Word := a &&& b

/-! ## Register-register, 32-bit -/

/-- R213. -/
def addwResult (a b : Word) : Word := sext32 (low32 a + low32 b)

/-- R214. -/
def subwResult (a b : Word) : Word := sext32 (low32 a - low32 b)

/-- R215. -/
def sllwResult (a b : Word) : Word := sext32 (low32 a <<< shamt5 b)

/-- R216. -/
def srlwResult (a b : Word) : Word := sext32 (low32 a >>> shamt5 b)

/-- R217. -/
def srawResult (a b : Word) : Word := sext32 ((low32 a).sshiftRight (shamt5 b))

/-! ## Register-immediate, 64-bit -/

/-- R218. -/
def addiResult (a imm : Word) : Word := a + imm

/-- R219. -/
def sltiResult (a imm : Word) : Word := boolWord (ltSigned a imm)

/-- R220. -/
def sltiuResult (a imm : Word) : Word := boolWord (ltUnsigned a imm)

/-- R221. -/
def xoriResult (a imm : Word) : Word := a ^^^ imm

/-- R222. -/
def oriResult (a imm : Word) : Word := a ||| imm

/-- R223. -/
def andiResult (a imm : Word) : Word := a &&& imm

/-- R224. -/
def slliResult (a imm : Word) : Word := a <<< shamt6 imm

/-- R225. -/
def srliResult (a imm : Word) : Word := a >>> shamt6 imm

/-- R226. -/
def sraiResult (a imm : Word) : Word := a.sshiftRight (shamt6 imm)

/-! ## Register-immediate, 32-bit -/

/-- R227. -/
def addiwResult (a imm : Word) : Word := sext32 (low32 a + low32 imm)

/-- R228. -/
def slliwResult (a imm : Word) : Word := sext32 (low32 a <<< shamt5 imm)

/-- R229. -/
def srliwResult (a imm : Word) : Word := sext32 (low32 a >>> shamt5 imm)

/-- R230. -/
def sraiwResult (a imm : Word) : Word := sext32 ((low32 a).sshiftRight (shamt5 imm))

/-! ## Upper-immediate -/

/-- R231. -/
def luiResult (imm : Word) : Word := imm

/-- R232: the record's own fetch address, not the current `pc`. -/
def auipcResult (pc imm : Word) : Word := pc + imm

/-! ## Multiply -/

/-- Bits 127..64 of an exact product, for any sign of it. -/
def upperHalf (product : Int) : Word := BitVec.ofInt 64 (product / 18446744073709551616)

/-- R233. -/
def mulResult (a b : Word) : Word := a * b

/-- R234. -/
def mulhResult (a b : Word) : Word := upperHalf (a.toInt * b.toInt)

/-- R235: rs1 signed, rs2 unsigned. -/
def mulhsuResult (a b : Word) : Word := upperHalf (a.toInt * (b.toNat : Int))

/-- R236. -/
def mulhuResult (a b : Word) : Word := upperHalf ((a.toNat : Int) * (b.toNat : Int))

/-! ## Divide and remainder, 64-bit. Division truncates toward zero (R202). -/

/-- The most negative 64-bit value. -/
def minWord : Word := 0x8000000000000000#64

/-- -1, all ones. -/
def allOnes : Word := 0xFFFFFFFFFFFFFFFF#64

/-- R237. -/
def divResult (a b : Word) : Word :=
  if b = 0#64 then allOnes
  else if a = minWord ∧ b = allOnes then minWord
  else BitVec.ofInt 64 (a.toInt.tdiv b.toInt)

/-- R238. -/
def divuResult (a b : Word) : Word :=
  if b = 0#64 then allOnes else BitVec.ofNat 64 (a.toNat / b.toNat)

/-- R239. -/
def remResult (a b : Word) : Word :=
  if b = 0#64 then a
  else if a = minWord ∧ b = allOnes then 0#64
  else BitVec.ofInt 64 (a.toInt - a.toInt.tdiv b.toInt * b.toInt)

/-- R240. -/
def remuResult (a b : Word) : Word :=
  if b = 0#64 then a else BitVec.ofNat 64 (a.toNat % b.toNat)

/-! ## Multiply, divide and remainder, 32-bit -/

/-- The most negative 32-bit value. -/
def minWord32 : BitVec 32 := 0x80000000#32

/-- -1 in 32 bits. -/
def allOnes32 : BitVec 32 := 0xFFFFFFFF#32

/-- R241. -/
def mulwResult (a b : Word) : Word := sext32 (low32 a * low32 b)

/-- R242. -/
def divwResult (a b : Word) : Word :=
  if low32 b = 0#32 then allOnes
  else if low32 a = minWord32 ∧ low32 b = allOnes32 then sext32 minWord32
  else sext32 (BitVec.ofInt 32 ((low32 a).toInt.tdiv (low32 b).toInt))

/-- R243. -/
def divuwResult (a b : Word) : Word :=
  if low32 b = 0#32 then allOnes
  else sext32 (BitVec.ofNat 32 ((low32 a).toNat / (low32 b).toNat))

/-- R244. -/
def remwResult (a b : Word) : Word :=
  if low32 b = 0#32 then sext32 (low32 a)
  else if low32 a = minWord32 ∧ low32 b = allOnes32 then 0#64
  else
    sext32 (BitVec.ofInt 32
      ((low32 a).toInt - (low32 a).toInt.tdiv (low32 b).toInt * (low32 b).toInt))

/-- R245. -/
def remuwResult (a b : Word) : Word :=
  if low32 b = 0#32 then sext32 (low32 a)
  else sext32 (BitVec.ofNat 32 ((low32 a).toNat % (low32 b).toNat))

/-! ## Branch conditions (43_control_ops.md) -/

/-- R283. -/
def beqTaken (a b : Word) : Bool := decide (a = b)

/-- R284. -/
def bneTaken (a b : Word) : Bool := decide (a ≠ b)

/-- R285. -/
def bltTaken (a b : Word) : Bool := ltSigned a b

/-- R286. -/
def bgeTaken (a b : Word) : Bool := !ltSigned a b

/-- R287. -/
def bltuTaken (a b : Word) : Bool := ltUnsigned a b

/-- R288. -/
def bgeuTaken (a b : Word) : Bool := !ltUnsigned a b

/-! ## Jumps and addresses -/

/-- The link value of jal (R290). -/
def jalLink (pc : Word) : Word := pc + 4#64

/-- The link value of jalr (R291). -/
def jalrLink (pc : Word) : Word := pc + 4#64

/-- The target of jal (40_pipeline_control.md R166, R290). -/
def jalTarget (pc imm : Word) : Word := pc + imm

/-- The target of jalr: bit 0 cleared, bit 1 kept (40_pipeline_control.md R166, R291). -/
def jalrTarget (a imm : Word) : Word := (a + imm) &&& ~~~1#64

/-- `mem_addr` of a load or store (42_memory_ops.md R261). -/
def effectiveAddress (a imm : Word) : Word := a + imm

end Sys2Proof.Machine
end

