-- ==== Sys2Proof/Machine/Sparse.lean ====
section
/-! DEFINITION. Sparse maps as data: lists of (key, value) pairs with strictly rising keys. The byte
memories, the cache's blocks and the accessed flags are sparse maps with a default value, and list no
pair that holds the default; the program is a partial map. -/

namespace Sys2Proof.Machine

namespace Sparse

variable {β : Type}

/-- The value listed under a key. -/
def find? : List (Nat × β) → Nat → Option β
  | [], _ => none
  | (k, v) :: rest, a => if k = a then some v else find? rest a

/-- The list without a key. -/
def erase : List (Nat × β) → Nat → List (Nat × β)
  | [], _ => []
  | (k, v) :: rest, a => if k = a then erase rest a else (k, v) :: erase rest a

/-- A pair put in its place among rising keys. -/
def place : List (Nat × β) → Nat → β → List (Nat × β)
  | [], a, v => [(a, v)]
  | (k, w) :: rest, a, v => if a < k then (a, v) :: (k, w) :: rest else (k, w) :: place rest a v

/-- The partial map with `a` mapped to `v`. -/
def insert (m : List (Nat × β)) (a : Nat) (v : β) : List (Nat × β) := place (erase m a) a v

/-- What a key reads as, where an unlisted key reads as `d`. -/
def get (d : β) (m : List (Nat × β)) (a : Nat) : β := (find? m a).getD d

/-- The map that reads as `v` at `a`; the default is never listed. -/
def put [DecidableEq β] (d : β) (m : List (Nat × β)) (a : Nat) (v : β) : List (Nat × β) :=
  if v = d then erase m a else insert m a v

/-- Keys rise strictly, each above every key before it. -/
def rising : List (Nat × β) → Bool
  | [] => true
  | (k, _) :: rest => rest.all (fun p => decide (k < p.1)) && rising rest

/-- The canonical form of a map with default `d`. -/
def wf [DecidableEq β] (d : β) (m : List (Nat × β)) : Bool :=
  rising m && m.all (fun p => decide (p.2 ≠ d))

end Sparse

/-! ## Byte memories -/

/-- One byte; an unlisted address reads as 0 (10_state.md R28). -/
def Memory.read (m : Memory) (a : Nat) : Byte := Sparse.get 0#8 m a

/-- One byte written; the canonical form is kept. -/
def Memory.write (m : Memory) (a : Nat) (v : Byte) : Memory := Sparse.put 0#8 m a v

/-- The canonical form: strictly rising addresses, no byte that an unlisted address reads as. -/
def Memory.wf (m : Memory) : Bool := Sparse.wf 0#8 m

/-- The n-byte little-endian value at `a` (20_memory.md R61), zero-extended to a word, for n up to 8. -/
def Memory.readLE (m : Memory) (a : Nat) : Nat → Word
  | 0 => 0#64
  | n + 1 => (m.read a).setWidth 64 ||| (Memory.readLE m (a + 1) n <<< 8)

/-- The low `n` bytes of `v` written at `a`, least significant byte first (20_memory.md R61). -/
def Memory.writeLE (m : Memory) (a : Nat) : Nat → Word → Memory
  | 0, _ => m
  | n + 1, v => Memory.writeLE (m.write a (v.setWidth 8)) (a + 1) n (v >>> 8)

/-- `n` bytes copied from `src` at `from_` to `dst` at `to_`, in address order. -/
def Memory.copy (src : Memory) (from_ : Nat) (dst : Memory) (to_ : Nat) : Nat → Memory
  | 0 => dst
  | n + 1 => Memory.copy src (from_ + 1) (dst.write to_ (src.read from_)) (to_ + 1) n

end Sys2Proof.Machine
end

