-- ==== Sys2Proof/Machine/Operands.lean ====
section
/-! DEFINITION. The fields and attributes of an instruction that the block reads: `rd`, `rs1`, `rs2`
and `imm` of the record (30_encoding.md R110, R117) and the attributes of R113, row by row as
opcode_table.json gives them. -/

namespace Sys2Proof

/-- The classes of R113. -/
inductive OpClass where
  | alu
  | muldiv
  | load
  | store
  | branch
  | jump
deriving DecidableEq, Repr

/-- The class of each opcode (30_encoding.md R115). -/
def Instr.cls : Instr → OpClass
  | .add _ _ _ | .sub _ _ _ | .sll _ _ _ | .slt _ _ _ | .sltu _ _ _ | .xor _ _ _ | .srl _ _ _
  | .sra _ _ _ | .or _ _ _ | .and _ _ _ | .addw _ _ _ | .subw _ _ _ | .sllw _ _ _ | .srlw _ _ _
  | .sraw _ _ _ | .addi _ _ _ | .slti _ _ _ | .sltiu _ _ _ | .xori _ _ _ | .ori _ _ _
  | .andi _ _ _ | .slli _ _ _ | .srli _ _ _ | .srai _ _ _ | .addiw _ _ _ | .slliw _ _ _
  | .srliw _ _ _ | .sraiw _ _ _ | .lui _ _ | .auipc _ _ => .alu
  | .mul _ _ _ | .mulh _ _ _ | .mulhsu _ _ _ | .mulhu _ _ _ | .div _ _ _ | .divu _ _ _
  | .rem _ _ _ | .remu _ _ _ | .mulw _ _ _ | .divw _ _ _ | .divuw _ _ _ | .remw _ _ _
  | .remuw _ _ _ => .muldiv
  | .lb _ _ _ | .lh _ _ _ | .lw _ _ _ | .ld _ _ _ | .lbu _ _ _ | .lhu _ _ _ | .lwu _ _ _ => .load
  | .sb _ _ _ | .sh _ _ _ | .sw _ _ _ | .sd _ _ _ => .store
  | .beq _ _ _ | .bne _ _ _ | .blt _ _ _ | .bge _ _ _ | .bltu _ _ _ | .bgeu _ _ _ => .branch
  | .jal _ _ | .jalr _ _ _ => .jump

/-- `opid`, the row index in opcode_table.json (30_encoding.md R112). -/
def Instr.opid : Instr → Nat
  | .add _ _ _ => 0
  | .sub _ _ _ => 1
  | .sll _ _ _ => 2
  | .slt _ _ _ => 3
  | .sltu _ _ _ => 4
  | .xor _ _ _ => 5
  | .srl _ _ _ => 6
  | .sra _ _ _ => 7
  | .or _ _ _ => 8
  | .and _ _ _ => 9
  | .addw _ _ _ => 10
  | .subw _ _ _ => 11
  | .sllw _ _ _ => 12
  | .srlw _ _ _ => 13
  | .sraw _ _ _ => 14
  | .addi _ _ _ => 15
  | .slti _ _ _ => 16
  | .sltiu _ _ _ => 17
  | .xori _ _ _ => 18
  | .ori _ _ _ => 19
  | .andi _ _ _ => 20
  | .slli _ _ _ => 21
  | .srli _ _ _ => 22
  | .srai _ _ _ => 23
  | .addiw _ _ _ => 24
  | .slliw _ _ _ => 25
  | .srliw _ _ _ => 26
  | .sraiw _ _ _ => 27
  | .lui _ _ => 28
  | .auipc _ _ => 29
  | .mul _ _ _ => 30
  | .mulh _ _ _ => 31
  | .mulhsu _ _ _ => 32
  | .mulhu _ _ _ => 33
  | .div _ _ _ => 34
  | .divu _ _ _ => 35
  | .rem _ _ _ => 36
  | .remu _ _ _ => 37
  | .mulw _ _ _ => 38
  | .divw _ _ _ => 39
  | .divuw _ _ _ => 40
  | .remw _ _ _ => 41
  | .remuw _ _ _ => 42
  | .lb _ _ _ => 43
  | .lh _ _ _ => 44
  | .lw _ _ _ => 45
  | .ld _ _ _ => 46
  | .lbu _ _ _ => 47
  | .lhu _ _ _ => 48
  | .lwu _ _ _ => 49
  | .sb _ _ _ => 50
  | .sh _ _ _ => 51
  | .sw _ _ _ => 52
  | .sd _ _ _ => 53
  | .beq _ _ _ => 54
  | .bne _ _ _ => 55
  | .blt _ _ _ => 56
  | .bge _ _ _ => 57
  | .bltu _ _ _ => 58
  | .bgeu _ _ _ => 59
  | .jal _ _ => 60
  | .jalr _ _ _ => 61

/-- `lat(op)`, the functional-unit latency in ticks (30_encoding.md R118). -/
def Instr.lat (i : Instr) : Nat :=
  match i.cls with
  | .muldiv => 2
  | .alu | .load | .store | .branch | .jump => 1

/-- `rd`; 0 for a format without one (S and B), where no rule reads it (R113, log entry 7). -/
def Instr.rd : Instr → Reg
  | .add rd _ _ | .sub rd _ _ | .sll rd _ _ | .slt rd _ _ | .sltu rd _ _ | .xor rd _ _
  | .srl rd _ _ | .sra rd _ _ | .or rd _ _ | .and rd _ _ | .addw rd _ _ | .subw rd _ _
  | .sllw rd _ _ | .srlw rd _ _ | .sraw rd _ _ | .addi rd _ _ | .slti rd _ _ | .sltiu rd _ _
  | .xori rd _ _ | .ori rd _ _ | .andi rd _ _ | .slli rd _ _ | .srli rd _ _ | .srai rd _ _
  | .addiw rd _ _ | .slliw rd _ _ | .srliw rd _ _ | .sraiw rd _ _ | .lui rd _ | .auipc rd _
  | .mul rd _ _ | .mulh rd _ _ | .mulhsu rd _ _ | .mulhu rd _ _ | .div rd _ _ | .divu rd _ _
  | .rem rd _ _ | .remu rd _ _ | .mulw rd _ _ | .divw rd _ _ | .divuw rd _ _ | .remw rd _ _
  | .remuw rd _ _ | .lb rd _ _ | .lh rd _ _ | .lw rd _ _ | .ld rd _ _ | .lbu rd _ _
  | .lhu rd _ _ | .lwu rd _ _ | .jal rd _ | .jalr rd _ _ => rd
  | .sb _ _ _ | .sh _ _ _ | .sw _ _ _ | .sd _ _ _ | .beq _ _ _ | .bne _ _ _ | .blt _ _ _
  | .bge _ _ _ | .bltu _ _ _ | .bgeu _ _ _ => 0#5

/-- `rs1`; 0 for a format without one (U and J), where no rule reads it (R113, log entry 7). -/
def Instr.rs1 : Instr → Reg
  | .add _ rs1 _ | .sub _ rs1 _ | .sll _ rs1 _ | .slt _ rs1 _ | .sltu _ rs1 _ | .xor _ rs1 _
  | .srl _ rs1 _ | .sra _ rs1 _ | .or _ rs1 _ | .and _ rs1 _ | .addw _ rs1 _ | .subw _ rs1 _
  | .sllw _ rs1 _ | .srlw _ rs1 _ | .sraw _ rs1 _ | .addi _ rs1 _ | .slti _ rs1 _
  | .sltiu _ rs1 _ | .xori _ rs1 _ | .ori _ rs1 _ | .andi _ rs1 _ | .slli _ rs1 _
  | .srli _ rs1 _ | .srai _ rs1 _ | .addiw _ rs1 _ | .slliw _ rs1 _ | .srliw _ rs1 _
  | .sraiw _ rs1 _ | .mul _ rs1 _ | .mulh _ rs1 _ | .mulhsu _ rs1 _ | .mulhu _ rs1 _
  | .div _ rs1 _ | .divu _ rs1 _ | .rem _ rs1 _ | .remu _ rs1 _ | .mulw _ rs1 _ | .divw _ rs1 _
  | .divuw _ rs1 _ | .remw _ rs1 _ | .remuw _ rs1 _ | .lb _ rs1 _ | .lh _ rs1 _ | .lw _ rs1 _
  | .ld _ rs1 _ | .lbu _ rs1 _ | .lhu _ rs1 _ | .lwu _ rs1 _ | .sb _ rs1 _ | .sh _ rs1 _
  | .sw _ rs1 _ | .sd _ rs1 _ | .beq rs1 _ _ | .bne rs1 _ _ | .blt rs1 _ _ | .bge rs1 _ _
  | .bltu rs1 _ _ | .bgeu rs1 _ _ | .jalr _ rs1 _ => rs1
  | .lui _ _ | .auipc _ _ | .jal _ _ => 0#5

/-- `rs2`; 0 for a format without one, where no rule reads it (R113, log entry 7). -/
def Instr.rs2 : Instr → Reg
  | .add _ _ rs2 | .sub _ _ rs2 | .sll _ _ rs2 | .slt _ _ rs2 | .sltu _ _ rs2 | .xor _ _ rs2
  | .srl _ _ rs2 | .sra _ _ rs2 | .or _ _ rs2 | .and _ _ rs2 | .addw _ _ rs2 | .subw _ _ rs2
  | .sllw _ _ rs2 | .srlw _ _ rs2 | .sraw _ _ rs2 | .mul _ _ rs2 | .mulh _ _ rs2
  | .mulhsu _ _ rs2 | .mulhu _ _ rs2 | .div _ _ rs2 | .divu _ _ rs2 | .rem _ _ rs2
  | .remu _ _ rs2 | .mulw _ _ rs2 | .divw _ _ rs2 | .divuw _ _ rs2 | .remw _ _ rs2
  | .remuw _ _ rs2 | .sb rs2 _ _ | .sh rs2 _ _ | .sw rs2 _ _ | .sd rs2 _ _ | .beq _ rs2 _
  | .bne _ rs2 _ | .blt _ rs2 _ | .bge _ rs2 _ | .bltu _ rs2 _ | .bgeu _ rs2 _ => rs2
  | .addi _ _ _ | .slti _ _ _ | .sltiu _ _ _ | .xori _ _ _ | .ori _ _ _ | .andi _ _ _
  | .slli _ _ _ | .srli _ _ _ | .srai _ _ _ | .addiw _ _ _ | .slliw _ _ _ | .srliw _ _ _
  | .sraiw _ _ _ | .lui _ _ | .auipc _ _ | .lb _ _ _ | .lh _ _ _ | .lw _ _ _ | .ld _ _ _
  | .lbu _ _ _ | .lhu _ _ _ | .lwu _ _ _ | .jal _ _ | .jalr _ _ _ => 0#5

/-- `imm`, the decoder's 64-bit immediate (30_encoding.md R117): `sext_12` for I and S, `sext_13` for B,
`sext_32` of the field over twelve zeros for U, `sext_21` for J, zero-extended for shift amounts, 0 for
the R format. -/
def Instr.imm : Instr → Word
  | .addi _ _ imm | .slti _ _ imm | .sltiu _ _ imm | .xori _ _ imm | .ori _ _ imm
  | .andi _ _ imm | .addiw _ _ imm | .lb _ _ imm | .lh _ _ imm | .lw _ _ imm | .ld _ _ imm
  | .lbu _ _ imm | .lhu _ _ imm | .lwu _ _ imm | .sb _ _ imm | .sh _ _ imm | .sw _ _ imm
  | .sd _ _ imm | .jalr _ _ imm => imm.signExtend 64
  | .beq _ _ offset | .bne _ _ offset | .blt _ _ offset | .bge _ _ offset | .bltu _ _ offset
  | .bgeu _ _ offset => offset.signExtend 64
  | .jal _ offset => offset.signExtend 64
  | .lui _ imm20 | .auipc _ imm20 => (imm20 ++ 0#12).signExtend 64
  | .slli _ _ shamt | .srli _ _ shamt | .srai _ _ shamt => shamt.setWidth 64
  | .slliw _ _ shamt | .srliw _ _ shamt | .sraiw _ _ shamt => shamt.setWidth 64
  | .add _ _ _ | .sub _ _ _ | .sll _ _ _ | .slt _ _ _ | .sltu _ _ _ | .xor _ _ _ | .srl _ _ _
  | .sra _ _ _ | .or _ _ _ | .and _ _ _ | .addw _ _ _ | .subw _ _ _ | .sllw _ _ _ | .srlw _ _ _
  | .sraw _ _ _ | .mul _ _ _ | .mulh _ _ _ | .mulhsu _ _ _ | .mulhu _ _ _ | .div _ _ _
  | .divu _ _ _ | .rem _ _ _ | .remu _ _ _ | .mulw _ _ _ | .divw _ _ _ | .divuw _ _ _
  | .remw _ _ _ | .remuw _ _ _ => 0#64

/-- The instruction of an `op`, given by its `opid`, and an `imm`, with every register number 0. From 61
up it is a jalr; no `opid` is above 61. -/
def Instr.ofOperation : Nat → Word → Instr
  | 0, _ => .add 0 0 0
  | 1, _ => .sub 0 0 0
  | 2, _ => .sll 0 0 0
  | 3, _ => .slt 0 0 0
  | 4, _ => .sltu 0 0 0
  | 5, _ => .xor 0 0 0
  | 6, _ => .srl 0 0 0
  | 7, _ => .sra 0 0 0
  | 8, _ => .or 0 0 0
  | 9, _ => .and 0 0 0
  | 10, _ => .addw 0 0 0
  | 11, _ => .subw 0 0 0
  | 12, _ => .sllw 0 0 0
  | 13, _ => .srlw 0 0 0
  | 14, _ => .sraw 0 0 0
  | 15, imm => .addi 0 0 (imm.setWidth 12)
  | 16, imm => .slti 0 0 (imm.setWidth 12)
  | 17, imm => .sltiu 0 0 (imm.setWidth 12)
  | 18, imm => .xori 0 0 (imm.setWidth 12)
  | 19, imm => .ori 0 0 (imm.setWidth 12)
  | 20, imm => .andi 0 0 (imm.setWidth 12)
  | 21, imm => .slli 0 0 (imm.setWidth 6)
  | 22, imm => .srli 0 0 (imm.setWidth 6)
  | 23, imm => .srai 0 0 (imm.setWidth 6)
  | 24, imm => .addiw 0 0 (imm.setWidth 12)
  | 25, imm => .slliw 0 0 (imm.setWidth 5)
  | 26, imm => .srliw 0 0 (imm.setWidth 5)
  | 27, imm => .sraiw 0 0 (imm.setWidth 5)
  | 28, imm => .lui 0 (imm.extractLsb' 12 20)
  | 29, imm => .auipc 0 (imm.extractLsb' 12 20)
  | 30, _ => .mul 0 0 0
  | 31, _ => .mulh 0 0 0
  | 32, _ => .mulhsu 0 0 0
  | 33, _ => .mulhu 0 0 0
  | 34, _ => .div 0 0 0
  | 35, _ => .divu 0 0 0
  | 36, _ => .rem 0 0 0
  | 37, _ => .remu 0 0 0
  | 38, _ => .mulw 0 0 0
  | 39, _ => .divw 0 0 0
  | 40, _ => .divuw 0 0 0
  | 41, _ => .remw 0 0 0
  | 42, _ => .remuw 0 0 0
  | 43, imm => .lb 0 0 (imm.setWidth 12)
  | 44, imm => .lh 0 0 (imm.setWidth 12)
  | 45, imm => .lw 0 0 (imm.setWidth 12)
  | 46, imm => .ld 0 0 (imm.setWidth 12)
  | 47, imm => .lbu 0 0 (imm.setWidth 12)
  | 48, imm => .lhu 0 0 (imm.setWidth 12)
  | 49, imm => .lwu 0 0 (imm.setWidth 12)
  | 50, imm => .sb 0 0 (imm.setWidth 12)
  | 51, imm => .sh 0 0 (imm.setWidth 12)
  | 52, imm => .sw 0 0 (imm.setWidth 12)
  | 53, imm => .sd 0 0 (imm.setWidth 12)
  | 54, imm => .beq 0 0 (imm.setWidth 13)
  | 55, imm => .bne 0 0 (imm.setWidth 13)
  | 56, imm => .blt 0 0 (imm.setWidth 13)
  | 57, imm => .bge 0 0 (imm.setWidth 13)
  | 58, imm => .bltu 0 0 (imm.setWidth 13)
  | 59, imm => .bgeu 0 0 (imm.setWidth 13)
  | 60, imm => .jal 0 (imm.setWidth 21)
  | _, imm => .jalr 0 0 (imm.setWidth 12)

/-- `reads_rs1` (R113, D41): every format but U and J. -/
def Instr.readsRs1 : Instr → Bool
  | .add _ _ _ | .sub _ _ _ | .sll _ _ _ | .slt _ _ _ | .sltu _ _ _ | .xor _ _ _ | .srl _ _ _
  | .sra _ _ _ | .or _ _ _ | .and _ _ _ | .addw _ _ _ | .subw _ _ _ | .sllw _ _ _ | .srlw _ _ _
  | .sraw _ _ _ | .addi _ _ _ | .slti _ _ _ | .sltiu _ _ _ | .xori _ _ _ | .ori _ _ _
  | .andi _ _ _ | .slli _ _ _ | .srli _ _ _ | .srai _ _ _ | .addiw _ _ _ | .slliw _ _ _
  | .srliw _ _ _ | .sraiw _ _ _ | .mul _ _ _ | .mulh _ _ _ | .mulhsu _ _ _ | .mulhu _ _ _
  | .div _ _ _ | .divu _ _ _ | .rem _ _ _ | .remu _ _ _ | .mulw _ _ _ | .divw _ _ _
  | .divuw _ _ _ | .remw _ _ _ | .remuw _ _ _ | .lb _ _ _ | .lh _ _ _ | .lw _ _ _ | .ld _ _ _
  | .lbu _ _ _ | .lhu _ _ _ | .lwu _ _ _ | .sb _ _ _ | .sh _ _ _ | .sw _ _ _ | .sd _ _ _
  | .beq _ _ _ | .bne _ _ _ | .blt _ _ _ | .bge _ _ _ | .bltu _ _ _ | .bgeu _ _ _ | .jalr _ _ _ => true
  | .lui _ _ | .auipc _ _ | .jal _ _ => false

/-- `reads_rs2` (R113, D41): the R, S and B formats. -/
def Instr.readsRs2 : Instr → Bool
  | .add _ _ _ | .sub _ _ _ | .sll _ _ _ | .slt _ _ _ | .sltu _ _ _ | .xor _ _ _ | .srl _ _ _
  | .sra _ _ _ | .or _ _ _ | .and _ _ _ | .addw _ _ _ | .subw _ _ _ | .sllw _ _ _ | .srlw _ _ _
  | .sraw _ _ _ | .mul _ _ _ | .mulh _ _ _ | .mulhsu _ _ _ | .mulhu _ _ _ | .div _ _ _
  | .divu _ _ _ | .rem _ _ _ | .remu _ _ _ | .mulw _ _ _ | .divw _ _ _ | .divuw _ _ _
  | .remw _ _ _ | .remuw _ _ _ | .sb _ _ _ | .sh _ _ _ | .sw _ _ _ | .sd _ _ _ | .beq _ _ _
  | .bne _ _ _ | .blt _ _ _ | .bge _ _ _ | .bltu _ _ _ | .bgeu _ _ _ => true
  | .addi _ _ _ | .slti _ _ _ | .sltiu _ _ _ | .xori _ _ _ | .ori _ _ _ | .andi _ _ _
  | .slli _ _ _ | .srli _ _ _ | .srai _ _ _ | .addiw _ _ _ | .slliw _ _ _ | .srliw _ _ _
  | .sraiw _ _ _ | .lui _ _ | .auipc _ _ | .lb _ _ _ | .lh _ _ _ | .lw _ _ _ | .ld _ _ _
  | .lbu _ _ _ | .lhu _ _ _ | .lwu _ _ _ | .jal _ _ | .jalr _ _ _ => false

/-- `writes_rd` (R113, D41): every class but STORE and BRANCH. -/
def Instr.writesRd : Instr → Bool
  | .add _ _ _ | .sub _ _ _ | .sll _ _ _ | .slt _ _ _ | .sltu _ _ _ | .xor _ _ _ | .srl _ _ _
  | .sra _ _ _ | .or _ _ _ | .and _ _ _ | .addw _ _ _ | .subw _ _ _ | .sllw _ _ _ | .srlw _ _ _
  | .sraw _ _ _ | .addi _ _ _ | .slti _ _ _ | .sltiu _ _ _ | .xori _ _ _ | .ori _ _ _
  | .andi _ _ _ | .slli _ _ _ | .srli _ _ _ | .srai _ _ _ | .addiw _ _ _ | .slliw _ _ _
  | .srliw _ _ _ | .sraiw _ _ _ | .lui _ _ | .auipc _ _ | .mul _ _ _ | .mulh _ _ _
  | .mulhsu _ _ _ | .mulhu _ _ _ | .div _ _ _ | .divu _ _ _ | .rem _ _ _ | .remu _ _ _
  | .mulw _ _ _ | .divw _ _ _ | .divuw _ _ _ | .remw _ _ _ | .remuw _ _ _ | .lb _ _ _
  | .lh _ _ _ | .lw _ _ _ | .ld _ _ _ | .lbu _ _ _ | .lhu _ _ _ | .lwu _ _ _ | .jal _ _
  | .jalr _ _ _ => true
  | .sb _ _ _ | .sh _ _ _ | .sw _ _ _ | .sd _ _ _ | .beq _ _ _ | .bne _ _ _ | .blt _ _ _
  | .bge _ _ _ | .bltu _ _ _ | .bgeu _ _ _ => false

/-- `n(op)`, the access width in bytes of a load or store (20_memory.md R72); 0 for the other classes,
which access nothing. -/
def Instr.accessBytes : Instr → Nat
  | .lb _ _ _ | .lbu _ _ _ | .sb _ _ _ => 1
  | .lh _ _ _ | .lhu _ _ _ | .sh _ _ _ => 2
  | .lw _ _ _ | .lwu _ _ _ | .sw _ _ _ => 4
  | .ld _ _ _ | .sd _ _ _ => 8
  | .add _ _ _ | .sub _ _ _ | .sll _ _ _ | .slt _ _ _ | .sltu _ _ _ | .xor _ _ _ | .srl _ _ _
  | .sra _ _ _ | .or _ _ _ | .and _ _ _ | .addw _ _ _ | .subw _ _ _ | .sllw _ _ _ | .srlw _ _ _
  | .sraw _ _ _ | .addi _ _ _ | .slti _ _ _ | .sltiu _ _ _ | .xori _ _ _ | .ori _ _ _
  | .andi _ _ _ | .slli _ _ _ | .srli _ _ _ | .srai _ _ _ | .addiw _ _ _ | .slliw _ _ _
  | .srliw _ _ _ | .sraiw _ _ _ | .lui _ _ | .auipc _ _ | .mul _ _ _ | .mulh _ _ _
  | .mulhsu _ _ _ | .mulhu _ _ _ | .div _ _ _ | .divu _ _ _ | .rem _ _ _ | .remu _ _ _
  | .mulw _ _ _ | .divw _ _ _ | .divuw _ _ _ | .remw _ _ _ | .remuw _ _ _ | .beq _ _ _
  | .bne _ _ _ | .blt _ _ _ | .bge _ _ _ | .bltu _ _ _ | .bgeu _ _ _ | .jal _ _ | .jalr _ _ _ => 0

/-- The table's `signed` attribute: a narrow load that sign-extends (20_memory.md R78); `false` for the
classes that have no such attribute. -/
def Instr.signedLoad : Instr → Bool
  | .lb _ _ _ | .lh _ _ _ | .lw _ _ _ => true
  | .add _ _ _ | .sub _ _ _ | .sll _ _ _ | .slt _ _ _ | .sltu _ _ _ | .xor _ _ _ | .srl _ _ _
  | .sra _ _ _ | .or _ _ _ | .and _ _ _ | .addw _ _ _ | .subw _ _ _ | .sllw _ _ _ | .srlw _ _ _
  | .sraw _ _ _ | .addi _ _ _ | .slti _ _ _ | .sltiu _ _ _ | .xori _ _ _ | .ori _ _ _
  | .andi _ _ _ | .slli _ _ _ | .srli _ _ _ | .srai _ _ _ | .addiw _ _ _ | .slliw _ _ _
  | .srliw _ _ _ | .sraiw _ _ _ | .lui _ _ | .auipc _ _ | .mul _ _ _ | .mulh _ _ _
  | .mulhsu _ _ _ | .mulhu _ _ _ | .div _ _ _ | .divu _ _ _ | .rem _ _ _ | .remu _ _ _
  | .mulw _ _ _ | .divw _ _ _ | .divuw _ _ _ | .remw _ _ _ | .remuw _ _ _ | .ld _ _ _
  | .lbu _ _ _ | .lhu _ _ _ | .lwu _ _ _ | .sb _ _ _ | .sh _ _ _ | .sw _ _ _ | .sd _ _ _
  | .beq _ _ _ | .bne _ _ _ | .blt _ _ _ | .bge _ _ _ | .bltu _ _ _ | .bgeu _ _ _ | .jal _ _
  | .jalr _ _ _ => false

namespace Machine

/-- Whether a record is a conditional branch, the only class fetch and writeback act on (R114). -/
def Rec.isBranch (r : Rec) : Bool := decide (r.instr.cls = .branch)

/-- A fresh record of an instruction fetched at `pc` (30_encoding.md R111, 40_pipeline_control.md R170). -/
def Rec.fresh (i : Instr) (pc : Word) : Rec where
  instr := i
  pc := pc

/-- The value a load of instruction `i` makes of the `n(op)` bytes it read (20_memory.md R78). -/
def loadValue (i : Instr) (raw : Word) : Word :=
  if i.signedLoad then extendSigned i.accessBytes raw else extendUnsigned i.accessBytes raw

end Machine

end Sys2Proof
end

