-- ==== Sys2Proof/Machine/Collaborator.lean ====
section
/-! DEFINITION. The execution collaborator `Exec` (40_pipeline_control.md R149): what it writes in a
record, per opcode, from `op`, `rs1_val`, `rs2_val`, `imm` and `pc` alone; and the jump target decode
computes (R166). -/

namespace Sys2Proof.Machine

/-- The result `rd_val` written for the classes ALU, MULDIV and JUMP. -/
def Rec.withResult (r : Rec) (v : Word) : Rec := { r with rdVal := v }

/-- The data address `mem_addr` written for LOAD and STORE (R149, 42_memory_ops.md R261). -/
def Rec.withAddress (r : Rec) : Rec :=
  { r with memAddr := effectiveAddress r.rs1Val r.instr.imm }

/-- `act_taken` and `act_target` written for BRANCH (R149, 43_control_ops.md R280). -/
def Rec.withOutcome (r : Rec) (taken : Bool) : Rec :=
  { r with
    actTaken := taken
    actTarget := if taken then r.pc + r.instr.imm else r.pc + 4#64 }

/-- `Exec(i)`. -/
def Rec.execute (r : Rec) : Rec :=
  match r.instr with
  | .add _ _ _ => r.withResult (addResult r.rs1Val r.rs2Val)
  | .sub _ _ _ => r.withResult (subResult r.rs1Val r.rs2Val)
  | .sll _ _ _ => r.withResult (sllResult r.rs1Val r.rs2Val)
  | .slt _ _ _ => r.withResult (sltResult r.rs1Val r.rs2Val)
  | .sltu _ _ _ => r.withResult (sltuResult r.rs1Val r.rs2Val)
  | .xor _ _ _ => r.withResult (xorResult r.rs1Val r.rs2Val)
  | .srl _ _ _ => r.withResult (srlResult r.rs1Val r.rs2Val)
  | .sra _ _ _ => r.withResult (sraResult r.rs1Val r.rs2Val)
  | .or _ _ _ => r.withResult (orResult r.rs1Val r.rs2Val)
  | .and _ _ _ => r.withResult (andResult r.rs1Val r.rs2Val)
  | .addw _ _ _ => r.withResult (addwResult r.rs1Val r.rs2Val)
  | .subw _ _ _ => r.withResult (subwResult r.rs1Val r.rs2Val)
  | .sllw _ _ _ => r.withResult (sllwResult r.rs1Val r.rs2Val)
  | .srlw _ _ _ => r.withResult (srlwResult r.rs1Val r.rs2Val)
  | .sraw _ _ _ => r.withResult (srawResult r.rs1Val r.rs2Val)
  | .addi _ _ _ => r.withResult (addiResult r.rs1Val r.instr.imm)
  | .slti _ _ _ => r.withResult (sltiResult r.rs1Val r.instr.imm)
  | .sltiu _ _ _ => r.withResult (sltiuResult r.rs1Val r.instr.imm)
  | .xori _ _ _ => r.withResult (xoriResult r.rs1Val r.instr.imm)
  | .ori _ _ _ => r.withResult (oriResult r.rs1Val r.instr.imm)
  | .andi _ _ _ => r.withResult (andiResult r.rs1Val r.instr.imm)
  | .slli _ _ _ => r.withResult (slliResult r.rs1Val r.instr.imm)
  | .srli _ _ _ => r.withResult (srliResult r.rs1Val r.instr.imm)
  | .srai _ _ _ => r.withResult (sraiResult r.rs1Val r.instr.imm)
  | .addiw _ _ _ => r.withResult (addiwResult r.rs1Val r.instr.imm)
  | .slliw _ _ _ => r.withResult (slliwResult r.rs1Val r.instr.imm)
  | .srliw _ _ _ => r.withResult (srliwResult r.rs1Val r.instr.imm)
  | .sraiw _ _ _ => r.withResult (sraiwResult r.rs1Val r.instr.imm)
  | .lui _ _ => r.withResult (luiResult r.instr.imm)
  | .auipc _ _ => r.withResult (auipcResult r.pc r.instr.imm)
  | .mul _ _ _ => r.withResult (mulResult r.rs1Val r.rs2Val)
  | .mulh _ _ _ => r.withResult (mulhResult r.rs1Val r.rs2Val)
  | .mulhsu _ _ _ => r.withResult (mulhsuResult r.rs1Val r.rs2Val)
  | .mulhu _ _ _ => r.withResult (mulhuResult r.rs1Val r.rs2Val)
  | .div _ _ _ => r.withResult (divResult r.rs1Val r.rs2Val)
  | .divu _ _ _ => r.withResult (divuResult r.rs1Val r.rs2Val)
  | .rem _ _ _ => r.withResult (remResult r.rs1Val r.rs2Val)
  | .remu _ _ _ => r.withResult (remuResult r.rs1Val r.rs2Val)
  | .mulw _ _ _ => r.withResult (mulwResult r.rs1Val r.rs2Val)
  | .divw _ _ _ => r.withResult (divwResult r.rs1Val r.rs2Val)
  | .divuw _ _ _ => r.withResult (divuwResult r.rs1Val r.rs2Val)
  | .remw _ _ _ => r.withResult (remwResult r.rs1Val r.rs2Val)
  | .remuw _ _ _ => r.withResult (remuwResult r.rs1Val r.rs2Val)
  | .lb _ _ _ => r.withAddress
  | .lh _ _ _ => r.withAddress
  | .lw _ _ _ => r.withAddress
  | .ld _ _ _ => r.withAddress
  | .lbu _ _ _ => r.withAddress
  | .lhu _ _ _ => r.withAddress
  | .lwu _ _ _ => r.withAddress
  | .sb _ _ _ => r.withAddress
  | .sh _ _ _ => r.withAddress
  | .sw _ _ _ => r.withAddress
  | .sd _ _ _ => r.withAddress
  | .beq _ _ _ => r.withOutcome (beqTaken r.rs1Val r.rs2Val)
  | .bne _ _ _ => r.withOutcome (bneTaken r.rs1Val r.rs2Val)
  | .blt _ _ _ => r.withOutcome (bltTaken r.rs1Val r.rs2Val)
  | .bge _ _ _ => r.withOutcome (bgeTaken r.rs1Val r.rs2Val)
  | .bltu _ _ _ => r.withOutcome (bltuTaken r.rs1Val r.rs2Val)
  | .bgeu _ _ _ => r.withOutcome (bgeuTaken r.rs1Val r.rs2Val)
  | .jal _ _ => r.withResult (jalLink r.pc)
  | .jalr _ _ _ => r.withResult (jalrLink r.pc)

/-- `jump_target(i)` (R166), from the operand decode has just read. Only decode of a JUMP asks for it;
the other classes have none, and the fall-through address stands there. -/
def Rec.jumpTarget (r : Rec) : Word :=
  match r.instr with
  | .jal _ _ => jalTarget r.pc r.instr.imm
  | .jalr _ _ _ => jalrTarget r.rs1Val r.instr.imm
  | .add _ _ _ | .sub _ _ _ | .sll _ _ _ | .slt _ _ _ | .sltu _ _ _ | .xor _ _ _ | .srl _ _ _
  | .sra _ _ _ | .or _ _ _ | .and _ _ _ | .addw _ _ _ | .subw _ _ _ | .sllw _ _ _ | .srlw _ _ _
  | .sraw _ _ _ | .addi _ _ _ | .slti _ _ _ | .sltiu _ _ _ | .xori _ _ _ | .ori _ _ _
  | .andi _ _ _ | .slli _ _ _ | .srli _ _ _ | .srai _ _ _ | .addiw _ _ _ | .slliw _ _ _
  | .srliw _ _ _ | .sraiw _ _ _ | .lui _ _ | .auipc _ _ | .mul _ _ _ | .mulh _ _ _
  | .mulhsu _ _ _ | .mulhu _ _ _ | .div _ _ _ | .divu _ _ _ | .rem _ _ _ | .remu _ _ _
  | .mulw _ _ _ | .divw _ _ _ | .divuw _ _ _ | .remw _ _ _ | .remuw _ _ _ | .lb _ _ _ | .lh _ _ _
  | .lw _ _ _ | .ld _ _ _ | .lbu _ _ _ | .lhu _ _ _ | .lwu _ _ _ | .sb _ _ _ | .sh _ _ _
  | .sw _ _ _ | .sd _ _ _ | .beq _ _ _ | .bne _ _ _ | .blt _ _ _ | .bge _ _ _ | .bltu _ _ _
  | .bgeu _ _ _ =>
    r.pc + 4#64

end Sys2Proof.Machine
end

