-- ==== Sys2Proof/Machine/Ops.lean ====
section
/-! DEFINITION. The named operations over the state: registers and their dependency counts, latches,
raising a Fatal, the data memory and the cache (10_state.md, 20_memory.md, 40_pipeline_control.md
sections 1 and 7, 60_exceptions.md R301). -/

namespace Sys2Proof.Machine

/-- What an operation answers. -/
abbrev Answer := Host.Outcome State Fault Refusal

/-! ## Sequencing (00_scope.md R10, 60_exceptions.md R301) -/

/-- The next statement of a tick: it runs only when the ones before it neither stopped the model nor
raised a Fatal. -/
def andThen (r : Answer) (f : State → Answer) : Answer :=
  match r with
  | .next s => if s.status = .running then f s else .next s
  | .fault e => .fault e
  | .refused e => .refused e

/-- `raise Fatal(code)` (60_exceptions.md R301): the status is written and everything else keeps its
value. It is the block's only exception: nothing is saved, and control goes nowhere (R307); there is no
return from it (R308). -/
def raiseFatal (code : FatalCode) (s : State) : State := { s with status := .fatal code }

/-! ## Registers (10_state.md R32, R33) -/

/-- A register number as an index of the register file. -/
def regIndex (r : Reg) : Fin 32 := ⟨r.toNat, r.isLt⟩

/-- `x[r]`; register 0 is the hard-wired zero (R32, R36). -/
def readReg (s : State) (r : Reg) : Word := if r = 0#5 then 0#64 else s.x.get (regIndex r)

/-- `x[r] <- v`; a write to register 0 is suppressed (R32). -/
def writeReg (r : Reg) (v : Word) (s : State) : State :=
  if r = 0#5 then s else { s with x := s.x.set r.toNat v r.isLt }

/-- `dep[r]`. -/
def depOf (s : State) (r : Reg) : Nat := s.dep.get (regIndex r)

/-- `dep[r] <- n`. -/
def setDep (r : Reg) (n : Nat) (s : State) : State := { s with dep := s.dep.set r.toNat n r.isLt }

/-- A register `rd` marked pending, when the instruction writes one (40_pipeline_control.md R162). -/
def markPending (i : Instr) (s : State) : State :=
  if i.writesRd = true ∧ i.rd ≠ 0#5 then setDep i.rd (depOf s i.rd + 1) s else s

/-- The register write and the release at retirement (40_pipeline_control.md R152, R163). -/
def retireRegister (r : Rec) (s : State) : State :=
  if r.instr.writesRd = true ∧ r.instr.rd ≠ 0#5 then
    setDep r.instr.rd (depOf s r.instr.rd - 1) (writeReg r.instr.rd r.rdVal s)
  else s

/-- `has_dependency(i)` (40_pipeline_control.md R161). -/
def hasDependency (s : State) (i : Instr) : Bool :=
  (i.readsRs1 && decide (i.rs1 ≠ 0#5) && decide (0 < depOf s i.rs1)) ||
  (i.readsRs2 && decide (i.rs2 ≠ 0#5) && decide (0 < depOf s i.rs2))

/-- The operand read at admission (40_pipeline_control.md R162). -/
def readOperands (s : State) (r : Rec) : Rec :=
  { r with
    rs1Val := if r.instr.readsRs1 then readReg s r.instr.rs1 else 0#64
    rs2Val := if r.instr.readsRs2 then readReg s r.instr.rs2 else 0#64 }

/-! ## Latches (40_pipeline_control.md R140 to R143) -/

/-- The four latches, named by the stages they join (R12). -/
inductive Latch where
  | fd
  | dx
  | xm
  | mw
deriving DecidableEq, Repr

/-- `L.read()` (R140). -/
def Latch.read (l : Latch) (s : State) : Option Rec :=
  match l with
  | .fd => s.lFD
  | .dx => s.lDX
  | .xm => s.lXM
  | .mw => s.lMW

/-- A latch with other contents. -/
def Latch.set (l : Latch) (r : Option Rec) (s : State) : State :=
  match l with
  | .fd => { s with lFD := r }
  | .dx => { s with lDX := r }
  | .xm => { s with lXM := r }
  | .mw => { s with lMW := r }

/-- `L.clear()` (R142). -/
def Latch.clear (l : Latch) (s : State) : State := l.set none s

/-- `L.free` (R143). -/
def Latch.free (l : Latch) (s : State) : Bool := (l.read s).isNone

/-- `L.write(i)` (R141): an occupied latch is never overwritten. -/
def Latch.write (l : Latch) (r : Rec) (s : State) : Answer :=
  if l.free s then .next (l.set (some r) s) else .refused .latchOccupied

/-! ## Data memory (20_memory.md sections 1 and 2) -/

/-- `Img[k]` (10_state.md R28, 20_memory.md R61). -/
def imgWord (s : State) (k : Nat) : Word := s.img.readLE (8 * k) 8

/-- `Acc[k]` (10_state.md R29). -/
def accessed (s : State) (k : Nat) : Bool := Sparse.get false s.acc k

/-- `Acc[k] <- 1` for `n` words from `k` up (20_memory.md R66). -/
def markAccessed (k : Nat) : Nat → State → State
  | 0, s => s
  | n + 1, s => markAccessed (k + 1) n { s with acc := Sparse.put false s.acc k true }

/-- `load_block(addr, size)` (20_memory.md R66). The range check is on unbounded naturals. -/
def loadBlock (addr size : Nat) (s : State) : Answer :=
  if s.pendValid then .refused .requestPending
  else if addr % 8 ≠ 0 then .next (raiseFatal .accessOutOfRange s)
  else if s.cfg.memSize < addr + size then .next (raiseFatal .accessOutOfRange s)
  else
    .next
      { markAccessed (addr / 8) ((addr + size) / 8 - addr / 8) s with
        pendValid := true
        pendAddr := BitVec.ofNat 64 addr
        pendSize := size
        pendTick := s.tick + s.cfg.memLatency }

/-- `img_write_block(addr, data)` (20_memory.md R68). -/
def imgWriteBlock (addr : Nat) (data : Memory) (s : State) : State :=
  { s with img := Memory.copy data 0 s.img addr s.cfg.blockBytes }

/-! ## Data cache (20_memory.md sections 3 and 4) -/

/-- S, the number of sets (R70). -/
def numSets (c : Config) : Nat := c.cacheBytes / (c.blockBytes * c.ways)

/-- `set_index(a)` (R71). -/
def setIndex (c : Config) (a : Nat) : Nat := a / c.blockBytes % numSets c

/-- `tag(a)` (R71). -/
def tagOf (c : Config) (a : Nat) : Nat := a / (numSets c * c.blockBytes)

/-- `offset(a)` (R71). -/
def offsetOf (c : Config) (a : Nat) : Nat := a % c.blockBytes

/-- `block_addr(a)` (R71). -/
def blockAddr (c : Config) (a : Nat) : Nat := a - offsetOf c a

/-- The address of the block with tag `tag` in set `set` (R71, R82). -/
def blockBase (c : Config) (set tag : Nat) : Nat := (tag * numSets c + set) * c.blockBytes

/-- `Blk[set][way]` (10_state.md R26). -/
def blkAt (s : State) (set way : Nat) : Block := Sparse.get {} s.blk (set * s.cfg.ways + way)

/-- `Blk[set][way]` written. -/
def setBlk (set way : Nat) (b : Block) (s : State) : State :=
  { s with blk := Sparse.put {} s.blk (set * s.cfg.ways + way) b }

/-- The block of way 0 that an address maps to; only way 0 takes part (R77). -/
def blockOf (s : State) (a : Nat) : Block := blkAt s (setIndex s.cfg a) 0

/-- Whether an access to `a` hits (R75). -/
def isHit (s : State) (a : Nat) : Bool :=
  (blockOf s a).valid && (blockOf s a).tag == tagOf s.cfg a

/-- `cache_is_free()` (R74). -/
def cacheFree (s : State) : Bool := s.missInst.isNone

/-- `MemRead(a, n)` (R85). -/
def memRead (s : State) (a n : Nat) : Word := (blockOf s a).data.readLE (offsetOf s.cfg a) n

/-- The block of `a` changed. -/
def updateBlock (a : Nat) (f : Block → Block) (s : State) : State :=
  setBlk (setIndex s.cfg a) 0 (f (blockOf s a)) s

/-- `last_access <- tick` on a hit (R76). -/
def touchBlock (a : Nat) (s : State) : State :=
  updateBlock a (fun b => { b with lastAccess := s.tick }) s

/-- `MemWrite(a, n, v)` (R86). -/
def memWrite (a n : Nat) (v : Word) (s : State) : State :=
  updateBlock a (fun b => { b with data := b.data.writeLE (offsetOf s.cfg a) n v }) s

/-- `dirty <- 1` (R80). -/
def dirtyBlock (a : Nat) (s : State) : State := updateBlock a (fun b => { b with dirty := true }) s

/-- The coherent value of the data byte at `a` (R89): the cached byte where the block is present, else
the image's. -/
def coherentByte (s : State) (a : Nat) : Byte :=
  if isHit s a then (blockOf s a).data.read (offsetOf s.cfg a) else s.img.read a

/-- The coherent `n`-byte little-endian value at `a` (R61, R89). -/
def coherentLE (s : State) (a : Nat) : Nat → Word
  | 0 => 0#64
  | n + 1 => (coherentByte s a).setWidth 64 ||| (coherentLE s (a + 1) n <<< 8)

end Sys2Proof.Machine
end

