-- ==== Sys2Proof/Machine/Cache.lean ====
section
/-! DEFINITION. The data cache's access state machine and the data memory's tick (20_memory.md R65 to
R87): hits, misses, the response with its victim write-back, install and replay. -/

namespace Sys2Proof.Machine

/-- What a cache operation answers: the state and the record it worked on. -/
abbrev RecAnswer := Host.Outcome (State × Rec) Fault Refusal

/-- What the data memory's tick answers: the state and the replayed record, if any. -/
abbrev RunAnswer := Host.Outcome (State × Option Rec) Fault Refusal

/-- What the memory hierarchy's tick answers: the state and the pair `(r, busy)` (R87). -/
abbrev HierarchyAnswer := Host.Outcome (State × Option Rec × Bool) Fault Refusal

/-- A completed load counted (R79). -/
def countLoad (s : State) : State :=
  { s with
    stats := { s.stats with numAccesses := s.stats.numAccesses + 1, numLoads := s.stats.numLoads + 1 } }

/-- A completed store counted (R80). -/
def countStore (s : State) : State :=
  { s with
    stats :=
      { s.stats with numAccesses := s.stats.numAccesses + 1, numStores := s.stats.numStores + 1 } }

/-- A miss counted (R81). -/
def countMiss (s : State) : State :=
  { s with stats := { s.stats with numMisses := s.stats.numMisses + 1 } }

/-- A write-back counted (R82). -/
def countWriteback (s : State) : State :=
  { s with stats := { s.stats with numWritebacks := s.stats.numWritebacks + 1 } }

/-- A read hit (R76, R78, R79). -/
def loadHit (r : Rec) (s : State) : State × Rec :=
  (countLoad (touchBlock r.memAddr.toNat s),
    { r with rdVal := loadValue r.instr (memRead s r.memAddr.toNat r.instr.accessBytes) })

/-- A write hit (R76, R80): the low `n(op)` bytes of `rs2_val`. -/
def storeHit (r : Rec) (s : State) : State × Rec :=
  (countStore (dirtyBlock r.memAddr.toNat
      (memWrite r.memAddr.toNat r.instr.accessBytes r.rs2Val (touchBlock r.memAddr.toNat s))),
    r)

/-- The hit branch of an access; the classes that access nothing pass through. -/
def performHit (r : Rec) (s : State) : State × Rec :=
  match r.instr.cls with
  | .load => loadHit r s
  | .store => storeHit r s
  | .alu | .muldiv | .branch | .jump => (s, r)

/-- The alignment check that begins every read and write (R73). -/
def misaligned (r : Rec) : Bool := decide (r.memAddr.toNat % r.instr.accessBytes ≠ 0)

/-- A record together with the state an answer gives. -/
def withRec (r : Rec) (a : Answer) : RecAnswer :=
  match a with
  | .next s => .next (s, r)
  | .fault e => .fault e
  | .refused e => .refused e

/-- `cache_read(i)` and `cache_write(i)` (R73 to R81). On a miss the cache owns the record and the data
memory gets the request. -/
def cacheAccess (r : Rec) (s : State) : RecAnswer :=
  if cacheFree s = false then .refused .cacheBusy
  else if misaligned r then .next (raiseFatal .accessMisaligned s, r)
  else if isHit s r.memAddr.toNat then .next (performHit r s)
  else
    withRec r
      (loadBlock (blockAddr s.cfg r.memAddr.toNat) s.cfg.blockBytes
        (countMiss { s with missInst := some r }))

/-- Step 1 of the response: the victim of the set that `a` maps to is written back if it is valid and
dirty (R82). -/
def writeBackVictim (a : Nat) (s : State) : State :=
  if (blockOf s a).valid && (blockOf s a).dirty then
    countWriteback
      (imgWriteBlock (blockBase s.cfg (setIndex s.cfg a) (blockOf s a).tag) (blockOf s a).data s)
  else s

/-- Step 2 of the response: the block of `a` is installed (R83). -/
def installBlock (a : Nat) (data : Memory) (s : State) : State :=
  setBlk (setIndex s.cfg a) 0
    { tag := tagOf s.cfg a, valid := true, dirty := false, lastAccess := s.tick, data := data } s

/-- Step 3 of the response: the missed access is replayed as a hit (R84). -/
def replay (r : Rec) (s : State) : RecAnswer :=
  if misaligned r then .next (raiseFatal .accessMisaligned s, r)
  else if isHit s r.memAddr.toNat then .next (performHit r s)
  else .refused .replayMiss

/-- The release at the end of the response (R84); it does not run after a Fatal
(60_exceptions.md R301). -/
def releaseMiss (s : State) : State :=
  if s.status = .running then { s with missInst := none } else s

/-- `handle_response(data)` (R82 to R84): the replayed record goes to the caller. -/
def handleResponse (data : Memory) (s : State) : RunAnswer :=
  match s.missInst with
  | none => .refused .responseWithoutMiss
  | some r =>
    match replay r (installBlock r.memAddr.toNat data (writeBackVictim r.memAddr.toNat s)) with
    | .next (s', r') => .next (releaseMiss s', some r')
    | .fault e => .fault e
    | .refused e => .refused e

/-- The bytes of the pending request, read from the image at the response (R67). -/
def responseData (s : State) : Memory := Memory.copy s.img s.pendAddr.toNat [] 0 s.pendSize

/-- `mem_run()` (R67). -/
def memRun (s : State) : RunAnswer :=
  if s.pendValid && decide (s.pendTick ≤ s.tick) then
    handleResponse (responseData s) { s with pendValid := false }
  else .next (s, none)

/-- `cache_run()` (R87): the tick forwarded to the data memory; it returns the replayed record and
`busy`, and changes nothing else. -/
def cacheRun (s : State) : HierarchyAnswer :=
  match memRun s with
  | .next (s', r) => .next (s', r, s'.missInst.isSome)
  | .fault e => .fault e
  | .refused e => .refused e

end Sys2Proof.Machine
end

