-- ==== Sys2Proof/Machine/Predictor.lean ====
section
/-! DEFINITION. The branch predictor and branch target buffer (40_pipeline_control.md R175 to R177): the
sizing contract and the baseline policy, which is normative. -/

namespace Sys2Proof.Machine

/-- Entry `k` of a table: a number of `width` bits, and an unlisted entry is 0 (10_state.md R31, R175).
There is nothing past the last entry, and 0 is what a policy gets there (log entry 21). -/
def Table.read (t : Table) (k : Nat) : Nat :=
  if k < t.entries then Sparse.get 0 t.cells k % 2 ^ t.width else 0

/-- Entry `k` written with the low `width` bits of `v`. There is nothing to write past the last entry
(10_state.md R31, R175, log entry 21). -/
def Table.write (k v : Nat) (t : Table) : Table :=
  if k < t.entries then { t with cells := Sparse.put 0 t.cells k (v % 2 ^ t.width) } else t

/-- The canonical form of a table: each entry listed is one of its entries, not 0, and of its width. -/
def Table.wf (t : Table) : Bool :=
  Sparse.wf 0 t.cells && t.cells.all fun p => decide (p.1 < t.entries) && decide (p.2 < 2 ^ t.width)

/-- One write of an `Update`, in the table it names. -/
def Tables.write (t : Tables) (w : TableWrite) : Tables :=
  match w.table with
  | .bht => { t with bht := t.bht.write w.index w.value }
  | .pht => { t with pht := t.pht.write w.index w.value }
  | .btb => { t with btb := t.btb.write w.index w.value }

/-- The writes of an `Update`, in their order. -/
def Tables.writes (t : Tables) (ws : List TableWrite) : Tables := ws.foldl Tables.write t

/-- The predictor state of the block (10_state.md R31). -/
def State.tables (s : State) : Tables := { bht := s.bht, pht := s.pht, btb := s.btb }

/-- The predictor state replaced. -/
def State.withTables (t : Tables) (s : State) : State :=
  { s with bht := t.bht, pht := t.pht, btb := t.btb }

/-- The predictor state after the writes of an `Update` (R154): every table keeps its sizes (R175). -/
def State.writeTables (ws : List TableWrite) (s : State) : State :=
  s.withTables (s.tables.writes ws)

/-- The PC bits a predictor index is taken from (92_eei_decisions.md D47). -/
def indexBits (c : Config) (pc : Word) : Nat := pc.toNat / 2 ^ c.predIndexShift

/-- The index into `BHT`: b PC bits (R175). -/
def bhtIndex (c : Config) (pc : Word) : Nat := indexBits c pc % 2 ^ c.bhtBits

/-- The index into `PHT`: p PC bits concatenated with the h history bits read from `BHT` (R175). -/
def phtIndex (c : Config) (t : Tables) (pc : Word) : Nat :=
  indexBits c pc % 2 ^ c.phtBits * 2 ^ c.histBits + t.bht.read (bhtIndex c pc)

/-- The index into `BTB`, direct-mapped by PC (R175). -/
def btbIndex (c : Config) (pc : Word) : Nat := indexBits c pc % c.btbSize

/-- `Predict(pc)`, the baseline: not taken, target 0 (R176). It reads no table. -/
def predict (_t : Tables) (_pc : Word) : Bool × Word := (false, 0#64)

/-- `Update(i)`, the baseline: nothing is written (R154, R176). -/
def updatePredictor (_r : Rec) (_t : Tables) : List TableWrite := []

end Sys2Proof.Machine
end

