-- ==== Sys2Proof/Machine/Parameters.lean ====
section
/-! DEFINITION. The collaborators `Exec`, `Predict` and `Update` as an input of the block, fixed for a run
(70_reset_and_hazards.md R348; 93_implementation_defined.md U2, U5), with their reference defaults. Every
operation that calls one takes them as its last argument, whose default is `Collaborators.reference`. -/

namespace Sys2Proof.Machine

/-- What the block calls and does not define. `Exec` is given by what it may compute, from `op` (as its
`opid`), `imm`, `rs1_val`, `rs2_val` and `pc` (R149); which fields it writes is the block's own
`Collaborators.execute`. -/
structure Collaborators where
  /-- `rd_val` of the classes ALU, MULDIV and JUMP. -/
  result : Nat → Word → Word → Word → Word → Word
  /-- `act_taken` of the class BRANCH. -/
  taken : Nat → Word → Word → Word → Word → Bool
  /-- `Predict(pc)`, from the tables (R171, R177). -/
  predict : Tables → Word → Bool × Word
  /-- `Update(i)`: what it writes, from the record and the tables (R154, R177). -/
  update : Rec → Tables → List TableWrite

/-- The record given to the reference `Exec` for its inputs. -/
def execInput (i : Instr) (rs1Val rs2Val pc : Word) : Rec :=
  { instr := i, pc := pc, rs1Val := rs1Val, rs2Val := rs2Val }

/-- The defaults: the reference `Exec` (R149) and the baseline policy, which is normative (R176). -/
def Collaborators.reference : Collaborators where
  result op imm a b pc := (execInput (.ofOperation op imm) a b pc).execute.rdVal
  taken op imm a b pc := (execInput (.ofOperation op imm) a b pc).execute.actTaken
  predict := Sys2Proof.Machine.predict
  update := updatePredictor

/-- `Exec(i)` under the contract of R149: the fields it writes, class by class. -/
def Collaborators.execute (k : Collaborators) (r : Rec) : Rec :=
  match r.instr.cls with
  | .alu | .muldiv | .jump => r.withResult (k.result r.instr.opid r.instr.imm r.rs1Val r.rs2Val r.pc)
  | .load | .store => r.withAddress
  | .branch => r.withOutcome (k.taken r.instr.opid r.instr.imm r.rs1Val r.rs2Val r.pc)

end Sys2Proof.Machine
end

