-- ==== Sys2Proof/Machine/Pipeline.lean ====
section
/-! DEFINITION. The pipeline controller (40_pipeline_control.md): the functional unit, the five stage
rules, the tick, and the passage of one instruction to its retirement, which is the shared meaning of
every instruction. -/

namespace Sys2Proof.Machine

/-! ## Functional unit (section 2) -/

/-- `fu_is_free()` (R144). -/
def fuFree (s : State) : Bool := s.fuInst.isNone

/-- `fu_run(i)` (R145): the result fields are written at issue. -/
def fuRun (r : Rec) (s : State) (k : Collaborators := .reference) : Answer :=
  if fuFree s then
    .next { s with fuInst := some (k.execute r), fuExit := s.tick + r.instr.lat }
  else .refused .fuBusy

/-- `fu_get_output()` (R146). -/
def fuOutput (s : State) : Option Rec :=
  if decide (s.fuExit ≤ s.tick) then s.fuInst else none

/-- `fu_flush()` (R148). -/
def fuFlush (s : State) : State := { s with fuInst := none }

/-! ## Flush (R178, R179) -/

/-- Every pending mark dropped (R164). -/
def clearDeps (s : State) : State := { s with dep := Vector.replicate 32 0 }

/-- `Flush()` (R178). The miss slot, the pending request, the cache blocks and `pc_valid` stay (R179). -/
def flush (s : State) : State :=
  clearDeps
    (fuFlush
      { s with
        lFD := none
        lDX := none
        lXM := none
        lMW := none
        stats := { s.stats with numFlushes := s.stats.numFlushes + 1 } })

/-! ## Writeback stage (R152 to R157) -/

/-- The retirement of a record (R152). -/
def retire (r : Rec) (s : State) : State :=
  retireRegister r
    (Latch.mw.clear { s with stats := { s.stats with numInsts := s.stats.numInsts + 1 } })

/-- A conditional branch counted (R155). -/
def countBranch (s : State) : State :=
  { s with stats := { s.stats with numBranches := s.stats.numBranches + 1 } }

/-- A misprediction: counted, everything in flight flushed, the PC corrected (R153). -/
def mispredict (r : Rec) (s : State) : State :=
  { flush { s with stats := { s.stats with numMispredictions := s.stats.numMispredictions + 1 } } with
    pc := r.actTarget }

/-- The predictor update (R154). -/
def callUpdate (r : Rec) (s : State) (k : Collaborators := .reference) : State :=
  s.writeTables (k.update r s.tables)

/-- What writeback does for a retiring conditional branch (R153 to R156): with prediction on, the
predictor update and then the check of the targets; with prediction off, the resolution. -/
def resolveBranch (r : Rec) (s : State) (k : Collaborators := .reference) : State :=
  if s.cfg.predEnabled then
    if r.predTarget = r.actTarget then callUpdate r s k
    else mispredict r (callUpdate r s k)
  else { s with pc := r.actTarget, pcValid := true }

/-- The writeback stage. It has no guard and never stalls (R152). -/
def writebackStage (s : State) (k : Collaborators := .reference) : State :=
  match s.lMW with
  | none => s
  | some r =>
    if r.isBranch then resolveBranch r (countBranch (retire r s)) k else retire r s

/-! ## Memory stage (R158, R159) -/

/-- The last statement of R159: a hit, or a record of no memory class, goes to L_MW; a record that
missed is the cache's. Nothing runs after a Fatal (R301). -/
def deliver (a : RecAnswer) : Answer :=
  match a with
  | .next (s, r) =>
    if s.status = .running then
      if cacheFree s then Latch.mw.write r s else .next s
    else .next s
  | .fault e => .fault e
  | .refused e => .refused e

/-- What the memory stage does with the record it took from L_XM (R159). -/
def issue (r : Rec) (s : State) : Answer :=
  match r.instr.cls with
  | .load | .store => deliver (cacheAccess r s)
  | .alu | .muldiv | .branch | .jump => deliver (.next (s, r))

/-- R159. -/
def issueFromLatch (s : State) : Answer :=
  if Latch.mw.free s && cacheFree s then
    match s.lXM with
    | none => .next s
    | some r => issue r (Latch.xm.clear s)
  else .next s

/-- The memory stage: the hierarchy's tick, the delivery of a replay (R158), else the issue (R159). -/
def memoryStage (s : State) : Answer :=
  match cacheRun s with
  | .next (s', some r, _) => andThen (.next s') (Latch.mw.write r)
  | .next (s', none, _) => issueFromLatch s'
  | .fault e => .fault e
  | .refused e => .refused e

/-! ## Execute stage (R160) -/

/-- The issue half of R160. -/
def executeIssue (s : State) (k : Collaborators := .reference) : Answer :=
  match s.lDX with
  | none => .next s
  | some r => if fuFree s then fuRun r (Latch.dx.clear s) k else .next s

/-- The output half of R160. -/
def executeOutput (s : State) : Answer :=
  match fuOutput s with
  | none => .next s
  | some r => Latch.xm.write r { s with fuInst := none }

/-- The execute stage: issue, then output; nothing while L_XM is occupied (R160). -/
def executeStage (s : State) (k : Collaborators := .reference) : Answer :=
  if Latch.xm.free s then andThen (executeIssue s k) executeOutput else .next s

/-! ## Decode stage (R161 to R167) -/

/-- The redirection of a jump (R165, R166). -/
def redirectJump (r : Rec) (s : State) : State :=
  if r.instr.cls = .jump then { s with pc := r.jumpTarget } else s

/-- The decode stage (R165, R167). -/
def decodeStage (s : State) : Answer :=
  match s.lFD with
  | none => .next s
  | some r =>
    if Latch.dx.free s && !hasDependency s r.instr then
      andThen
        (Latch.dx.write (readOperands s r) (markPending r.instr (Latch.fd.clear s)))
        (fun s' => .next (redirectJump (readOperands s r) s'))
    else .next s

/-! ## Fetch stage (R168 to R173) -/

/-- What the instruction source answers for a PC. -/
inductive Delivery where
  /-- No record there (R169). -/
  | nothing
  /-- An admitted instruction. -/
  | instr (i : Instr)
  /-- A word that spells no admitted instruction, which the source must not deliver (R120). -/
  | unadmitted (word : BitVec 32)
deriving DecidableEq, Repr

/-- IS(pc): the reference decoder behind the program's words (R169, 10_state.md R41 (a)). -/
def source (s : State) (pc : Word) : Delivery :=
  match Sparse.find? s.prog pc.toNat with
  | none => .nothing
  | some w =>
    match decodeWord w with
    | some i => .instr i
    | none => .unadmitted w

/-- A stall cycle counted (R168). -/
def countStall (s : State) : State :=
  { s with stats := { s.stats with numStalls := s.stats.numStalls + 1 } }

/-- The prediction recorded and followed (R171). `pc` is the fall-through address here. -/
def followPrediction (p : Bool × Word) (r : Rec) (s : State) : Rec × State :=
  ({ r with predTaken := p.1, predTarget := if p.1 then p.2 else s.pc },
    if p.1 then { s with pc := p.2 } else s)

/-- What fetch does for a conditional branch (R171, R172); nothing for other classes. -/
def fetchBranch (r : Rec) (s : State) (k : Collaborators := .reference) : Rec × State :=
  if r.isBranch then
    if s.cfg.predEnabled then followPrediction (k.predict s.tables r.pc) r s
    else (r, { s with pcValid := false })
  else (r, s)

/-- The record of a fetched instruction, made and put in L_FD (R170 to R173). -/
def fetchInstr (i : Instr) (s : State) (k : Collaborators := .reference) : Answer :=
  let f := fetchBranch (Rec.fresh i s.pc) { s with pc := s.pc + 4#64 } k
  Latch.fd.write f.1 f.2

/-- The fetch stage, with the answers of an instruction source (R168, R169). -/
def fetchStage (src : Word → Delivery) (s : State) (k : Collaborators := .reference) : Answer :=
  if Latch.fd.free s && s.pcValid then
    match src s.pc with
    | .nothing => .next s
    | .instr i => fetchInstr i s k
    | .unadmitted w => .refused (.unadmittedOp w)
  else .next (countStall s)

/-! ## The tick (R150) and the end of a run (R180) -/

/-- Whether nothing is in flight: the latches, the unit and the miss slot are empty. -/
def drained (s : State) : Bool :=
  s.lFD.isNone && s.lDX.isNone && s.lXM.isNone && s.lMW.isNone && s.fuInst.isNone && s.missInst.isNone

/-- The last statements of a tick (R150): the clock advances, and a drained block is done (R180). -/
def endOfTick (s : State) : State :=
  if drained s then { s with tick := s.tick + 1, status := .done } else { s with tick := s.tick + 1 }

/-- A tick after its writeback stage, with the answers of an instruction source. -/
def restOfTickFrom (src : Word → Delivery) (s : State) (k : Collaborators := .reference) : Answer :=
  andThen (memoryStage s) fun s1 =>
    andThen (executeStage s1 k) fun s2 =>
      andThen (decodeStage s2) fun s3 =>
        andThen (fetchStage src s3 k) fun s4 => .next (endOfTick s4)

/-- A tick after its writeback stage. -/
def restOfTick (s : State) (k : Collaborators := .reference) : Answer :=
  restOfTickFrom (source s) s k

/-- `Tick()` (R150): the five stages in order, then the clock. With FORWARDING = true there is no tick:
it is refused (60_exceptions.md R315 (b)); that the refusal comes here, and not when the block is built,
is a DESIGN CHOICE (log entry 20). -/
def tick (s : State) (k : Collaborators := .reference) : Answer :=
  if s.cfg.forwarding then .refused .forwarding else restOfTick (writebackStage s k) k

/-- `n` ticks, while the status is Running (R150, R180). -/
def ticks (n : Nat) (s : State) (k : Collaborators := .reference) : Answer :=
  match n with
  | 0 => .next s
  | n + 1 =>
    if s.status = .running then
      match tick s k with
      | .next s' => ticks n s' k
      | .fault e => .fault e
      | .refused e => .refused e
    else .next s

/-! ## The passage of the next instruction to its retirement

A step of the machine runs the block, stage by stage in the order of R150, through the writeback stage
that retires the next instruction (log entry 3). Its boundaries are the points just after a
retirement; what is left of the tick under way is the next step's. -/

/-- The oldest record in flight: the next to retire (R188). -/
def oldest (s : State) : Option Rec :=
  s.lMW <|> s.missInst <|> s.lXM <|> s.fuInst <|> s.lDX <|> s.lFD

/-- Ticks up to and with the next retirement, or the end of the run, at most `fuel` of them. With L_MW
occupied the writeback stage is the next to run, and it retires. -/
def advance (n : Nat) (s : State) (k : Collaborators := .reference) : Answer :=
  match n with
  | 0 => .next s
  | n + 1 =>
    match s.lMW with
    | some _ => .next (writebackStage s k)
    | none => andThen (restOfTick s k) fun t => advance n t k

/-- More ticks than a record in flight takes to retire: the remaining latencies of the data memory and
the unit, a full latency to come, and the stages (log entry 8). -/
def patience (s : State) : Nat :=
  (s.pendTick - s.tick) + (s.fuExit - s.tick) + s.cfg.memLatency + 16

/-- The instruction that retires next: the oldest in flight, else the one the source has at `pc`. -/
def nextUp (s : State) : Delivery :=
  match oldest s with
  | some r => .instr r.instr
  | none => if s.pcValid then source s s.pc else .nothing

/-- The block runs `i`, its next instruction, to its retirement. When nothing is in flight, fetch gets
`i` at `pc` in the tick under way, whatever the program holds there; the program gives what follows.
When `i` is the oldest instruction in flight, the block goes on with it. Any other `i` is not the next
instruction (log entry 6). -/
def passage (i : Instr) (s : State) (k : Collaborators := .reference) : Answer :=
  match s.status with
  | .fatal code => .fault (.fatal code)
  | .done => .refused .notNext
  | .running =>
    if s.cfg.forwarding then .refused .forwarding
    else
      match oldest s with
      | some r => if r.instr = i then advance (patience s) s k else .refused .notNext
      | none =>
        if s.pcValid then
          andThen (restOfTickFrom (fun _ => .instr i) s k) fun t => advance (patience s) t k
        else .refused .notNext

/-- What the block does when nothing is in flight and fetch gets nothing: the tick under way ends the
run (R169, R180). -/
def drain (s : State) (k : Collaborators := .reference) : Answer := restOfTick s k

end Sys2Proof.Machine
end

