-- ==== Sys2Proof/Machine/Alu.lean ====
section
/-! DEFINITION. The meanings of the ALU class (41_integer_ops.md R203 to R232): the passage of R200 through the
block, with the result `Exec` writes (Integer.lean, Collaborator.lean). -/

namespace Sys2Proof.Machine

/-- R203, `add`: `x[rd]` becomes `addResult` of the operands. -/
def execAdd (rd rs1 rs2 : Reg) (s : State) : Answer :=
  passage (.add rd rs1 rs2) s

/-- R204, `sub`: `x[rd]` becomes `subResult` of the operands. -/
def execSub (rd rs1 rs2 : Reg) (s : State) : Answer :=
  passage (.sub rd rs1 rs2) s

/-- R205, `sll`: `x[rd]` becomes `sllResult` of the operands. -/
def execSll (rd rs1 rs2 : Reg) (s : State) : Answer :=
  passage (.sll rd rs1 rs2) s

/-- R206, `slt`: `x[rd]` becomes `sltResult` of the operands. -/
def execSlt (rd rs1 rs2 : Reg) (s : State) : Answer :=
  passage (.slt rd rs1 rs2) s

/-- R207, `sltu`: `x[rd]` becomes `sltuResult` of the operands. -/
def execSltu (rd rs1 rs2 : Reg) (s : State) : Answer :=
  passage (.sltu rd rs1 rs2) s

/-- R208, `xor`: `x[rd]` becomes `xorResult` of the operands. -/
def execXor (rd rs1 rs2 : Reg) (s : State) : Answer :=
  passage (.xor rd rs1 rs2) s

/-- R209, `srl`: `x[rd]` becomes `srlResult` of the operands. -/
def execSrl (rd rs1 rs2 : Reg) (s : State) : Answer :=
  passage (.srl rd rs1 rs2) s

/-- R210, `sra`: `x[rd]` becomes `sraResult` of the operands. -/
def execSra (rd rs1 rs2 : Reg) (s : State) : Answer :=
  passage (.sra rd rs1 rs2) s

/-- R211, `or`: `x[rd]` becomes `orResult` of the operands. -/
def execOr (rd rs1 rs2 : Reg) (s : State) : Answer :=
  passage (.or rd rs1 rs2) s

/-- R212, `and`: `x[rd]` becomes `andResult` of the operands. -/
def execAnd (rd rs1 rs2 : Reg) (s : State) : Answer :=
  passage (.and rd rs1 rs2) s

/-- R213, `addw`: `x[rd]` becomes `addwResult` of the operands. -/
def execAddw (rd rs1 rs2 : Reg) (s : State) : Answer :=
  passage (.addw rd rs1 rs2) s

/-- R214, `subw`: `x[rd]` becomes `subwResult` of the operands. -/
def execSubw (rd rs1 rs2 : Reg) (s : State) : Answer :=
  passage (.subw rd rs1 rs2) s

/-- R215, `sllw`: `x[rd]` becomes `sllwResult` of the operands. -/
def execSllw (rd rs1 rs2 : Reg) (s : State) : Answer :=
  passage (.sllw rd rs1 rs2) s

/-- R216, `srlw`: `x[rd]` becomes `srlwResult` of the operands. -/
def execSrlw (rd rs1 rs2 : Reg) (s : State) : Answer :=
  passage (.srlw rd rs1 rs2) s

/-- R217, `sraw`: `x[rd]` becomes `srawResult` of the operands. -/
def execSraw (rd rs1 rs2 : Reg) (s : State) : Answer :=
  passage (.sraw rd rs1 rs2) s

/-- R218, `addi`: `x[rd]` becomes `addiResult` of the operands. -/
def execAddi (rd rs1 : Reg) (imm : BitVec 12) (s : State) : Answer :=
  passage (.addi rd rs1 imm) s

/-- R219, `slti`: `x[rd]` becomes `sltiResult` of the operands. -/
def execSlti (rd rs1 : Reg) (imm : BitVec 12) (s : State) : Answer :=
  passage (.slti rd rs1 imm) s

/-- R220, `sltiu`: `x[rd]` becomes `sltiuResult` of the operands. -/
def execSltiu (rd rs1 : Reg) (imm : BitVec 12) (s : State) : Answer :=
  passage (.sltiu rd rs1 imm) s

/-- R221, `xori`: `x[rd]` becomes `xoriResult` of the operands. -/
def execXori (rd rs1 : Reg) (imm : BitVec 12) (s : State) : Answer :=
  passage (.xori rd rs1 imm) s

/-- R222, `ori`: `x[rd]` becomes `oriResult` of the operands. -/
def execOri (rd rs1 : Reg) (imm : BitVec 12) (s : State) : Answer :=
  passage (.ori rd rs1 imm) s

/-- R223, `andi`: `x[rd]` becomes `andiResult` of the operands. -/
def execAndi (rd rs1 : Reg) (imm : BitVec 12) (s : State) : Answer :=
  passage (.andi rd rs1 imm) s

/-- R224, `slli`: `x[rd]` becomes `slliResult` of the operands. -/
def execSlli (rd rs1 : Reg) (shamt : BitVec 6) (s : State) : Answer :=
  passage (.slli rd rs1 shamt) s

/-- R225, `srli`: `x[rd]` becomes `srliResult` of the operands. -/
def execSrli (rd rs1 : Reg) (shamt : BitVec 6) (s : State) : Answer :=
  passage (.srli rd rs1 shamt) s

/-- R226, `srai`: `x[rd]` becomes `sraiResult` of the operands. -/
def execSrai (rd rs1 : Reg) (shamt : BitVec 6) (s : State) : Answer :=
  passage (.srai rd rs1 shamt) s

/-- R227, `addiw`: `x[rd]` becomes `addiwResult` of the operands. -/
def execAddiw (rd rs1 : Reg) (imm : BitVec 12) (s : State) : Answer :=
  passage (.addiw rd rs1 imm) s

/-- R228, `slliw`: `x[rd]` becomes `slliwResult` of the operands. -/
def execSlliw (rd rs1 : Reg) (shamt : BitVec 5) (s : State) : Answer :=
  passage (.slliw rd rs1 shamt) s

/-- R229, `srliw`: `x[rd]` becomes `srliwResult` of the operands. -/
def execSrliw (rd rs1 : Reg) (shamt : BitVec 5) (s : State) : Answer :=
  passage (.srliw rd rs1 shamt) s

/-- R230, `sraiw`: `x[rd]` becomes `sraiwResult` of the operands. -/
def execSraiw (rd rs1 : Reg) (shamt : BitVec 5) (s : State) : Answer :=
  passage (.sraiw rd rs1 shamt) s

/-- R231, `lui`: `x[rd]` becomes `luiResult` of the operands. -/
def execLui (rd : Reg) (imm20 : BitVec 20) (s : State) : Answer :=
  passage (.lui rd imm20) s

/-- R232, `auipc`: `x[rd]` becomes `auipcResult` of the operands. -/
def execAuipc (rd : Reg) (imm20 : BitVec 20) (s : State) : Answer :=
  passage (.auipc rd imm20) s

end Sys2Proof.Machine
end

