-- ==== Sys2Proof/Machine/Control.lean ====
section
/-! DEFINITION. The meanings of the BRANCH and JUMP classes (43_control_ops.md R283 to R291): the passages of
R280 and R289 through the block. -/

namespace Sys2Proof.Machine

/-- R283, `beq`: the branch is resolved by `beqTaken`. -/
def execBeq (rs1 rs2 : Reg) (offset : BitVec 13) (s : State) : Answer :=
  passage (.beq rs1 rs2 offset) s

/-- R284, `bne`: the branch is resolved by `bneTaken`. -/
def execBne (rs1 rs2 : Reg) (offset : BitVec 13) (s : State) : Answer :=
  passage (.bne rs1 rs2 offset) s

/-- R285, `blt`: the branch is resolved by `bltTaken`. -/
def execBlt (rs1 rs2 : Reg) (offset : BitVec 13) (s : State) : Answer :=
  passage (.blt rs1 rs2 offset) s

/-- R286, `bge`: the branch is resolved by `bgeTaken`. -/
def execBge (rs1 rs2 : Reg) (offset : BitVec 13) (s : State) : Answer :=
  passage (.bge rs1 rs2 offset) s

/-- R287, `bltu`: the branch is resolved by `bltuTaken`. -/
def execBltu (rs1 rs2 : Reg) (offset : BitVec 13) (s : State) : Answer :=
  passage (.bltu rs1 rs2 offset) s

/-- R288, `bgeu`: the branch is resolved by `bgeuTaken`. -/
def execBgeu (rs1 rs2 : Reg) (offset : BitVec 13) (s : State) : Answer :=
  passage (.bgeu rs1 rs2 offset) s

/-- R290, `jal`: `pc` becomes `jalTarget`, `x[rd]` the link `jalLink`. -/
def execJal (rd : Reg) (offset : BitVec 21) (s : State) : Answer :=
  passage (.jal rd offset) s

/-- R291, `jalr`: `pc` becomes `jalrTarget`, `x[rd]` the link `jalrLink`. -/
def execJalr (rd rs1 : Reg) (imm : BitVec 12) (s : State) : Answer :=
  passage (.jalr rd rs1 imm) s

end Sys2Proof.Machine
end

