-- ==== Sys2Proof/Machine/LoadStore.lean ====
section
/-! DEFINITION. The meanings of the LOAD and STORE classes (42_memory_ops.md R265 to R275): the passage of R260
through the block and the data cache (Cache.lean). -/

namespace Sys2Proof.Machine

/-- R265, `lb`: `x[rd]` becomes the value loaded. -/
def execLb (rd rs1 : Reg) (imm : BitVec 12) (s : State) : Answer :=
  passage (.lb rd rs1 imm) s

/-- R266, `lh`: `x[rd]` becomes the value loaded. -/
def execLh (rd rs1 : Reg) (imm : BitVec 12) (s : State) : Answer :=
  passage (.lh rd rs1 imm) s

/-- R267, `lw`: `x[rd]` becomes the value loaded. -/
def execLw (rd rs1 : Reg) (imm : BitVec 12) (s : State) : Answer :=
  passage (.lw rd rs1 imm) s

/-- R268, `ld`: `x[rd]` becomes the value loaded. -/
def execLd (rd rs1 : Reg) (imm : BitVec 12) (s : State) : Answer :=
  passage (.ld rd rs1 imm) s

/-- R269, `lbu`: `x[rd]` becomes the value loaded. -/
def execLbu (rd rs1 : Reg) (imm : BitVec 12) (s : State) : Answer :=
  passage (.lbu rd rs1 imm) s

/-- R270, `lhu`: `x[rd]` becomes the value loaded. -/
def execLhu (rd rs1 : Reg) (imm : BitVec 12) (s : State) : Answer :=
  passage (.lhu rd rs1 imm) s

/-- R271, `lwu`: `x[rd]` becomes the value loaded. -/
def execLwu (rd rs1 : Reg) (imm : BitVec 12) (s : State) : Answer :=
  passage (.lwu rd rs1 imm) s

/-- R272, `sb`: the low bytes of `x[rs2]` are stored. -/
def execSb (rs2 rs1 : Reg) (imm : BitVec 12) (s : State) : Answer :=
  passage (.sb rs2 rs1 imm) s

/-- R273, `sh`: the low bytes of `x[rs2]` are stored. -/
def execSh (rs2 rs1 : Reg) (imm : BitVec 12) (s : State) : Answer :=
  passage (.sh rs2 rs1 imm) s

/-- R274, `sw`: the low bytes of `x[rs2]` are stored. -/
def execSw (rs2 rs1 : Reg) (imm : BitVec 12) (s : State) : Answer :=
  passage (.sw rs2 rs1 imm) s

/-- R275, `sd`: the low bytes of `x[rs2]` are stored. -/
def execSd (rs2 rs1 : Reg) (imm : BitVec 12) (s : State) : Answer :=
  passage (.sd rs2 rs1 imm) s

end Sys2Proof.Machine
end

