-- ==== Sys2Proof/Machine/MulDiv.lean ====
section
/-! DEFINITION. The meanings of the MULDIV class (41_integer_ops.md R233 to R245): the passage of R200 through
the block, two ticks in the functional unit, with the result `Exec` writes (Integer.lean). -/

namespace Sys2Proof.Machine

/-- R233, `mul`: `x[rd]` becomes `mulResult` of the operands. -/
def execMul (rd rs1 rs2 : Reg) (s : State) : Answer :=
  passage (.mul rd rs1 rs2) s

/-- R234, `mulh`: `x[rd]` becomes `mulhResult` of the operands. -/
def execMulh (rd rs1 rs2 : Reg) (s : State) : Answer :=
  passage (.mulh rd rs1 rs2) s

/-- R235, `mulhsu`: `x[rd]` becomes `mulhsuResult` of the operands. -/
def execMulhsu (rd rs1 rs2 : Reg) (s : State) : Answer :=
  passage (.mulhsu rd rs1 rs2) s

/-- R236, `mulhu`: `x[rd]` becomes `mulhuResult` of the operands. -/
def execMulhu (rd rs1 rs2 : Reg) (s : State) : Answer :=
  passage (.mulhu rd rs1 rs2) s

/-- R237, `div`: `x[rd]` becomes `divResult` of the operands. -/
def execDiv (rd rs1 rs2 : Reg) (s : State) : Answer :=
  passage (.div rd rs1 rs2) s

/-- R238, `divu`: `x[rd]` becomes `divuResult` of the operands. -/
def execDivu (rd rs1 rs2 : Reg) (s : State) : Answer :=
  passage (.divu rd rs1 rs2) s

/-- R239, `rem`: `x[rd]` becomes `remResult` of the operands. -/
def execRem (rd rs1 rs2 : Reg) (s : State) : Answer :=
  passage (.rem rd rs1 rs2) s

/-- R240, `remu`: `x[rd]` becomes `remuResult` of the operands. -/
def execRemu (rd rs1 rs2 : Reg) (s : State) : Answer :=
  passage (.remu rd rs1 rs2) s

/-- R241, `mulw`: `x[rd]` becomes `mulwResult` of the operands. -/
def execMulw (rd rs1 rs2 : Reg) (s : State) : Answer :=
  passage (.mulw rd rs1 rs2) s

/-- R242, `divw`: `x[rd]` becomes `divwResult` of the operands. -/
def execDivw (rd rs1 rs2 : Reg) (s : State) : Answer :=
  passage (.divw rd rs1 rs2) s

/-- R243, `divuw`: `x[rd]` becomes `divuwResult` of the operands. -/
def execDivuw (rd rs1 rs2 : Reg) (s : State) : Answer :=
  passage (.divuw rd rs1 rs2) s

/-- R244, `remw`: `x[rd]` becomes `remwResult` of the operands. -/
def execRemw (rd rs1 rs2 : Reg) (s : State) : Answer :=
  passage (.remw rd rs1 rs2) s

/-- R245, `remuw`: `x[rd]` becomes `remuwResult` of the operands. -/
def execRemuw (rd rs1 rs2 : Reg) (s : State) : Answer :=
  passage (.remuw rd rs1 rs2) s

end Sys2Proof.Machine
end

