-- ==== Sys2Proof/Machine/Step.lean ====
section
/-! DEFINITION. One step of the machine: the block runs to the retirement of its next instruction. -/

namespace Sys2Proof.Machine

/-- One step (log entry 3), with the meaning of an instruction and the collaborators given. A block that
is done stays as it is (60_exceptions.md R317); a block stopped by a Fatal performs no further tick (R301),
which the step answers with a fault. -/
def stepFrom (meaning : Instr → State → Answer) (k : Collaborators) (s : State) : Answer :=
  match s.status with
  | .fatal code => .fault (.fatal code)
  | .done => .next s
  | .running =>
    if s.cfg.forwarding then .refused .forwarding
    else
      match nextUp s with
      | .instr i => meaning i s
      | .unadmitted w => .refused (.unadmittedOp w)
      | .nothing => drain s k

/-- One step of the machine, with the reference collaborators. -/
def step (s : State) : Host.Outcome State Fault Refusal := stepFrom exec .reference s

/-- One step with other collaborators (70_reset_and_hazards.md R348). -/
def stepWith (k : Collaborators) (s : State) : Host.Outcome State Fault Refusal :=
  stepFrom (fun i t => passage i t k) k s

/-- The word `w` stored where fetch asks next: at `pc` in the instruction space. It stands for the load
of a program from outside the machine (log entry 5). -/
def State.withFetchWord (s : State) (nbits w : Nat) : State :=
  { s with prog := Sparse.insert s.prog s.pc.toNat (BitVec.ofNat 32 (w % 2 ^ nbits)) }

end Sys2Proof.Machine
end

