-- ==== Sys2Proof/Machine/Assembler.lean ====
section
/-! DEFINITION. The reference assembler text (30_encoding.md R123 to R127): mnemonics, register names,
operand order, and the pseudo-instructions with their expansions. The block never sees any of it; no
other file uses it. -/

namespace Sys2Proof.Machine

/-- The printable name of an opcode (R126). -/
def mnemonic : Instr → String
  | .add _ _ _ => "add"
  | .sub _ _ _ => "sub"
  | .sll _ _ _ => "sll"
  | .slt _ _ _ => "slt"
  | .sltu _ _ _ => "sltu"
  | .xor _ _ _ => "xor"
  | .srl _ _ _ => "srl"
  | .sra _ _ _ => "sra"
  | .or _ _ _ => "or"
  | .and _ _ _ => "and"
  | .addw _ _ _ => "addw"
  | .subw _ _ _ => "subw"
  | .sllw _ _ _ => "sllw"
  | .srlw _ _ _ => "srlw"
  | .sraw _ _ _ => "sraw"
  | .addi _ _ _ => "addi"
  | .slti _ _ _ => "slti"
  | .sltiu _ _ _ => "sltiu"
  | .xori _ _ _ => "xori"
  | .ori _ _ _ => "ori"
  | .andi _ _ _ => "andi"
  | .slli _ _ _ => "slli"
  | .srli _ _ _ => "srli"
  | .srai _ _ _ => "srai"
  | .addiw _ _ _ => "addiw"
  | .slliw _ _ _ => "slliw"
  | .srliw _ _ _ => "srliw"
  | .sraiw _ _ _ => "sraiw"
  | .lui _ _ => "lui"
  | .auipc _ _ => "auipc"
  | .mul _ _ _ => "mul"
  | .mulh _ _ _ => "mulh"
  | .mulhsu _ _ _ => "mulhsu"
  | .mulhu _ _ _ => "mulhu"
  | .div _ _ _ => "div"
  | .divu _ _ _ => "divu"
  | .rem _ _ _ => "rem"
  | .remu _ _ _ => "remu"
  | .mulw _ _ _ => "mulw"
  | .divw _ _ _ => "divw"
  | .divuw _ _ _ => "divuw"
  | .remw _ _ _ => "remw"
  | .remuw _ _ _ => "remuw"
  | .lb _ _ _ => "lb"
  | .lh _ _ _ => "lh"
  | .lw _ _ _ => "lw"
  | .ld _ _ _ => "ld"
  | .lbu _ _ _ => "lbu"
  | .lhu _ _ _ => "lhu"
  | .lwu _ _ _ => "lwu"
  | .sb _ _ _ => "sb"
  | .sh _ _ _ => "sh"
  | .sw _ _ _ => "sw"
  | .sd _ _ _ => "sd"
  | .beq _ _ _ => "beq"
  | .bne _ _ _ => "bne"
  | .blt _ _ _ => "blt"
  | .bge _ _ _ => "bge"
  | .bltu _ _ _ => "bltu"
  | .bgeu _ _ _ => "bgeu"
  | .jal _ _ => "jal"
  | .jalr _ _ _ => "jalr"

/-- The ABI names in register order (R127); x8 is also fp. -/
def abiNames : List String :=
  ["zero", "ra", "sp", "gp", "tp", "t0", "t1", "t2", "s0", "s1", "a0", "a1", "a2", "a3", "a4", "a5"]
  ++ ["a6", "a7", "s2", "s3", "s4", "s5", "s6", "s7", "s8", "s9", "s10", "s11", "t3", "t4", "t5", "t6"]

/-- The ABI name of a register (R127). -/
def abiName (r : Reg) : String := abiNames.getD r.toNat ""

/-- A register as `x0` to `x31` (R123). -/
def regName (r : Reg) : String := "x" ++ toString r.toNat

/-- A signed immediate in decimal (R123). -/
def decimalText {w : Nat} (v : BitVec w) : String := toString v.toInt

/-- `op rd, rs1, rs2` and the like. -/
def threeOperands (op a b c : String) : String := op ++ " " ++ a ++ ", " ++ b ++ ", " ++ c

/-- `op r, imm(rs1)`. -/
def addressOperands (op r imm base : String) : String :=
  op ++ " " ++ r ++ ", " ++ imm ++ "(" ++ base ++ ")"

/-- The assembler text of an instruction (R123): registers as x-numbers, immediates in decimal, a target
as the byte offset from the instruction's own pc. -/
def assembly (i : Instr) : String :=
  match i with
  | .add rd rs1 rs2 | .sub rd rs1 rs2 | .sll rd rs1 rs2 | .slt rd rs1 rs2 | .sltu rd rs1 rs2
  | .xor rd rs1 rs2 | .srl rd rs1 rs2 | .sra rd rs1 rs2 | .or rd rs1 rs2 | .and rd rs1 rs2
  | .addw rd rs1 rs2 | .subw rd rs1 rs2 | .sllw rd rs1 rs2 | .srlw rd rs1 rs2 | .sraw rd rs1 rs2
  | .mul rd rs1 rs2 | .mulh rd rs1 rs2 | .mulhsu rd rs1 rs2 | .mulhu rd rs1 rs2 | .div rd rs1 rs2
  | .divu rd rs1 rs2 | .rem rd rs1 rs2 | .remu rd rs1 rs2 | .mulw rd rs1 rs2 | .divw rd rs1 rs2
  | .divuw rd rs1 rs2 | .remw rd rs1 rs2 | .remuw rd rs1 rs2 =>
    threeOperands (mnemonic i) (regName rd) (regName rs1) (regName rs2)
  | .addi rd rs1 imm | .slti rd rs1 imm | .sltiu rd rs1 imm | .xori rd rs1 imm | .ori rd rs1 imm
  | .andi rd rs1 imm | .addiw rd rs1 imm =>
    threeOperands (mnemonic i) (regName rd) (regName rs1) (decimalText imm)
  | .slli rd rs1 shamt | .srli rd rs1 shamt | .srai rd rs1 shamt =>
    threeOperands (mnemonic i) (regName rd) (regName rs1) (toString shamt.toNat)
  | .slliw rd rs1 shamt | .srliw rd rs1 shamt | .sraiw rd rs1 shamt =>
    threeOperands (mnemonic i) (regName rd) (regName rs1) (toString shamt.toNat)
  | .lb rd rs1 imm | .lh rd rs1 imm | .lw rd rs1 imm | .ld rd rs1 imm | .lbu rd rs1 imm
  | .lhu rd rs1 imm | .lwu rd rs1 imm | .jalr rd rs1 imm =>
    addressOperands (mnemonic i) (regName rd) (decimalText imm) (regName rs1)
  | .sb rs2 rs1 imm | .sh rs2 rs1 imm | .sw rs2 rs1 imm | .sd rs2 rs1 imm =>
    addressOperands (mnemonic i) (regName rs2) (decimalText imm) (regName rs1)
  | .beq rs1 rs2 offset | .bne rs1 rs2 offset | .blt rs1 rs2 offset | .bge rs1 rs2 offset
  | .bltu rs1 rs2 offset | .bgeu rs1 rs2 offset =>
    threeOperands (mnemonic i) (regName rs1) (regName rs2) (decimalText offset)
  | .lui rd imm20 | .auipc rd imm20 =>
    mnemonic i ++ " " ++ regName rd ++ ", " ++ toString imm20.toNat
  | .jal rd offset =>
    mnemonic i ++ " " ++ regName rd ++ ", " ++ decimalText offset

/-- The pseudo-instructions of R124. A target is a byte offset from the pseudo-instruction's own pc. -/
inductive Pseudo where
  | nop
  | li (rd : Reg) (imm : BitVec 12)
  | li32 (rd : Reg) (imm : BitVec 32)
  | mv (rd rs : Reg)
  | not (rd rs : Reg)
  | neg (rd rs : Reg)
  | negw (rd rs : Reg)
  | sextw (rd rs : Reg)
  | seqz (rd rs : Reg)
  | snez (rd rs : Reg)
  | sltz (rd rs : Reg)
  | sgtz (rd rs : Reg)
  | beqz (rs : Reg) (t : BitVec 13)
  | bnez (rs : Reg) (t : BitVec 13)
  | blez (rs : Reg) (t : BitVec 13)
  | bgez (rs : Reg) (t : BitVec 13)
  | bltz (rs : Reg) (t : BitVec 13)
  | bgtz (rs : Reg) (t : BitVec 13)
  | bgt (rs rt : Reg) (t : BitVec 13)
  | ble (rs rt : Reg) (t : BitVec 13)
  | bgtu (rs rt : Reg) (t : BitVec 13)
  | bleu (rs rt : Reg) (t : BitVec 13)
  | j (t : BitVec 21)
  | jal (t : BitVec 21)
  | jr (rs : Reg)
  | jalr (rs : Reg)
  | ret
  | call (hi : BitVec 20) (lo : BitVec 12)
deriving DecidableEq, Repr

/-- The upper 20 bits of a 32-bit `li`: `imm[31:12] + imm[11]` (R124). -/
def liUpper (imm : BitVec 32) : BitVec 20 :=
  imm.extractLsb' 12 20 + (imm.extractLsb' 11 1).setWidth 20

/-- The real instructions a pseudo-instruction stands for, at consecutive PCs (R124, R125). -/
def Pseudo.expand : Pseudo → List Instr
  | .nop => [.addi 0 0 0]
  | .li rd imm => [.addi rd 0 imm]
  | .li32 rd imm => [.lui rd (liUpper imm), .addiw rd rd (imm.extractLsb' 0 12)]
  | .mv rd rs => [.addi rd rs 0]
  | .not rd rs => [.xori rd rs (-1)]
  | .neg rd rs => [.sub rd 0 rs]
  | .negw rd rs => [.subw rd 0 rs]
  | .sextw rd rs => [.addiw rd rs 0]
  | .seqz rd rs => [.sltiu rd rs 1]
  | .snez rd rs => [.sltu rd 0 rs]
  | .sltz rd rs => [.slt rd rs 0]
  | .sgtz rd rs => [.slt rd 0 rs]
  | .beqz rs t => [.beq rs 0 t]
  | .bnez rs t => [.bne rs 0 t]
  | .blez rs t => [.bge 0 rs t]
  | .bgez rs t => [.bge rs 0 t]
  | .bltz rs t => [.blt rs 0 t]
  | .bgtz rs t => [.blt 0 rs t]
  | .bgt rs rt t => [.blt rt rs t]
  | .ble rs rt t => [.bge rt rs t]
  | .bgtu rs rt t => [.bltu rt rs t]
  | .bleu rs rt t => [.bgeu rt rs t]
  | .j t => [.jal 0 t]
  | .jal t => [.jal 1 t]
  | .jr rs => [.jalr 0 rs 0]
  | .jalr rs => [.jalr 1 rs 0]
  | .ret => [.jalr 0 1 0]
  | .call hi lo => [.auipc 1 hi, .jalr 1 1 lo]

end Sys2Proof.Machine
end

