-- ==== Sys2Proof/Machine/Report.lean ====
section
/-! DEFINITION. What the outside sees of a run: the end-of-run report (70_reset_and_hazards.md R349,
20_memory.md R90) and the exit status (R351). The report's text layout is not normative and not here. -/

namespace Sys2Proof.Machine

/-- The items of R349. A ratio whose denominator is 0 has no value (92_eei_decisions.md D38). -/
structure Report where
  totalCycles : Nat
  stalledCycles : Nat
  retired : Nat
  cyclesPerInstruction : Option Rat
  /-- Only with prediction on. -/
  flushCount : Option Nat
  /-- Only with prediction on. -/
  predictionAccuracy : Option Rat
  loads : Nat
  stores : Nat
  writebacks : Nat
  missRate : Option Rat
  registers : List Word
  /-- Byte address and word of every accessed word, in increasing order: the image, not the coherent
  value (20_memory.md R90). -/
  accessedMemory : List (Nat × Word)
deriving DecidableEq, Repr

/-- A quotient, where it has a value. -/
def ratio (n d : Nat) : Option Rat := if d = 0 then none else some (mkRat n d)

/-- The accessed words and their image values (20_memory.md R90). -/
def accessedWords (s : State) : List (Nat × Word) :=
  (s.acc.filter (fun p => p.2)).map (fun p => (8 * p.1, imgWord s p.1))

/-- The report of a run that is Done; no other run has one (R349, R351). -/
def report (s : State) : Option Report :=
  if s.status = .done then
    some
      { totalCycles := s.tick
        stalledCycles := s.stats.numStalls
        retired := s.stats.numInsts
        cyclesPerInstruction := ratio s.tick s.stats.numInsts
        flushCount := if s.cfg.predEnabled then some s.stats.numFlushes else none
        predictionAccuracy :=
          if s.cfg.predEnabled then
            ratio (s.stats.numBranches - s.stats.numMispredictions) s.stats.numBranches
          else none
        loads := s.stats.numLoads
        stores := s.stats.numStores
        writebacks := s.stats.numWritebacks
        missRate := ratio s.stats.numMisses s.stats.numAccesses
        registers := s.x.toList
        accessedMemory := accessedWords s }
  else none

/-- The exit status (R351); a run that has not ended has none. -/
def exitStatus (s : State) : Option Nat :=
  match s.status with
  | .running => none
  | .done => some 0
  | .fatal _ => some 1

end Sys2Proof.Machine
end

