-- ==== Sys2Proof/Machine/Reset.lean ====
section
/-! DEFINITION. The start of a run (70_reset_and_hazards.md R330 to R337): the configuration checks
(20_memory.md R60, R70), the allocation, and the load of the memory-state description MEM_INIT. -/

namespace Sys2Proof.Machine

/-! ## Configuration checks -/

/-- A power of two. -/
def powerOfTwo (n : Nat) : Bool := decide (n ≠ 0) && decide (2 ^ n.log2 = n)

/-- MEM_SIZE is a multiple of 8 (R60). -/
def memSizeOk (c : Config) : Bool := decide (c.memSize % 8 = 0)

/-- The cache geometry (R70). -/
def geometryOk (c : Config) : Bool :=
  powerOfTwo c.blockBytes && decide (c.blockBytes % 8 = 0) && powerOfTwo c.ways
    && decide (c.cacheBytes % (c.blockBytes * c.ways) = 0) && decide (1 ≤ numSets c)

/-- The first configuration error in the order of 60_exceptions.md R305, if any. -/
def configError (c : Config) : Option FatalCode :=
  if memSizeOk c = false then some .cfgMemSize
  else if geometryOk c = false then some .cfgCacheGeometry
  else none

/-! ## The memory-state description (R334 to R336), as characters -/

/-- A text cut at its line ends. -/
def splitLines : List Char → List (List Char)
  | [] => [[]]
  | c :: rest =>
    if c = '\n' then [] :: splitLines rest
    else
      match splitLines rest with
      | [] => [[c]]
      | line :: lines => (c :: line) :: lines

/-- A line without its comment and without its spaces and tabs (R334 (a), (b)). -/
def stripLine (line : List Char) : List Char :=
  (line.takeWhile (fun c => decide (c ≠ '#'))).filter (fun c => decide (c ≠ ' ' ∧ c ≠ '\t'))

/-- The value of a decimal digit. -/
def digitOf (c : Char) : Option Nat :=
  if 48 ≤ c.toNat ∧ c.toNat ≤ 57 then some (c.toNat - 48) else none

/-- Digits read onto a number already read. -/
def digitsFrom (acc : Nat) : List Char → Option Nat
  | [] => some acc
  | c :: rest =>
    match digitOf c with
    | some d => digitsFrom (10 * acc + d) rest
    | none => none

/-- A non-empty string of decimal digits. -/
def decimal : List Char → Option Nat
  | [] => none
  | c :: rest => digitsFrom 0 (c :: rest)

/-- An optional `-` and a non-empty string of decimal digits (R334 (d)). -/
def signedDecimal : List Char → Option Int
  | '-' :: rest => (decimal rest).map (fun n => -(n : Int))
  | cs => (decimal cs).map (fun n => (n : Int))

/-- What a line of MEM_INIT says. -/
inductive MemLine where
  /-- Blank, or a comment (R334 (c)). -/
  | blank
  /-- Not `<address>=<value>`, or the value out of range (R336 (1)). -/
  | malformed
  /-- Word at byte address `address` set to `value`. -/
  | entry (address : Nat) (value : Word)
deriving DecidableEq, Repr

/-- The characters before the first `=` and those after it. -/
def splitAtEquals : List Char → Option (List Char × List Char)
  | [] => none
  | c :: rest =>
    if c = '=' then some ([], rest)
    else (splitAtEquals rest).map (fun p => (c :: p.1, p.2))

/-- A value in the range −2^63 .. 2^64 − 1 (R335). -/
def valueInRange (v : Int) : Bool :=
  decide (-9223372036854775808 ≤ v) && decide (v ≤ 18446744073709551615)

/-- A line read (R334, R335). -/
def parseLine (line : List Char) : MemLine :=
  match stripLine line with
  | [] => .blank
  | c :: cs =>
    match splitAtEquals (c :: cs) with
    | none => .malformed
    | some (left, right) =>
      match decimal left, signedDecimal right with
      | some a, some v => if valueInRange v then .entry a (BitVec.ofInt 64 v) else .malformed
      | _, _ => .malformed

/-- Whether an earlier line defined the address with another value (R336 (3)). -/
def conflicts (seen : List (Nat × Word)) (a : Nat) (v : Word) : Bool :=
  seen.any (fun p => decide (p.1 = a) && decide (p.2 ≠ v))

/-- The lines loaded in file order, the first error raised (R336, 60_exceptions.md R305). `Acc` is not
touched (R335). -/
def loadLines (seen : List (Nat × Word)) : List (List Char) → State → State
  | [], s => s
  | line :: lines, s =>
    match parseLine line with
    | .blank => loadLines seen lines s
    | .malformed => raiseFatal .memstateMalformed s
    | .entry a v =>
      if a % 8 ≠ 0 ∨ s.cfg.memSize < a + 8 then raiseFatal .memstateAddr s
      else if conflicts seen a v then raiseFatal .memstateConflict s
      else loadLines ((a, v) :: seen) lines { s with img := s.img.writeLE a 8 v }

/-- REG_INIT loaded; register 0 is 0 whatever it says (10_state.md R32, log entry 15). -/
def loadRegs (regInit : Vector Word 32) (s : State) : State :=
  { s with x := regInit.set 0 0#64 }

/-- The block as built for a run (R330): configuration checks, allocation, registers, memory state. The
state is Running at tick 0, or stopped by the first Fatal. No check of FORWARDING stands here: R330 and
60_exceptions.md R305 list none, so a block with FORWARDING = true is built, a Fatal of the configuration
or of the memory state comes first, and `tick`, `step` and the meanings refuse the block that is Running
(log entry 20, DESIGN CHOICE). -/
def construct (cfg : Config) (prog : List (Nat × BitVec 32)) (regInit : Vector Word 32)
    (memInit : List Char) : State :=
  match configError cfg with
  | some code => raiseFatal code (State.allocate cfg prog)
  | none => loadLines [] (splitLines memInit) (loadRegs regInit (State.allocate cfg prog))

end Sys2Proof.Machine
end

