-- ==== Sys2Proof/Machine/Table.lean ====
section
/-! DEFINITION. The opcode table as the spec gives it (opcode_table.json; 30_encoding.md R112, R113): one
row per opcode in table order, so that row `k` has `opid` k. The decoder and the attribute functions are
written separately from the prose; claims compare them with these rows. -/

namespace Sys2Proof

/-- A row of opcode_table.json. -/
structure TableRow where
  mnemonic : String
  cls : OpClass
  lat : Nat
  /-- The access width in bytes; 0 for a class that accesses nothing. -/
  width : Nat
  /-- Whether a load sign-extends; false where the table has no such attribute. -/
  signed : Bool
  readsRs1 : Bool
  readsRs2 : Bool
  writesRd : Bool
  mask : BitVec 32
  word : BitVec 32
deriving DecidableEq, Repr

/-- The rows of class ALU. -/
def aluRows : List TableRow :=
  [⟨"add", .alu, 1, 0, false, true, true, true, 0xFE00707F#32, 0x00000033#32⟩,
   ⟨"sub", .alu, 1, 0, false, true, true, true, 0xFE00707F#32, 0x40000033#32⟩,
   ⟨"sll", .alu, 1, 0, false, true, true, true, 0xFE00707F#32, 0x00001033#32⟩,
   ⟨"slt", .alu, 1, 0, false, true, true, true, 0xFE00707F#32, 0x00002033#32⟩,
   ⟨"sltu", .alu, 1, 0, false, true, true, true, 0xFE00707F#32, 0x00003033#32⟩,
   ⟨"xor", .alu, 1, 0, false, true, true, true, 0xFE00707F#32, 0x00004033#32⟩,
   ⟨"srl", .alu, 1, 0, false, true, true, true, 0xFE00707F#32, 0x00005033#32⟩,
   ⟨"sra", .alu, 1, 0, false, true, true, true, 0xFE00707F#32, 0x40005033#32⟩,
   ⟨"or", .alu, 1, 0, false, true, true, true, 0xFE00707F#32, 0x00006033#32⟩,
   ⟨"and", .alu, 1, 0, false, true, true, true, 0xFE00707F#32, 0x00007033#32⟩,
   ⟨"addw", .alu, 1, 0, false, true, true, true, 0xFE00707F#32, 0x0000003B#32⟩,
   ⟨"subw", .alu, 1, 0, false, true, true, true, 0xFE00707F#32, 0x4000003B#32⟩,
   ⟨"sllw", .alu, 1, 0, false, true, true, true, 0xFE00707F#32, 0x0000103B#32⟩,
   ⟨"srlw", .alu, 1, 0, false, true, true, true, 0xFE00707F#32, 0x0000503B#32⟩,
   ⟨"sraw", .alu, 1, 0, false, true, true, true, 0xFE00707F#32, 0x4000503B#32⟩,
   ⟨"addi", .alu, 1, 0, false, true, false, true, 0x0000707F#32, 0x00000013#32⟩,
   ⟨"slti", .alu, 1, 0, false, true, false, true, 0x0000707F#32, 0x00002013#32⟩,
   ⟨"sltiu", .alu, 1, 0, false, true, false, true, 0x0000707F#32, 0x00003013#32⟩,
   ⟨"xori", .alu, 1, 0, false, true, false, true, 0x0000707F#32, 0x00004013#32⟩,
   ⟨"ori", .alu, 1, 0, false, true, false, true, 0x0000707F#32, 0x00006013#32⟩,
   ⟨"andi", .alu, 1, 0, false, true, false, true, 0x0000707F#32, 0x00007013#32⟩,
   ⟨"slli", .alu, 1, 0, false, true, false, true, 0xFC00707F#32, 0x00001013#32⟩,
   ⟨"srli", .alu, 1, 0, false, true, false, true, 0xFC00707F#32, 0x00005013#32⟩,
   ⟨"srai", .alu, 1, 0, false, true, false, true, 0xFC00707F#32, 0x40005013#32⟩,
   ⟨"addiw", .alu, 1, 0, false, true, false, true, 0x0000707F#32, 0x0000001B#32⟩,
   ⟨"slliw", .alu, 1, 0, false, true, false, true, 0xFE00707F#32, 0x0000101B#32⟩,
   ⟨"srliw", .alu, 1, 0, false, true, false, true, 0xFE00707F#32, 0x0000501B#32⟩,
   ⟨"sraiw", .alu, 1, 0, false, true, false, true, 0xFE00707F#32, 0x4000501B#32⟩,
   ⟨"lui", .alu, 1, 0, false, false, false, true, 0x0000007F#32, 0x00000037#32⟩,
   ⟨"auipc", .alu, 1, 0, false, false, false, true, 0x0000007F#32, 0x00000017#32⟩]

/-- The rows of class MULDIV. -/
def muldivRows : List TableRow :=
  [⟨"mul", .muldiv, 2, 0, false, true, true, true, 0xFE00707F#32, 0x02000033#32⟩,
   ⟨"mulh", .muldiv, 2, 0, false, true, true, true, 0xFE00707F#32, 0x02001033#32⟩,
   ⟨"mulhsu", .muldiv, 2, 0, false, true, true, true, 0xFE00707F#32, 0x02002033#32⟩,
   ⟨"mulhu", .muldiv, 2, 0, false, true, true, true, 0xFE00707F#32, 0x02003033#32⟩,
   ⟨"div", .muldiv, 2, 0, false, true, true, true, 0xFE00707F#32, 0x02004033#32⟩,
   ⟨"divu", .muldiv, 2, 0, false, true, true, true, 0xFE00707F#32, 0x02005033#32⟩,
   ⟨"rem", .muldiv, 2, 0, false, true, true, true, 0xFE00707F#32, 0x02006033#32⟩,
   ⟨"remu", .muldiv, 2, 0, false, true, true, true, 0xFE00707F#32, 0x02007033#32⟩,
   ⟨"mulw", .muldiv, 2, 0, false, true, true, true, 0xFE00707F#32, 0x0200003B#32⟩,
   ⟨"divw", .muldiv, 2, 0, false, true, true, true, 0xFE00707F#32, 0x0200403B#32⟩,
   ⟨"divuw", .muldiv, 2, 0, false, true, true, true, 0xFE00707F#32, 0x0200503B#32⟩,
   ⟨"remw", .muldiv, 2, 0, false, true, true, true, 0xFE00707F#32, 0x0200603B#32⟩,
   ⟨"remuw", .muldiv, 2, 0, false, true, true, true, 0xFE00707F#32, 0x0200703B#32⟩]

/-- The rows of class LOAD. -/
def loadRows : List TableRow :=
  [⟨"lb", .load, 1, 1, true, true, false, true, 0x0000707F#32, 0x00000003#32⟩,
   ⟨"lh", .load, 1, 2, true, true, false, true, 0x0000707F#32, 0x00001003#32⟩,
   ⟨"lw", .load, 1, 4, true, true, false, true, 0x0000707F#32, 0x00002003#32⟩,
   ⟨"ld", .load, 1, 8, false, true, false, true, 0x0000707F#32, 0x00003003#32⟩,
   ⟨"lbu", .load, 1, 1, false, true, false, true, 0x0000707F#32, 0x00004003#32⟩,
   ⟨"lhu", .load, 1, 2, false, true, false, true, 0x0000707F#32, 0x00005003#32⟩,
   ⟨"lwu", .load, 1, 4, false, true, false, true, 0x0000707F#32, 0x00006003#32⟩]

/-- The rows of class STORE. -/
def storeRows : List TableRow :=
  [⟨"sb", .store, 1, 1, false, true, true, false, 0x0000707F#32, 0x00000023#32⟩,
   ⟨"sh", .store, 1, 2, false, true, true, false, 0x0000707F#32, 0x00001023#32⟩,
   ⟨"sw", .store, 1, 4, false, true, true, false, 0x0000707F#32, 0x00002023#32⟩,
   ⟨"sd", .store, 1, 8, false, true, true, false, 0x0000707F#32, 0x00003023#32⟩]

/-- The rows of class BRANCH. -/
def branchRows : List TableRow :=
  [⟨"beq", .branch, 1, 0, false, true, true, false, 0x0000707F#32, 0x00000063#32⟩,
   ⟨"bne", .branch, 1, 0, false, true, true, false, 0x0000707F#32, 0x00001063#32⟩,
   ⟨"blt", .branch, 1, 0, false, true, true, false, 0x0000707F#32, 0x00004063#32⟩,
   ⟨"bge", .branch, 1, 0, false, true, true, false, 0x0000707F#32, 0x00005063#32⟩,
   ⟨"bltu", .branch, 1, 0, false, true, true, false, 0x0000707F#32, 0x00006063#32⟩,
   ⟨"bgeu", .branch, 1, 0, false, true, true, false, 0x0000707F#32, 0x00007063#32⟩]

/-- The rows of class JUMP. -/
def jumpRows : List TableRow :=
  [⟨"jal", .jump, 1, 0, false, false, false, true, 0x0000007F#32, 0x0000006F#32⟩,
   ⟨"jalr", .jump, 1, 0, false, true, false, true, 0x0000707F#32, 0x00000067#32⟩]

/-- The table. -/
def opcodeRows : List TableRow :=
  aluRows ++ muldivRows ++ loadRows ++ storeRows ++ branchRows ++ jumpRows

end Sys2Proof
end

