-- ==== Sys2Proof/Safety.lean ====
section
/-! DEFINITION. The terms claims are made in: the pipeline invariant every run keeps
(40_pipeline_control.md R182 to R191, 20_memory.md R88, R89), the canonical form of the sparse maps, and
the sequential reading of one instruction (R190) that the pipeline is compared with. -/

namespace Sys2Proof.Machine

/-! ## What is in flight -/

/-- The records decode has admitted, oldest first (R188). -/
def admitted (s : State) : List Rec :=
  [s.lMW, s.missInst, s.lXM, s.fuInst, s.lDX].filterMap id

/-- The records `Exec` has written, oldest first. -/
def executed (s : State) : List Rec := [s.lMW, s.missInst, s.lXM, s.fuInst].filterMap id

/-- Everything in flight, oldest first. -/
def inFlight (s : State) : List Rec := admitted s ++ s.lFD.toList

/-- The address of the next instruction to retire: the oldest record's, else the one fetch asks for. -/
def archPc (s : State) : Word :=
  match oldest s with
  | some r => r.pc
  | none => s.pc

/-- A record that will write register `k` (R161). -/
def writesReg (k : Nat) (r : Rec) : Bool :=
  r.instr.writesRd && decide (r.instr.rd ≠ 0#5) && decide (r.instr.rd.toNat = k)

/-- A younger record `r` reads no register that an older record `q` will write (R161). -/
def independent (q r : Rec) : Bool :=
  !(q.instr.writesRd && decide (q.instr.rd ≠ 0#5)
    && ((r.instr.readsRs1 && decide (r.instr.rs1 = q.instr.rd))
      || (r.instr.readsRs2 && decide (r.instr.rs2 = q.instr.rd))))

/-- The operands a record carries are the registers' present values (R162, R190). -/
def operandsCurrent (s : State) (r : Rec) : Bool := decide (readOperands s r = r)

/-- Where fetch goes after a record: the predicted target of a conditional branch with prediction on
(R171), the target of a jump (R166), else the fall-through address (R170). -/
def fetchNext (c : Config) (r : Rec) : Word :=
  match r.instr.cls with
  | .branch => if c.predEnabled then r.predTarget else r.pc + 4#64
  | .jump => r.jumpTarget
  | .alu | .muldiv | .load | .store => r.pc + 4#64

/-- `pc` is where fetch goes after the youngest record; a jump still in L_FD has not redirected it yet
(R186). -/
def fetchFollows (s : State) : Bool :=
  match s.lFD with
  | some q => decide (q.instr.cls = .jump) || decide (s.pc = fetchNext s.cfg q)
  | none =>
    match (admitted s).getLast? with
    | some q => decide (s.pc = fetchNext s.cfg q)
    | none => true

/-- With prediction off, fetch is stopped exactly while a conditional branch is the youngest record
(R172, R191). -/
def fetchStopped (s : State) : Bool :=
  !s.cfg.predEnabled && (inFlight s).getLast?.any Rec.isBranch

/-- The request of an outstanding miss (R81, R183): for a block wholly in memory and not in the cache. -/
def missConsistent (s : State) (r : Rec) : Bool :=
  (decide (r.instr.cls = .load) || decide (r.instr.cls = .store))
    && !misaligned r
    && decide (s.pendAddr.toNat = blockAddr s.cfg r.memAddr.toNat)
    && decide (s.pendSize = s.cfg.blockBytes)
    && decide (blockAddr s.cfg r.memAddr.toNat + s.cfg.blockBytes ≤ s.cfg.memSize)
    && !isHit s r.memAddr.toNat

/-- A valid block lies in memory, and if it is clean it holds what the image holds (R66, R68, R82). -/
def blockConsistent (s : State) (set : Nat) : Bool :=
  !(blkAt s set 0).valid
    || (decide (blockBase s.cfg set (blkAt s set 0).tag + s.cfg.blockBytes ≤ s.cfg.memSize)
      && ((blkAt s set 0).dirty
        || (List.range s.cfg.blockBytes).all (fun j =>
            decide ((blkAt s set 0).data.read j
              = s.img.read (blockBase s.cfg set (blkAt s set 0).tag + j)))))

/-- Every word of the program spells an admitted instruction (30_encoding.md R120). -/
def programAdmitted (s : State) : Bool := s.prog.all (fun p => (decodeWord p.2).isSome)

/-- The pipeline invariant, with any collaborators. It holds between any two stages of a tick. -/
structure Inv (s : State) (k : Collaborators := .reference) : Prop where
  /-- R60, R70. -/
  config : configError s.cfg = none
  /-- R315 (b). -/
  noForwarding : s.cfg.forwarding = false
  /-- R120. -/
  program : programAdmitted s = true
  /-- R162, R190. -/
  operands : ∀ r ∈ admitted s, operandsCurrent s r = true
  /-- R145, R149: what `Exec` wrote is what it would write again. -/
  results : ∀ r ∈ executed s, k.execute r = r
  /-- R161. -/
  interlock : (admitted s).Pairwise (fun q r => independent q r = true)
  /-- R189. -/
  depCounts : ∀ k : Fin 32, s.dep.get k = (admitted s).countP (writesReg k.val)
  /-- R188. -/
  chain : (inFlight s).IsChain (fun q r => r.pc = fetchNext s.cfg q)
  /-- R174, R186. -/
  follows : fetchFollows s = true
  /-- R156, R172. -/
  stopped : s.pcValid = !fetchStopped s
  /-- R191: with prediction off nothing is fetched behind a conditional branch. -/
  branchLast : s.cfg.predEnabled = false → ∀ r ∈ (inFlight s).dropLast, r.isBranch = false
  /-- R183. -/
  pending : s.pendValid = s.missInst.isSome
  /-- R183. -/
  miss : ∀ r ∈ s.missInst, missConsistent s r = true
  /-- R182, R184. -/
  missAlone : s.missInst.isSome = true → s.lMW = none
  /-- R82, R89. -/
  blocks : ∀ set < numSets s.cfg, blockConsistent s set = true

/-- A point between two steps: nothing waits in L_MW and the run goes on. -/
def Boundary (s : State) (k : Collaborators := .reference) : Prop :=
  Inv s k ∧ s.lMW = none ∧ s.status = .running

/-- A boundary with nothing in flight: the block is about to fetch. -/
def Quiet (s : State) (k : Collaborators := .reference) : Prop := Boundary s k ∧ oldest s = none

/-- `i` is the instruction the block retires next. -/
def Next (i : Instr) (s : State) (k : Collaborators := .reference) : Prop :=
  Boundary s k ∧ nextUp s = .instr i

/-! ## Canonical form -/

/-- Every sparse map of the state is in canonical form, and every entry of a predictor table within the
table's sizes (40_pipeline_control.md R175). -/
def canonical (s : State) : Bool :=
  Memory.wf s.img && Sparse.wf false s.acc && Sparse.wf ({} : Block) s.blk
    && s.blk.all (fun p => Memory.wf p.2.data) && Sparse.rising s.prog
    && s.bht.wf && s.pht.wf && s.btb.wf

/-! ## The sequential reading of one instruction (R190) -/

/-- The record of `i` executed in program order: operands as the registers stand (R149, R162). -/
def seqRecord (i : Instr) (s : State) (k : Collaborators := .reference) : Rec :=
  k.execute (readOperands s (Rec.fresh i (archPc s)))

/-- The address of the next instruction in program order (R149, R166). -/
def seqNextPc (i : Instr) (s : State) (k : Collaborators := .reference) : Word :=
  match i.cls with
  | .branch => (seqRecord i s k).actTarget
  | .jump => (readOperands s (Rec.fresh i (archPc s))).jumpTarget
  | .alu | .muldiv | .load | .store => archPc s + 4#64

/-- The data address of a load or store, which no collaborator chooses (R149, 42_memory_ops.md R261). -/
def seqAddress (i : Instr) (s : State) : Nat := (seqRecord i s).memAddr.toNat

/-- The register value of `i`: a load's from the coherent memory (20_memory.md R78, R89). -/
def seqValue (i : Instr) (s : State) (k : Collaborators := .reference) : Word :=
  if i.cls = .load then loadValue i (coherentLE s (seqAddress i s) i.accessBytes)
  else (seqRecord i s k).rdVal

/-- Whether `i` stores to the byte at `a`: the `n(op)` bytes from its address (42_memory_ops.md R263). -/
def storesTo (i : Instr) (s : State) (a : Nat) : Bool :=
  decide (i.cls = .store) && decide (seqAddress i s ≤ a)
    && decide (a < seqAddress i s + i.accessBytes)

/-- Byte `j` of a word, the least significant first (20_memory.md R61). -/
def byteOf (v : Word) (j : Nat) : Byte := (v >>> (8 * j)).setWidth 8

/-- The memory after `i`, byte by byte. -/
def seqByte (i : Instr) (s : State) (a : Nat) : Byte :=
  if storesTo i s a then byteOf (seqRecord i s).rs2Val (a - seqAddress i s) else coherentByte s a

/-- The Fatal an access raises at issue, if any (42_memory_ops.md R262). -/
def accessError (i : Instr) (s : State) : Option FatalCode :=
  if i.cls = .load ∨ i.cls = .store then
    if seqAddress i s % i.accessBytes ≠ 0 then some .accessMisaligned
    else if isHit s (seqAddress i s) = false
        ∧ s.cfg.memSize < blockAddr s.cfg (seqAddress i s) + s.cfg.blockBytes then
      some .accessOutOfRange
    else none
  else none

/-- The target fetch records for a conditional branch at `pc` (40_pipeline_control.md R171). -/
def predictedTarget (k : Collaborators) (t : Tables) (pc : Word) : Word :=
  if (k.predict t pc).1 then (k.predict t pc).2 else pc + 4#64

/-- The predicted target of the next instruction, if it is a conditional branch: its record's, or the one
fetch will give it (40_pipeline_control.md R171, R176). -/
def predictedNext (s : State) (k : Collaborators := .reference) : Word :=
  match oldest s with
  | some r => r.predTarget
  | none => predictedTarget k s.tables s.pc

/-- Whether the conditional branch `i` is mispredicted (40_pipeline_control.md R153). -/
def mispredicts (i : Instr) (s : State) (k : Collaborators := .reference) : Bool :=
  decide (i.cls = .branch) && s.cfg.predEnabled && decide (predictedNext s k ≠ seqNextPc i s k)

/-- `t` is `s` after `i` alone, in registers, coherent memory and the next instruction's address. -/
structure Sequential (i : Instr) (s t : State) (k : Collaborators := .reference) : Prop where
  regs : ∀ r, readReg t r =
    if i.writesRd = true ∧ r = i.rd ∧ r ≠ 0#5 then seqValue i s k else readReg s r
  mem : ∀ a, coherentByte t a = seqByte i s a
  next : archPc t = seqNextPc i s k

/-! ## Frames: what an instruction leaves alone, and what it counts -/

/-- Whether word `k` of the image is in the block of `a` (20_memory.md R66). -/
def inBlock (c : Config) (a k : Nat) : Bool :=
  decide (blockAddr c a / 8 ≤ k) && decide (k < (blockAddr c a + c.blockBytes) / 8)

/-- The block goes on, with the same parameters, program and predictor tables (00_scope.md R8,
20_memory.md R95, 40_pipeline_control.md R176). -/
structure Continues (s t : State) : Prop where
  boundary : Boundary t
  cfg : t.cfg = s.cfg
  prog : t.prog = s.prog
  bht : t.bht = s.bht
  pht : t.pht = s.pht
  btb : t.btb = s.btb

/-- `x[rd]` is `v`, or nothing is written if `rd` is 0; every other register is as before
(40_pipeline_control.md R152). -/
structure RegisterWritten (rd : Reg) (v : Word) (s t : State) : Prop where
  read : ∀ r, readReg t r = if r = rd ∧ r ≠ 0#5 then v else readReg s r
  zero : t.x.get 0 = s.x.get 0

/-- Memory, cache and request are as before, byte by byte and field by field. -/
structure MemoryKept (s t : State) : Prop where
  bytes : ∀ a, coherentByte t a = coherentByte s a
  img : t.img = s.img
  blk : t.blk = s.blk
  acc : t.acc = s.acc
  missInst : t.missInst = s.missInst
  pendValid : t.pendValid = s.pendValid
  pendAddr : t.pendAddr = s.pendAddr
  pendSize : t.pendSize = s.pendSize
  pendTick : t.pendTick = s.pendTick

/-- One retirement, and so much of everything else, is counted; stall cycles may be (10_state.md
R34). -/
structure Counted (s t : State) (branches mispredictions loads stores misses writebacks : Nat) :
    Prop where
  numInsts : t.stats.numInsts = s.stats.numInsts + 1
  numStalls : s.stats.numStalls ≤ t.stats.numStalls
  numBranches : t.stats.numBranches = s.stats.numBranches + branches
  numMispredictions : t.stats.numMispredictions = s.stats.numMispredictions + mispredictions
  numFlushes : t.stats.numFlushes = s.stats.numFlushes + mispredictions
  numAccesses : t.stats.numAccesses = s.stats.numAccesses + loads + stores
  numLoads : t.stats.numLoads = s.stats.numLoads + loads
  numStores : t.stats.numStores = s.stats.numStores + stores
  numMisses : t.stats.numMisses = s.stats.numMisses + misses
  numWritebacks : t.stats.numWritebacks = s.stats.numWritebacks + writebacks

/-- What an access at `a` does to the cache, the image, the accessed flags and the counters: on a hit it
uses the block there; on a miss the victim is written back if it is dirty, and the block filled
(20_memory.md R76 to R84). The miss of a record that is waiting already has been counted. -/
structure CacheUsed (a : Nat) (store : Bool) (s t : State) : Prop where
  present : isHit t a = true
  dirty : (blockOf t a).dirty = (store || (isHit s a && (blockOf s a).dirty))
  others : ∀ set, set ≠ setIndex s.cfg a → blkAt t set 0 = blkAt s set 0
  image : isHit s a = true → t.img = s.img
  missInst : t.missInst = none
  pendValid : t.pendValid = false
  accessed : ∀ k, Machine.accessed t k =
    (Machine.accessed s k || (!isHit s a && s.missInst.isNone && inBlock s.cfg a k))
  counted : Counted s t 0 0 (if store then 0 else 1) (if store then 1 else 0)
    (if !isHit s a && s.missInst.isNone then 1 else 0)
    (if !isHit s a && (blockOf s a).valid && (blockOf s a).dirty then 1 else 0)

/-- A Fatal has been raised and nothing else of what a program can observe has happened: the clock of
the run status apart, registers, memory and counters of completed work are as before (60_exceptions.md
R301, R307). A miss out of range has been counted (20_memory.md R81). -/
structure FatalRaised (c : FatalCode) (s t : State) : Prop where
  status : t.status = .fatal c
  cfg : t.cfg = s.cfg
  prog : t.prog = s.prog
  x : t.x = s.x
  bytes : ∀ a, coherentByte t a = coherentByte s a
  img : t.img = s.img
  blk : t.blk = s.blk
  acc : t.acc = s.acc
  stats : t.stats = { s.stats with
    numStalls := t.stats.numStalls
    numMisses := s.stats.numMisses + if c = .accessOutOfRange then 1 else 0 }

/-! ## Result rules of the instruction files -/

/-- The encoding and the attributes an instruction rule gives its opcode (30_encoding.md R113, R116). -/
structure Spelled (i : Instr) (mask word : BitVec 32) (cls : OpClass) (lat : Nat)
    (readsRs1 readsRs2 writesRd : Bool) : Prop where
  word : encode i &&& mask = word
  cls : i.cls = cls
  lat : i.lat = lat
  readsRs1 : i.readsRs1 = readsRs1
  readsRs2 : i.readsRs2 = readsRs2
  writesRd : i.writesRd = writesRd

/-- At its turn `i` completes: it writes `v` to `x[rd]` and the program goes on at `pc` (41_integer_ops.md
R200, R201; 43_control_ops.md R289). -/
def WritesResult (i : Instr) (rd : Reg) (v pc : Word) (s : State) : Prop :=
  ∃ t, exec i s = .next t ∧ Continues s t ∧ RegisterWritten rd v s t ∧ MemoryKept s t
    ∧ Counted s t 0 0 0 0 0 0 ∧ archPc t = pc

/-- At its turn the load `i` of `n` bytes at `a` completes with `v` in `x[rd]`, or raises the Fatal of
42_memory_ops.md R262. -/
def LoadsFrom (i : Instr) (rd : Reg) (a n : Nat) (v : Word) (s : State) : Prop :=
  (a % n = 0 → (isHit s a = true ∨ blockAddr s.cfg a + s.cfg.blockBytes ≤ s.cfg.memSize) →
    ∃ t, exec i s = .next t ∧ Continues s t ∧ RegisterWritten rd v s t
      ∧ (∀ b, coherentByte t b = coherentByte s b) ∧ CacheUsed a false s t
      ∧ archPc t = archPc s + 4#64)
  ∧ (1 < n → a % n ≠ 0 → ∃ t, exec i s = .next t ∧ FatalRaised .accessMisaligned s t)
  ∧ (a % n = 0 → isHit s a = false → s.cfg.memSize < blockAddr s.cfg a + s.cfg.blockBytes →
    ∃ t, exec i s = .next t ∧ FatalRaised .accessOutOfRange s t)

/-- At its turn the store `i` completes with the low `n` bytes of `v` at `a`, or raises the Fatal of
42_memory_ops.md R262. -/
def StoresTo (i : Instr) (a n : Nat) (v : Word) (s : State) : Prop :=
  (a % n = 0 → (isHit s a = true ∨ blockAddr s.cfg a + s.cfg.blockBytes ≤ s.cfg.memSize) →
    ∃ t, exec i s = .next t ∧ Continues s t ∧ t.x = s.x
      ∧ (∀ b, coherentByte t b = if a ≤ b ∧ b < a + n then byteOf v (b - a) else coherentByte s b)
      ∧ CacheUsed a true s t ∧ archPc t = archPc s + 4#64)
  ∧ (1 < n → a % n ≠ 0 → ∃ t, exec i s = .next t ∧ FatalRaised .accessMisaligned s t)
  ∧ (a % n = 0 → isHit s a = false → s.cfg.memSize < blockAddr s.cfg a + s.cfg.blockBytes →
    ∃ t, exec i s = .next t ∧ FatalRaised .accessOutOfRange s t)

/-- At its turn the conditional branch `i` completes: no register and no byte changes, the program goes on
at `target`, and with prediction off or a wrong prediction nothing is left in flight (43_control_ops.md
R280, R281). -/
def BranchesTo (i : Instr) (target : Word) (s : State) : Prop :=
  ∃ t, exec i s = .next t ∧ Continues s t ∧ t.x = s.x ∧ MemoryKept s t ∧ archPc t = target
    ∧ Counted s t 1 (if s.cfg.predEnabled = true ∧ predictedNext s ≠ target then 1 else 0) 0 0 0 0
    ∧ (s.cfg.predEnabled = false ∨ predictedNext s ≠ target →
      oldest t = none ∧ t.pc = target ∧ t.pcValid = true)

/-! ## Instruction rules: the row of the opcode, and what it does at its turn -/

/-- The 16-bit little-endian value of the coherent bytes at `a` (20_memory.md R61, R89). -/
def coherent16 (s : State) (a : Nat) : BitVec 16 := coherentByte s (a + 1) ++ coherentByte s a

/-- The 32-bit little-endian value of the coherent bytes at `a`. -/
def coherent32 (s : State) (a : Nat) : BitVec 32 := coherent16 s (a + 2) ++ coherent16 s a

/-- The 64-bit little-endian value of the coherent bytes at `a`. -/
def coherent64 (s : State) (a : Nat) : BitVec 64 := coherent32 s (a + 4) ++ coherent32 s a

/-- The data address of a load or store with base `rs1` (42_memory_ops.md R261). -/
def addressOf (s : State) (rs1 : Reg) (imm : BitVec 12) : Nat :=
  (readReg s rs1 + imm.signExtend 64).toNat

/-- A rule of the classes ALU and MULDIV: the row, the result and the fall-through (41_integer_ops.md
R200). -/
def ResultRule (i : Instr) (mask word : BitVec 32) (cls : OpClass) (lat : Nat)
    (readsRs1 readsRs2 : Bool) (rd : Reg) (v : Word) (s : State) : Prop :=
  Spelled i mask word cls lat readsRs1 readsRs2 true
    ∧ (Next i s → WritesResult i rd v (archPc s + 4#64) s)

/-- A rule of the class LOAD (42_memory_ops.md R260). -/
def LoadRule (i : Instr) (word : BitVec 32) (rd : Reg) (a n : Nat) (v : Word) (s : State) : Prop :=
  Spelled i 0x0000707F#32 word .load 1 true false true ∧ (Next i s → LoadsFrom i rd a n v s)

/-- A rule of the class STORE (42_memory_ops.md R260). -/
def StoreRule (i : Instr) (word : BitVec 32) (a n : Nat) (v : Word) (s : State) : Prop :=
  Spelled i 0x0000707F#32 word .store 1 true true false ∧ (Next i s → StoresTo i a n v s)

/-- A rule of the class BRANCH with condition `taken` (43_control_ops.md R280). -/
def BranchRule (i : Instr) (word : BitVec 32) (taken : Prop) [Decidable taken] (offset : BitVec 13)
    (s : State) : Prop :=
  Spelled i 0x0000707F#32 word .branch 1 true true false
    ∧ (Next i s →
      BranchesTo i (archPc s + if taken then offset.signExtend 64 else 4#64) s)

end Sys2Proof.Machine
end

