-- ==== Sys2Proof/Certificates/Slice0/Obligations.lean ====
section
/-! DEFINITION. The statements about this model, in the order of OBLIGATIONS.json: encoding, reset,
the five stages, the cache and data memory, the tick and its invariants, the sequential reading, the 62
instruction rules, and the report. An instruction rule concludes that the instruction completes at its
turn: `Next i s` says only that the state is one between two retirements that keeps the pipeline
invariant, and that `i` is the instruction which retires next. -/

section Statements

open Sys2Proof Sys2Proof.Machine

/-! ## Encoding -/

/-- One word per format, written out from R116 and R119, decodes to the instruction it stands for, and
three words of no row are refused (R120). -/
def Obligations.WordsDecode : Prop :=
  decodeWord 0b0000000_00010_00001_000_00011_0110011#32 = some (.add 3 1 2)
    ∧ decodeWord 0b111111111111_00000_000_00001_0010011#32 = some (.addi 1 0 (-1))
    ∧ decodeWord 0b010000_111111_00110_101_00101_0010011#32 = some (.srai 5 6 63)
    ∧ decodeWord 0b0100000_11111_00110_101_00101_0011011#32 = some (.sraiw 5 6 31)
    ∧ decodeWord 0b1111111_00101_00010_011_11000_0100011#32 = some (.sd 5 2 (-8))
    ∧ decodeWord 0b0000000_00010_00001_000_00001_1100011#32 = some (.beq 1 2 2048)
    ∧ decodeWord 0b10000000000000000000_00101_0110111#32 = some (.lui 5 0x80000)
    ∧ decodeWord 0b00000000000100000000_00001_1101111#32 = some (.jal 1 2048)
    ∧ decodeWord 0b111111111111_00101_000_00001_1100111#32 = some (.jalr 1 5 (-1))
    ∧ decodeWord 0x0000000F#32 = none ∧ decodeWord 0x00000073#32 = none ∧ decodeWord 0#32 = none

/-- The decoder reads back every well-formed instruction, from its word and from the front of any bytes
that begin with its bytes. The byte order of a word is the model's choice (log entry 16). -/
def Obligations.DecodeAfterEncode : Prop :=
  ∀ i : Instr, i.wellFormed = true →
    decodeWord (encode i) = some i
      ∧ ∀ rest : List Byte, decodeBytes (encodeBytes i ++ rest) = .ok (i, rest)

/-- Where a word spells an instruction it spells a well-formed one, and is its one encoding: no bit of an
admitted word is ignored. -/
def Obligations.EncodeAfterDecode : Prop :=
  ∀ (w : BitVec 32) (i : Instr), decodeWord w = some i → encode i = w ∧ i.wellFormed = true

/-- R112, R118: each opcode has its own row of the 62, at its `opid`; its attributes are that row's, and
its latency is 2 for the class MULDIV and 1 for every other. -/
def Obligations.OpcodeAttributes : Prop :=
  opcodeRows.length = 62
    ∧ ∀ i : Instr, i.opid < 62 ∧ i.lat = (if i.cls = .muldiv then 2 else 1)
      ∧ ∃ row, opcodeRows[i.opid]? = some row ∧ row.mnemonic = mnemonic i ∧ row.cls = i.cls
        ∧ row.lat = i.lat ∧ row.width = i.accessBytes ∧ row.signed = i.signedLoad
        ∧ row.readsRs1 = i.readsRs1 ∧ row.readsRs2 = i.readsRs2 ∧ row.writesRd = i.writesRd
        ∧ encode i &&& row.mask = row.word

/-- R120: a word spells no instruction exactly if it matches no row, and no word matches two rows. -/
def Obligations.RowsPartitionWords : Prop :=
  ∀ w : BitVec 32,
    (decodeWord w = none ↔ ∀ row ∈ opcodeRows, w &&& row.mask ≠ row.word)
      ∧ ∀ (i : Instr) (k : Nat) (row : TableRow), decodeWord w = some i → opcodeRows[k]? = some row →
        (w &&& row.mask = row.word ↔ k = i.opid)

/-- R117: the 64-bit immediate of a decoded word, format by format. -/
def Obligations.ImmediateAssembly : Prop :=
  ∀ (w : BitVec 32) (i : Instr), decodeWord w = some i →
    i.imm =
      match i with
      | .add _ _ _ | .sub _ _ _ | .sll _ _ _ | .slt _ _ _ | .sltu _ _ _ | .xor _ _ _ | .srl _ _ _
      | .sra _ _ _ | .or _ _ _ | .and _ _ _ | .addw _ _ _ | .subw _ _ _ | .sllw _ _ _
      | .srlw _ _ _ | .sraw _ _ _ | .mul _ _ _ | .mulh _ _ _ | .mulhsu _ _ _ | .mulhu _ _ _
      | .div _ _ _ | .divu _ _ _ | .rem _ _ _ | .remu _ _ _ | .mulw _ _ _ | .divw _ _ _
      | .divuw _ _ _ | .remw _ _ _ | .remuw _ _ _ => 0#64
      | .addi _ _ _ | .slti _ _ _ | .sltiu _ _ _ | .xori _ _ _ | .ori _ _ _ | .andi _ _ _
      | .addiw _ _ _ | .lb _ _ _ | .lh _ _ _ | .lw _ _ _ | .ld _ _ _ | .lbu _ _ _ | .lhu _ _ _
      | .lwu _ _ _ | .jalr _ _ _ => (w.extractLsb' 20 12).signExtend 64
      | .slli _ _ _ | .srli _ _ _ | .srai _ _ _ => (w.extractLsb' 20 6).setWidth 64
      | .slliw _ _ _ | .srliw _ _ _ | .sraiw _ _ _ => (w.extractLsb' 20 5).setWidth 64
      | .lui _ _ | .auipc _ _ => (w.extractLsb' 12 20 ++ 0#12).signExtend 64
      | .sb _ _ _ | .sh _ _ _ | .sw _ _ _ | .sd _ _ _ =>
        (w.extractLsb' 25 7 ++ w.extractLsb' 7 5).signExtend 64
      | .beq _ _ _ | .bne _ _ _ | .blt _ _ _ | .bge _ _ _ | .bltu _ _ _ | .bgeu _ _ _ =>
        (w.extractLsb' 31 1 ++ w.extractLsb' 7 1 ++ w.extractLsb' 25 6 ++ w.extractLsb' 8 4
          ++ 0#1).signExtend 64
      | .jal _ _ =>
        (w.extractLsb' 31 1 ++ w.extractLsb' 12 8 ++ w.extractLsb' 20 1 ++ w.extractLsb' 21 10
          ++ 0#1).signExtend 64

/-- R149: whatever `Exec` computes, it writes only the fields its class gives it, and what it writes is a
function of the opcode, the immediate, the two operand values and the record's own pc. -/
def Obligations.ExecContract : Prop :=
  ∀ (k : Collaborators) (r : Rec),
    (r.instr.cls = .alu ∨ r.instr.cls = .muldiv ∨ r.instr.cls = .jump →
      k.execute r = { r with rdVal := (k.execute r).rdVal })
    ∧ (r.instr.cls = .load ∨ r.instr.cls = .store →
      k.execute r = { r with memAddr := r.rs1Val + r.instr.imm })
    ∧ (r.instr.cls = .branch →
      k.execute r =
        { r with
          actTaken := (k.execute r).actTaken
          actTarget := if (k.execute r).actTaken then r.pc + r.instr.imm else r.pc + 4#64 })
    ∧ ∀ q : Rec, q.instr.opid = r.instr.opid → q.instr.imm = r.instr.imm → q.rs1Val = r.rs1Val →
      q.rs2Val = r.rs2Val → q.pc = r.pc →
        (r.instr.cls = .alu ∨ r.instr.cls = .muldiv ∨ r.instr.cls = .jump →
          (k.execute q).rdVal = (k.execute r).rdVal ∧ q.execute.rdVal = r.execute.rdVal)
        ∧ (r.instr.cls = .branch →
          (k.execute q).actTaken = (k.execute r).actTaken
            ∧ q.execute.actTaken = r.execute.actTaken)

/-- R348, R176: the defaults of the collaborators are the reference `Exec` and the baseline policy, and
the machine's meanings and step are the instances of the general ones at the defaults. -/
def Obligations.CollaboratorDefaults : Prop :=
  (∀ (t : Tables) (pc : Word), Collaborators.reference.predict t pc = (false, 0#64))
    ∧ (∀ (r : Rec) (t : Tables), t.writes (Collaborators.reference.update r t) = t)
    ∧ (∀ r : Rec, Collaborators.reference.execute r = r.execute)
    ∧ (∀ (i : Instr) (s : State), exec i s = passage i s .reference)
    ∧ ∀ s : State, step s = stepWith .reference s

/-! ## Reset -/

/-- R331, with the sizes of the predictor tables (R31, R175): every state element of a block built without
an error, from any configuration, program, registers and memory-state text. -/
def Obligations.ResetValues : Prop :=
  ∀ (cfg : Config) (prog : List (Nat × BitVec 32)) (regInit : Vector Word 32) (text : List Char),
    (construct cfg prog regInit text).status = .running →
    let t := construct cfg prog regInit text
    t.cfg = cfg ∧ t.prog = prog ∧ t.tick = 0 ∧ t.pc = cfg.resetPc ∧ t.pcValid = true
      ∧ t.lFD = none ∧ t.lDX = none ∧ t.lXM = none ∧ t.lMW = none ∧ t.fuInst = none ∧ t.fuExit = 0
      ∧ (∀ set way, blkAt t set way
          = { tag := 0, valid := false, dirty := false, lastAccess := 0, data := [] })
      ∧ t.missInst = none
      ∧ (∀ line ∈ splitLines text, ∀ a v, parseLine line = .entry a v → imgWord t (a / 8) = v)
      ∧ (∀ k, (∀ line ∈ splitLines text, ∀ v, parseLine line ≠ .entry (8 * k) v) → imgWord t k = 0#64)
      ∧ (∀ k, accessed t k = false)
      ∧ t.pendValid = false ∧ t.pendAddr = 0#64 ∧ t.pendSize = 0 ∧ t.pendTick = 0
      ∧ (∀ k, t.bht.read k = 0 ∧ t.pht.read k = 0 ∧ t.btb.read k = 0)
      ∧ t.bht.cells = [] ∧ t.pht.cells = [] ∧ t.btb.cells = []
      ∧ t.bht.entries = 2 ^ cfg.bhtBits ∧ t.bht.width = cfg.histBits
      ∧ t.pht.entries = 2 ^ (cfg.phtBits + cfg.histBits) ∧ t.pht.width = cfg.phtEntryBits
      ∧ t.btb.entries = cfg.btbSize ∧ t.btb.width = 64
      ∧ (∀ r : Reg, r ≠ 0#5 → readReg t r = regInit.get (regIndex r)) ∧ t.x.get 0 = 0#64
      ∧ (∀ k, t.dep.get k = 0)
      ∧ t.stats = ⟨0, 0, 0, 0, 0, 0, 0, 0, 0, 0⟩

/-- The host's reset state is the block built from the reference configuration, no program, all-zero
registers and an empty text (95_test_vectors.md section 0; predictor sizes: log entry 2). -/
def Obligations.ResetIsReference : Prop :=
  construct Config.reference [] (Vector.replicate 32 0#64) [] = State.reset
    ∧ numSets Config.reference = 128 ∧ State.reset.status = .running ∧ State.reset.pc = 0#64

/-- R70: the block is built only with a legal cache geometry; MEM_SIZE is checked first (R60, R305), and
nothing is loaded after an error. -/
def Obligations.ConfigurationChecks : Prop :=
  ∀ (cfg : Config) (prog : List (Nat × BitVec 32)) (regInit : Vector Word 32) (text : List Char),
    let t := construct cfg prog regInit text
    let legal := (∃ b, cfg.blockBytes = 2 ^ b) ∧ cfg.blockBytes % 8 = 0 ∧ (∃ w, cfg.ways = 2 ^ w)
      ∧ cfg.cacheBytes % (cfg.blockBytes * cfg.ways) = 0
      ∧ 1 ≤ cfg.cacheBytes / (cfg.blockBytes * cfg.ways)
    (cfg.memSize % 8 ≠ 0 → t.status = .fatal .cfgMemSize ∧ t.img = [])
      ∧ (cfg.memSize % 8 = 0 → ¬ legal → t.status = .fatal .cfgCacheGeometry ∧ t.img = [])
      ∧ (cfg.memSize % 8 = 0 → legal →
        t.status ≠ .fatal .cfgMemSize ∧ t.status ≠ .fatal .cfgCacheGeometry)

/-- R336: the first line with an error stops the load, with the error that comes first in the order of
the rule; a line without one is taken. The clock stays where it is. -/
def Obligations.MemoryStateErrors : Prop :=
  ∀ (s : State) (before after : List (List Char)) (line : List Char),
    s.status = .running → (loadLines [] before s).status = .running →
    let all := (loadLines [] (before ++ line :: after) s).status
    (parseLine line = .malformed → all = .fatal .memstateMalformed)
      ∧ (∀ a v, parseLine line = .entry a v → (a % 8 ≠ 0 ∨ s.cfg.memSize < a + 8) →
        all = .fatal .memstateAddr)
      ∧ (∀ a v, parseLine line = .entry a v → a % 8 = 0 → a + 8 ≤ s.cfg.memSize →
        (∃ l ∈ before, ∃ u, parseLine l = .entry a u ∧ u ≠ v) → all = .fatal .memstateConflict)
      ∧ ((parseLine line = .blank
          ∨ ∃ a v, parseLine line = .entry a v ∧ a % 8 = 0 ∧ a + 8 ≤ s.cfg.memSize
            ∧ ∀ l ∈ before, ∀ u, parseLine l = .entry a u → u = v) →
        (loadLines [] (before ++ [line]) s).status = .running)
      ∧ (loadLines [] (before ++ line :: after) s).tick = s.tick

/-- R334, R335: a line of digits, `=` and digits, with an optional sign, is an entry if its value is in
range and malformed if not; comments, spaces and tabs do not matter; a line is blank exactly if nothing is
left of it, and an entry only if what is left has that form, so every other line is malformed. -/
def Obligations.MemoryStateLines : Prop :=
  let number := fun ds : List (Fin 10) => ds.foldl (fun n d => 10 * n + d.val) 0
  let text := fun ds : List (Fin 10) => ds.map (fun d => Char.ofNat (48 + d.val))
  (∀ ds es : List (Fin 10), ds ≠ [] → es ≠ [] →
    parseLine (text ds ++ '=' :: text es)
        = (if number es ≤ 2 ^ 64 - 1 then .entry (number ds) (BitVec.ofNat 64 (number es))
          else .malformed)
      ∧ parseLine (text ds ++ '=' :: '-' :: text es)
        = (if number es ≤ 2 ^ 63 then .entry (number ds) (BitVec.ofInt 64 (-(number es : Int)))
          else .malformed)
      ∧ parseLine (text ds) = .malformed ∧ parseLine (text ds ++ ['=']) = .malformed
      ∧ parseLine ('=' :: text es) = .malformed ∧ parseLine (text ds ++ ['=', '-']) = .malformed)
  ∧ (∀ line comment : List Char, parseLine (line ++ '#' :: comment) = parseLine line)
  ∧ (∀ line rest : List Char, parseLine (line ++ ' ' :: rest) = parseLine (line ++ rest)
      ∧ parseLine (line ++ '\t' :: rest) = parseLine (line ++ rest))
  ∧ (∀ line : List Char,
      let left := (line.takeWhile fun c => decide (c ≠ '#')).filter fun c =>
        decide (c ≠ ' ' ∧ c ≠ '\t')
      (parseLine line = .blank ↔ left = [])
        ∧ ∀ a v, parseLine line = .entry a v → ∃ ds es : List (Fin 10), ds ≠ [] ∧ es ≠ []
          ∧ a = number ds
          ∧ ((left = text ds ++ '=' :: text es ∧ number es ≤ 2 ^ 64 - 1
              ∧ v = BitVec.ofNat 64 (number es))
            ∨ (left = text ds ++ '=' :: '-' :: text es ∧ number es ≤ 2 ^ 63
              ∧ v = BitVec.ofInt 64 (-(number es : Int)))))

/-! ## The stages of a tick -/

/-- R152, R163: a record that is not a conditional branch retires; nothing but the counter, L_MW and its
destination register with its pending mark changes. An empty L_MW leaves everything as it is. -/
def Obligations.RetirementOfARecord : Prop :=
  ∀ s : State, (s.lMW = none → writebackStage s = s)
    ∧ ∀ r : Rec, s.lMW = some r → r.instr.cls ≠ .branch →
      let t := writebackStage s
      let writes := r.instr.writesRd = true ∧ r.instr.rd ≠ 0#5
      t = { s with lMW := none, x := t.x, dep := t.dep,
                   stats := { s.stats with numInsts := s.stats.numInsts + 1 } }
        ∧ (∀ k : Fin 32, t.x.get k =
          if writes ∧ k.val = r.instr.rd.toNat then r.rdVal else s.x.get k)
        ∧ ∀ k : Fin 32, t.dep.get k =
          if writes ∧ k.val = r.instr.rd.toNat then s.dep.get k - 1 else s.dep.get k

/-- R153, R154, R155, R178: a conditional branch whose predicted target is wrong empties the pipeline,
drops every pending mark and redirects fetch; the cache, the request and `pc_valid` stay (R179). The
predictor has been updated, which with the baseline changes nothing. -/
def Obligations.MispredictionFlushes : Prop :=
  (∀ (r : Rec) (s : State), s.writeTables (Collaborators.reference.update r s.tables) = s)
  ∧ ∀ (k : Collaborators) (s : State) (r : Rec), s.lMW = some r → r.instr.cls = .branch → s.cfg.predEnabled = true →
    r.predTarget ≠ r.actTarget →
    writebackStage s k =
      { s.writeTables (k.update r s.tables) with
        lFD := none, lDX := none, lXM := none, lMW := none, fuInst := none
        dep := Vector.replicate 32 0
        pc := r.actTarget
        stats := { s.stats with
          numInsts := s.stats.numInsts + 1
          numBranches := s.stats.numBranches + 1
          numMispredictions := s.stats.numMispredictions + 1
          numFlushes := s.stats.numFlushes + 1 } }

/-- R155, R156: with prediction off a retiring conditional branch, taken or not, sets the pc and lets
fetch go on; with prediction on and the right target it is only counted and given to `Update` (R154). -/
def Obligations.BranchResolution : Prop :=
  ∀ (k : Collaborators) (s : State) (r : Rec), s.lMW = some r → r.instr.cls = .branch →
    let counted := { s.stats with
      numInsts := s.stats.numInsts + 1, numBranches := s.stats.numBranches + 1 }
    (s.cfg.predEnabled = false →
      writebackStage s k =
        { s with lMW := none, pc := r.actTarget, pcValid := true, stats := counted })
    ∧ (s.cfg.predEnabled = true → r.predTarget = r.actTarget →
      writebackStage s k =
        { s.writeTables (k.update r s.tables) with lMW := none, stats := counted })

/-- R159: a record of no memory class moves from L_XM to L_MW if the cache is free; while a miss is
outstanding nothing leaves L_XM, whatever its class. R158, R87: the hierarchy's tick answers the replayed
record and whether a miss is outstanding; a replayed record goes to L_MW, and nothing else moves. -/
def Obligations.MemoryStageMoves : Prop :=
  (∀ (s : State) (r : Rec), s.status = .running → s.lMW = none → s.lXM = some r →
    (s.missInst = none → s.pendValid = false → r.instr.cls ≠ .load → r.instr.cls ≠ .store →
      memoryStage s = .next { s with lXM := none, lMW := some r })
    ∧ (s.missInst ≠ none → s.tick < s.pendTick → memoryStage s = .next s))
  ∧ (∀ (s t : State) (q : Option Rec), memRun s = .next (t, q) →
      cacheRun s = .next (t, q, decide (t.missInst ≠ none)))
  ∧ (∀ s : State, Inv s → s.status = .running → s.missInst = none →
      cacheRun s = .next (s, none, false))
  ∧ ∀ (s : State) (r : Rec), Inv s → s.status = .running → s.missInst = some r →
      (s.tick < s.pendTick → cacheRun s = .next (s, none, true) ∧ memoryStage s = .next s)
      ∧ (s.pendTick ≤ s.tick → ∃ t q, cacheRun s = .next (t, some q, false) ∧ q.instr = r.instr
        ∧ q.pc = r.pc ∧ t.lXM = s.lXM ∧ t.lMW = none
        ∧ memoryStage s = .next { t with lMW := some q })

/-- R160: the execute stage in every case: blocked by L_XM, issuing with `Exec` applied, waiting,
delivering, idle. -/
def Obligations.ExecuteStageCases : Prop :=
  ∀ (k : Collaborators) (s : State),
    (s.lXM ≠ none → executeStage s k = .next s)
    ∧ (s.lXM = none → s.fuInst = none → s.lDX = none → executeStage s k = .next s)
    ∧ (∀ r, s.status = .running → s.lXM = none → s.fuInst = none → s.lDX = some r →
      executeStage s k =
        .next { s with lDX := none, fuInst := some (k.execute r), fuExit := s.tick + r.instr.lat })
    ∧ (∀ q, s.status = .running → s.lXM = none → s.fuInst = some q →
      executeStage s k =
        .next (if s.fuExit ≤ s.tick then { s with fuInst := none, lXM := some q } else s))

/-- R161, R162, R165: decode waits for a free L_DX and for every pending writer of a source; else it
reads the operands, marks the destination and, for a jump, redirects the pc. -/
def Obligations.DecodeStageCases : Prop :=
  ∀ s : State,
    (s.lFD = none → decodeStage s = .next s)
    ∧ ∀ r, s.lFD = some r →
      let hazard :=
        (r.instr.readsRs1 = true ∧ r.instr.rs1 ≠ 0#5 ∧ 0 < s.dep.get (regIndex r.instr.rs1))
        ∨ (r.instr.readsRs2 = true ∧ r.instr.rs2 ≠ 0#5 ∧ 0 < s.dep.get (regIndex r.instr.rs2))
      let i := { r with
        rs1Val := if r.instr.readsRs1 = true then readReg s r.instr.rs1 else 0#64
        rs2Val := if r.instr.readsRs2 = true then readReg s r.instr.rs2 else 0#64 }
      (s.lDX ≠ none → decodeStage s = .next s)
      ∧ (hazard → decodeStage s = .next s)
      ∧ (s.status = .running → s.lDX = none → ¬ hazard →
        decodeStage s =
          .next
            { s with
              lFD := none
              lDX := some i
              dep :=
                if r.instr.writesRd = true ∧ r.instr.rd ≠ 0#5 then
                  s.dep.set r.instr.rd.toNat (s.dep.get (regIndex r.instr.rd) + 1) r.instr.rd.isLt
                else s.dep
              pc := if r.instr.cls = .jump then i.jumpTarget else s.pc })

/-- R168 to R172: fetch counts a stall if it is blocked, does nothing where there is no instruction, and
else makes a fresh record; a conditional branch is predicted as `Predict` says, and one predicted not
taken is predicted to fall through, or stops fetch. The baseline predicts every one to fall through
(R176). -/
def Obligations.FetchStageCases : Prop :=
  ∀ (k : Collaborators) (s : State),
    (s.lFD ≠ none ∨ s.pcValid = false →
      fetchStage (source s) s k =
        .next { s with stats := { s.stats with numStalls := s.stats.numStalls + 1 } })
    ∧ (s.lFD = none → s.pcValid = true →
      (source s s.pc = .nothing → fetchStage (source s) s k = .next s)
      ∧ ∀ i, source s s.pc = .instr i →
        let r : Rec := { instr := i, pc := s.pc }
        let p := k.predict s.tables s.pc
        let target := if p.1 = true then p.2 else s.pc + 4#64
        (i.cls ≠ .branch →
          fetchStage (source s) s k = .next { s with pc := s.pc + 4#64, lFD := some r })
        ∧ (i.cls = .branch → s.cfg.predEnabled = true →
          fetchStage (source s) s k =
            .next { s with
              pc := target, lFD := some { r with predTaken := p.1, predTarget := target } })
        ∧ (i.cls = .branch → s.cfg.predEnabled = false →
          fetchStage (source s) s k =
            .next { s with pc := s.pc + 4#64, lFD := some r, pcValid := false })
        ∧ (i.cls = .branch → s.cfg.predEnabled = true →
          fetchStage (source s) s =
            .next { s with pc := s.pc + 4#64, lFD := some { r with predTarget := s.pc + 4#64 } }))

/-- R166: the target a jump redirects to, from the operand decode has read. -/
def Obligations.JumpTargets : Prop :=
  ∀ (r : Rec) (rd rs1 : Reg) (offset : BitVec 21) (imm : BitVec 12),
    (r.instr = .jal rd offset → r.jumpTarget = r.pc + offset.signExtend 64)
    ∧ (r.instr = .jalr rd rs1 imm →
      r.jumpTarget = (r.rs1Val + imm.signExtend 64) &&& ~~~1#64
        ∧ r.jumpTarget.getLsbD 0 = false
        ∧ r.jumpTarget.getLsbD 1 = (r.rs1Val + imm.signExtend 64).getLsbD 1)

/-- R31, R175: a table has only its entries, each of its width, whatever is written; an `Update` keeps
the sizes; and the indices lie in the tables, the one of `PHT` with the history `BHT` holds. What a read
past the last entry gives and what becomes of a write there or of a wide value is the model's choice (log
entry 21), and so are the pc bits and their order (log entry 17). -/
def Obligations.PredictorTables : Prop :=
  (∀ (t : Table) (j k v : Nat),
    t.read k < 2 ^ t.width
      ∧ (t.entries ≤ k → t.read k = 0 ∧ t.write k v = t)
      ∧ (k < t.entries → (t.write k v).read k = v % 2 ^ t.width)
      ∧ (j ≠ k → (t.write k v).read j = t.read j)
      ∧ (t.wf = true → t.read k = Sparse.get 0 t.cells k ∧ (t.write k v).wf = true))
  ∧ (∀ (t : Tables) (ws : List TableWrite),
    let u := t.writes ws
    u.bht.entries = t.bht.entries ∧ u.bht.width = t.bht.width
      ∧ u.pht.entries = t.pht.entries ∧ u.pht.width = t.pht.width
      ∧ u.btb.entries = t.btb.entries ∧ u.btb.width = t.btb.width
      ∧ (t.bht.wf = true ∧ t.pht.wf = true ∧ t.btb.wf = true →
        u.bht.wf = true ∧ u.pht.wf = true ∧ u.btb.wf = true))
  ∧ ∀ (c : Config) (t : Tables) (pc : Word),
    let bits := pc.toNat / 2 ^ c.predIndexShift
    bhtIndex c pc = bits % 2 ^ c.bhtBits ∧ bhtIndex c pc < 2 ^ c.bhtBits
      ∧ (t.bht.width = c.histBits →
        phtIndex c t pc < 2 ^ (c.phtBits + c.histBits)
          ∧ phtIndex c t pc / 2 ^ c.histBits = bits % 2 ^ c.phtBits
          ∧ phtIndex c t pc % 2 ^ c.histBits = t.bht.read (bhtIndex c pc))
      ∧ (0 < c.btbSize → btbIndex c pc = bits % c.btbSize ∧ btbIndex c pc < c.btbSize)

/-! ## Data cache and data memory -/

/-- R71, R72: with a legal geometry an address is its tag, set and offset; its block is a multiple of 8
and holds the whole of an aligned access. -/
def Obligations.AddressDecomposition : Prop :=
  ∀ (c : Config), configError c = none → ∀ a n : Nat,
    setIndex c a = a / c.blockBytes % numSets c ∧ tagOf c a = a / (numSets c * c.blockBytes)
      ∧ offsetOf c a = a % c.blockBytes ∧ blockAddr c a = a - offsetOf c a
      ∧ setIndex c a < numSets c ∧ offsetOf c a < c.blockBytes
      ∧ blockBase c (setIndex c a) (tagOf c a) = blockAddr c a
      ∧ blockBase c (setIndex c a) (tagOf c a) + offsetOf c a = a
      ∧ blockAddr c a % 8 = 0
      ∧ ((n = 1 ∨ n = 2 ∨ n = 4 ∨ n = 8) → a % n = 0 → offsetOf c a + n ≤ c.blockBytes)

/-- R73, R75, R76, R78, R79: an aligned load that hits takes the extended bytes of the block, counts, and
leaves everything but its block's `last_access` as it is. -/
def Obligations.ReadHit : Prop :=
  ∀ (s : State) (r : Rec), r.instr.cls = .load → s.missInst = none →
    r.memAddr.toNat % r.instr.accessBytes = 0 →
    (blockOf s r.memAddr.toNat).valid = true →
    (blockOf s r.memAddr.toNat).tag = tagOf s.cfg r.memAddr.toNat →
    ∃ t v, cacheAccess r s = .next (t, { r with rdVal := v })
      ∧ (let raw := (blockOf s r.memAddr.toNat).data.readLE (r.memAddr.toNat % s.cfg.blockBytes)
            r.instr.accessBytes
        v = if r.instr.signedLoad = true then (raw.setWidth (8 * r.instr.accessBytes)).signExtend 64
          else (raw.setWidth (8 * r.instr.accessBytes)).setWidth 64)
      ∧ t = { s with blk := t.blk, stats := { s.stats with
          numAccesses := s.stats.numAccesses + 1, numLoads := s.stats.numLoads + 1 } }
      ∧ blockOf t r.memAddr.toNat = { blockOf s r.memAddr.toNat with lastAccess := s.tick }
      ∧ ∀ set way, set * s.cfg.ways + way ≠ setIndex s.cfg r.memAddr.toNat * s.cfg.ways →
        blkAt t set way = blkAt s set way

/-- R73, R75, R76, R80, R86: an aligned store that hits changes its own bytes of the block, byte by byte,
marks the block dirty and counts; the image is not written. -/
def Obligations.WriteHit : Prop :=
  ∀ (s : State) (r : Rec), r.instr.cls = .store → s.missInst = none →
    r.memAddr.toNat % r.instr.accessBytes = 0 →
    (blockOf s r.memAddr.toNat).valid = true →
    (blockOf s r.memAddr.toNat).tag = tagOf s.cfg r.memAddr.toNat →
    ∃ t, cacheAccess r s = .next (t, r)
      ∧ t = { s with blk := t.blk, stats := { s.stats with
          numAccesses := s.stats.numAccesses + 1, numStores := s.stats.numStores + 1 } }
      ∧ blockOf t r.memAddr.toNat =
        { blockOf s r.memAddr.toNat with
          lastAccess := s.tick, dirty := true, data := (blockOf t r.memAddr.toNat).data }
      ∧ (let o := r.memAddr.toNat % s.cfg.blockBytes
        ∀ j, (blockOf t r.memAddr.toNat).data.read j =
          if o ≤ j ∧ j < o + r.instr.accessBytes then r.rs2Val.extractLsb' (8 * (j - o)) 8
          else (blockOf s r.memAddr.toNat).data.read j)
      ∧ ∀ set way, set * s.cfg.ways + way ≠ setIndex s.cfg r.memAddr.toNat * s.cfg.ways →
        blkAt t set way = blkAt s set way

/-- R66, R81: an aligned access that misses in range hands its record to the cache, counts the miss,
marks every word of its block accessed and requests the block; no block changes and no access is
counted. -/
def Obligations.MissRequest : Prop :=
  ∀ (s : State) (r : Rec), s.missInst = none → s.pendValid = false → configError s.cfg = none →
    r.memAddr.toNat % r.instr.accessBytes = 0 → isHit s r.memAddr.toNat = false →
    let base := r.memAddr.toNat - r.memAddr.toNat % s.cfg.blockBytes
    base + s.cfg.blockBytes ≤ s.cfg.memSize →
    ∃ t, cacheAccess r s = .next (t, r)
      ∧ t = { s with
          missInst := some r
          stats := { s.stats with numMisses := s.stats.numMisses + 1 }
          acc := t.acc
          pendValid := true
          pendAddr := BitVec.ofNat 64 base
          pendSize := s.cfg.blockBytes
          pendTick := s.tick + s.cfg.memLatency }
      ∧ ∀ k, accessed t k =
        (accessed s k || (decide (base / 8 ≤ k) && decide (k < (base + s.cfg.blockBytes) / 8)))

/-- R73, R66: a misaligned access raises its Fatal before anything else changes; a miss whose block ends
beyond MEM_SIZE raises the other, with no request made. The first has priority (R305). -/
def Obligations.AccessErrors : Prop :=
  ∀ (s : State) (r : Rec), s.missInst = none →
    (r.memAddr.toNat % r.instr.accessBytes ≠ 0 →
      cacheAccess r s = .next ({ s with status := .fatal .accessMisaligned }, r))
    ∧ (r.memAddr.toNat % r.instr.accessBytes = 0 → isHit s r.memAddr.toNat = false →
      s.pendValid = false → configError s.cfg = none →
      s.cfg.memSize < r.memAddr.toNat - r.memAddr.toNat % s.cfg.blockBytes + s.cfg.blockBytes →
      cacheAccess r s = .next
        ({ s with
            missInst := some r
            stats := { s.stats with numMisses := s.stats.numMisses + 1 }
            status := .fatal .accessOutOfRange }, r))

/-- R67: the data memory is silent until the tick the answer is due. R82, R83, R84: then the dirty victim
goes to the image, the block is installed and the access replayed as a hit, and the cache is free. The
state is one that keeps the invariant, which ties the request to the missed record (R183). No block but
way 0 of the access's own set changes (R77). -/
def Obligations.MissResponse : Prop :=
  ∀ (s : State) (r : Rec), Inv s → s.status = .running → s.missInst = some r →
    let a := r.memAddr.toNat
    let victim := blockOf s a
    let old := blockBase s.cfg (setIndex s.cfg a) victim.tag
    let writeBack := victim.valid = true ∧ victim.dirty = true
    (s.tick < s.pendTick → memRun s = .next (s, none))
    ∧ (s.pendTick ≤ s.tick → ∃ t r', memRun s = .next (t, some r')
      ∧ t = { s with blk := t.blk, img := t.img, missInst := none, pendValid := false,
                     stats := t.stats }
      ∧ (r.instr.cls = .load → r' = { r with
          rdVal := loadValue r.instr (coherentLE s a r.instr.accessBytes) })
      ∧ (r.instr.cls = .store → r' = r)
      ∧ (∀ b, t.img.read b =
        if writeBack ∧ old ≤ b ∧ b < old + s.cfg.blockBytes then victim.data.read (b - old)
        else s.img.read b)
      ∧ (blockOf t a).valid = true ∧ (blockOf t a).tag = tagOf s.cfg a
      ∧ (blockOf t a).lastAccess = s.tick
      ∧ (blockOf t a).dirty = decide (r.instr.cls = .store)
      ∧ (∀ j < s.cfg.blockBytes, (blockOf t a).data.read j =
        let b := blockAddr s.cfg a + j
        if r.instr.cls = .store ∧ a ≤ b ∧ b < a + r.instr.accessBytes then byteOf r.rs2Val (b - a)
        else s.img.read b)
      ∧ (∀ set way, set * s.cfg.ways + way ≠ setIndex s.cfg a * s.cfg.ways →
        blkAt t set way = blkAt s set way)
      ∧ t.stats = { s.stats with
          numAccesses := s.stats.numAccesses + 1
          numLoads := s.stats.numLoads + (if r.instr.cls = .load then 1 else 0)
          numStores := s.stats.numStores + (if r.instr.cls = .store then 1 else 0)
          numWritebacks := s.stats.numWritebacks + (if writeBack then 1 else 0) })

/-- R89: an aligned access that hits reads exactly the coherent bytes; after a write of a width, a read of
that width gives the value's low bytes back. -/
def Obligations.CoherentRead : Prop :=
  ∀ (s : State) (a n : Nat) (v : Word), configError s.cfg = none → isHit s a = true →
    (n = 1 ∨ n = 2 ∨ n = 4 ∨ n = 8) → a % n = 0 →
    memRead s a n = coherentLE s a n
      ∧ memRead (memWrite a n v s) a n = extendUnsigned n v
      ∧ ∀ b, coherentByte (memWrite a n v s) b =
        if a ≤ b ∧ b < a + n then byteOf v (b - a) else coherentByte s b

/-! ## The tick and its invariants -/

/-- R150, R180, R301: a tick that raises no Fatal advances `tick` by exactly 1 and ends the run exactly if
nothing is in flight; a tick that does leaves `tick` alone. -/
def Obligations.ClockAndDone : Prop :=
  ∀ s t : State, s.status = .running → tick s = .next t →
    ((∃ c, t.status = .fatal c) ∧ t.tick = s.tick)
    ∨ (t.tick = s.tick + 1 ∧ (t.status = .done ∨ t.status = .running)
      ∧ (t.status = .done ↔ t.lFD = none ∧ t.lDX = none ∧ t.lXM = none ∧ t.lMW = none
        ∧ t.fuInst = none ∧ t.missInst = none))

/-- The invariant and the boundary hold at reset. -/
def Obligations.ResetKeepsInvariant : Prop := Boundary State.reset

/-- R330: every block built without an error starts at a boundary that keeps the invariant, if its
program spells admitted instructions and FORWARDING is off. -/
def Obligations.StartKeepsInvariant : Prop :=
  ∀ (cfg : Config) (prog : List (Nat × BitVec 32)) (regInit : Vector Word 32) (text : List Char),
    (construct cfg prog regInit text).status = .running → cfg.forwarding = false →
    (prog.all fun p => (decodeWord p.2).isSome) = true →
    Boundary (construct cfg prog regInit text)

/-- R182, R183, R188, R189, R191: from every running state that keeps the pipeline invariant a tick
completes (no stage meets an occupied latch, a busy unit or cache, or a second request), and it keeps the
invariant or raises a Fatal. R177: so it does with any collaborators; without a word the reference ones
are meant. -/
def Obligations.TickKeepsInvariant : Prop :=
  (∀ s : State, Inv s → s.status = .running →
    ∃ t, tick s = .next t ∧ ((∃ c, t.status = .fatal c) ∨ Inv t))
  ∧ ∀ (k : Collaborators) (s : State), Inv s k → s.status = .running →
    ∃ t, tick s k = .next t ∧ ((∃ c, t.status = .fatal c) ∨ Inv t k)

/-- From every state that keeps the pipeline invariant, a step keeps it, or raises a Fatal; so does a step
with any other collaborators. -/
def Obligations.StepKeepsInvariant : Prop :=
  (∀ s t : State, Inv s → s.lMW = none → step s = .next t →
    (∃ c, t.status = .fatal c) ∨ (Inv t ∧ t.lMW = none))
  ∧ ∀ (k : Collaborators) (s t : State), Inv s k → s.lMW = none → stepWith k s = .next t →
    (∃ c, t.status = .fatal c) ∨ (Inv t k ∧ t.lMW = none)

/-- Every sparse map of the reset state is in canonical form. -/
def Obligations.ResetIsCanonical : Prop := canonical State.reset = true

/-- Every step keeps the canonical form of the image, the accessed flags, the blocks and their data, so
that equal memories are equal data, and of the predictor tables, whose entries stay within their number
and width (R31, R175). So does a step with any other collaborators. -/
def Obligations.StepKeepsCanonicalForm : Prop :=
  (∀ s t : State, canonical s = true → step s = .next t → canonical t = true)
  ∧ ∀ (k : Collaborators) (s t : State), canonical s = true → stepWith k s = .next t →
    canonical t = true

/-- R8, R32, R77, R95, R175, R176: no step writes the configuration, the program, a predictor table or a
block of a way other than 0, and the zero register keeps its value. With another policy the tables keep
their sizes. -/
def Obligations.NothingWritesTheseParts : Prop :=
  (∀ s t : State, step s = .next t →
    t.cfg = s.cfg ∧ t.prog = s.prog ∧ t.bht = s.bht ∧ t.pht = s.pht ∧ t.btb = s.btb
      ∧ t.x.get 0 = s.x.get 0
      ∧ ∀ set way, 1 ≤ way → way < s.cfg.ways → blkAt t set way = blkAt s set way)
  ∧ ∀ (k : Collaborators) (s t : State), stepWith k s = .next t →
    t.cfg = s.cfg ∧ t.prog = s.prog ∧ t.x.get 0 = s.x.get 0
      ∧ t.bht.entries = s.bht.entries ∧ t.bht.width = s.bht.width
      ∧ t.pht.entries = s.pht.entries ∧ t.pht.width = s.pht.width
      ∧ t.btb.entries = s.btb.entries ∧ t.btb.width = s.btb.width
      ∧ ∀ set way, 1 ≤ way → way < s.cfg.ways → blkAt t set way = blkAt s set way

/-- R21, R29, R34: no step turns the clock back, decreases a counter or clears an accessed flag. -/
def Obligations.CountersNeverDecrease : Prop :=
  ∀ s t : State, step s = .next t →
    s.tick ≤ t.tick
      ∧ s.stats.numInsts ≤ t.stats.numInsts ∧ s.stats.numStalls ≤ t.stats.numStalls
      ∧ s.stats.numBranches ≤ t.stats.numBranches
      ∧ s.stats.numMispredictions ≤ t.stats.numMispredictions
      ∧ s.stats.numFlushes ≤ t.stats.numFlushes ∧ s.stats.numAccesses ≤ t.stats.numAccesses
      ∧ s.stats.numLoads ≤ t.stats.numLoads ∧ s.stats.numStores ≤ t.stats.numStores
      ∧ s.stats.numMisses ≤ t.stats.numMisses ∧ s.stats.numWritebacks ≤ t.stats.numWritebacks
      ∧ ∀ k, accessed s k = true → accessed t k = true

/-- R88, R178, R187, R350: the laws between the counters hold at reset and every tick keeps them. -/
def Obligations.CounterLaws : Prop :=
  let laws := fun s : State =>
    s.stats.numAccesses = s.stats.numLoads + s.stats.numStores
      ∧ s.stats.numMisses ≤ s.stats.numAccesses + (if s.missInst = none then 0 else 1)
      ∧ s.stats.numFlushes = s.stats.numMispredictions
      ∧ s.stats.numMispredictions ≤ s.stats.numBranches
      ∧ s.stats.numBranches ≤ s.stats.numInsts
      ∧ s.stats.numInsts ≤ s.tick
  laws State.reset
    ∧ ∀ s t : State, Inv s → s.status = .running → laws s → tick s = .next t →
      (∀ c, t.status ≠ .fatal c) → laws t

/-- R301, R317: a stopped block performs no further tick and a finished one keeps every value. That the
step answers a fault is the model's form of the stop (log entry 4). -/
def Obligations.TerminalStates : Prop :=
  ∀ (s : State) (n : Nat),
    (s.status ≠ .running → ticks n s = .next s)
    ∧ (s.status = .done → step s = .next s)
    ∧ (∀ c, s.status = .fatal c → step s = .fault (.fatal c))

/-- R315 (a), (b): a word that spells no admitted instruction, and FORWARDING, are refused, not run. That
FORWARDING is refused at the tick, the step and the meaning of a block that is Running, and not when the
block is built, is the model's choice (log entry 20). -/
def Obligations.RefusedInputs : Prop :=
  ∀ s : State, s.status = .running →
    (s.cfg.forwarding = true → step s = .refused .forwarding
      ∧ (∀ k, tick s k = .refused .forwarding) ∧ ∀ i, exec i s = .refused .forwarding)
    ∧ (∀ w, s.cfg.forwarding = false → oldest s = none → s.pcValid = true →
      Sparse.find? s.prog s.pc.toNat = some w → decodeWord w = none →
      step s = .refused (.unadmittedOp w))
    ∧ (∀ w, s.lFD = none → s.pcValid = true → Sparse.find? s.prog s.pc.toNat = some w →
      decodeWord w = none → fetchStage (source s) s = .refused (.unadmittedOp w))

/-! ## Steps and the sequential reading -/

/-- A step is the meaning of the decoded instruction at the pc if nothing is in flight, of the oldest
instruction in flight if something is, and the end of the run if fetch gets nothing. -/
def Obligations.StepRunsDecoded : Prop :=
  ∀ s : State, s.status = .running → s.cfg.forwarding = false →
    (∀ r, oldest s = some r → step s = exec r.instr s)
    ∧ (∀ w i, oldest s = none → s.pcValid = true → Sparse.find? s.prog s.pc.toNat = some w →
      decodeWord w = some i → step s = exec i s)
    ∧ (∀ (w : BitVec 32) (i : Instr), oldest s = none → s.pcValid = true → decodeWord w = some i →
      step (s.withFetchWord 32 w.toNat) = exec i (s.withFetchWord 32 w.toNat))
    ∧ (oldest s = none → (s.pcValid = false ∨ Sparse.find? s.prog s.pc.toNat = none) →
      step s = tick s)

/-- A meaning asked for an instruction that is not the next one refuses: the model's choice (log
entry 6), not a rule of the spec. -/
def Obligations.NotNextRefused : Prop :=
  ∀ (s : State) (i : Instr) (r : Rec), s.status = .running → s.cfg.forwarding = false →
    oldest s = some r → r.instr ≠ i → exec i s = .refused .notNext

/-- R150: a step is whole ticks and nothing else: it goes on to the writeback that retires the next
instruction, whose tick is then finished by the next step; or to the tick that ends the run. The cut at
a retirement is the model's choice (log entry 3). -/
def Obligations.StepIsTicks : Prop :=
  ∀ s t : State, Boundary s → step s = .next t →
    (t.status = .running →
      ∃ n u, ticks n s = .next u ∧ u.status = .running ∧ u.lMW ≠ none ∧ t = writebackStage u
        ∧ tick u = restOfTick t)
    ∧ (t.status ≠ .running → ∃ n, ticks n s = .next t)

/-- R190: at its turn the next instruction retires with the effect it has alone and in program order:
registers, coherent memory and the address of the next instruction; unless its access is an error. R177:
so it does with any collaborators. -/
def Obligations.SequentialEffect : Prop :=
  (∀ (i : Instr) (s : State), Next i s → accessError i s = none →
    ∃ t, exec i s = .next t ∧ Sequential i s t ∧ Boundary t
      ∧ t.stats.numInsts = s.stats.numInsts + 1)
  ∧ ∀ (k : Collaborators) (i : Instr) (s : State), Next i s k → accessError i s = none →
    ∃ t, passage i s k = .next t ∧ Sequential i s t k ∧ Boundary t k
      ∧ t.stats.numInsts = s.stats.numInsts + 1

/-- R190, R307: an access error raises its Fatal at the access, with every older instruction retired, and
nothing of it or of younger instructions written, with any collaborators. -/
def Obligations.FatalIsPrecise : Prop :=
  (∀ (i : Instr) (s : State) (c : FatalCode), Next i s → accessError i s = some c →
    ∃ t, exec i s = .next t ∧ FatalRaised c s t)
  ∧ ∀ (k : Collaborators) (i : Instr) (s : State) (c : FatalCode), Next i s k →
    accessError i s = some c → ∃ t, passage i s k = .next t ∧ FatalRaised c s t

/-- R190: a step from a boundary is one of three things: the sequential effect of the next instruction,
the Fatal of its access, or the end of the run with registers and memory as they are. R177: so is a step
with any other collaborators. That a step ends just after a retirement, and that raising the Fatal is a
next state of it, are the model's choices (log entries 3 and 4). -/
def Obligations.EveryStepIsSequential : Prop :=
  (∀ s : State, Boundary s → ∃ t, step s = .next t
    ∧ ((t.status = .running ∧ ∃ i, Next i s ∧ Sequential i s t)
      ∨ (∃ c i, t.status = .fatal c ∧ Next i s ∧ accessError i s = some c)
      ∨ (t.status = .done ∧ nextUp s = .nothing ∧ t.x = s.x
        ∧ ∀ a, coherentByte t a = coherentByte s a)))
  ∧ ∀ (k : Collaborators) (s : State), Boundary s k → ∃ t, stepWith k s = .next t
    ∧ ((t.status = .running ∧ ∃ i, Next i s k ∧ Sequential i s t k)
      ∨ (∃ c i, t.status = .fatal c ∧ Next i s k ∧ accessError i s = some c)
      ∨ (t.status = .done ∧ nextUp s = .nothing ∧ t.x = s.x
        ∧ ∀ a, coherentByte t a = coherentByte s a))

/-- R177, R190: what an instruction does to registers and memory, and where the program goes on, does not
depend on the latency, on prediction or its policy, on the cache's geometry or contents, or on what else
is in flight; of the collaborators it depends on `Exec` alone. -/
def Obligations.ResultsIndependentOfTiming : Prop :=
  ∀ (j k : Collaborators) (i : Instr) (s u : State), j.result = k.result → j.taken = k.taken →
    Next i s j → Next i u k →
    (∀ r, readReg s r = readReg u r) → (∀ a, coherentByte s a = coherentByte u a) →
    archPc s = archPc u → accessError i s = none → accessError i u = none →
    ∃ t v, passage i s j = .next t ∧ passage i u k = .next v
      ∧ (∀ r, readReg t r = readReg v r) ∧ (∀ a, coherentByte t a = coherentByte v a)
      ∧ archPc t = archPc v

/-! ## Instruction rules -/

/-- R203 to R212, with R200 and R201 for the frame and the next address. Where a meaning starts and ends is the
model's choice (log entry 3). -/
def Obligations.RegisterForms64 : Prop :=
  ∀ (rd rs1 rs2 : Reg) (s : State),
    let a := readReg s rs1
    let b := readReg s rs2
    let rule := fun i word v => ResultRule i 0xFE00707F#32 word .alu 1 true true rd v s
    rule (.add rd rs1 rs2) 0x00000033#32 (a + b)
      ∧ rule (.sub rd rs1 rs2) 0x40000033#32 (a - b)
      ∧ rule (.sll rd rs1 rs2) 0x00001033#32 (a <<< (b.toNat % 64))
      ∧ rule (.slt rd rs1 rs2) 0x00002033#32 (if a.toInt < b.toInt then 1#64 else 0#64)
      ∧ rule (.sltu rd rs1 rs2) 0x00003033#32 (if a.toNat < b.toNat then 1#64 else 0#64)
      ∧ rule (.xor rd rs1 rs2) 0x00004033#32 (a ^^^ b)
      ∧ rule (.srl rd rs1 rs2) 0x00005033#32 (a >>> (b.toNat % 64))
      ∧ rule (.sra rd rs1 rs2) 0x40005033#32 (a.sshiftRight (b.toNat % 64))
      ∧ rule (.or rd rs1 rs2) 0x00006033#32 (a ||| b)
      ∧ rule (.and rd rs1 rs2) 0x00007033#32 (a &&& b)

/-- R213 to R217, with R200 and R201 for the frame and the next address. Where a meaning starts and ends is the
model's choice (log entry 3). -/
def Obligations.RegisterForms32 : Prop :=
  ∀ (rd rs1 rs2 : Reg) (s : State),
    let a := readReg s rs1
    let b := readReg s rs2
    let aw := a.setWidth 32
    let rule := fun i word (v : BitVec 32) =>
      ResultRule i 0xFE00707F#32 word .alu 1 true true rd (v.signExtend 64) s
    rule (.addw rd rs1 rs2) 0x0000003B#32 ((a + b).setWidth 32)
      ∧ rule (.subw rd rs1 rs2) 0x4000003B#32 ((a - b).setWidth 32)
      ∧ rule (.sllw rd rs1 rs2) 0x0000103B#32 (aw <<< (b.toNat % 32))
      ∧ rule (.srlw rd rs1 rs2) 0x0000503B#32 (aw >>> (b.toNat % 32))
      ∧ rule (.sraw rd rs1 rs2) 0x4000503B#32 (aw.sshiftRight (b.toNat % 32))

/-- R218 to R226, with R200 and R201 for the frame and the next address. Where a meaning starts and ends is the
model's choice (log entry 3). -/
def Obligations.ImmediateForms64 : Prop :=
  ∀ (rd rs1 : Reg) (imm12 : BitVec 12) (shamt : BitVec 6) (s : State),
    let a := readReg s rs1
    let imm : Word := imm12.signExtend 64
    let rule := fun i word v => ResultRule i 0x0000707F#32 word .alu 1 true false rd v s
    let shift := fun i word v => ResultRule i 0xFC00707F#32 word .alu 1 true false rd v s
    rule (.addi rd rs1 imm12) 0x00000013#32 (a + imm)
      ∧ rule (.slti rd rs1 imm12) 0x00002013#32 (if a.toInt < imm.toInt then 1#64 else 0#64)
      ∧ rule (.sltiu rd rs1 imm12) 0x00003013#32 (if a.toNat < imm.toNat then 1#64 else 0#64)
      ∧ rule (.xori rd rs1 imm12) 0x00004013#32 (a ^^^ imm)
      ∧ rule (.ori rd rs1 imm12) 0x00006013#32 (a ||| imm)
      ∧ rule (.andi rd rs1 imm12) 0x00007013#32 (a &&& imm)
      ∧ shift (.slli rd rs1 shamt) 0x00001013#32 (a <<< shamt.toNat)
      ∧ shift (.srli rd rs1 shamt) 0x00005013#32 (a >>> shamt.toNat)
      ∧ shift (.srai rd rs1 shamt) 0x40005013#32 (a.sshiftRight shamt.toNat)

/-- R227 to R232, with R200 and R201 for the frame and the next address; auipc adds to its own address,
not to the pc fetch holds. Where a meaning starts and ends is the model's choice (log entry 3). -/
def Obligations.ImmediateForms32AndUpper : Prop :=
  ∀ (rd rs1 : Reg) (imm12 : BitVec 12) (shamt : BitVec 5) (imm20 : BitVec 20) (s : State),
    let a := readReg s rs1
    let aw := a.setWidth 32
    let upper : Word := (imm20 ++ 0#12).signExtend 64
    let shift := fun i word (v : BitVec 32) =>
      ResultRule i 0xFE00707F#32 word .alu 1 true false rd (v.signExtend 64) s
    ResultRule (.addiw rd rs1 imm12) 0x0000707F#32 0x0000001B#32 .alu 1 true false rd
        (((a + imm12.signExtend 64).setWidth 32).signExtend 64) s
      ∧ shift (.slliw rd rs1 shamt) 0x0000101B#32 (aw <<< shamt.toNat)
      ∧ shift (.srliw rd rs1 shamt) 0x0000501B#32 (aw >>> shamt.toNat)
      ∧ shift (.sraiw rd rs1 shamt) 0x4000501B#32 (aw.sshiftRight shamt.toNat)
      ∧ ResultRule (.lui rd imm20) 0x0000007F#32 0x00000037#32 .alu 1 false false rd upper s
      ∧ ResultRule (.auipc rd imm20) 0x0000007F#32 0x00000017#32 .alu 1 false false rd
        (archPc s + upper) s

/-- R233 to R236, R241, with R200 and R201 for the frame and the next address. The upper halves are bits
127 to 64 of the exact product. Where a meaning starts and ends is the model's choice (log entry 3). -/
def Obligations.MultiplyForms : Prop :=
  ∀ (rd rs1 rs2 : Reg) (s : State),
    let a := readReg s rs1
    let b := readReg s rs2
    let rule := fun i word v => ResultRule i 0xFE00707F#32 word .muldiv 2 true true rd v s
    rule (.mul rd rs1 rs2) 0x02000033#32 (BitVec.ofNat 64 (a.toNat * b.toNat))
      ∧ rule (.mulh rd rs1 rs2) 0x02001033#32
        ((a.signExtend 128 * b.signExtend 128).extractLsb' 64 64)
      ∧ rule (.mulhsu rd rs1 rs2) 0x02002033#32
        ((a.signExtend 128 * b.setWidth 128).extractLsb' 64 64)
      ∧ rule (.mulhu rd rs1 rs2) 0x02003033#32
        ((a.setWidth 128 * b.setWidth 128).extractLsb' 64 64)
      ∧ rule (.mulw rd rs1 rs2) 0x0200003B#32
        ((a.setWidth 32 * b.setWidth 32 : BitVec 32).signExtend 64)

/-- R237 to R240, with the values of division by zero and of the overflow, and R200 and R201 for the frame
and the next address. Where a meaning starts and ends is the model's choice (log entry 3). -/
def Obligations.DivideForms64 : Prop :=
  ∀ (rd rs1 rs2 : Reg) (s : State),
    let a := readReg s rs1
    let b := readReg s rs2
    let overflow := a = 0x8000000000000000#64 ∧ b = 0xFFFFFFFFFFFFFFFF#64
    let rule := fun i word v => ResultRule i 0xFE00707F#32 word .muldiv 2 true true rd v s
    rule (.div rd rs1 rs2) 0x02004033#32
        (if b = 0#64 then 0xFFFFFFFFFFFFFFFF#64 else if overflow then 0x8000000000000000#64
          else BitVec.ofInt 64 (a.toInt.tdiv b.toInt))
      ∧ rule (.divu rd rs1 rs2) 0x02005033#32
        (if b = 0#64 then 0xFFFFFFFFFFFFFFFF#64 else BitVec.ofNat 64 (a.toNat / b.toNat))
      ∧ rule (.rem rd rs1 rs2) 0x02006033#32
        (if b = 0#64 then a else if overflow then 0#64
          else BitVec.ofInt 64 (a.toInt - a.toInt.tdiv b.toInt * b.toInt))
      ∧ rule (.remu rd rs1 rs2) 0x02007033#32
        (if b = 0#64 then a else BitVec.ofNat 64 (a.toNat % b.toNat))

/-- R242 to R245, on the low 32 bits, with the values of division by zero and of the overflow, and R200 and
R201 for the frame and the next address. Where a meaning starts and ends is the model's choice (log
entry 3). -/
def Obligations.DivideForms32 : Prop :=
  ∀ (rd rs1 rs2 : Reg) (s : State),
    let a := (readReg s rs1).setWidth 32
    let b := (readReg s rs2).setWidth 32
    let overflow := a.toInt = -2147483648 ∧ b.toInt = -1
    let rule := fun i word v => ResultRule i 0xFE00707F#32 word .muldiv 2 true true rd v s
    rule (.divw rd rs1 rs2) 0x0200403B#32
        (if b = 0#32 then 0xFFFFFFFFFFFFFFFF#64 else if overflow then 0xFFFFFFFF80000000#64
          else (BitVec.ofInt 32 (a.toInt.tdiv b.toInt)).signExtend 64)
      ∧ rule (.divuw rd rs1 rs2) 0x0200503B#32
        (if b = 0#32 then 0xFFFFFFFFFFFFFFFF#64
          else (BitVec.ofNat 32 (a.toNat / b.toNat)).signExtend 64)
      ∧ rule (.remw rd rs1 rs2) 0x0200603B#32
        (if b = 0#32 then a.signExtend 64 else if overflow then 0#64
          else (BitVec.ofInt 32 (a.toInt - a.toInt.tdiv b.toInt * b.toInt)).signExtend 64)
      ∧ rule (.remuw rd rs1 rs2) 0x0200703B#32
        (if b = 0#32 then a.signExtend 64
          else (BitVec.ofNat 32 (a.toNat % b.toNat)).signExtend 64)

/-- R265 to R271, with R262: the value is the coherent bytes at the address, extended; a hit or a miss
completes, a misaligned address and a block out of range raise their Fatals. Where a meaning starts and
ends is the model's choice (log entry 3). -/
def Obligations.LoadForms : Prop :=
  ∀ (rd rs1 : Reg) (imm : BitVec 12) (s : State),
    let a := addressOf s rs1 imm
    LoadRule (.lb rd rs1 imm) 0x00000003#32 rd a 1 ((coherentByte s a).signExtend 64) s
      ∧ LoadRule (.lh rd rs1 imm) 0x00001003#32 rd a 2 ((coherent16 s a).signExtend 64) s
      ∧ LoadRule (.lw rd rs1 imm) 0x00002003#32 rd a 4 ((coherent32 s a).signExtend 64) s
      ∧ LoadRule (.ld rd rs1 imm) 0x00003003#32 rd a 8 (coherent64 s a) s
      ∧ LoadRule (.lbu rd rs1 imm) 0x00004003#32 rd a 1 ((coherentByte s a).setWidth 64) s
      ∧ LoadRule (.lhu rd rs1 imm) 0x00005003#32 rd a 2 ((coherent16 s a).setWidth 64) s
      ∧ LoadRule (.lwu rd rs1 imm) 0x00006003#32 rd a 4 ((coherent32 s a).setWidth 64) s

/-- R272 to R275, with R262, R263: the low bytes of the source register go to the bytes from the address
computed from the base, and to no other byte. Where a meaning starts and ends is the model's choice (log
entry 3). -/
def Obligations.StoreForms : Prop :=
  ∀ (rs2 rs1 : Reg) (imm : BitVec 12) (s : State),
    let a := addressOf s rs1 imm
    let v := readReg s rs2
    StoreRule (.sb rs2 rs1 imm) 0x00000023#32 a 1 v s
      ∧ StoreRule (.sh rs2 rs1 imm) 0x00001023#32 a 2 v s
      ∧ StoreRule (.sw rs2 rs1 imm) 0x00002023#32 a 4 v s
      ∧ StoreRule (.sd rs2 rs1 imm) 0x00003023#32 a 8 v s

/-- R283 to R288, in both prediction modes. Where a meaning starts and ends is the model's choice (log
entry 3). -/
def Obligations.BranchForms : Prop :=
  ∀ (rs1 rs2 : Reg) (offset : BitVec 13) (s : State),
    let a := readReg s rs1
    let b := readReg s rs2
    BranchRule (.beq rs1 rs2 offset) 0x00000063#32 (a = b) offset s
      ∧ BranchRule (.bne rs1 rs2 offset) 0x00001063#32 (a ≠ b) offset s
      ∧ BranchRule (.blt rs1 rs2 offset) 0x00004063#32 (a.toInt < b.toInt) offset s
      ∧ BranchRule (.bge rs1 rs2 offset) 0x00005063#32 (b.toInt ≤ a.toInt) offset s
      ∧ BranchRule (.bltu rs1 rs2 offset) 0x00006063#32 (a.toNat < b.toNat) offset s
      ∧ BranchRule (.bgeu rs1 rs2 offset) 0x00007063#32 (b.toNat ≤ a.toNat) offset s

/-- R290, R291: the link is the address after the jump's own; the target of jalr uses the old value of
its source, with bit 0 cleared. Where a meaning starts and ends is the model's choice (log entry 3). -/
def Obligations.JumpForms : Prop :=
  ∀ (rd rs1 : Reg) (offset : BitVec 21) (imm : BitVec 12) (s : State),
    (Spelled (.jal rd offset) 0x0000007F#32 0x0000006F#32 .jump 1 false false true
      ∧ (Next (.jal rd offset) s →
        WritesResult (.jal rd offset) rd (archPc s + 4#64) (archPc s + offset.signExtend 64) s))
    ∧ (Spelled (.jalr rd rs1 imm) 0x0000707F#32 0x00000067#32 .jump 1 true false true
      ∧ (Next (.jalr rd rs1 imm) s →
        WritesResult (.jalr rd rs1 imm) rd (archPc s + 4#64)
          ((readReg s rs1 + imm.signExtend 64) &&& ~~~1#64) s))

/-! ## The report -/

/-- R90, R349, R351: only a finished run has a report, with exit status 0; a Fatal has status 1. The
accessed words come in increasing order, with the image's values and not the coherent ones. That a ratio
without a value, and an item given only with prediction on, is `none` is the model's choice (log
entry 19). -/
def Obligations.EndOfRunReport : Prop :=
  ∀ s : State, canonical s = true →
    (s.status = .done → exitStatus s = some 0
      ∧ ∃ rep, report s = some rep
        ∧ rep.totalCycles = s.tick ∧ rep.stalledCycles = s.stats.numStalls
        ∧ rep.retired = s.stats.numInsts
        ∧ rep.cyclesPerInstruction =
          (if s.stats.numInsts = 0 then none else some ((s.tick : Rat) / (s.stats.numInsts : Rat)))
        ∧ rep.flushCount = (if s.cfg.predEnabled = true then some s.stats.numFlushes else none)
        ∧ rep.predictionAccuracy =
          (if s.cfg.predEnabled = true ∧ s.stats.numBranches ≠ 0 then
            some (((s.stats.numBranches - s.stats.numMispredictions : Nat) : Rat)
              / (s.stats.numBranches : Rat))
          else none)
        ∧ rep.loads = s.stats.numLoads ∧ rep.stores = s.stats.numStores
        ∧ rep.writebacks = s.stats.numWritebacks
        ∧ rep.missRate =
          (if s.stats.numAccesses = 0 then none
          else some ((s.stats.numMisses : Rat) / (s.stats.numAccesses : Rat)))
        ∧ rep.registers = s.x.toList
        ∧ (∀ a w, (a, w) ∈ rep.accessedMemory ↔ ∃ k, accessed s k = true ∧ a = 8 * k ∧ w = imgWord s k)
        ∧ (rep.accessedMemory.map Prod.fst).Pairwise (· < ·))
    ∧ (∀ c, s.status = .fatal c → report s = none ∧ exitStatus s = some 1)
    ∧ (s.status = .running → report s = none ∧ exitStatus s = none)

end Statements
end

