-- ==== Sys2Proof/Laws/Sparse.lean ====
section
/-! SUPPORT. The laws of the sparse maps and byte memories: what a read gives after a write, and that
every write keeps the canonical form. -/

namespace Sys2Proof.Machine

namespace Sparse

variable {β : Type}

theorem mem_of_find? {m : List (Nat × β)} {a : Nat} {v : β} (h : find? m a = some v) :
    (a, v) ∈ m := by
  induction m with
  | nil => cases h
  | cons p rest ih =>
    obtain ⟨k, w⟩ := p
    by_cases hk : k = a
    · simp only [find?, hk, if_true, Option.some.injEq] at h
      rw [hk, h]
      exact List.mem_cons_self
    · simp only [find?, hk, if_false] at h
      exact List.mem_cons_of_mem _ (ih h)

theorem find?_erase_self (m : List (Nat × β)) (a : Nat) : find? (erase m a) a = none := by
  induction m with
  | nil => rfl
  | cons p rest ih =>
    obtain ⟨k, v⟩ := p
    by_cases h : k = a <;> simp [erase, find?, h, ih]

theorem find?_erase_of_ne (m : List (Nat × β)) {a b : Nat} (h : b ≠ a) :
    find? (erase m a) b = find? m b := by
  induction m with
  | nil => rfl
  | cons p rest ih =>
    obtain ⟨k, v⟩ := p
    by_cases hk : k = a
    · subst hk
      simp [erase, find?, ih, Ne.symm h]
    · by_cases hb : k = b
      · subst hb; simp [erase, find?, hk]
      · simp [erase, find?, hk, hb, ih]

theorem find?_place_of_none (m : List (Nat × β)) (a : Nat) (v : β) (h : find? m a = none) :
    find? (place m a v) a = some v := by
  induction m with
  | nil => simp [place, find?]
  | cons p rest ih =>
    obtain ⟨k, w⟩ := p
    by_cases hk : k = a
    · simp [find?, hk] at h
    · have hr : find? rest a = none := by simpa [find?, hk] using h
      by_cases hl : a < k <;> simp [place, find?, hl, hk, ih hr]

theorem find?_place_of_ne (m : List (Nat × β)) {a b : Nat} (v : β) (h : b ≠ a) :
    find? (place m a v) b = find? m b := by
  induction m with
  | nil => simp [place, find?, Ne.symm h]
  | cons p rest ih =>
    obtain ⟨k, w⟩ := p
    by_cases hl : a < k
    · simp [place, find?, hl, Ne.symm h]
    · by_cases hb : k = b
      · subst hb; simp [place, find?, hl]
      · simp [place, find?, hl, hb, ih]

theorem find?_insert_self (m : List (Nat × β)) (a : Nat) (v : β) :
    find? (insert m a v) a = some v :=
  find?_place_of_none _ a v (find?_erase_self m a)

theorem find?_insert_of_ne (m : List (Nat × β)) {a b : Nat} (v : β) (h : b ≠ a) :
    find? (insert m a v) b = find? m b := by
  rw [insert, find?_place_of_ne _ v h, find?_erase_of_ne _ h]

/-! ## Canonical form -/

theorem mem_erase {m : List (Nat × β)} {a : Nat} {p : Nat × β} (h : p ∈ erase m a) :
    p ∈ m ∧ p.1 ≠ a := by
  induction m with
  | nil => cases h
  | cons q rest ih =>
    obtain ⟨k, v⟩ := q
    by_cases hk : k = a
    · have := ih (by simpa [erase, hk] using h)
      exact ⟨by simp [this.1], this.2⟩
    · rcases List.mem_cons.1 (by simpa [erase, hk] using h) with rfl | hr
      · exact ⟨by simp, hk⟩
      · have := ih hr
        exact ⟨by simp [this.1], this.2⟩

theorem mem_place {m : List (Nat × β)} {a : Nat} {v : β} {p : Nat × β} (h : p ∈ place m a v) :
    p = (a, v) ∨ p ∈ m := by
  induction m with
  | nil => simpa [place] using h
  | cons q rest ih =>
    obtain ⟨k, w⟩ := q
    by_cases hl : a < k
    · simpa [place, hl] using h
    · rcases List.mem_cons.1 (by simpa [place, hl] using h) with rfl | hr
      · exact .inr (by simp)
      · rcases ih hr with h' | h'
        · exact .inl h'
        · exact .inr (by simp [h'])

theorem rising_erase {m : List (Nat × β)} (h : rising m = true) (a : Nat) :
    rising (erase m a) = true := by
  induction m with
  | nil => rfl
  | cons q rest ih =>
    obtain ⟨k, v⟩ := q
    simp only [rising, Bool.and_eq_true, List.all_eq_true, decide_eq_true_eq] at h
    by_cases hk : k = a
    · simpa [erase, hk] using ih h.2
    · simp only [erase, hk, if_false, rising, Bool.and_eq_true, List.all_eq_true, decide_eq_true_eq]
      exact ⟨fun p hp => h.1 p (mem_erase hp).1, ih h.2⟩

theorem rising_place {m : List (Nat × β)} (h : rising m = true) {a : Nat} (v : β)
    (ha : ∀ p ∈ m, p.1 ≠ a) : rising (place m a v) = true := by
  induction m with
  | nil => rfl
  | cons q rest ih =>
    obtain ⟨k, w⟩ := q
    simp only [rising, Bool.and_eq_true, List.all_eq_true, decide_eq_true_eq] at h
    have hka : k ≠ a := ha (k, w) (by simp)
    by_cases hl : a < k
    · simp only [place, hl, if_true, rising, Bool.and_eq_true, List.all_eq_true, decide_eq_true_eq,
        List.mem_cons]
      refine ⟨?_, h.1, h.2⟩
      rintro p (rfl | hp)
      · exact hl
      · exact Nat.lt_trans hl (h.1 p hp)
    · simp only [place, hl, if_false, rising, Bool.and_eq_true, List.all_eq_true, decide_eq_true_eq]
      refine ⟨fun p hp => ?_, ih h.2 (fun p hp => ha p (by simp [hp]))⟩
      rcases mem_place hp with rfl | hp
      · simp only; omega
      · exact h.1 p hp

theorem rising_insert {m : List (Nat × β)} (h : rising m = true) (a : Nat) (v : β) :
    rising (insert m a v) = true :=
  rising_place (rising_erase h a) v (fun _ hp => (mem_erase hp).2)

/-! ## Reads after writes -/

variable [DecidableEq β]

/-- A read at the address written. -/
theorem get_put_self (d : β) (m : List (Nat × β)) (a : Nat) (v : β) :
    get d (put d m a v) a = v := by
  by_cases h : v = d
  · simp [get, put, h, find?_erase_self]
  · simp [get, put, h, find?_insert_self]

/-- A read at any other address. -/
theorem get_put_of_ne (d : β) (m : List (Nat × β)) {a b : Nat} (v : β) (h : b ≠ a) :
    get d (put d m a v) b = get d m b := by
  by_cases hv : v = d
  · simp [get, put, hv, find?_erase_of_ne _ h]
  · simp [get, put, hv, find?_insert_of_ne _ v h]

/-- Both cases of a read after a write. -/
theorem get_put (d : β) (m : List (Nat × β)) (a b : Nat) (v : β) :
    get d (put d m a v) b = if b = a then v else get d m b := by
  by_cases h : b = a
  · subst h; simp [get_put_self]
  · simp [h, get_put_of_ne]

/-- What is listed after a write. -/
theorem mem_put {d : β} {m : List (Nat × β)} {a : Nat} {v : β}
    {p : Nat × β} (h : p ∈ put d m a v) : p = (a, v) ∨ p ∈ m := by
  unfold put at h
  split at h
  · exact .inr (mem_erase h).1
  · rcases mem_place h with h | h
    · exact .inl h
    · exact .inr (mem_erase h).1

/-- Every write keeps the canonical form. -/
theorem wf_put {d : β} {m : List (Nat × β)} (h : wf d m = true) (a : Nat) (v : β) :
    wf d (put d m a v) = true := by
  simp only [wf, Bool.and_eq_true, List.all_eq_true, decide_eq_true_eq] at h ⊢
  by_cases hv : v = d
  · simp only [put, hv, if_true]
    exact ⟨rising_erase h.1 a, fun p hp => h.2 p (mem_erase hp).1⟩
  · simp only [put, hv, if_false]
    refine ⟨rising_insert h.1 a v, fun p hp => ?_⟩
    rcases mem_place hp with rfl | hp
    · exact hv
    · exact h.2 p (mem_erase hp).1

end Sparse

/-! ## Byte memories -/

theorem Memory.read_write (m : Memory) (a b : Nat) (v : Byte) :
    Memory.read (Memory.write m a v) b = if b = a then v else Memory.read m b :=
  Sparse.get_put _ m a b v

theorem Memory.read_nil (a : Nat) : Memory.read [] a = 0#8 := rfl

theorem Memory.wf_write {m : Memory} (h : Memory.wf m = true) (a : Nat) (v : Byte) :
    Memory.wf (Memory.write m a v) = true :=
  Sparse.wf_put h a v

theorem Memory.wf_writeLE {m : Memory} (h : Memory.wf m = true) (a n : Nat) (v : Word) :
    Memory.wf (Memory.writeLE m a n v) = true := by
  induction n generalizing m a v with
  | zero => exact h
  | succ n ih => exact ih (Memory.wf_write h _ _) _ _

theorem Memory.wf_copy {dst : Memory} (h : Memory.wf dst = true) (src : Memory) (i j n : Nat) :
    Memory.wf (Memory.copy src i dst j n) = true := by
  induction n generalizing dst i j with
  | zero => exact h
  | succ n ih => exact ih (Memory.wf_write h _ _) _ _

/-- Byte `j` of what `writeLE` leaves: the bytes of the value in the range written, the old ones
elsewhere (20_memory.md R61, R86). -/
theorem Memory.read_writeLE (m : Memory) (a n : Nat) (v : Word) (b : Nat) :
    Memory.read (Memory.writeLE m a n v) b =
      if a ≤ b ∧ b < a + n then (v >>> (8 * (b - a))).setWidth 8 else Memory.read m b := by
  induction n generalizing m a v with
  | zero =>
    simp [Memory.writeLE]
  | succ n ih =>
    rw [Memory.writeLE, ih, Memory.read_write]
    by_cases h1 : a + 1 ≤ b ∧ b < a + 1 + n
    · have h2 : a ≤ b ∧ b < a + (n + 1) := by omega
      have h3 : 8 * (b - a) = 8 + 8 * (b - (a + 1)) := by omega
      simp only [h1, h2, if_true, and_self, h3, BitVec.shiftRight_add]
    · rw [if_neg h1]
      by_cases hb : b = a
      · subst hb
        have h2 : b ≤ b ∧ b < b + (n + 1) := by omega
        simp [h2]
      · have h2 : ¬ (a ≤ b ∧ b < a + (n + 1)) := by omega
        simp [hb, h2]

/-- A byte of what `copy` leaves (20_memory.md R67, R68). -/
theorem Memory.read_copy (src dst : Memory) (i j n b : Nat) :
    Memory.read (Memory.copy src i dst j n) b =
      if j ≤ b ∧ b < j + n then Memory.read src (i + (b - j)) else Memory.read dst b := by
  induction n generalizing dst i j with
  | zero =>
    simp [Memory.copy]
  | succ n ih =>
    rw [Memory.copy, ih, Memory.read_write]
    by_cases h1 : j + 1 ≤ b ∧ b < j + 1 + n
    · have h2 : j ≤ b ∧ b < j + (n + 1) := by omega
      have h3 : i + 1 + (b - (j + 1)) = i + (b - j) := by omega
      simp [h1, h2, h3]
    · rw [if_neg h1]
      by_cases hb : b = j
      · subst hb
        have h2 : b ≤ b ∧ b < b + (n + 1) := by omega
        simp [h2]
      · have h2 : ¬ (j ≤ b ∧ b < j + (n + 1)) := by omega
        simp [hb, h2]

/-- Memories that agree on the bytes read give the same value. -/
theorem Memory.readLE_congr {m m' : Memory} {a a' n : Nat}
    (h : ∀ j < n, Memory.read m (a + j) = Memory.read m' (a' + j)) :
    Memory.readLE m a n = Memory.readLE m' a' n := by
  induction n generalizing a a' with
  | zero => rfl
  | succ n ih =>
    have h0 := h 0 (by omega)
    have hs : Memory.readLE m (a + 1) n = Memory.readLE m' (a' + 1) n := by
      apply ih
      intro j hj
      have := h (j + 1) (by omega)
      rwa [show a + (j + 1) = a + 1 + j by omega, show a' + (j + 1) = a' + 1 + j by omega] at this
    simp only [Nat.add_zero] at h0
    simp [Memory.readLE, h0, hs]

end Sys2Proof.Machine
end

