-- ==== Sys2Proof/Laws/Geometry.lean ====
section
/-! SUPPORT. The cache geometry (20_memory.md R70, R71): what a valid configuration gives, and that set
index, tag and offset decompose an address uniquely. -/

namespace Sys2Proof.Machine

/-- What the checks of R60 and R70 give. -/
structure GeometryFacts (c : Config) : Prop where
  blockPos : 0 < c.blockBytes
  blockMul : c.blockBytes % 8 = 0
  waysPos : 0 < c.ways
  setsPos : 0 < numSets c

theorem geometryFacts {c : Config} (h : configError c = none) : GeometryFacts c := by
  unfold configError at h
  split at h
  · cases h
  split at h
  · cases h
  rename_i hg
  simp only [Bool.not_eq_false, geometryOk, powerOfTwo, Bool.and_eq_true, decide_eq_true_eq] at hg
  exact ⟨by omega, by omega, by omega, by omega⟩

variable {c : Config}

/-- An address is its tag, set and offset (R71). -/
theorem address_decompose (c : Config) (a : Nat) :
    a = blockBase c (setIndex c a) (tagOf c a) + offsetOf c a := by
  unfold blockBase setIndex tagOf offsetOf
  have h1 : a / (numSets c * c.blockBytes) = a / c.blockBytes / numSets c := by
    rw [Nat.mul_comm, Nat.div_div_eq_div_mul]
  rw [h1, Nat.div_add_mod', Nat.div_add_mod']

/-- The block address is the base of the block (R71). -/
theorem blockAddr_eq_base (c : Config) (a : Nat) :
    blockAddr c a = blockBase c (setIndex c a) (tagOf c a) := by
  have := address_decompose c a
  unfold blockAddr
  omega

theorem setIndex_lt (h : GeometryFacts c) (a : Nat) : setIndex c a < numSets c :=
  Nat.mod_lt _ h.setsPos

theorem offset_lt (h : GeometryFacts c) (a : Nat) : offsetOf c a < c.blockBytes :=
  Nat.mod_lt _ h.blockPos

/-- The block of an address in the range of block `(set, tag)` is that block (R71). -/
theorem index_of_mem_block (h : GeometryFacts c) {set tag a : Nat} (hs : set < numSets c)
    (h1 : blockBase c set tag ≤ a) (h2 : a < blockBase c set tag + c.blockBytes) :
    setIndex c a = set ∧ tagOf c a = tag ∧ offsetOf c a = a - blockBase c set tag := by
  obtain ⟨j, rfl⟩ : ∃ j, a = blockBase c set tag + j := ⟨a - blockBase c set tag, by omega⟩
  have hj : j < c.blockBytes := by omega
  have hq : (blockBase c set tag + j) / c.blockBytes = tag * numSets c + set := by
    unfold blockBase
    rw [Nat.add_comm, Nat.add_mul_div_right _ _ h.blockPos, Nat.div_eq_of_lt hj]
    omega
  refine ⟨?_, ?_, ?_⟩
  · rw [setIndex, hq, Nat.add_comm, Nat.add_mul_mod_self_right, Nat.mod_eq_of_lt hs]
  · rw [tagOf, Nat.mul_comm, ← Nat.div_div_eq_div_mul, hq, Nat.add_comm,
      Nat.add_mul_div_right _ _ h.setsPos, Nat.div_eq_of_lt hs]
    omega
  · unfold offsetOf blockBase
    rw [Nat.add_comm, Nat.add_mul_mod_self_right, Nat.mod_eq_of_lt hj]
    omega

/-- The address at an offset of a block. -/
theorem index_base_add (h : GeometryFacts c) {set : Nat} (tag : Nat) {j : Nat}
    (hs : set < numSets c) (hj : j < c.blockBytes) :
    setIndex c (blockBase c set tag + j) = set ∧ tagOf c (blockBase c set tag + j) = tag
      ∧ offsetOf c (blockBase c set tag + j) = j := by
  have := index_of_mem_block h hs (a := blockBase c set tag + j) (tag := tag) (by omega) (by omega)
  refine ⟨this.1, this.2.1, by omega⟩

/-- An aligned access of a width that divides 8 stays inside its block (R72). -/
theorem access_in_block (h : GeometryFacts c) {a n j : Nat} (hn : n = 1 ∨ n = 2 ∨ n = 4 ∨ n = 8)
    (ha : a % n = 0) (hj : j < n) :
    setIndex c (a + j) = setIndex c a ∧ tagOf c (a + j) = tagOf c a
      ∧ offsetOf c (a + j) = offsetOf c a + j := by
  have hd := address_decompose c a
  have hoff : offsetOf c a + n ≤ c.blockBytes := by
    have hb : n ∣ c.blockBytes := by
      have : 8 ∣ c.blockBytes := Nat.dvd_of_mod_eq_zero h.blockMul
      rcases hn with rfl | rfl | rfl | rfl
      · exact Nat.one_dvd _
      · exact Nat.dvd_trans (by decide) this
      · exact Nat.dvd_trans (by decide) this
      · exact this
    have ho : offsetOf c a % n = 0 := by
      unfold offsetOf
      rw [Nat.mod_mod_of_dvd _ hb, ha]
    have hlt := offset_lt h a
    obtain ⟨k, hk⟩ := hb
    obtain ⟨m, hm⟩ := Nat.dvd_of_mod_eq_zero ho
    rw [hk, hm] at hlt ⊢
    have : m < k := Nat.lt_of_mul_lt_mul_left hlt
    calc n * m + n = n * (m + 1) := by rw [Nat.mul_succ]
      _ ≤ n * k := Nat.mul_le_mul_left _ this
  have := index_base_add h (tagOf c a) (setIndex_lt h a) (j := offsetOf c a + j) (by omega)
  rw [← Nat.add_assoc, ← hd] at this
  exact this

end Sys2Proof.Machine
end

