-- ==== Sys2Proof/Laws/State.lean ====
section
/-! SUPPORT. What each update of the state leaves alone, field by field, and what each latch operation
is as a record update. -/

namespace Sys2Proof.Machine

@[simp] theorem Latch.read_fd (s : State) : Latch.fd.read s = s.lFD := rfl
@[simp] theorem Latch.free_fd (s : State) : Latch.fd.free s = s.lFD.isNone := rfl
@[simp] theorem Latch.set_fd (r : Option Rec) (s : State) : Latch.fd.set r s = { s with lFD := r } := rfl
@[simp] theorem Latch.clear_fd (s : State) : Latch.fd.clear s = { s with lFD := none } := rfl
@[simp] theorem Latch.write_fd (r : Rec) (s : State) : Latch.fd.write r s =
    if s.lFD.isNone then .next { s with lFD := some r } else .refused .latchOccupied := rfl
@[simp] theorem Latch.read_dx (s : State) : Latch.dx.read s = s.lDX := rfl
@[simp] theorem Latch.free_dx (s : State) : Latch.dx.free s = s.lDX.isNone := rfl
@[simp] theorem Latch.set_dx (r : Option Rec) (s : State) : Latch.dx.set r s = { s with lDX := r } := rfl
@[simp] theorem Latch.clear_dx (s : State) : Latch.dx.clear s = { s with lDX := none } := rfl
@[simp] theorem Latch.write_dx (r : Rec) (s : State) : Latch.dx.write r s =
    if s.lDX.isNone then .next { s with lDX := some r } else .refused .latchOccupied := rfl
@[simp] theorem Latch.read_xm (s : State) : Latch.xm.read s = s.lXM := rfl
@[simp] theorem Latch.free_xm (s : State) : Latch.xm.free s = s.lXM.isNone := rfl
@[simp] theorem Latch.set_xm (r : Option Rec) (s : State) : Latch.xm.set r s = { s with lXM := r } := rfl
@[simp] theorem Latch.clear_xm (s : State) : Latch.xm.clear s = { s with lXM := none } := rfl
@[simp] theorem Latch.write_xm (r : Rec) (s : State) : Latch.xm.write r s =
    if s.lXM.isNone then .next { s with lXM := some r } else .refused .latchOccupied := rfl
@[simp] theorem Latch.read_mw (s : State) : Latch.mw.read s = s.lMW := rfl
@[simp] theorem Latch.free_mw (s : State) : Latch.mw.free s = s.lMW.isNone := rfl
@[simp] theorem Latch.set_mw (r : Option Rec) (s : State) : Latch.mw.set r s = { s with lMW := r } := rfl
@[simp] theorem Latch.clear_mw (s : State) : Latch.mw.clear s = { s with lMW := none } := rfl
@[simp] theorem Latch.write_mw (r : Rec) (s : State) : Latch.mw.write r s =
    if s.lMW.isNone then .next { s with lMW := some r } else .refused .latchOccupied := rfl

/-! ### raiseFatal -/

section
variable (s : State) (c : FatalCode)
@[simp] theorem raiseFatal_cfg : (raiseFatal c s).cfg = s.cfg := rfl
@[simp] theorem raiseFatal_prog : (raiseFatal c s).prog = s.prog := rfl
@[simp] theorem raiseFatal_tick : (raiseFatal c s).tick = s.tick := rfl
@[simp] theorem raiseFatal_pc : (raiseFatal c s).pc = s.pc := rfl
@[simp] theorem raiseFatal_pcValid : (raiseFatal c s).pcValid = s.pcValid := rfl
@[simp] theorem raiseFatal_lFD : (raiseFatal c s).lFD = s.lFD := rfl
@[simp] theorem raiseFatal_lDX : (raiseFatal c s).lDX = s.lDX := rfl
@[simp] theorem raiseFatal_lXM : (raiseFatal c s).lXM = s.lXM := rfl
@[simp] theorem raiseFatal_lMW : (raiseFatal c s).lMW = s.lMW := rfl
@[simp] theorem raiseFatal_fuInst : (raiseFatal c s).fuInst = s.fuInst := rfl
@[simp] theorem raiseFatal_fuExit : (raiseFatal c s).fuExit = s.fuExit := rfl
@[simp] theorem raiseFatal_blk : (raiseFatal c s).blk = s.blk := rfl
@[simp] theorem raiseFatal_missInst : (raiseFatal c s).missInst = s.missInst := rfl
@[simp] theorem raiseFatal_img : (raiseFatal c s).img = s.img := rfl
@[simp] theorem raiseFatal_acc : (raiseFatal c s).acc = s.acc := rfl
@[simp] theorem raiseFatal_pendValid : (raiseFatal c s).pendValid = s.pendValid := rfl
@[simp] theorem raiseFatal_pendAddr : (raiseFatal c s).pendAddr = s.pendAddr := rfl
@[simp] theorem raiseFatal_pendSize : (raiseFatal c s).pendSize = s.pendSize := rfl
@[simp] theorem raiseFatal_pendTick : (raiseFatal c s).pendTick = s.pendTick := rfl
@[simp] theorem raiseFatal_bht : (raiseFatal c s).bht = s.bht := rfl
@[simp] theorem raiseFatal_pht : (raiseFatal c s).pht = s.pht := rfl
@[simp] theorem raiseFatal_btb : (raiseFatal c s).btb = s.btb := rfl
@[simp] theorem raiseFatal_x : (raiseFatal c s).x = s.x := rfl
@[simp] theorem raiseFatal_dep : (raiseFatal c s).dep = s.dep := rfl
@[simp] theorem raiseFatal_stats : (raiseFatal c s).stats = s.stats := rfl
@[simp] theorem raiseFatal_status : (raiseFatal c s).status = .fatal c := rfl
end

/-! ### writeReg -/

section
variable (s : State) (r : Reg) (v : Word)
@[simp] theorem writeReg_cfg : (writeReg r v s).cfg = s.cfg := by unfold writeReg; split <;> rfl
@[simp] theorem writeReg_prog : (writeReg r v s).prog = s.prog := by unfold writeReg; split <;> rfl
@[simp] theorem writeReg_tick : (writeReg r v s).tick = s.tick := by unfold writeReg; split <;> rfl
@[simp] theorem writeReg_pc : (writeReg r v s).pc = s.pc := by unfold writeReg; split <;> rfl
@[simp] theorem writeReg_pcValid : (writeReg r v s).pcValid = s.pcValid := by unfold writeReg; split <;> rfl
@[simp] theorem writeReg_lFD : (writeReg r v s).lFD = s.lFD := by unfold writeReg; split <;> rfl
@[simp] theorem writeReg_lDX : (writeReg r v s).lDX = s.lDX := by unfold writeReg; split <;> rfl
@[simp] theorem writeReg_lXM : (writeReg r v s).lXM = s.lXM := by unfold writeReg; split <;> rfl
@[simp] theorem writeReg_lMW : (writeReg r v s).lMW = s.lMW := by unfold writeReg; split <;> rfl
@[simp] theorem writeReg_fuInst : (writeReg r v s).fuInst = s.fuInst := by unfold writeReg; split <;> rfl
@[simp] theorem writeReg_fuExit : (writeReg r v s).fuExit = s.fuExit := by unfold writeReg; split <;> rfl
@[simp] theorem writeReg_blk : (writeReg r v s).blk = s.blk := by unfold writeReg; split <;> rfl
@[simp] theorem writeReg_missInst : (writeReg r v s).missInst = s.missInst := by unfold writeReg; split <;> rfl
@[simp] theorem writeReg_img : (writeReg r v s).img = s.img := by unfold writeReg; split <;> rfl
@[simp] theorem writeReg_acc : (writeReg r v s).acc = s.acc := by unfold writeReg; split <;> rfl
@[simp] theorem writeReg_pendValid : (writeReg r v s).pendValid = s.pendValid := by unfold writeReg; split <;> rfl
@[simp] theorem writeReg_pendAddr : (writeReg r v s).pendAddr = s.pendAddr := by unfold writeReg; split <;> rfl
@[simp] theorem writeReg_pendSize : (writeReg r v s).pendSize = s.pendSize := by unfold writeReg; split <;> rfl
@[simp] theorem writeReg_pendTick : (writeReg r v s).pendTick = s.pendTick := by unfold writeReg; split <;> rfl
@[simp] theorem writeReg_bht : (writeReg r v s).bht = s.bht := by unfold writeReg; split <;> rfl
@[simp] theorem writeReg_pht : (writeReg r v s).pht = s.pht := by unfold writeReg; split <;> rfl
@[simp] theorem writeReg_btb : (writeReg r v s).btb = s.btb := by unfold writeReg; split <;> rfl
@[simp] theorem writeReg_dep : (writeReg r v s).dep = s.dep := by unfold writeReg; split <;> rfl
@[simp] theorem writeReg_stats : (writeReg r v s).stats = s.stats := by unfold writeReg; split <;> rfl
@[simp] theorem writeReg_status : (writeReg r v s).status = s.status := by unfold writeReg; split <;> rfl
end

/-! ### setDep -/

section
variable (s : State) (r : Reg) (n : Nat)
@[simp] theorem setDep_cfg : (setDep r n s).cfg = s.cfg := rfl
@[simp] theorem setDep_prog : (setDep r n s).prog = s.prog := rfl
@[simp] theorem setDep_tick : (setDep r n s).tick = s.tick := rfl
@[simp] theorem setDep_pc : (setDep r n s).pc = s.pc := rfl
@[simp] theorem setDep_pcValid : (setDep r n s).pcValid = s.pcValid := rfl
@[simp] theorem setDep_lFD : (setDep r n s).lFD = s.lFD := rfl
@[simp] theorem setDep_lDX : (setDep r n s).lDX = s.lDX := rfl
@[simp] theorem setDep_lXM : (setDep r n s).lXM = s.lXM := rfl
@[simp] theorem setDep_lMW : (setDep r n s).lMW = s.lMW := rfl
@[simp] theorem setDep_fuInst : (setDep r n s).fuInst = s.fuInst := rfl
@[simp] theorem setDep_fuExit : (setDep r n s).fuExit = s.fuExit := rfl
@[simp] theorem setDep_blk : (setDep r n s).blk = s.blk := rfl
@[simp] theorem setDep_missInst : (setDep r n s).missInst = s.missInst := rfl
@[simp] theorem setDep_img : (setDep r n s).img = s.img := rfl
@[simp] theorem setDep_acc : (setDep r n s).acc = s.acc := rfl
@[simp] theorem setDep_pendValid : (setDep r n s).pendValid = s.pendValid := rfl
@[simp] theorem setDep_pendAddr : (setDep r n s).pendAddr = s.pendAddr := rfl
@[simp] theorem setDep_pendSize : (setDep r n s).pendSize = s.pendSize := rfl
@[simp] theorem setDep_pendTick : (setDep r n s).pendTick = s.pendTick := rfl
@[simp] theorem setDep_bht : (setDep r n s).bht = s.bht := rfl
@[simp] theorem setDep_pht : (setDep r n s).pht = s.pht := rfl
@[simp] theorem setDep_btb : (setDep r n s).btb = s.btb := rfl
@[simp] theorem setDep_x : (setDep r n s).x = s.x := rfl
@[simp] theorem setDep_stats : (setDep r n s).stats = s.stats := rfl
@[simp] theorem setDep_status : (setDep r n s).status = s.status := rfl
end

/-! ### markPending -/

section
variable (s : State) (i : Instr)
@[simp] theorem markPending_cfg : (markPending i s).cfg = s.cfg := by unfold markPending; split <;> rfl
@[simp] theorem markPending_prog : (markPending i s).prog = s.prog := by unfold markPending; split <;> rfl
@[simp] theorem markPending_tick : (markPending i s).tick = s.tick := by unfold markPending; split <;> rfl
@[simp] theorem markPending_pc : (markPending i s).pc = s.pc := by unfold markPending; split <;> rfl
@[simp] theorem markPending_pcValid : (markPending i s).pcValid = s.pcValid := by unfold markPending; split <;> rfl
@[simp] theorem markPending_lFD : (markPending i s).lFD = s.lFD := by unfold markPending; split <;> rfl
@[simp] theorem markPending_lDX : (markPending i s).lDX = s.lDX := by unfold markPending; split <;> rfl
@[simp] theorem markPending_lXM : (markPending i s).lXM = s.lXM := by unfold markPending; split <;> rfl
@[simp] theorem markPending_lMW : (markPending i s).lMW = s.lMW := by unfold markPending; split <;> rfl
@[simp] theorem markPending_fuInst : (markPending i s).fuInst = s.fuInst := by unfold markPending; split <;> rfl
@[simp] theorem markPending_fuExit : (markPending i s).fuExit = s.fuExit := by unfold markPending; split <;> rfl
@[simp] theorem markPending_blk : (markPending i s).blk = s.blk := by unfold markPending; split <;> rfl
@[simp] theorem markPending_missInst : (markPending i s).missInst = s.missInst := by unfold markPending; split <;> rfl
@[simp] theorem markPending_img : (markPending i s).img = s.img := by unfold markPending; split <;> rfl
@[simp] theorem markPending_acc : (markPending i s).acc = s.acc := by unfold markPending; split <;> rfl
@[simp] theorem markPending_pendValid : (markPending i s).pendValid = s.pendValid := by unfold markPending; split <;> rfl
@[simp] theorem markPending_pendAddr : (markPending i s).pendAddr = s.pendAddr := by unfold markPending; split <;> rfl
@[simp] theorem markPending_pendSize : (markPending i s).pendSize = s.pendSize := by unfold markPending; split <;> rfl
@[simp] theorem markPending_pendTick : (markPending i s).pendTick = s.pendTick := by unfold markPending; split <;> rfl
@[simp] theorem markPending_bht : (markPending i s).bht = s.bht := by unfold markPending; split <;> rfl
@[simp] theorem markPending_pht : (markPending i s).pht = s.pht := by unfold markPending; split <;> rfl
@[simp] theorem markPending_btb : (markPending i s).btb = s.btb := by unfold markPending; split <;> rfl
@[simp] theorem markPending_x : (markPending i s).x = s.x := by unfold markPending; split <;> rfl
@[simp] theorem markPending_stats : (markPending i s).stats = s.stats := by unfold markPending; split <;> rfl
@[simp] theorem markPending_status : (markPending i s).status = s.status := by unfold markPending; split <;> rfl
end

/-! ### retireRegister -/

section
variable (s : State) (r : Rec)
@[simp] theorem retireRegister_cfg : (retireRegister r s).cfg = s.cfg := by unfold retireRegister; split <;> simp
@[simp] theorem retireRegister_prog : (retireRegister r s).prog = s.prog := by unfold retireRegister; split <;> simp
@[simp] theorem retireRegister_tick : (retireRegister r s).tick = s.tick := by unfold retireRegister; split <;> simp
@[simp] theorem retireRegister_pc : (retireRegister r s).pc = s.pc := by unfold retireRegister; split <;> simp
@[simp] theorem retireRegister_pcValid : (retireRegister r s).pcValid = s.pcValid := by unfold retireRegister; split <;> simp
@[simp] theorem retireRegister_lFD : (retireRegister r s).lFD = s.lFD := by unfold retireRegister; split <;> simp
@[simp] theorem retireRegister_lDX : (retireRegister r s).lDX = s.lDX := by unfold retireRegister; split <;> simp
@[simp] theorem retireRegister_lXM : (retireRegister r s).lXM = s.lXM := by unfold retireRegister; split <;> simp
@[simp] theorem retireRegister_lMW : (retireRegister r s).lMW = s.lMW := by unfold retireRegister; split <;> simp
@[simp] theorem retireRegister_fuInst : (retireRegister r s).fuInst = s.fuInst := by unfold retireRegister; split <;> simp
@[simp] theorem retireRegister_fuExit : (retireRegister r s).fuExit = s.fuExit := by unfold retireRegister; split <;> simp
@[simp] theorem retireRegister_blk : (retireRegister r s).blk = s.blk := by unfold retireRegister; split <;> simp
@[simp] theorem retireRegister_missInst : (retireRegister r s).missInst = s.missInst := by unfold retireRegister; split <;> simp
@[simp] theorem retireRegister_img : (retireRegister r s).img = s.img := by unfold retireRegister; split <;> simp
@[simp] theorem retireRegister_acc : (retireRegister r s).acc = s.acc := by unfold retireRegister; split <;> simp
@[simp] theorem retireRegister_pendValid : (retireRegister r s).pendValid = s.pendValid := by unfold retireRegister; split <;> simp
@[simp] theorem retireRegister_pendAddr : (retireRegister r s).pendAddr = s.pendAddr := by unfold retireRegister; split <;> simp
@[simp] theorem retireRegister_pendSize : (retireRegister r s).pendSize = s.pendSize := by unfold retireRegister; split <;> simp
@[simp] theorem retireRegister_pendTick : (retireRegister r s).pendTick = s.pendTick := by unfold retireRegister; split <;> simp
@[simp] theorem retireRegister_bht : (retireRegister r s).bht = s.bht := by unfold retireRegister; split <;> simp
@[simp] theorem retireRegister_pht : (retireRegister r s).pht = s.pht := by unfold retireRegister; split <;> simp
@[simp] theorem retireRegister_btb : (retireRegister r s).btb = s.btb := by unfold retireRegister; split <;> simp
@[simp] theorem retireRegister_stats : (retireRegister r s).stats = s.stats := by unfold retireRegister; split <;> simp
@[simp] theorem retireRegister_status : (retireRegister r s).status = s.status := by unfold retireRegister; split <;> simp
end

/-! ### markAccessed -/

section
variable (s : State) (k n : Nat)
@[simp] theorem markAccessed_cfg : (markAccessed k n s).cfg = s.cfg := by
  induction n generalizing k s with
  | zero => rfl
  | succ n ih => exact ih _ _
@[simp] theorem markAccessed_prog : (markAccessed k n s).prog = s.prog := by
  induction n generalizing k s with
  | zero => rfl
  | succ n ih => exact ih _ _
@[simp] theorem markAccessed_tick : (markAccessed k n s).tick = s.tick := by
  induction n generalizing k s with
  | zero => rfl
  | succ n ih => exact ih _ _
@[simp] theorem markAccessed_pc : (markAccessed k n s).pc = s.pc := by
  induction n generalizing k s with
  | zero => rfl
  | succ n ih => exact ih _ _
@[simp] theorem markAccessed_pcValid : (markAccessed k n s).pcValid = s.pcValid := by
  induction n generalizing k s with
  | zero => rfl
  | succ n ih => exact ih _ _
@[simp] theorem markAccessed_lFD : (markAccessed k n s).lFD = s.lFD := by
  induction n generalizing k s with
  | zero => rfl
  | succ n ih => exact ih _ _
@[simp] theorem markAccessed_lDX : (markAccessed k n s).lDX = s.lDX := by
  induction n generalizing k s with
  | zero => rfl
  | succ n ih => exact ih _ _
@[simp] theorem markAccessed_lXM : (markAccessed k n s).lXM = s.lXM := by
  induction n generalizing k s with
  | zero => rfl
  | succ n ih => exact ih _ _
@[simp] theorem markAccessed_lMW : (markAccessed k n s).lMW = s.lMW := by
  induction n generalizing k s with
  | zero => rfl
  | succ n ih => exact ih _ _
@[simp] theorem markAccessed_fuInst : (markAccessed k n s).fuInst = s.fuInst := by
  induction n generalizing k s with
  | zero => rfl
  | succ n ih => exact ih _ _
@[simp] theorem markAccessed_fuExit : (markAccessed k n s).fuExit = s.fuExit := by
  induction n generalizing k s with
  | zero => rfl
  | succ n ih => exact ih _ _
@[simp] theorem markAccessed_blk : (markAccessed k n s).blk = s.blk := by
  induction n generalizing k s with
  | zero => rfl
  | succ n ih => exact ih _ _
@[simp] theorem markAccessed_missInst : (markAccessed k n s).missInst = s.missInst := by
  induction n generalizing k s with
  | zero => rfl
  | succ n ih => exact ih _ _
@[simp] theorem markAccessed_img : (markAccessed k n s).img = s.img := by
  induction n generalizing k s with
  | zero => rfl
  | succ n ih => exact ih _ _
@[simp] theorem markAccessed_pendValid : (markAccessed k n s).pendValid = s.pendValid := by
  induction n generalizing k s with
  | zero => rfl
  | succ n ih => exact ih _ _
@[simp] theorem markAccessed_pendAddr : (markAccessed k n s).pendAddr = s.pendAddr := by
  induction n generalizing k s with
  | zero => rfl
  | succ n ih => exact ih _ _
@[simp] theorem markAccessed_pendSize : (markAccessed k n s).pendSize = s.pendSize := by
  induction n generalizing k s with
  | zero => rfl
  | succ n ih => exact ih _ _
@[simp] theorem markAccessed_pendTick : (markAccessed k n s).pendTick = s.pendTick := by
  induction n generalizing k s with
  | zero => rfl
  | succ n ih => exact ih _ _
@[simp] theorem markAccessed_bht : (markAccessed k n s).bht = s.bht := by
  induction n generalizing k s with
  | zero => rfl
  | succ n ih => exact ih _ _
@[simp] theorem markAccessed_pht : (markAccessed k n s).pht = s.pht := by
  induction n generalizing k s with
  | zero => rfl
  | succ n ih => exact ih _ _
@[simp] theorem markAccessed_btb : (markAccessed k n s).btb = s.btb := by
  induction n generalizing k s with
  | zero => rfl
  | succ n ih => exact ih _ _
@[simp] theorem markAccessed_x : (markAccessed k n s).x = s.x := by
  induction n generalizing k s with
  | zero => rfl
  | succ n ih => exact ih _ _
@[simp] theorem markAccessed_dep : (markAccessed k n s).dep = s.dep := by
  induction n generalizing k s with
  | zero => rfl
  | succ n ih => exact ih _ _
@[simp] theorem markAccessed_stats : (markAccessed k n s).stats = s.stats := by
  induction n generalizing k s with
  | zero => rfl
  | succ n ih => exact ih _ _
@[simp] theorem markAccessed_status : (markAccessed k n s).status = s.status := by
  induction n generalizing k s with
  | zero => rfl
  | succ n ih => exact ih _ _
end

/-! ### imgWriteBlock -/

section
variable (s : State) (a : Nat) (d : Memory)
@[simp] theorem imgWriteBlock_cfg : (imgWriteBlock a d s).cfg = s.cfg := rfl
@[simp] theorem imgWriteBlock_prog : (imgWriteBlock a d s).prog = s.prog := rfl
@[simp] theorem imgWriteBlock_tick : (imgWriteBlock a d s).tick = s.tick := rfl
@[simp] theorem imgWriteBlock_pc : (imgWriteBlock a d s).pc = s.pc := rfl
@[simp] theorem imgWriteBlock_pcValid : (imgWriteBlock a d s).pcValid = s.pcValid := rfl
@[simp] theorem imgWriteBlock_lFD : (imgWriteBlock a d s).lFD = s.lFD := rfl
@[simp] theorem imgWriteBlock_lDX : (imgWriteBlock a d s).lDX = s.lDX := rfl
@[simp] theorem imgWriteBlock_lXM : (imgWriteBlock a d s).lXM = s.lXM := rfl
@[simp] theorem imgWriteBlock_lMW : (imgWriteBlock a d s).lMW = s.lMW := rfl
@[simp] theorem imgWriteBlock_fuInst : (imgWriteBlock a d s).fuInst = s.fuInst := rfl
@[simp] theorem imgWriteBlock_fuExit : (imgWriteBlock a d s).fuExit = s.fuExit := rfl
@[simp] theorem imgWriteBlock_blk : (imgWriteBlock a d s).blk = s.blk := rfl
@[simp] theorem imgWriteBlock_missInst : (imgWriteBlock a d s).missInst = s.missInst := rfl
@[simp] theorem imgWriteBlock_acc : (imgWriteBlock a d s).acc = s.acc := rfl
@[simp] theorem imgWriteBlock_pendValid : (imgWriteBlock a d s).pendValid = s.pendValid := rfl
@[simp] theorem imgWriteBlock_pendAddr : (imgWriteBlock a d s).pendAddr = s.pendAddr := rfl
@[simp] theorem imgWriteBlock_pendSize : (imgWriteBlock a d s).pendSize = s.pendSize := rfl
@[simp] theorem imgWriteBlock_pendTick : (imgWriteBlock a d s).pendTick = s.pendTick := rfl
@[simp] theorem imgWriteBlock_bht : (imgWriteBlock a d s).bht = s.bht := rfl
@[simp] theorem imgWriteBlock_pht : (imgWriteBlock a d s).pht = s.pht := rfl
@[simp] theorem imgWriteBlock_btb : (imgWriteBlock a d s).btb = s.btb := rfl
@[simp] theorem imgWriteBlock_x : (imgWriteBlock a d s).x = s.x := rfl
@[simp] theorem imgWriteBlock_dep : (imgWriteBlock a d s).dep = s.dep := rfl
@[simp] theorem imgWriteBlock_stats : (imgWriteBlock a d s).stats = s.stats := rfl
@[simp] theorem imgWriteBlock_status : (imgWriteBlock a d s).status = s.status := rfl
end

/-! ### setBlk -/

section
variable (s : State) (set way : Nat) (b : Block)
@[simp] theorem setBlk_cfg : (setBlk set way b s).cfg = s.cfg := rfl
@[simp] theorem setBlk_prog : (setBlk set way b s).prog = s.prog := rfl
@[simp] theorem setBlk_tick : (setBlk set way b s).tick = s.tick := rfl
@[simp] theorem setBlk_pc : (setBlk set way b s).pc = s.pc := rfl
@[simp] theorem setBlk_pcValid : (setBlk set way b s).pcValid = s.pcValid := rfl
@[simp] theorem setBlk_lFD : (setBlk set way b s).lFD = s.lFD := rfl
@[simp] theorem setBlk_lDX : (setBlk set way b s).lDX = s.lDX := rfl
@[simp] theorem setBlk_lXM : (setBlk set way b s).lXM = s.lXM := rfl
@[simp] theorem setBlk_lMW : (setBlk set way b s).lMW = s.lMW := rfl
@[simp] theorem setBlk_fuInst : (setBlk set way b s).fuInst = s.fuInst := rfl
@[simp] theorem setBlk_fuExit : (setBlk set way b s).fuExit = s.fuExit := rfl
@[simp] theorem setBlk_missInst : (setBlk set way b s).missInst = s.missInst := rfl
@[simp] theorem setBlk_img : (setBlk set way b s).img = s.img := rfl
@[simp] theorem setBlk_acc : (setBlk set way b s).acc = s.acc := rfl
@[simp] theorem setBlk_pendValid : (setBlk set way b s).pendValid = s.pendValid := rfl
@[simp] theorem setBlk_pendAddr : (setBlk set way b s).pendAddr = s.pendAddr := rfl
@[simp] theorem setBlk_pendSize : (setBlk set way b s).pendSize = s.pendSize := rfl
@[simp] theorem setBlk_pendTick : (setBlk set way b s).pendTick = s.pendTick := rfl
@[simp] theorem setBlk_bht : (setBlk set way b s).bht = s.bht := rfl
@[simp] theorem setBlk_pht : (setBlk set way b s).pht = s.pht := rfl
@[simp] theorem setBlk_btb : (setBlk set way b s).btb = s.btb := rfl
@[simp] theorem setBlk_x : (setBlk set way b s).x = s.x := rfl
@[simp] theorem setBlk_dep : (setBlk set way b s).dep = s.dep := rfl
@[simp] theorem setBlk_stats : (setBlk set way b s).stats = s.stats := rfl
@[simp] theorem setBlk_status : (setBlk set way b s).status = s.status := rfl
end

/-! ### updateBlock -/

section
variable (s : State) (a : Nat) (f : Block → Block)
@[simp] theorem updateBlock_cfg : (updateBlock a f s).cfg = s.cfg := rfl
@[simp] theorem updateBlock_prog : (updateBlock a f s).prog = s.prog := rfl
@[simp] theorem updateBlock_tick : (updateBlock a f s).tick = s.tick := rfl
@[simp] theorem updateBlock_pc : (updateBlock a f s).pc = s.pc := rfl
@[simp] theorem updateBlock_pcValid : (updateBlock a f s).pcValid = s.pcValid := rfl
@[simp] theorem updateBlock_lFD : (updateBlock a f s).lFD = s.lFD := rfl
@[simp] theorem updateBlock_lDX : (updateBlock a f s).lDX = s.lDX := rfl
@[simp] theorem updateBlock_lXM : (updateBlock a f s).lXM = s.lXM := rfl
@[simp] theorem updateBlock_lMW : (updateBlock a f s).lMW = s.lMW := rfl
@[simp] theorem updateBlock_fuInst : (updateBlock a f s).fuInst = s.fuInst := rfl
@[simp] theorem updateBlock_fuExit : (updateBlock a f s).fuExit = s.fuExit := rfl
@[simp] theorem updateBlock_missInst : (updateBlock a f s).missInst = s.missInst := rfl
@[simp] theorem updateBlock_img : (updateBlock a f s).img = s.img := rfl
@[simp] theorem updateBlock_acc : (updateBlock a f s).acc = s.acc := rfl
@[simp] theorem updateBlock_pendValid : (updateBlock a f s).pendValid = s.pendValid := rfl
@[simp] theorem updateBlock_pendAddr : (updateBlock a f s).pendAddr = s.pendAddr := rfl
@[simp] theorem updateBlock_pendSize : (updateBlock a f s).pendSize = s.pendSize := rfl
@[simp] theorem updateBlock_pendTick : (updateBlock a f s).pendTick = s.pendTick := rfl
@[simp] theorem updateBlock_bht : (updateBlock a f s).bht = s.bht := rfl
@[simp] theorem updateBlock_pht : (updateBlock a f s).pht = s.pht := rfl
@[simp] theorem updateBlock_btb : (updateBlock a f s).btb = s.btb := rfl
@[simp] theorem updateBlock_x : (updateBlock a f s).x = s.x := rfl
@[simp] theorem updateBlock_dep : (updateBlock a f s).dep = s.dep := rfl
@[simp] theorem updateBlock_stats : (updateBlock a f s).stats = s.stats := rfl
@[simp] theorem updateBlock_status : (updateBlock a f s).status = s.status := rfl
end

/-! ### touchBlock -/

section
variable (s : State) (a : Nat)
@[simp] theorem touchBlock_cfg : (touchBlock a s).cfg = s.cfg := rfl
@[simp] theorem touchBlock_prog : (touchBlock a s).prog = s.prog := rfl
@[simp] theorem touchBlock_tick : (touchBlock a s).tick = s.tick := rfl
@[simp] theorem touchBlock_pc : (touchBlock a s).pc = s.pc := rfl
@[simp] theorem touchBlock_pcValid : (touchBlock a s).pcValid = s.pcValid := rfl
@[simp] theorem touchBlock_lFD : (touchBlock a s).lFD = s.lFD := rfl
@[simp] theorem touchBlock_lDX : (touchBlock a s).lDX = s.lDX := rfl
@[simp] theorem touchBlock_lXM : (touchBlock a s).lXM = s.lXM := rfl
@[simp] theorem touchBlock_lMW : (touchBlock a s).lMW = s.lMW := rfl
@[simp] theorem touchBlock_fuInst : (touchBlock a s).fuInst = s.fuInst := rfl
@[simp] theorem touchBlock_fuExit : (touchBlock a s).fuExit = s.fuExit := rfl
@[simp] theorem touchBlock_missInst : (touchBlock a s).missInst = s.missInst := rfl
@[simp] theorem touchBlock_img : (touchBlock a s).img = s.img := rfl
@[simp] theorem touchBlock_acc : (touchBlock a s).acc = s.acc := rfl
@[simp] theorem touchBlock_pendValid : (touchBlock a s).pendValid = s.pendValid := rfl
@[simp] theorem touchBlock_pendAddr : (touchBlock a s).pendAddr = s.pendAddr := rfl
@[simp] theorem touchBlock_pendSize : (touchBlock a s).pendSize = s.pendSize := rfl
@[simp] theorem touchBlock_pendTick : (touchBlock a s).pendTick = s.pendTick := rfl
@[simp] theorem touchBlock_bht : (touchBlock a s).bht = s.bht := rfl
@[simp] theorem touchBlock_pht : (touchBlock a s).pht = s.pht := rfl
@[simp] theorem touchBlock_btb : (touchBlock a s).btb = s.btb := rfl
@[simp] theorem touchBlock_x : (touchBlock a s).x = s.x := rfl
@[simp] theorem touchBlock_dep : (touchBlock a s).dep = s.dep := rfl
@[simp] theorem touchBlock_stats : (touchBlock a s).stats = s.stats := rfl
@[simp] theorem touchBlock_status : (touchBlock a s).status = s.status := rfl
end

/-! ### memWrite -/

section
variable (s : State) (a n : Nat) (v : Word)
@[simp] theorem memWrite_cfg : (memWrite a n v s).cfg = s.cfg := rfl
@[simp] theorem memWrite_prog : (memWrite a n v s).prog = s.prog := rfl
@[simp] theorem memWrite_tick : (memWrite a n v s).tick = s.tick := rfl
@[simp] theorem memWrite_pc : (memWrite a n v s).pc = s.pc := rfl
@[simp] theorem memWrite_pcValid : (memWrite a n v s).pcValid = s.pcValid := rfl
@[simp] theorem memWrite_lFD : (memWrite a n v s).lFD = s.lFD := rfl
@[simp] theorem memWrite_lDX : (memWrite a n v s).lDX = s.lDX := rfl
@[simp] theorem memWrite_lXM : (memWrite a n v s).lXM = s.lXM := rfl
@[simp] theorem memWrite_lMW : (memWrite a n v s).lMW = s.lMW := rfl
@[simp] theorem memWrite_fuInst : (memWrite a n v s).fuInst = s.fuInst := rfl
@[simp] theorem memWrite_fuExit : (memWrite a n v s).fuExit = s.fuExit := rfl
@[simp] theorem memWrite_missInst : (memWrite a n v s).missInst = s.missInst := rfl
@[simp] theorem memWrite_img : (memWrite a n v s).img = s.img := rfl
@[simp] theorem memWrite_acc : (memWrite a n v s).acc = s.acc := rfl
@[simp] theorem memWrite_pendValid : (memWrite a n v s).pendValid = s.pendValid := rfl
@[simp] theorem memWrite_pendAddr : (memWrite a n v s).pendAddr = s.pendAddr := rfl
@[simp] theorem memWrite_pendSize : (memWrite a n v s).pendSize = s.pendSize := rfl
@[simp] theorem memWrite_pendTick : (memWrite a n v s).pendTick = s.pendTick := rfl
@[simp] theorem memWrite_bht : (memWrite a n v s).bht = s.bht := rfl
@[simp] theorem memWrite_pht : (memWrite a n v s).pht = s.pht := rfl
@[simp] theorem memWrite_btb : (memWrite a n v s).btb = s.btb := rfl
@[simp] theorem memWrite_x : (memWrite a n v s).x = s.x := rfl
@[simp] theorem memWrite_dep : (memWrite a n v s).dep = s.dep := rfl
@[simp] theorem memWrite_stats : (memWrite a n v s).stats = s.stats := rfl
@[simp] theorem memWrite_status : (memWrite a n v s).status = s.status := rfl
end

/-! ### dirtyBlock -/

section
variable (s : State) (a : Nat)
@[simp] theorem dirtyBlock_cfg : (dirtyBlock a s).cfg = s.cfg := rfl
@[simp] theorem dirtyBlock_prog : (dirtyBlock a s).prog = s.prog := rfl
@[simp] theorem dirtyBlock_tick : (dirtyBlock a s).tick = s.tick := rfl
@[simp] theorem dirtyBlock_pc : (dirtyBlock a s).pc = s.pc := rfl
@[simp] theorem dirtyBlock_pcValid : (dirtyBlock a s).pcValid = s.pcValid := rfl
@[simp] theorem dirtyBlock_lFD : (dirtyBlock a s).lFD = s.lFD := rfl
@[simp] theorem dirtyBlock_lDX : (dirtyBlock a s).lDX = s.lDX := rfl
@[simp] theorem dirtyBlock_lXM : (dirtyBlock a s).lXM = s.lXM := rfl
@[simp] theorem dirtyBlock_lMW : (dirtyBlock a s).lMW = s.lMW := rfl
@[simp] theorem dirtyBlock_fuInst : (dirtyBlock a s).fuInst = s.fuInst := rfl
@[simp] theorem dirtyBlock_fuExit : (dirtyBlock a s).fuExit = s.fuExit := rfl
@[simp] theorem dirtyBlock_missInst : (dirtyBlock a s).missInst = s.missInst := rfl
@[simp] theorem dirtyBlock_img : (dirtyBlock a s).img = s.img := rfl
@[simp] theorem dirtyBlock_acc : (dirtyBlock a s).acc = s.acc := rfl
@[simp] theorem dirtyBlock_pendValid : (dirtyBlock a s).pendValid = s.pendValid := rfl
@[simp] theorem dirtyBlock_pendAddr : (dirtyBlock a s).pendAddr = s.pendAddr := rfl
@[simp] theorem dirtyBlock_pendSize : (dirtyBlock a s).pendSize = s.pendSize := rfl
@[simp] theorem dirtyBlock_pendTick : (dirtyBlock a s).pendTick = s.pendTick := rfl
@[simp] theorem dirtyBlock_bht : (dirtyBlock a s).bht = s.bht := rfl
@[simp] theorem dirtyBlock_pht : (dirtyBlock a s).pht = s.pht := rfl
@[simp] theorem dirtyBlock_btb : (dirtyBlock a s).btb = s.btb := rfl
@[simp] theorem dirtyBlock_x : (dirtyBlock a s).x = s.x := rfl
@[simp] theorem dirtyBlock_dep : (dirtyBlock a s).dep = s.dep := rfl
@[simp] theorem dirtyBlock_stats : (dirtyBlock a s).stats = s.stats := rfl
@[simp] theorem dirtyBlock_status : (dirtyBlock a s).status = s.status := rfl
end

/-! ### countLoad -/

section
variable (s : State) 
@[simp] theorem countLoad_cfg : (countLoad s).cfg = s.cfg := rfl
@[simp] theorem countLoad_prog : (countLoad s).prog = s.prog := rfl
@[simp] theorem countLoad_tick : (countLoad s).tick = s.tick := rfl
@[simp] theorem countLoad_pc : (countLoad s).pc = s.pc := rfl
@[simp] theorem countLoad_pcValid : (countLoad s).pcValid = s.pcValid := rfl
@[simp] theorem countLoad_lFD : (countLoad s).lFD = s.lFD := rfl
@[simp] theorem countLoad_lDX : (countLoad s).lDX = s.lDX := rfl
@[simp] theorem countLoad_lXM : (countLoad s).lXM = s.lXM := rfl
@[simp] theorem countLoad_lMW : (countLoad s).lMW = s.lMW := rfl
@[simp] theorem countLoad_fuInst : (countLoad s).fuInst = s.fuInst := rfl
@[simp] theorem countLoad_fuExit : (countLoad s).fuExit = s.fuExit := rfl
@[simp] theorem countLoad_blk : (countLoad s).blk = s.blk := rfl
@[simp] theorem countLoad_missInst : (countLoad s).missInst = s.missInst := rfl
@[simp] theorem countLoad_img : (countLoad s).img = s.img := rfl
@[simp] theorem countLoad_acc : (countLoad s).acc = s.acc := rfl
@[simp] theorem countLoad_pendValid : (countLoad s).pendValid = s.pendValid := rfl
@[simp] theorem countLoad_pendAddr : (countLoad s).pendAddr = s.pendAddr := rfl
@[simp] theorem countLoad_pendSize : (countLoad s).pendSize = s.pendSize := rfl
@[simp] theorem countLoad_pendTick : (countLoad s).pendTick = s.pendTick := rfl
@[simp] theorem countLoad_bht : (countLoad s).bht = s.bht := rfl
@[simp] theorem countLoad_pht : (countLoad s).pht = s.pht := rfl
@[simp] theorem countLoad_btb : (countLoad s).btb = s.btb := rfl
@[simp] theorem countLoad_x : (countLoad s).x = s.x := rfl
@[simp] theorem countLoad_dep : (countLoad s).dep = s.dep := rfl
@[simp] theorem countLoad_status : (countLoad s).status = s.status := rfl
end

/-! ### countStore -/

section
variable (s : State) 
@[simp] theorem countStore_cfg : (countStore s).cfg = s.cfg := rfl
@[simp] theorem countStore_prog : (countStore s).prog = s.prog := rfl
@[simp] theorem countStore_tick : (countStore s).tick = s.tick := rfl
@[simp] theorem countStore_pc : (countStore s).pc = s.pc := rfl
@[simp] theorem countStore_pcValid : (countStore s).pcValid = s.pcValid := rfl
@[simp] theorem countStore_lFD : (countStore s).lFD = s.lFD := rfl
@[simp] theorem countStore_lDX : (countStore s).lDX = s.lDX := rfl
@[simp] theorem countStore_lXM : (countStore s).lXM = s.lXM := rfl
@[simp] theorem countStore_lMW : (countStore s).lMW = s.lMW := rfl
@[simp] theorem countStore_fuInst : (countStore s).fuInst = s.fuInst := rfl
@[simp] theorem countStore_fuExit : (countStore s).fuExit = s.fuExit := rfl
@[simp] theorem countStore_blk : (countStore s).blk = s.blk := rfl
@[simp] theorem countStore_missInst : (countStore s).missInst = s.missInst := rfl
@[simp] theorem countStore_img : (countStore s).img = s.img := rfl
@[simp] theorem countStore_acc : (countStore s).acc = s.acc := rfl
@[simp] theorem countStore_pendValid : (countStore s).pendValid = s.pendValid := rfl
@[simp] theorem countStore_pendAddr : (countStore s).pendAddr = s.pendAddr := rfl
@[simp] theorem countStore_pendSize : (countStore s).pendSize = s.pendSize := rfl
@[simp] theorem countStore_pendTick : (countStore s).pendTick = s.pendTick := rfl
@[simp] theorem countStore_bht : (countStore s).bht = s.bht := rfl
@[simp] theorem countStore_pht : (countStore s).pht = s.pht := rfl
@[simp] theorem countStore_btb : (countStore s).btb = s.btb := rfl
@[simp] theorem countStore_x : (countStore s).x = s.x := rfl
@[simp] theorem countStore_dep : (countStore s).dep = s.dep := rfl
@[simp] theorem countStore_status : (countStore s).status = s.status := rfl
end

/-! ### countMiss -/

section
variable (s : State) 
@[simp] theorem countMiss_cfg : (countMiss s).cfg = s.cfg := rfl
@[simp] theorem countMiss_prog : (countMiss s).prog = s.prog := rfl
@[simp] theorem countMiss_tick : (countMiss s).tick = s.tick := rfl
@[simp] theorem countMiss_pc : (countMiss s).pc = s.pc := rfl
@[simp] theorem countMiss_pcValid : (countMiss s).pcValid = s.pcValid := rfl
@[simp] theorem countMiss_lFD : (countMiss s).lFD = s.lFD := rfl
@[simp] theorem countMiss_lDX : (countMiss s).lDX = s.lDX := rfl
@[simp] theorem countMiss_lXM : (countMiss s).lXM = s.lXM := rfl
@[simp] theorem countMiss_lMW : (countMiss s).lMW = s.lMW := rfl
@[simp] theorem countMiss_fuInst : (countMiss s).fuInst = s.fuInst := rfl
@[simp] theorem countMiss_fuExit : (countMiss s).fuExit = s.fuExit := rfl
@[simp] theorem countMiss_blk : (countMiss s).blk = s.blk := rfl
@[simp] theorem countMiss_missInst : (countMiss s).missInst = s.missInst := rfl
@[simp] theorem countMiss_img : (countMiss s).img = s.img := rfl
@[simp] theorem countMiss_acc : (countMiss s).acc = s.acc := rfl
@[simp] theorem countMiss_pendValid : (countMiss s).pendValid = s.pendValid := rfl
@[simp] theorem countMiss_pendAddr : (countMiss s).pendAddr = s.pendAddr := rfl
@[simp] theorem countMiss_pendSize : (countMiss s).pendSize = s.pendSize := rfl
@[simp] theorem countMiss_pendTick : (countMiss s).pendTick = s.pendTick := rfl
@[simp] theorem countMiss_bht : (countMiss s).bht = s.bht := rfl
@[simp] theorem countMiss_pht : (countMiss s).pht = s.pht := rfl
@[simp] theorem countMiss_btb : (countMiss s).btb = s.btb := rfl
@[simp] theorem countMiss_x : (countMiss s).x = s.x := rfl
@[simp] theorem countMiss_dep : (countMiss s).dep = s.dep := rfl
@[simp] theorem countMiss_status : (countMiss s).status = s.status := rfl
end

/-! ### countWriteback -/

section
variable (s : State) 
@[simp] theorem countWriteback_cfg : (countWriteback s).cfg = s.cfg := rfl
@[simp] theorem countWriteback_prog : (countWriteback s).prog = s.prog := rfl
@[simp] theorem countWriteback_tick : (countWriteback s).tick = s.tick := rfl
@[simp] theorem countWriteback_pc : (countWriteback s).pc = s.pc := rfl
@[simp] theorem countWriteback_pcValid : (countWriteback s).pcValid = s.pcValid := rfl
@[simp] theorem countWriteback_lFD : (countWriteback s).lFD = s.lFD := rfl
@[simp] theorem countWriteback_lDX : (countWriteback s).lDX = s.lDX := rfl
@[simp] theorem countWriteback_lXM : (countWriteback s).lXM = s.lXM := rfl
@[simp] theorem countWriteback_lMW : (countWriteback s).lMW = s.lMW := rfl
@[simp] theorem countWriteback_fuInst : (countWriteback s).fuInst = s.fuInst := rfl
@[simp] theorem countWriteback_fuExit : (countWriteback s).fuExit = s.fuExit := rfl
@[simp] theorem countWriteback_blk : (countWriteback s).blk = s.blk := rfl
@[simp] theorem countWriteback_missInst : (countWriteback s).missInst = s.missInst := rfl
@[simp] theorem countWriteback_img : (countWriteback s).img = s.img := rfl
@[simp] theorem countWriteback_acc : (countWriteback s).acc = s.acc := rfl
@[simp] theorem countWriteback_pendValid : (countWriteback s).pendValid = s.pendValid := rfl
@[simp] theorem countWriteback_pendAddr : (countWriteback s).pendAddr = s.pendAddr := rfl
@[simp] theorem countWriteback_pendSize : (countWriteback s).pendSize = s.pendSize := rfl
@[simp] theorem countWriteback_pendTick : (countWriteback s).pendTick = s.pendTick := rfl
@[simp] theorem countWriteback_bht : (countWriteback s).bht = s.bht := rfl
@[simp] theorem countWriteback_pht : (countWriteback s).pht = s.pht := rfl
@[simp] theorem countWriteback_btb : (countWriteback s).btb = s.btb := rfl
@[simp] theorem countWriteback_x : (countWriteback s).x = s.x := rfl
@[simp] theorem countWriteback_dep : (countWriteback s).dep = s.dep := rfl
@[simp] theorem countWriteback_status : (countWriteback s).status = s.status := rfl
end

/-! ### writeBackVictim -/

section
variable (s : State) (a : Nat)
@[simp] theorem writeBackVictim_cfg : (writeBackVictim a s).cfg = s.cfg := by unfold writeBackVictim; split <;> rfl
@[simp] theorem writeBackVictim_prog : (writeBackVictim a s).prog = s.prog := by unfold writeBackVictim; split <;> rfl
@[simp] theorem writeBackVictim_tick : (writeBackVictim a s).tick = s.tick := by unfold writeBackVictim; split <;> rfl
@[simp] theorem writeBackVictim_pc : (writeBackVictim a s).pc = s.pc := by unfold writeBackVictim; split <;> rfl
@[simp] theorem writeBackVictim_pcValid : (writeBackVictim a s).pcValid = s.pcValid := by unfold writeBackVictim; split <;> rfl
@[simp] theorem writeBackVictim_lFD : (writeBackVictim a s).lFD = s.lFD := by unfold writeBackVictim; split <;> rfl
@[simp] theorem writeBackVictim_lDX : (writeBackVictim a s).lDX = s.lDX := by unfold writeBackVictim; split <;> rfl
@[simp] theorem writeBackVictim_lXM : (writeBackVictim a s).lXM = s.lXM := by unfold writeBackVictim; split <;> rfl
@[simp] theorem writeBackVictim_lMW : (writeBackVictim a s).lMW = s.lMW := by unfold writeBackVictim; split <;> rfl
@[simp] theorem writeBackVictim_fuInst : (writeBackVictim a s).fuInst = s.fuInst := by unfold writeBackVictim; split <;> rfl
@[simp] theorem writeBackVictim_fuExit : (writeBackVictim a s).fuExit = s.fuExit := by unfold writeBackVictim; split <;> rfl
@[simp] theorem writeBackVictim_blk : (writeBackVictim a s).blk = s.blk := by unfold writeBackVictim; split <;> rfl
@[simp] theorem writeBackVictim_missInst : (writeBackVictim a s).missInst = s.missInst := by unfold writeBackVictim; split <;> rfl
@[simp] theorem writeBackVictim_acc : (writeBackVictim a s).acc = s.acc := by unfold writeBackVictim; split <;> rfl
@[simp] theorem writeBackVictim_pendValid : (writeBackVictim a s).pendValid = s.pendValid := by unfold writeBackVictim; split <;> rfl
@[simp] theorem writeBackVictim_pendAddr : (writeBackVictim a s).pendAddr = s.pendAddr := by unfold writeBackVictim; split <;> rfl
@[simp] theorem writeBackVictim_pendSize : (writeBackVictim a s).pendSize = s.pendSize := by unfold writeBackVictim; split <;> rfl
@[simp] theorem writeBackVictim_pendTick : (writeBackVictim a s).pendTick = s.pendTick := by unfold writeBackVictim; split <;> rfl
@[simp] theorem writeBackVictim_bht : (writeBackVictim a s).bht = s.bht := by unfold writeBackVictim; split <;> rfl
@[simp] theorem writeBackVictim_pht : (writeBackVictim a s).pht = s.pht := by unfold writeBackVictim; split <;> rfl
@[simp] theorem writeBackVictim_btb : (writeBackVictim a s).btb = s.btb := by unfold writeBackVictim; split <;> rfl
@[simp] theorem writeBackVictim_x : (writeBackVictim a s).x = s.x := by unfold writeBackVictim; split <;> rfl
@[simp] theorem writeBackVictim_dep : (writeBackVictim a s).dep = s.dep := by unfold writeBackVictim; split <;> rfl
@[simp] theorem writeBackVictim_status : (writeBackVictim a s).status = s.status := by unfold writeBackVictim; split <;> rfl
end

/-! ### installBlock -/

section
variable (s : State) (a : Nat) (d : Memory)
@[simp] theorem installBlock_cfg : (installBlock a d s).cfg = s.cfg := rfl
@[simp] theorem installBlock_prog : (installBlock a d s).prog = s.prog := rfl
@[simp] theorem installBlock_tick : (installBlock a d s).tick = s.tick := rfl
@[simp] theorem installBlock_pc : (installBlock a d s).pc = s.pc := rfl
@[simp] theorem installBlock_pcValid : (installBlock a d s).pcValid = s.pcValid := rfl
@[simp] theorem installBlock_lFD : (installBlock a d s).lFD = s.lFD := rfl
@[simp] theorem installBlock_lDX : (installBlock a d s).lDX = s.lDX := rfl
@[simp] theorem installBlock_lXM : (installBlock a d s).lXM = s.lXM := rfl
@[simp] theorem installBlock_lMW : (installBlock a d s).lMW = s.lMW := rfl
@[simp] theorem installBlock_fuInst : (installBlock a d s).fuInst = s.fuInst := rfl
@[simp] theorem installBlock_fuExit : (installBlock a d s).fuExit = s.fuExit := rfl
@[simp] theorem installBlock_missInst : (installBlock a d s).missInst = s.missInst := rfl
@[simp] theorem installBlock_img : (installBlock a d s).img = s.img := rfl
@[simp] theorem installBlock_acc : (installBlock a d s).acc = s.acc := rfl
@[simp] theorem installBlock_pendValid : (installBlock a d s).pendValid = s.pendValid := rfl
@[simp] theorem installBlock_pendAddr : (installBlock a d s).pendAddr = s.pendAddr := rfl
@[simp] theorem installBlock_pendSize : (installBlock a d s).pendSize = s.pendSize := rfl
@[simp] theorem installBlock_pendTick : (installBlock a d s).pendTick = s.pendTick := rfl
@[simp] theorem installBlock_bht : (installBlock a d s).bht = s.bht := rfl
@[simp] theorem installBlock_pht : (installBlock a d s).pht = s.pht := rfl
@[simp] theorem installBlock_btb : (installBlock a d s).btb = s.btb := rfl
@[simp] theorem installBlock_x : (installBlock a d s).x = s.x := rfl
@[simp] theorem installBlock_dep : (installBlock a d s).dep = s.dep := rfl
@[simp] theorem installBlock_stats : (installBlock a d s).stats = s.stats := rfl
@[simp] theorem installBlock_status : (installBlock a d s).status = s.status := rfl
end

/-! ### fuFlush -/

section
variable (s : State) 
@[simp] theorem fuFlush_cfg : (fuFlush s).cfg = s.cfg := rfl
@[simp] theorem fuFlush_prog : (fuFlush s).prog = s.prog := rfl
@[simp] theorem fuFlush_tick : (fuFlush s).tick = s.tick := rfl
@[simp] theorem fuFlush_pc : (fuFlush s).pc = s.pc := rfl
@[simp] theorem fuFlush_pcValid : (fuFlush s).pcValid = s.pcValid := rfl
@[simp] theorem fuFlush_lFD : (fuFlush s).lFD = s.lFD := rfl
@[simp] theorem fuFlush_lDX : (fuFlush s).lDX = s.lDX := rfl
@[simp] theorem fuFlush_lXM : (fuFlush s).lXM = s.lXM := rfl
@[simp] theorem fuFlush_lMW : (fuFlush s).lMW = s.lMW := rfl
@[simp] theorem fuFlush_fuExit : (fuFlush s).fuExit = s.fuExit := rfl
@[simp] theorem fuFlush_blk : (fuFlush s).blk = s.blk := rfl
@[simp] theorem fuFlush_missInst : (fuFlush s).missInst = s.missInst := rfl
@[simp] theorem fuFlush_img : (fuFlush s).img = s.img := rfl
@[simp] theorem fuFlush_acc : (fuFlush s).acc = s.acc := rfl
@[simp] theorem fuFlush_pendValid : (fuFlush s).pendValid = s.pendValid := rfl
@[simp] theorem fuFlush_pendAddr : (fuFlush s).pendAddr = s.pendAddr := rfl
@[simp] theorem fuFlush_pendSize : (fuFlush s).pendSize = s.pendSize := rfl
@[simp] theorem fuFlush_pendTick : (fuFlush s).pendTick = s.pendTick := rfl
@[simp] theorem fuFlush_bht : (fuFlush s).bht = s.bht := rfl
@[simp] theorem fuFlush_pht : (fuFlush s).pht = s.pht := rfl
@[simp] theorem fuFlush_btb : (fuFlush s).btb = s.btb := rfl
@[simp] theorem fuFlush_x : (fuFlush s).x = s.x := rfl
@[simp] theorem fuFlush_dep : (fuFlush s).dep = s.dep := rfl
@[simp] theorem fuFlush_stats : (fuFlush s).stats = s.stats := rfl
@[simp] theorem fuFlush_status : (fuFlush s).status = s.status := rfl
end

/-! ### clearDeps -/

section
variable (s : State) 
@[simp] theorem clearDeps_cfg : (clearDeps s).cfg = s.cfg := rfl
@[simp] theorem clearDeps_prog : (clearDeps s).prog = s.prog := rfl
@[simp] theorem clearDeps_tick : (clearDeps s).tick = s.tick := rfl
@[simp] theorem clearDeps_pc : (clearDeps s).pc = s.pc := rfl
@[simp] theorem clearDeps_pcValid : (clearDeps s).pcValid = s.pcValid := rfl
@[simp] theorem clearDeps_lFD : (clearDeps s).lFD = s.lFD := rfl
@[simp] theorem clearDeps_lDX : (clearDeps s).lDX = s.lDX := rfl
@[simp] theorem clearDeps_lXM : (clearDeps s).lXM = s.lXM := rfl
@[simp] theorem clearDeps_lMW : (clearDeps s).lMW = s.lMW := rfl
@[simp] theorem clearDeps_fuInst : (clearDeps s).fuInst = s.fuInst := rfl
@[simp] theorem clearDeps_fuExit : (clearDeps s).fuExit = s.fuExit := rfl
@[simp] theorem clearDeps_blk : (clearDeps s).blk = s.blk := rfl
@[simp] theorem clearDeps_missInst : (clearDeps s).missInst = s.missInst := rfl
@[simp] theorem clearDeps_img : (clearDeps s).img = s.img := rfl
@[simp] theorem clearDeps_acc : (clearDeps s).acc = s.acc := rfl
@[simp] theorem clearDeps_pendValid : (clearDeps s).pendValid = s.pendValid := rfl
@[simp] theorem clearDeps_pendAddr : (clearDeps s).pendAddr = s.pendAddr := rfl
@[simp] theorem clearDeps_pendSize : (clearDeps s).pendSize = s.pendSize := rfl
@[simp] theorem clearDeps_pendTick : (clearDeps s).pendTick = s.pendTick := rfl
@[simp] theorem clearDeps_bht : (clearDeps s).bht = s.bht := rfl
@[simp] theorem clearDeps_pht : (clearDeps s).pht = s.pht := rfl
@[simp] theorem clearDeps_btb : (clearDeps s).btb = s.btb := rfl
@[simp] theorem clearDeps_x : (clearDeps s).x = s.x := rfl
@[simp] theorem clearDeps_stats : (clearDeps s).stats = s.stats := rfl
@[simp] theorem clearDeps_status : (clearDeps s).status = s.status := rfl
end

/-! ### flush -/

section
variable (s : State) 
@[simp] theorem flush_cfg : (flush s).cfg = s.cfg := rfl
@[simp] theorem flush_prog : (flush s).prog = s.prog := rfl
@[simp] theorem flush_tick : (flush s).tick = s.tick := rfl
@[simp] theorem flush_pc : (flush s).pc = s.pc := rfl
@[simp] theorem flush_pcValid : (flush s).pcValid = s.pcValid := rfl
@[simp] theorem flush_fuExit : (flush s).fuExit = s.fuExit := rfl
@[simp] theorem flush_blk : (flush s).blk = s.blk := rfl
@[simp] theorem flush_missInst : (flush s).missInst = s.missInst := rfl
@[simp] theorem flush_img : (flush s).img = s.img := rfl
@[simp] theorem flush_acc : (flush s).acc = s.acc := rfl
@[simp] theorem flush_pendValid : (flush s).pendValid = s.pendValid := rfl
@[simp] theorem flush_pendAddr : (flush s).pendAddr = s.pendAddr := rfl
@[simp] theorem flush_pendSize : (flush s).pendSize = s.pendSize := rfl
@[simp] theorem flush_pendTick : (flush s).pendTick = s.pendTick := rfl
@[simp] theorem flush_bht : (flush s).bht = s.bht := rfl
@[simp] theorem flush_pht : (flush s).pht = s.pht := rfl
@[simp] theorem flush_btb : (flush s).btb = s.btb := rfl
@[simp] theorem flush_x : (flush s).x = s.x := rfl
@[simp] theorem flush_status : (flush s).status = s.status := rfl
end

/-! ### mispredict -/

section
variable (s : State) (r : Rec)
@[simp] theorem mispredict_cfg : (mispredict r s).cfg = s.cfg := rfl
@[simp] theorem mispredict_prog : (mispredict r s).prog = s.prog := rfl
@[simp] theorem mispredict_tick : (mispredict r s).tick = s.tick := rfl
@[simp] theorem mispredict_pcValid : (mispredict r s).pcValid = s.pcValid := rfl
@[simp] theorem mispredict_fuExit : (mispredict r s).fuExit = s.fuExit := rfl
@[simp] theorem mispredict_blk : (mispredict r s).blk = s.blk := rfl
@[simp] theorem mispredict_missInst : (mispredict r s).missInst = s.missInst := rfl
@[simp] theorem mispredict_img : (mispredict r s).img = s.img := rfl
@[simp] theorem mispredict_acc : (mispredict r s).acc = s.acc := rfl
@[simp] theorem mispredict_pendValid : (mispredict r s).pendValid = s.pendValid := rfl
@[simp] theorem mispredict_pendAddr : (mispredict r s).pendAddr = s.pendAddr := rfl
@[simp] theorem mispredict_pendSize : (mispredict r s).pendSize = s.pendSize := rfl
@[simp] theorem mispredict_pendTick : (mispredict r s).pendTick = s.pendTick := rfl
@[simp] theorem mispredict_bht : (mispredict r s).bht = s.bht := rfl
@[simp] theorem mispredict_pht : (mispredict r s).pht = s.pht := rfl
@[simp] theorem mispredict_btb : (mispredict r s).btb = s.btb := rfl
@[simp] theorem mispredict_x : (mispredict r s).x = s.x := rfl
@[simp] theorem mispredict_status : (mispredict r s).status = s.status := rfl
end

/-! ### countBranch -/

section
variable (s : State) 
@[simp] theorem countBranch_cfg : (countBranch s).cfg = s.cfg := rfl
@[simp] theorem countBranch_prog : (countBranch s).prog = s.prog := rfl
@[simp] theorem countBranch_tick : (countBranch s).tick = s.tick := rfl
@[simp] theorem countBranch_pc : (countBranch s).pc = s.pc := rfl
@[simp] theorem countBranch_pcValid : (countBranch s).pcValid = s.pcValid := rfl
@[simp] theorem countBranch_lFD : (countBranch s).lFD = s.lFD := rfl
@[simp] theorem countBranch_lDX : (countBranch s).lDX = s.lDX := rfl
@[simp] theorem countBranch_lXM : (countBranch s).lXM = s.lXM := rfl
@[simp] theorem countBranch_lMW : (countBranch s).lMW = s.lMW := rfl
@[simp] theorem countBranch_fuInst : (countBranch s).fuInst = s.fuInst := rfl
@[simp] theorem countBranch_fuExit : (countBranch s).fuExit = s.fuExit := rfl
@[simp] theorem countBranch_blk : (countBranch s).blk = s.blk := rfl
@[simp] theorem countBranch_missInst : (countBranch s).missInst = s.missInst := rfl
@[simp] theorem countBranch_img : (countBranch s).img = s.img := rfl
@[simp] theorem countBranch_acc : (countBranch s).acc = s.acc := rfl
@[simp] theorem countBranch_pendValid : (countBranch s).pendValid = s.pendValid := rfl
@[simp] theorem countBranch_pendAddr : (countBranch s).pendAddr = s.pendAddr := rfl
@[simp] theorem countBranch_pendSize : (countBranch s).pendSize = s.pendSize := rfl
@[simp] theorem countBranch_pendTick : (countBranch s).pendTick = s.pendTick := rfl
@[simp] theorem countBranch_bht : (countBranch s).bht = s.bht := rfl
@[simp] theorem countBranch_pht : (countBranch s).pht = s.pht := rfl
@[simp] theorem countBranch_btb : (countBranch s).btb = s.btb := rfl
@[simp] theorem countBranch_x : (countBranch s).x = s.x := rfl
@[simp] theorem countBranch_dep : (countBranch s).dep = s.dep := rfl
@[simp] theorem countBranch_status : (countBranch s).status = s.status := rfl
end

/-! ### countStall -/

section
variable (s : State) 
@[simp] theorem countStall_cfg : (countStall s).cfg = s.cfg := rfl
@[simp] theorem countStall_prog : (countStall s).prog = s.prog := rfl
@[simp] theorem countStall_tick : (countStall s).tick = s.tick := rfl
@[simp] theorem countStall_pc : (countStall s).pc = s.pc := rfl
@[simp] theorem countStall_pcValid : (countStall s).pcValid = s.pcValid := rfl
@[simp] theorem countStall_lFD : (countStall s).lFD = s.lFD := rfl
@[simp] theorem countStall_lDX : (countStall s).lDX = s.lDX := rfl
@[simp] theorem countStall_lXM : (countStall s).lXM = s.lXM := rfl
@[simp] theorem countStall_lMW : (countStall s).lMW = s.lMW := rfl
@[simp] theorem countStall_fuInst : (countStall s).fuInst = s.fuInst := rfl
@[simp] theorem countStall_fuExit : (countStall s).fuExit = s.fuExit := rfl
@[simp] theorem countStall_blk : (countStall s).blk = s.blk := rfl
@[simp] theorem countStall_missInst : (countStall s).missInst = s.missInst := rfl
@[simp] theorem countStall_img : (countStall s).img = s.img := rfl
@[simp] theorem countStall_acc : (countStall s).acc = s.acc := rfl
@[simp] theorem countStall_pendValid : (countStall s).pendValid = s.pendValid := rfl
@[simp] theorem countStall_pendAddr : (countStall s).pendAddr = s.pendAddr := rfl
@[simp] theorem countStall_pendSize : (countStall s).pendSize = s.pendSize := rfl
@[simp] theorem countStall_pendTick : (countStall s).pendTick = s.pendTick := rfl
@[simp] theorem countStall_bht : (countStall s).bht = s.bht := rfl
@[simp] theorem countStall_pht : (countStall s).pht = s.pht := rfl
@[simp] theorem countStall_btb : (countStall s).btb = s.btb := rfl
@[simp] theorem countStall_x : (countStall s).x = s.x := rfl
@[simp] theorem countStall_dep : (countStall s).dep = s.dep := rfl
@[simp] theorem countStall_status : (countStall s).status = s.status := rfl
end

/-! ### redirectJump -/

section
variable (s : State) (r : Rec)
@[simp] theorem redirectJump_cfg : (redirectJump r s).cfg = s.cfg := by unfold redirectJump; split <;> rfl
@[simp] theorem redirectJump_prog : (redirectJump r s).prog = s.prog := by unfold redirectJump; split <;> rfl
@[simp] theorem redirectJump_tick : (redirectJump r s).tick = s.tick := by unfold redirectJump; split <;> rfl
@[simp] theorem redirectJump_pcValid : (redirectJump r s).pcValid = s.pcValid := by unfold redirectJump; split <;> rfl
@[simp] theorem redirectJump_lFD : (redirectJump r s).lFD = s.lFD := by unfold redirectJump; split <;> rfl
@[simp] theorem redirectJump_lDX : (redirectJump r s).lDX = s.lDX := by unfold redirectJump; split <;> rfl
@[simp] theorem redirectJump_lXM : (redirectJump r s).lXM = s.lXM := by unfold redirectJump; split <;> rfl
@[simp] theorem redirectJump_lMW : (redirectJump r s).lMW = s.lMW := by unfold redirectJump; split <;> rfl
@[simp] theorem redirectJump_fuInst : (redirectJump r s).fuInst = s.fuInst := by unfold redirectJump; split <;> rfl
@[simp] theorem redirectJump_fuExit : (redirectJump r s).fuExit = s.fuExit := by unfold redirectJump; split <;> rfl
@[simp] theorem redirectJump_blk : (redirectJump r s).blk = s.blk := by unfold redirectJump; split <;> rfl
@[simp] theorem redirectJump_missInst : (redirectJump r s).missInst = s.missInst := by unfold redirectJump; split <;> rfl
@[simp] theorem redirectJump_img : (redirectJump r s).img = s.img := by unfold redirectJump; split <;> rfl
@[simp] theorem redirectJump_acc : (redirectJump r s).acc = s.acc := by unfold redirectJump; split <;> rfl
@[simp] theorem redirectJump_pendValid : (redirectJump r s).pendValid = s.pendValid := by unfold redirectJump; split <;> rfl
@[simp] theorem redirectJump_pendAddr : (redirectJump r s).pendAddr = s.pendAddr := by unfold redirectJump; split <;> rfl
@[simp] theorem redirectJump_pendSize : (redirectJump r s).pendSize = s.pendSize := by unfold redirectJump; split <;> rfl
@[simp] theorem redirectJump_pendTick : (redirectJump r s).pendTick = s.pendTick := by unfold redirectJump; split <;> rfl
@[simp] theorem redirectJump_bht : (redirectJump r s).bht = s.bht := by unfold redirectJump; split <;> rfl
@[simp] theorem redirectJump_pht : (redirectJump r s).pht = s.pht := by unfold redirectJump; split <;> rfl
@[simp] theorem redirectJump_btb : (redirectJump r s).btb = s.btb := by unfold redirectJump; split <;> rfl
@[simp] theorem redirectJump_x : (redirectJump r s).x = s.x := by unfold redirectJump; split <;> rfl
@[simp] theorem redirectJump_dep : (redirectJump r s).dep = s.dep := by unfold redirectJump; split <;> rfl
@[simp] theorem redirectJump_stats : (redirectJump r s).stats = s.stats := by unfold redirectJump; split <;> rfl
@[simp] theorem redirectJump_status : (redirectJump r s).status = s.status := by unfold redirectJump; split <;> rfl
theorem redirectJump_pc : (redirectJump r s).pc = if r.instr.cls = .jump then r.jumpTarget else s.pc := by
  unfold redirectJump; split <;> rfl
end

/-! ### endOfTick -/

section
variable (s : State) 
@[simp] theorem endOfTick_cfg : (endOfTick s).cfg = s.cfg := by unfold endOfTick; split <;> rfl
@[simp] theorem endOfTick_prog : (endOfTick s).prog = s.prog := by unfold endOfTick; split <;> rfl
@[simp] theorem endOfTick_pc : (endOfTick s).pc = s.pc := by unfold endOfTick; split <;> rfl
@[simp] theorem endOfTick_pcValid : (endOfTick s).pcValid = s.pcValid := by unfold endOfTick; split <;> rfl
@[simp] theorem endOfTick_lFD : (endOfTick s).lFD = s.lFD := by unfold endOfTick; split <;> rfl
@[simp] theorem endOfTick_lDX : (endOfTick s).lDX = s.lDX := by unfold endOfTick; split <;> rfl
@[simp] theorem endOfTick_lXM : (endOfTick s).lXM = s.lXM := by unfold endOfTick; split <;> rfl
@[simp] theorem endOfTick_lMW : (endOfTick s).lMW = s.lMW := by unfold endOfTick; split <;> rfl
@[simp] theorem endOfTick_fuInst : (endOfTick s).fuInst = s.fuInst := by unfold endOfTick; split <;> rfl
@[simp] theorem endOfTick_fuExit : (endOfTick s).fuExit = s.fuExit := by unfold endOfTick; split <;> rfl
@[simp] theorem endOfTick_blk : (endOfTick s).blk = s.blk := by unfold endOfTick; split <;> rfl
@[simp] theorem endOfTick_missInst : (endOfTick s).missInst = s.missInst := by unfold endOfTick; split <;> rfl
@[simp] theorem endOfTick_img : (endOfTick s).img = s.img := by unfold endOfTick; split <;> rfl
@[simp] theorem endOfTick_acc : (endOfTick s).acc = s.acc := by unfold endOfTick; split <;> rfl
@[simp] theorem endOfTick_pendValid : (endOfTick s).pendValid = s.pendValid := by unfold endOfTick; split <;> rfl
@[simp] theorem endOfTick_pendAddr : (endOfTick s).pendAddr = s.pendAddr := by unfold endOfTick; split <;> rfl
@[simp] theorem endOfTick_pendSize : (endOfTick s).pendSize = s.pendSize := by unfold endOfTick; split <;> rfl
@[simp] theorem endOfTick_pendTick : (endOfTick s).pendTick = s.pendTick := by unfold endOfTick; split <;> rfl
@[simp] theorem endOfTick_bht : (endOfTick s).bht = s.bht := by unfold endOfTick; split <;> rfl
@[simp] theorem endOfTick_pht : (endOfTick s).pht = s.pht := by unfold endOfTick; split <;> rfl
@[simp] theorem endOfTick_btb : (endOfTick s).btb = s.btb := by unfold endOfTick; split <;> rfl
@[simp] theorem endOfTick_x : (endOfTick s).x = s.x := by unfold endOfTick; split <;> rfl
@[simp] theorem endOfTick_dep : (endOfTick s).dep = s.dep := by unfold endOfTick; split <;> rfl
@[simp] theorem endOfTick_stats : (endOfTick s).stats = s.stats := by unfold endOfTick; split <;> rfl
@[simp] theorem endOfTick_tick : (endOfTick s).tick = s.tick + 1 := by unfold endOfTick; split <;> rfl
theorem endOfTick_status : (endOfTick s).status = if drained s then .done else s.status := by
  unfold endOfTick; split <;> rfl
end

/-! ### callUpdate -/

section
variable (s : State) (r : Rec) (k : Collaborators)
@[simp] theorem callUpdate_cfg : (callUpdate r s k).cfg = s.cfg := rfl
@[simp] theorem callUpdate_prog : (callUpdate r s k).prog = s.prog := rfl
@[simp] theorem callUpdate_tick : (callUpdate r s k).tick = s.tick := rfl
@[simp] theorem callUpdate_pc : (callUpdate r s k).pc = s.pc := rfl
@[simp] theorem callUpdate_pcValid : (callUpdate r s k).pcValid = s.pcValid := rfl
@[simp] theorem callUpdate_lFD : (callUpdate r s k).lFD = s.lFD := rfl
@[simp] theorem callUpdate_lDX : (callUpdate r s k).lDX = s.lDX := rfl
@[simp] theorem callUpdate_lXM : (callUpdate r s k).lXM = s.lXM := rfl
@[simp] theorem callUpdate_lMW : (callUpdate r s k).lMW = s.lMW := rfl
@[simp] theorem callUpdate_fuInst : (callUpdate r s k).fuInst = s.fuInst := rfl
@[simp] theorem callUpdate_fuExit : (callUpdate r s k).fuExit = s.fuExit := rfl
@[simp] theorem callUpdate_blk : (callUpdate r s k).blk = s.blk := rfl
@[simp] theorem callUpdate_missInst : (callUpdate r s k).missInst = s.missInst := rfl
@[simp] theorem callUpdate_img : (callUpdate r s k).img = s.img := rfl
@[simp] theorem callUpdate_acc : (callUpdate r s k).acc = s.acc := rfl
@[simp] theorem callUpdate_pendValid : (callUpdate r s k).pendValid = s.pendValid := rfl
@[simp] theorem callUpdate_pendAddr : (callUpdate r s k).pendAddr = s.pendAddr := rfl
@[simp] theorem callUpdate_pendSize : (callUpdate r s k).pendSize = s.pendSize := rfl
@[simp] theorem callUpdate_pendTick : (callUpdate r s k).pendTick = s.pendTick := rfl
@[simp] theorem callUpdate_x : (callUpdate r s k).x = s.x := rfl
@[simp] theorem callUpdate_dep : (callUpdate r s k).dep = s.dep := rfl
@[simp] theorem callUpdate_stats : (callUpdate r s k).stats = s.stats := rfl
@[simp] theorem callUpdate_status : (callUpdate r s k).status = s.status := rfl
@[simp] theorem callUpdate_reference : callUpdate r s = s := rfl
end

/-! ### retire -/

section
variable (s : State) (r : Rec)
@[simp] theorem retire_cfg : (retire r s).cfg = s.cfg := by simp [retire]
@[simp] theorem retire_prog : (retire r s).prog = s.prog := by simp [retire]
@[simp] theorem retire_tick : (retire r s).tick = s.tick := by simp [retire]
@[simp] theorem retire_pc : (retire r s).pc = s.pc := by simp [retire]
@[simp] theorem retire_pcValid : (retire r s).pcValid = s.pcValid := by simp [retire]
@[simp] theorem retire_lFD : (retire r s).lFD = s.lFD := by simp [retire]
@[simp] theorem retire_lDX : (retire r s).lDX = s.lDX := by simp [retire]
@[simp] theorem retire_lXM : (retire r s).lXM = s.lXM := by simp [retire]
@[simp] theorem retire_fuInst : (retire r s).fuInst = s.fuInst := by simp [retire]
@[simp] theorem retire_fuExit : (retire r s).fuExit = s.fuExit := by simp [retire]
@[simp] theorem retire_blk : (retire r s).blk = s.blk := by simp [retire]
@[simp] theorem retire_missInst : (retire r s).missInst = s.missInst := by simp [retire]
@[simp] theorem retire_img : (retire r s).img = s.img := by simp [retire]
@[simp] theorem retire_acc : (retire r s).acc = s.acc := by simp [retire]
@[simp] theorem retire_pendValid : (retire r s).pendValid = s.pendValid := by simp [retire]
@[simp] theorem retire_pendAddr : (retire r s).pendAddr = s.pendAddr := by simp [retire]
@[simp] theorem retire_pendSize : (retire r s).pendSize = s.pendSize := by simp [retire]
@[simp] theorem retire_pendTick : (retire r s).pendTick = s.pendTick := by simp [retire]
@[simp] theorem retire_bht : (retire r s).bht = s.bht := by simp [retire]
@[simp] theorem retire_pht : (retire r s).pht = s.pht := by simp [retire]
@[simp] theorem retire_btb : (retire r s).btb = s.btb := by simp [retire]
@[simp] theorem retire_status : (retire r s).status = s.status := by simp [retire]
@[simp] theorem retire_lMW : (retire r s).lMW = none := by simp [retire]
end

end Sys2Proof.Machine
end

