-- ==== Sys2Proof/Laws/Cache.lean ====
section
/-! SUPPORT. The laws of the data cache over the coherent memory (20_memory.md R89): a hit's touch and
the dirty mark change no byte, a write changes the bytes it stores, and a response (victim write-back,
install) changes no byte; each keeps every block consistent with the image. -/

namespace Sys2Proof.Machine

/-! ## Blocks -/

theorem blkAt_setBlk (s : State) (h : 0 < s.cfg.ways) (set τ : Nat) (b : Block) :
    blkAt (setBlk set 0 b s) τ 0 = if τ = set then b else blkAt s τ 0 := by
  simp only [blkAt, setBlk, Sparse.get_put, Nat.add_zero]
  by_cases hτ : τ = set
  · simp [hτ]
  · have : ¬ τ * s.cfg.ways = set * s.cfg.ways := fun he => hτ (Nat.eq_of_mul_eq_mul_right h he)
    simp [hτ, this]

/-- States with the same configuration, blocks and image have the same coherent memory. -/
theorem coherentByte_congr {s t : State} (hc : t.cfg = s.cfg) (hb : t.blk = s.blk)
    (hi : t.img = s.img) (a : Nat) : coherentByte t a = coherentByte s a := by
  simp [coherentByte, isHit, blockOf, blkAt, hc, hb, hi]

theorem isHit_congr {s t : State} (hc : t.cfg = s.cfg) (hb : t.blk = s.blk) (a : Nat) :
    isHit t a = isHit s a := by
  simp [isHit, blockOf, blkAt, hc, hb]

theorem blockConsistent_congr {s t : State} (hc : t.cfg = s.cfg) (hb : t.blk = s.blk)
    (hi : t.img = s.img) (set : Nat) : blockConsistent t set = blockConsistent s set := by
  simp [blockConsistent, blkAt, hc, hb, hi]

theorem coherentLE_congr {s t : State} {a n : Nat}
    (h : ∀ j < n, coherentByte t (a + j) = coherentByte s (a + j)) :
    coherentLE t a n = coherentLE s a n := by
  induction n generalizing a with
  | zero => rfl
  | succ n ih =>
    have h0 := h 0 (by omega)
    have hs : coherentLE t (a + 1) n = coherentLE s (a + 1) n := by
      apply ih
      intro j hj
      have := h (j + 1) (by omega)
      rwa [show a + (j + 1) = a + 1 + j by omega] at this
    simp only [Nat.add_zero] at h0
    simp [coherentLE, h0, hs]

/-! ## Reads on a hit (R85, R89) -/

theorem isHit_eq {s : State} {a b : Nat} (h1 : setIndex s.cfg b = setIndex s.cfg a)
    (h2 : tagOf s.cfg b = tagOf s.cfg a) : isHit s b = isHit s a := by
  simp [isHit, blockOf, h1, h2]

/-- A hit reads the coherent value (R89). -/
theorem memRead_eq_coherentLE {s : State} (g : GeometryFacts s.cfg) {a n : Nat}
    (hn : n = 1 ∨ n = 2 ∨ n = 4 ∨ n = 8) (ha : a % n = 0) (hit : isHit s a = true) :
    memRead s a n = coherentLE s a n := by
  have key : ∀ j < n, coherentByte s (a + j) = (blockOf s a).data.read (offsetOf s.cfg a + j) := by
    intro j hj
    obtain ⟨h1, h2, h3⟩ := access_in_block g hn ha hj
    rw [coherentByte, isHit_eq h1 h2, hit, if_pos rfl, h3, blockOf, h1, ← blockOf]
  suffices H : ∀ (k : Nat) (i : Nat), i + k ≤ n →
      (blockOf s a).data.readLE (offsetOf s.cfg a + i) k = coherentLE s (a + i) k by
    have := H n 0 (by omega)
    rwa [Nat.add_zero, Nat.add_zero] at this
  intro k
  induction k with
  | zero => intros; rfl
  | succ k ih =>
    intro i hi
    have := ih (i + 1) (by omega)
    rw [show offsetOf s.cfg a + (i + 1) = offsetOf s.cfg a + i + 1 by omega,
      show a + (i + 1) = a + i + 1 by omega] at this
    rw [Memory.readLE, coherentLE, key i (by omega), this]

/-! ## The touch and the dirty mark -/

section Update

variable {s : State} {a : Nat} {f : Block → Block}

theorem blkAt_updateBlock (h : 0 < s.cfg.ways) (τ : Nat) :
    blkAt (updateBlock a f s) τ 0 = if τ = setIndex s.cfg a then f (blockOf s a) else blkAt s τ 0 :=
  blkAt_setBlk s h _ τ _

/-- A change of a block that keeps tag, valid bit and data changes no coherent byte. -/
theorem coherentByte_updateBlock (h : 0 < s.cfg.ways)
    (hf : ∀ b, (f b).tag = b.tag ∧ (f b).valid = b.valid ∧ (f b).data = b.data) (b : Nat) :
    coherentByte (updateBlock a f s) b = coherentByte s b := by
  have hcfg : (updateBlock a f s).cfg = s.cfg := rfl
  have himg : (updateBlock a f s).img = s.img := rfl
  simp only [coherentByte, isHit, blockOf, hcfg, himg, blkAt_updateBlock h]
  by_cases hb : setIndex s.cfg b = setIndex s.cfg a
  · simp [hb, hf]
  · simp [hb]

theorem isHit_updateBlock (h : 0 < s.cfg.ways)
    (hf : ∀ b, (f b).tag = b.tag ∧ (f b).valid = b.valid) (b : Nat) :
    isHit (updateBlock a f s) b = isHit s b := by
  have hcfg : (updateBlock a f s).cfg = s.cfg := rfl
  simp only [isHit, blockOf, hcfg, blkAt_updateBlock h]
  by_cases hb : setIndex s.cfg b = setIndex s.cfg a
  · simp [hb, hf]
  · simp [hb]

/-- A change of a block that keeps tag, valid bit and data, and makes nothing clean, keeps every block
consistent. -/
theorem blockConsistent_updateBlock (h : 0 < s.cfg.ways)
    (hf : ∀ b, (f b).tag = b.tag ∧ (f b).valid = b.valid)
    (hd : ∀ b, (f b).dirty = true ∨ ((f b).dirty = b.dirty ∧ (f b).data = b.data))
    (hs : ∀ set < numSets s.cfg, blockConsistent s set = true) :
    ∀ set < numSets s.cfg, blockConsistent (updateBlock a f s) set = true := by
  intro set hset
  have hcfg : (updateBlock a f s).cfg = s.cfg := rfl
  have himg : (updateBlock a f s).img = s.img := rfl
  have hold := hs set hset
  simp only [blockConsistent, hcfg, himg, blkAt_updateBlock h] at hold ⊢
  by_cases hb : set = setIndex s.cfg a
  · subst hb
    simp only [if_true, hf, blockOf] at *
    rcases hd (blkAt s (setIndex s.cfg a) 0) with h1 | ⟨h1, h2⟩
    · simp only [Bool.or_eq_true, Bool.and_eq_true] at hold ⊢
      rcases hold with h' | h'
      · exact .inl h'
      · exact .inr ⟨h'.1, .inl h1⟩
    · rw [h1, h2]; exact hold
  · simp only [if_neg hb]; exact hold

end Update

/-! ## Stores (R80, R86) -/

/-- The bytes a write on a hit changes, and no others (R86, R89). -/
theorem coherentByte_memWrite {s : State} (g : GeometryFacts s.cfg) {a n : Nat} (v : Word)
    (hn : n = 1 ∨ n = 2 ∨ n = 4 ∨ n = 8) (ha : a % n = 0) (hit : isHit s a = true) (b : Nat) :
    coherentByte (memWrite a n v s) b =
      if a ≤ b ∧ b < a + n then byteOf v (b - a) else coherentByte s b := by
  have hcfg : (memWrite a n v s).cfg = s.cfg := rfl
  have himg : (memWrite a n v s).img = s.img := rfl
  have hhit : isHit (memWrite a n v s) b = isHit s b := by
    apply isHit_updateBlock g.waysPos; intro; simp
  have hblk : blockOf (memWrite a n v s) b =
      if setIndex s.cfg b = setIndex s.cfg a then
        { blockOf s a with data := (blockOf s a).data.writeLE (offsetOf s.cfg a) n v }
      else blockOf s b := by
    rw [blockOf, hcfg]
    exact blkAt_updateBlock g.waysPos _
  simp only [coherentByte, hhit, hcfg, himg, hblk]
  by_cases hset : setIndex s.cfg b = setIndex s.cfg a
  · have hob : blockOf s b = blockOf s a := by simp [blockOf, hset]
    simp only [hset, if_true, hob, Memory.read_writeLE]
    by_cases htag : tagOf s.cfg b = tagOf s.cfg a
    · have hib : isHit s b = true := by rw [isHit_eq hset htag, hit]
      have hda := address_decompose s.cfg a
      have hdb := address_decompose s.cfg b
      rw [hset, htag] at hdb
      have h1 : (offsetOf s.cfg a ≤ offsetOf s.cfg b ∧ offsetOf s.cfg b < offsetOf s.cfg a + n)
          ↔ (a ≤ b ∧ b < a + n) := by omega
      have h2 : offsetOf s.cfg b - offsetOf s.cfg a = b - a := by omega
      simp only [hib, if_true, h1, h2, byteOf]
    · have hib : isHit s b = false := by
        simp only [isHit, blockOf, Bool.and_eq_true, beq_iff_eq] at hit
        simp only [isHit, blockOf, hset, hit.2, Bool.and_eq_false_iff, beq_eq_false_iff_ne]
        exact .inr (Ne.symm htag)
      have hnot : ¬ (a ≤ b ∧ b < a + n) := by
        rintro ⟨hl, hu⟩
        obtain ⟨j, rfl⟩ : ∃ j, b = a + j := ⟨b - a, by omega⟩
        exact htag (access_in_block g hn ha (by omega)).2.1
      simp [hib, hnot]
  · have hnot : ¬ (a ≤ b ∧ b < a + n) := by
      rintro ⟨hl, hu⟩
      obtain ⟨j, rfl⟩ : ∃ j, b = a + j := ⟨b - a, by omega⟩
      exact hset (access_in_block g hn ha (by omega)).1
    simp [hset, hnot]

/-! ## The response (R82, R83) -/

section Response

variable {s : State} {a : Nat}

/-- The image after the victim's write-back (R68, R82). -/
theorem writeBackVictim_img (b : Nat) : (writeBackVictim a s).img.read b =
    if ((blockOf s a).valid && (blockOf s a).dirty) = true
        ∧ blockBase s.cfg (setIndex s.cfg a) (blockOf s a).tag ≤ b
        ∧ b < blockBase s.cfg (setIndex s.cfg a) (blockOf s a).tag + s.cfg.blockBytes then
      (blockOf s a).data.read (b - blockBase s.cfg (setIndex s.cfg a) (blockOf s a).tag)
    else s.img.read b := by
  unfold writeBackVictim
  split
  · rename_i h
    simp only [h, true_and]
    simp only [countWriteback, imgWriteBlock, Memory.read_copy, Nat.zero_add]
  · rename_i h
    simp [h]

/-- The state after steps 1 and 2 of the response. -/
theorem blkAt_response (h : 0 < s.cfg.ways) (data : Memory) (τ : Nat) :
    blkAt (installBlock a data (writeBackVictim a s)) τ 0 =
      if τ = setIndex s.cfg a then
        { tag := tagOf s.cfg a, valid := true, dirty := false,
          lastAccess := (writeBackVictim a s).tick, data := data }
      else blkAt s τ 0 := by
  have hb : blkAt (writeBackVictim a s) τ 0 = blkAt s τ 0 := by simp [blkAt]
  unfold installBlock
  rw [blkAt_setBlk _ (by simpa using h), hb]
  simp

/-- A response changes no coherent byte (R82, R83, R89). -/
theorem coherentByte_response (g : GeometryFacts s.cfg)
    (hs : ∀ set < numSets s.cfg, blockConsistent s set = true) (hmiss : isHit s a = false)
    (data : Memory)
    (hdata : ∀ j < s.cfg.blockBytes, data.read j = s.img.read (blockAddr s.cfg a + j)) (b : Nat) :
    coherentByte (installBlock a data (writeBackVictim a s)) b = coherentByte s b := by
  have hcfg : (installBlock a data (writeBackVictim a s)).cfg = s.cfg := by simp [installBlock]
  have himg : (installBlock a data (writeBackVictim a s)).img = (writeBackVictim a s).img := rfl
  have hset := setIndex_lt g a
  have hdb := address_decompose s.cfg b
  have hob := offset_lt g b
  simp only [coherentByte, isHit, blockOf, hcfg, himg, blkAt_response g.waysPos]
  by_cases h1 : setIndex s.cfg b = setIndex s.cfg a
  · simp only [h1, if_true, Bool.true_and, beq_iff_eq]
    by_cases h2 : tagOf s.cfg a = tagOf s.cfg b
    · -- the installed block: the image's bytes, which no hit hid before
      have hb : isHit s b = false := by rw [isHit_eq h1 h2.symm, hmiss]
      have hb' : ((blkAt s (setIndex s.cfg a) 0).valid
          && (blkAt s (setIndex s.cfg a) 0).tag == tagOf s.cfg b) = false := by
        simpa [isHit, blockOf, h1] using hb
      rw [if_pos h2, hb', hdata _ hob, blockAddr_eq_base, h2, ← h1, ← hdb]
      simp
    · rw [if_neg h2, writeBackVictim_img]
      have hold := hs _ hset
      simp only [blockConsistent, Bool.or_eq_true, Bool.and_eq_true, Bool.not_eq_true',
        decide_eq_true_eq, List.all_eq_true, List.mem_range] at hold
      by_cases hv : (blkAt s (setIndex s.cfg a) 0).valid = true
      · by_cases ht : (blkAt s (setIndex s.cfg a) 0).tag = tagOf s.cfg b
        · -- the victim's own bytes
          have hbase : b = blockBase s.cfg (setIndex s.cfg a) (blkAt s (setIndex s.cfg a) 0).tag
              + offsetOf s.cfg b := by rw [ht, ← h1]; exact hdb
          have hin : blockBase s.cfg (setIndex s.cfg a) (blkAt s (setIndex s.cfg a) 0).tag ≤ b
              ∧ b < blockBase s.cfg (setIndex s.cfg a) (blkAt s (setIndex s.cfg a) 0).tag
                + s.cfg.blockBytes := by omega
          have hsub : b - blockBase s.cfg (setIndex s.cfg a) (blkAt s (setIndex s.cfg a) 0).tag
              = offsetOf s.cfg b := by omega
          by_cases hd : (blkAt s (setIndex s.cfg a) 0).dirty = true
          · rw [ht] at hin hsub
            simp [blockOf, hv, hd, hin, hsub, ht]
          · have hcl : ∀ j < s.cfg.blockBytes, (blkAt s (setIndex s.cfg a) 0).data.read j
                = s.img.read (blockBase s.cfg (setIndex s.cfg a)
                    (blkAt s (setIndex s.cfg a) 0).tag + j) := by
              rcases hold with h' | ⟨_, h' | h'⟩
              · simp [hv] at h'
              · exact absurd h' hd
              · exact h'
            have := hcl _ hob
            rw [← hbase] at this
            simp [blockOf, hv, hd, ht, this]
        · have hout : ¬ (blockBase s.cfg (setIndex s.cfg a) (blkAt s (setIndex s.cfg a) 0).tag ≤ b
              ∧ b < blockBase s.cfg (setIndex s.cfg a) (blkAt s (setIndex s.cfg a) 0).tag
                + s.cfg.blockBytes) := by
            rintro ⟨hl, hu⟩
            exact ht (index_of_mem_block g hset hl hu).2.1.symm
          simp [blockOf, hout, ht]
      · simp [blockOf, hv]
  · -- another set: neither its block nor its bytes of the image change
    simp only [if_neg h1]
    have hout : ¬ (blockBase s.cfg (setIndex s.cfg a) (blockOf s a).tag ≤ b
        ∧ b < blockBase s.cfg (setIndex s.cfg a) (blockOf s a).tag + s.cfg.blockBytes) := by
      rintro ⟨hl, hu⟩
      exact h1 (index_of_mem_block g hset hl hu).1
    rw [writeBackVictim_img]
    simp [hout]

/-- A response leaves every block consistent (R82, R83). -/
theorem blockConsistent_response (g : GeometryFacts s.cfg)
    (hs : ∀ set < numSets s.cfg, blockConsistent s set = true)
    (hrange : blockAddr s.cfg a + s.cfg.blockBytes ≤ s.cfg.memSize) (hmiss : isHit s a = false)
    (data : Memory)
    (hdata : ∀ j < s.cfg.blockBytes, data.read j = s.img.read (blockAddr s.cfg a + j)) :
    ∀ set < numSets s.cfg,
      blockConsistent (installBlock a data (writeBackVictim a s)) set = true := by
  intro τ hτ
  have hcfg : (installBlock a data (writeBackVictim a s)).cfg = s.cfg := by simp [installBlock]
  have himg : (installBlock a data (writeBackVictim a s)).img = (writeBackVictim a s).img := rfl
  have hset := setIndex_lt g a
  simp only [blockConsistent, hcfg, himg, blkAt_response g.waysPos]
  by_cases h1 : τ = setIndex s.cfg a
  · simp only [h1, if_true, Bool.not_true, Bool.false_or, Bool.and_eq_true, decide_eq_true_eq,
      List.all_eq_true, List.mem_range]
    rw [← blockAddr_eq_base]
    refine ⟨hrange, fun j hj => ?_⟩
    rw [hdata j hj, writeBackVictim_img]
    have hout : ¬ (((blockOf s a).valid && (blockOf s a).dirty) = true
        ∧ blockBase s.cfg (setIndex s.cfg a) (blockOf s a).tag ≤ blockAddr s.cfg a + j
        ∧ blockAddr s.cfg a + j
            < blockBase s.cfg (setIndex s.cfg a) (blockOf s a).tag + s.cfg.blockBytes) := by
      rintro ⟨hvd, hl, hu⟩
      have h2 := (index_of_mem_block g hset hl hu).2.1
      rw [blockAddr_eq_base, (index_base_add g _ hset hj).2.1] at h2
      simp only [isHit, ← h2, beq_self_eq_true, Bool.and_true] at hmiss
      simp [hmiss] at hvd
    rw [if_neg hout]
  · have hold := hs τ hτ
    simp only [if_neg h1]
    simp only [blockConsistent, Bool.or_eq_true, Bool.and_eq_true, Bool.not_eq_true',
      decide_eq_true_eq, List.all_eq_true, List.mem_range] at hold ⊢
    rcases hold with h' | ⟨h', h'' | h''⟩
    · exact .inl h'
    · exact .inr ⟨h', .inl h''⟩
    · refine .inr ⟨h', .inr fun j hj => ?_⟩
      rw [h'' j hj, writeBackVictim_img]
      have hout : ¬ (blockBase s.cfg (setIndex s.cfg a) (blockOf s a).tag
            ≤ blockBase s.cfg τ (blkAt s τ 0).tag + j
          ∧ blockBase s.cfg τ (blkAt s τ 0).tag + j
            < blockBase s.cfg (setIndex s.cfg a) (blockOf s a).tag + s.cfg.blockBytes) := by
        rintro ⟨hl, hu⟩
        have := (index_of_mem_block g hset hl hu).1
        rw [(index_base_add g _ hτ hj).1] at this
        exact h1 this
      simp [hout]

/-- After the install the access hits (R84). -/
theorem isHit_response (g : GeometryFacts s.cfg) (data : Memory) :
    isHit (installBlock a data (writeBackVictim a s)) a = true := by
  have hcfg : (installBlock a data (writeBackVictim a s)).cfg = s.cfg := by simp [installBlock]
  simp [isHit, blockOf, blkAt_response g.waysPos]

end Response

/-! ## The coherent value of a width, in halves (20_memory.md R61) -/

theorem setWidth_append_eq {v w : Nat} (hi : BitVec w) (lo : BitVec v) :
    (hi ++ lo).setWidth 64 = lo.setWidth 64 ||| (hi.setWidth 64 <<< v) := by
  apply BitVec.eq_of_getLsbD_eq
  intro j hj
  simp only [BitVec.getLsbD_setWidth, BitVec.getLsbD_or, BitVec.getLsbD_shiftLeft,
    BitVec.getLsbD_append, hj, decide_true, Bool.true_and]
  by_cases h : j < v
  · simp [h]
  · have : j - v < 64 := by omega
    simp [h, this, BitVec.getLsbD_of_ge lo j (by omega)]

theorem coherentLE_add (s : State) (a m n : Nat) : coherentLE s a (m + n) =
    coherentLE s a m ||| (coherentLE s (a + m) n <<< (8 * m)) := by
  induction m generalizing a with
  | zero => simp [coherentLE]
  | succ m ih =>
    rw [show m + 1 + n = m + n + 1 by omega, coherentLE, coherentLE, ih,
      BitVec.shiftLeft_or_distrib, BitVec.or_assoc, ← BitVec.shiftLeft_add,
      show a + 1 + m = a + (m + 1) by omega, show 8 * m + 8 = 8 * (m + 1) by omega]

theorem coherentLE_one (s : State) (a : Nat) :
    coherentLE s a 1 = (coherentByte s a).setWidth 64 := by
  simp [coherentLE]

theorem coherentLE_two (s : State) (a : Nat) :
    coherentLE s a 2 = (coherent16 s a).setWidth 64 := by
  rw [coherentLE_add (m := 1) (n := 1), coherentLE_one, coherentLE_one, coherent16,
    setWidth_append_eq]

theorem coherentLE_four (s : State) (a : Nat) :
    coherentLE s a 4 = (coherent32 s a).setWidth 64 := by
  rw [coherentLE_add (m := 2) (n := 2), coherentLE_two, coherentLE_two, coherent32,
    setWidth_append_eq]

theorem coherentLE_eight (s : State) (a : Nat) : coherentLE s a 8 = coherent64 s a := by
  rw [coherentLE_add (m := 4) (n := 4), coherentLE_four, coherentLE_four, ← setWidth_append_eq]
  exact BitVec.setWidth_eq _

end Sys2Proof.Machine
end

