-- ==== Sys2Proof/Laws/Records.lean ====
section
/-! SUPPORT. Records: what `Exec` and the operand read leave of a record, and that every pipeline rule
reads a record only through its skeleton (40_pipeline_control.md R149, R162; 30_encoding.md R113). -/

namespace Sys2Proof.Machine

/-- The part of a record that the pipeline's control rules read. -/
def Rec.skeleton (r : Rec) : Rec where
  instr := r.instr
  pc := r.pc
  rs1Val := r.rs1Val
  rs2Val := r.rs2Val
  predTarget := r.predTarget

/-! ## Exec, whatever it computes -/

section
variable (k : Collaborators) (r : Rec)

/-- What `Exec` leaves of a record, and the fields that do not depend on it (R149). -/
theorem execute_cases :
    ((r.instr.cls = .alu ∨ r.instr.cls = .muldiv ∨ r.instr.cls = .jump)
        ∧ k.execute r = { r with rdVal := k.result r.instr.opid r.instr.imm r.rs1Val r.rs2Val r.pc })
      ∨ ((r.instr.cls = .load ∨ r.instr.cls = .store)
        ∧ k.execute r = { r with memAddr := r.rs1Val + r.instr.imm })
      ∨ (r.instr.cls = .branch
        ∧ k.execute r = { r with
            actTaken := k.taken r.instr.opid r.instr.imm r.rs1Val r.rs2Val r.pc
            actTarget := if k.taken r.instr.opid r.instr.imm r.rs1Val r.rs2Val r.pc then
              r.pc + r.instr.imm else r.pc + 4#64 }) := by
  unfold Collaborators.execute
  cases h : r.instr.cls <;> simp [Rec.withResult, Rec.withAddress, Rec.withOutcome, effectiveAddress]

theorem execute_skeleton : (k.execute r).skeleton = r.skeleton := by
  rcases execute_cases k r with ⟨-, e⟩ | ⟨-, e⟩ | ⟨-, e⟩ <;> rw [e] <;> rfl

@[simp] theorem execute_instr : (k.execute r).instr = r.instr := by
  unfold Collaborators.execute; split <;> rfl
@[simp] theorem execute_pc : (k.execute r).pc = r.pc := by
  unfold Collaborators.execute; split <;> rfl
@[simp] theorem execute_rs1Val : (k.execute r).rs1Val = r.rs1Val := by
  unfold Collaborators.execute; split <;> rfl
@[simp] theorem execute_rs2Val : (k.execute r).rs2Val = r.rs2Val := by
  unfold Collaborators.execute; split <;> rfl
@[simp] theorem execute_predTarget : (k.execute r).predTarget = r.predTarget := by
  unfold Collaborators.execute; split <;> rfl

/-- `Exec` twice is `Exec`. -/
@[simp] theorem execute_execute : k.execute (k.execute r) = k.execute r := by
  unfold Collaborators.execute
  cases h : r.instr.cls <;> simp only [h, Rec.withResult, Rec.withAddress, Rec.withOutcome] <;> rfl

theorem execute_memAddr (h : r.instr.cls = .load ∨ r.instr.cls = .store) :
    (k.execute r).memAddr = r.rs1Val + r.instr.imm := by
  rcases execute_cases k r with ⟨h', -⟩ | ⟨-, e⟩ | ⟨h', -⟩
  · rcases h with h | h <;> simp [h] at h'
  · rw [e]
  · rcases h with h | h <;> simp [h] at h'

/-- A load's record with another `rd_val` is still what `Exec` writes. -/
theorem execute_setValue (h : r.instr.cls = .load) (hr : k.execute r = r) (v : Word) :
    k.execute { r with rdVal := v } = { r with rdVal := v } := by
  have h0 := execute_memAddr k r (.inl h)
  rw [hr] at h0
  rcases execute_cases k { r with rdVal := v } with ⟨h', -⟩ | ⟨-, e⟩ | ⟨h', -⟩
  · simp [h] at h'
  · rw [e, h0]
  · simp [h] at h'

end

/-- What `Exec` computes depends on opcode, operands, immediate and address alone (R149). -/
theorem execute_congr (k : Collaborators) {q r : Rec} (hi : q.instr = r.instr) (hp : q.pc = r.pc)
    (h1 : q.rs1Val = r.rs1Val) (h2 : q.rs2Val = r.rs2Val) :
    (q.instr.cls = .alu ∨ q.instr.cls = .muldiv ∨ q.instr.cls = .jump →
        (k.execute q).rdVal = (k.execute r).rdVal)
      ∧ (q.instr.cls = .load ∨ q.instr.cls = .store →
        (k.execute q).memAddr = (k.execute r).memAddr)
      ∧ (q.instr.cls = .branch → (k.execute q).actTaken = (k.execute r).actTaken
        ∧ (k.execute q).actTarget = (k.execute r).actTarget)
      ∧ q.jumpTarget = r.jumpTarget := by
  cases q with
  | mk i pc a b =>
    cases r with
    | mk i' pc' a' b' =>
      simp only at hi hp h1 h2
      subst hi hp h1 h2
      refine ⟨?_, ?_, ?_, rfl⟩ <;> intro h <;>
        simp only [Collaborators.execute] <;>
        (first | (rcases h with h | h | h) | (rcases h with h | h) | skip) <;>
        simp only at h <;> simp [h, Rec.withResult, Rec.withAddress, Rec.withOutcome]

/-- An encoded immediate comes back from its sign-extended form. -/
theorem setWidth_signExtend {w : Nat} (x : BitVec w) (h : w ≤ 64) :
    (x.signExtend 64).setWidth w = x := by
  apply BitVec.eq_of_getLsbD_eq
  intro i hi
  have : i < 64 := by omega
  rw [BitVec.getLsbD_setWidth, BitVec.getLsbD_signExtend]
  simp [hi, this]

/-- An upper immediate comes back from its assembled form. -/
theorem upper_roundtrip (x : BitVec 20) :
    ((x ++ 0#12).signExtend 64).extractLsb' 12 20 = x := by
  apply BitVec.eq_of_getLsbD_eq
  intro i hi
  have : 12 + i < 64 := by omega
  have h2 : 12 + i < 32 := by omega
  rw [BitVec.getLsbD_extractLsb', BitVec.getLsbD_signExtend, BitVec.getLsbD_append]
  simp [hi, this, h2]

/-- A shift amount comes back from its zero-extended form. -/
theorem setWidth_setWidth_le {w : Nat} (x : BitVec w) (h : w ≤ 64) :
    (x.setWidth 64).setWidth w = x := by
  apply BitVec.eq_of_getLsbD_eq
  intro i hi
  have : i < 64 := by omega
  simp [this, hi]

/-- The reference `Exec` gives two instructions the same result and outcome. -/
def SameExec (i j : Instr) (a b pc : Word) : Prop :=
  (execInput j a b pc).execute.rdVal = (execInput i a b pc).execute.rdVal
    ∧ (execInput j a b pc).execute.actTaken = (execInput i a b pc).execute.actTaken

theorem sameExec_of_eq {i j : Instr} {a b pc : Word} (e : Instr.ofOperation i.opid i.imm = j)
    (h : SameExec i j a b pc) : SameExec i (.ofOperation i.opid i.imm) a b pc := e ▸ h

/-- The reference `Exec` reads of an instruction its opcode and its immediate (R149). -/
theorem sameExec_ofOperation (i : Instr) (a b pc : Word) :
    SameExec i (.ofOperation i.opid i.imm) a b pc := by
  cases i
  case addi =>
    exact sameExec_of_eq (congrArg (Instr.addi 0 0) (setWidth_signExtend _ (by decide))) ⟨rfl, rfl⟩
  case slti =>
    exact sameExec_of_eq (congrArg (Instr.slti 0 0) (setWidth_signExtend _ (by decide))) ⟨rfl, rfl⟩
  case sltiu =>
    exact sameExec_of_eq (congrArg (Instr.sltiu 0 0) (setWidth_signExtend _ (by decide))) ⟨rfl, rfl⟩
  case xori =>
    exact sameExec_of_eq (congrArg (Instr.xori 0 0) (setWidth_signExtend _ (by decide))) ⟨rfl, rfl⟩
  case ori =>
    exact sameExec_of_eq (congrArg (Instr.ori 0 0) (setWidth_signExtend _ (by decide))) ⟨rfl, rfl⟩
  case andi =>
    exact sameExec_of_eq (congrArg (Instr.andi 0 0) (setWidth_signExtend _ (by decide))) ⟨rfl, rfl⟩
  case addiw =>
    exact sameExec_of_eq (congrArg (Instr.addiw 0 0) (setWidth_signExtend _ (by decide))) ⟨rfl, rfl⟩
  case slli =>
    exact sameExec_of_eq (congrArg (Instr.slli 0 0) (setWidth_setWidth_le _ (by decide))) ⟨rfl, rfl⟩
  case srli =>
    exact sameExec_of_eq (congrArg (Instr.srli 0 0) (setWidth_setWidth_le _ (by decide))) ⟨rfl, rfl⟩
  case srai =>
    exact sameExec_of_eq (congrArg (Instr.srai 0 0) (setWidth_setWidth_le _ (by decide))) ⟨rfl, rfl⟩
  case slliw =>
    exact sameExec_of_eq (congrArg (Instr.slliw 0 0) (setWidth_setWidth_le _ (by decide))) ⟨rfl, rfl⟩
  case srliw =>
    exact sameExec_of_eq (congrArg (Instr.srliw 0 0) (setWidth_setWidth_le _ (by decide))) ⟨rfl, rfl⟩
  case sraiw =>
    exact sameExec_of_eq (congrArg (Instr.sraiw 0 0) (setWidth_setWidth_le _ (by decide))) ⟨rfl, rfl⟩
  case lui =>
    exact sameExec_of_eq (congrArg (Instr.lui 0) (upper_roundtrip _)) ⟨rfl, rfl⟩
  case auipc =>
    exact sameExec_of_eq (congrArg (Instr.auipc 0) (upper_roundtrip _)) ⟨rfl, rfl⟩
  all_goals exact ⟨rfl, rfl⟩

/-- The class of an instruction is its opcode's (30_encoding.md R113). -/
@[simp] theorem ofOperation_cls (i : Instr) : (Instr.ofOperation i.opid i.imm).cls = i.cls := by
  cases i <;> rfl

/-- The reference collaborators run the reference `Exec`. -/
@[simp] theorem reference_execute (r : Rec) : Collaborators.reference.execute r = r.execute := by
  have h := sameExec_ofOperation r.instr r.rs1Val r.rs2Val r.pc
  simp only [Collaborators.execute, Collaborators.reference, h.1, h.2]
  cases r with | mk i => cases i <;> rfl

@[simp] theorem reference_predict (t : Tables) (pc : Word) :
    Collaborators.reference.predict t pc = (false, 0#64) := rfl

@[simp] theorem predictedTarget_reference (t : Tables) (pc : Word) :
    predictedTarget .reference t pc = pc + 4#64 := rfl

/-! ## The skeleton is all that control reads -/

section
variable (r q : Rec)

@[simp] theorem Rec.skeleton_instr : r.skeleton.instr = r.instr := rfl
@[simp] theorem Rec.skeleton_pc : r.skeleton.pc = r.pc := rfl
@[simp] theorem Rec.skeleton_predTarget : r.skeleton.predTarget = r.predTarget := rfl

theorem Rec.jumpTarget_skeleton : r.skeleton.jumpTarget = r.jumpTarget := rfl
theorem Rec.isBranch_skeleton : r.skeleton.isBranch = r.isBranch := rfl
theorem writesReg_skeleton (k : Nat) : writesReg k r.skeleton = writesReg k r := rfl
theorem independent_skeleton : independent q.skeleton r.skeleton = independent q r := rfl
theorem fetchNext_skeleton (c : Config) : fetchNext c r.skeleton = fetchNext c r := rfl

theorem operandsCurrent_iff (s : State) : operandsCurrent s r = true ↔
    r.rs1Val = (if r.instr.readsRs1 then readReg s r.instr.rs1 else 0#64)
      ∧ r.rs2Val = (if r.instr.readsRs2 then readReg s r.instr.rs2 else 0#64) := by
  simp only [operandsCurrent, decide_eq_true_eq]
  constructor
  · intro h
    have h1 := congrArg Rec.rs1Val h
    have h2 := congrArg Rec.rs2Val h
    exact ⟨h1.symm, h2.symm⟩
  · rintro ⟨h1, h2⟩
    simp only [readOperands, ← h1, ← h2]

theorem operandsCurrent_skeleton (s : State) :
    operandsCurrent s r.skeleton = operandsCurrent s r := by
  rw [Bool.eq_iff_iff, operandsCurrent_iff, operandsCurrent_iff]
  rfl

theorem readOperands_current (s : State) : operandsCurrent s (readOperands s r) = true := by
  rw [operandsCurrent_iff]; exact ⟨rfl, rfl⟩

@[simp] theorem readOperands_instr (s : State) : (readOperands s r).instr = r.instr := rfl
@[simp] theorem readOperands_pc (s : State) : (readOperands s r).pc = r.pc := rfl
@[simp] theorem readOperands_predTarget (s : State) :
    (readOperands s r).predTarget = r.predTarget := rfl

/-- Where fetch goes after a record that is no jump depends on no operand. -/
theorem fetchNext_readOperands (c : Config) (s : State) (h : r.instr.cls ≠ .jump) :
    fetchNext c (readOperands s r) = fetchNext c r := by
  unfold fetchNext
  simp only [readOperands_instr, readOperands_pc, readOperands_predTarget]
  split <;> simp_all

theorem fetchNext_jump (c : Config) (h : r.instr.cls = .jump) : fetchNext c r = r.jumpTarget := by
  simp [fetchNext, h]

end

/-- Operands are read from the registers alone. -/
theorem readReg_congr {s t : State} (h : t.x = s.x) (r : Reg) : readReg t r = readReg s r := by
  simp [readReg, h]

theorem readOperands_congr {s t : State} (h : t.x = s.x) (r : Rec) :
    readOperands t r = readOperands s r := by
  simp [readOperands, readReg_congr h]

theorem operandsCurrent_congr {s t : State} (h : t.x = s.x) (r : Rec) :
    operandsCurrent t r = operandsCurrent s r := by
  simp [operandsCurrent, readOperands_congr h]

end Sys2Proof.Machine
end

