-- ==== Sys2Proof/Laws/Stages.lean ====
section
/-! SUPPORT. Each stage's answer, case by case (40_pipeline_control.md sections 4 to 9): the lemmas a
proof cites instead of unfolding a stage. -/

namespace Sys2Proof.Machine

/-! ## Sequencing -/

theorem andThen_running {s : State} (h : s.status = .running) (f : State → Answer) :
    andThen (.next s) f = f s := by simp [andThen, h]

theorem andThen_stopped {s : State} (h : s.status ≠ .running) (f : State → Answer) :
    andThen (.next s) f = .next s := by simp [andThen, h]

theorem lat_pos (i : Instr) : 0 < i.lat := by
  unfold Instr.lat; split <;> decide

theorem lat_le (i : Instr) : i.lat ≤ 2 := by
  unfold Instr.lat; split <;> decide

/-! ## Execute (R160) -/

section
variable {s : State} {k : Collaborators}

theorem executeStage_blocked {q : Rec} (h : s.lXM = some q) : executeStage s k = .next s := by
  simp [executeStage, h]

theorem executeStage_idle (hx : s.lXM = none) (hf : s.fuInst = none) (hd : s.lDX = none)
    (hr : s.status = .running) : executeStage s k = .next s := by
  simp [executeStage, executeIssue, executeOutput, fuOutput, andThen, hx, hf, hd, hr]

theorem executeStage_issue {r : Rec} (hx : s.lXM = none) (hf : s.fuInst = none)
    (hd : s.lDX = some r) (hr : s.status = .running) :
    executeStage s k =
      .next { s with lDX := none, fuInst := some (k.execute r), fuExit := s.tick + r.instr.lat } := by
  have h0 := lat_pos r.instr
  have : ¬ s.tick + r.instr.lat ≤ s.tick := by omega
  simp [executeStage, executeIssue, fuFree, fuRun, executeOutput, fuOutput, andThen, hx, hf, hd, hr,
    this]

theorem executeStage_output {r : Rec} (hx : s.lXM = none) (hf : s.fuInst = some r)
    (he : s.fuExit ≤ s.tick) (hr : s.status = .running) :
    executeStage s k = .next { s with fuInst := none, lXM := some r } := by
  cases hd : s.lDX <;>
    simp [executeStage, executeIssue, fuFree, executeOutput, fuOutput, andThen, hx, hf, hd, hr, he]

theorem executeStage_wait {r : Rec} (hx : s.lXM = none) (hf : s.fuInst = some r)
    (he : s.tick < s.fuExit) (hr : s.status = .running) : executeStage s k = .next s := by
  have : ¬ s.fuExit ≤ s.tick := by omega
  cases hd : s.lDX <;>
    simp [executeStage, executeIssue, fuFree, executeOutput, fuOutput, andThen, hx, hf, hd, hr, this]

/-! ## Decode (R165, R167) -/

theorem decodeStage_empty (h : s.lFD = none) : decodeStage s = .next s := by
  simp [decodeStage, h]

theorem decodeStage_blocked {q : Rec} (h : s.lDX = some q) : decodeStage s = .next s := by
  cases hf : s.lFD <;> simp [decodeStage, h, hf]

theorem decodeStage_stall {r : Rec} (h : s.lFD = some r)
    (hd : hasDependency s r.instr = true) : decodeStage s = .next s := by
  simp [decodeStage, h, hd]

/-- What decode leaves when it admits `r` (R162, R165). -/
def admitRecord (r : Rec) (s : State) : State :=
  redirectJump (readOperands s r)
    { markPending r.instr { s with lFD := none } with lDX := some (readOperands s r) }

theorem decodeStage_admit {r : Rec} (h : s.lFD = some r) (hx : s.lDX = none)
    (hd : hasDependency s r.instr = false) (hr : s.status = .running) :
    decodeStage s = .next (admitRecord r s) := by
  simp [decodeStage, h, hx, hd, andThen, hr, admitRecord]

/-! ## Fetch (R168 to R173) -/

/-- What fetch leaves when it makes a record of `i` (R170 to R173). -/
def fetched (i : Instr) (s : State) (k : Collaborators := .reference) : State :=
  { (fetchBranch (Rec.fresh i s.pc) { s with pc := s.pc + 4#64 } k).2 with
    lFD := some (fetchBranch (Rec.fresh i s.pc) { s with pc := s.pc + 4#64 } k).1 }

theorem fetchStage_stall (src : Word → Delivery)
    (h : s.lFD ≠ none ∨ s.pcValid = false) : fetchStage src s k = .next (countStall s) := by
  rcases h with h | h
  · cases hf : s.lFD
    · exact absurd hf h
    · simp [fetchStage, hf]
  · simp [fetchStage, h]

theorem fetchStage_nothing {src : Word → Delivery} (h : s.lFD = none) (hp : s.pcValid = true)
    (hs : src s.pc = .nothing) : fetchStage src s k = .next s := by
  simp [fetchStage, h, hp, hs]

theorem fetchBranch_lFD (r : Rec) : (fetchBranch r s k).2.lFD = s.lFD := by
  unfold fetchBranch followPrediction
  split
  · split
    · dsimp only; split <;> rfl
    · rfl
  · rfl

theorem fetchStage_instr {src : Word → Delivery} {i : Instr} (h : s.lFD = none)
    (hp : s.pcValid = true) (hs : src s.pc = .instr i) :
    fetchStage src s k = .next (fetched i s k) := by
  simp [fetchStage, h, hp, hs, fetchInstr, fetchBranch_lFD, fetched]

/-- The tables are read where fetch finds them. -/
theorem tables_setPc (s : State) (a : Word) : ({ s with pc := a } : State).tables = s.tables := rfl

/-- The record fetch makes (R111, R170, R171). -/
theorem fetched_lFD (i : Instr) (s : State) : (fetched i s k).lFD =
    some
      { Rec.fresh i s.pc with
        predTaken := decide (i.cls = .branch) && s.cfg.predEnabled && (k.predict s.tables s.pc).1
        predTarget := if i.cls = .branch ∧ s.cfg.predEnabled = true then
          predictedTarget k s.tables s.pc else 0#64 } := by
  simp only [fetched, fetchBranch, tables_setPc, predictedTarget, Rec.isBranch, Rec.fresh]
  generalize k.predict s.tables s.pc = p
  obtain ⟨p1, p2⟩ := p
  by_cases hb : i.cls = .branch <;> cases hp : s.cfg.predEnabled <;> cases p1 <;>
    simp [followPrediction, hb]

/-- Fetch writes `pc`, `pc_valid` and L_FD only (R170 to R172). -/
theorem fetched_eq (i : Instr) (s : State) : fetched i s k =
    { s with
      lFD := (fetched i s k).lFD
      pc := if i.cls = .branch ∧ s.cfg.predEnabled = true then predictedTarget k s.tables s.pc
        else s.pc + 4#64
      pcValid := if i.cls = .branch ∧ s.cfg.predEnabled = false then false else s.pcValid } := by
  rw [fetched_lFD]
  simp only [fetched, fetchBranch, tables_setPc, predictedTarget, Rec.isBranch, Rec.fresh]
  generalize k.predict s.tables s.pc = p
  obtain ⟨p1, p2⟩ := p
  by_cases hb : i.cls = .branch <;> cases hp : s.cfg.predEnabled <;> cases p1 <;>
    simp [followPrediction, hb]

/-! ## Memory (R158, R159) -/

theorem cacheRun_idle (h : s.pendValid = false ∨ s.tick < s.pendTick) :
    cacheRun s = .next (s, none, s.missInst.isSome) := by
  rcases h with h | h
  · simp [cacheRun, memRun, h]
  · have : ¬ s.pendTick ≤ s.tick := by omega
    simp [cacheRun, memRun, this]

theorem memoryStage_idle (h : s.pendValid = false ∨ s.tick < s.pendTick)
    (hi : s.lXM = none ∨ s.missInst ≠ none) : memoryStage s = .next s := by
  rw [memoryStage, cacheRun_idle h]
  simp only [issueFromLatch]
  rcases hi with hi | hi
  · simp [hi]
  · cases hm : s.missInst
    · exact absurd hm hi
    · simp [cacheFree, hm]

theorem memoryStage_issue {r : Rec} (h : s.pendValid = false) (hm : s.missInst = none)
    (hw : s.lMW = none) (hx : s.lXM = some r) :
    memoryStage s = issue r { s with lXM := none } := by
  rw [memoryStage, cacheRun_idle (.inl h)]
  simp [issueFromLatch, cacheFree, hm, hw, hx]

/-- R67, R82 to R84, R87: the tick of the hierarchy in which the response is due. -/
theorem cacheRun_response {r : Rec} (h : s.pendValid = true) (ht : s.pendTick ≤ s.tick)
    (hm : s.missInst = some r) :
    cacheRun s =
      match replay r (installBlock r.memAddr.toNat (responseData s)
          (writeBackVictim r.memAddr.toNat { s with pendValid := false })) with
      | .next (s', r') => .next (releaseMiss s', some r', (releaseMiss s').missInst.isSome)
      | .fault e => .fault e
      | .refused e => .refused e := by
  have hm' : ({ s with pendValid := false } : State).missInst = some r := hm
  rw [cacheRun, memRun, if_pos (by simp [h, ht]), handleResponse, hm']
  dsimp only
  generalize replay r _ = q
  cases q with
  | next p => rfl
  | fault e => rfl
  | refused e => rfl

/-- R158: a replayed record goes to L_MW, and nothing more happens. -/
theorem memoryStage_replayed {t : State} {q : Rec} {b : Bool} (h : cacheRun s = .next (t, some q, b))
    (hr : t.status = .running) (hw : t.lMW = none) :
    memoryStage s = .next { t with lMW := some q } := by
  rw [memoryStage, h]
  simp [andThen, hr, hw]

theorem issue_passive {r : Rec} (hc : r.instr.cls ≠ .load) (hs : r.instr.cls ≠ .store)
    (hr : s.status = .running) (hm : s.missInst = none) (hw : s.lMW = none) :
    issue r s = .next { s with lMW := some r } := by
  unfold issue
  split <;> simp_all [deliver, cacheFree]

theorem issue_memory {r : Rec} (hc : r.instr.cls = .load ∨ r.instr.cls = .store) :
    issue r s = deliver (cacheAccess r s) := by
  unfold issue
  rcases hc with hc | hc <;> rw [hc]

end

end Sys2Proof.Machine
end

