-- ==== Sys2Proof/Laws/Invariant.lean ====
section
/-! SUPPORT. How the pipeline invariant is carried: it depends on the records in flight only through
their skeletons, and the pipeline's moves (issue, output, admission, fetch, retirement, flush) keep it
(40_pipeline_control.md R182 to R191). -/

namespace Sys2Proof.Machine

variable {k : Collaborators}

/-! ## The two halves of the invariant -/

/-- The half about the data memory and the cache. -/
structure MemoryHalf (s : State) : Prop where
  pending : s.pendValid = s.missInst.isSome
  miss : ∀ r ∈ s.missInst, missConsistent s r = true
  missAlone : s.missInst.isSome = true → s.lMW = none
  blocks : ∀ set < numSets s.cfg, blockConsistent s set = true

theorem Inv.memoryHalf {s : State} (h : Inv s k) : MemoryHalf s :=
  ⟨h.pending, h.miss, h.missAlone, h.blocks⟩

theorem missConsistent_congr {s t : State} (hc : t.cfg = s.cfg) (hb : t.blk = s.blk)
    (ha : t.pendAddr = s.pendAddr) (hs : t.pendSize = s.pendSize) (r : Rec) :
    missConsistent t r = missConsistent s r := by
  simp [missConsistent, isHit_congr hc hb, hc, ha, hs]

theorem MemoryHalf.congr {s t : State} (h : MemoryHalf s) (hc : t.cfg = s.cfg)
    (hb : t.blk = s.blk) (hi : t.img = s.img) (hm : t.missInst = s.missInst)
    (hv : t.pendValid = s.pendValid) (ha : t.pendAddr = s.pendAddr) (hs : t.pendSize = s.pendSize)
    (hw : s.missInst.isSome = true → t.lMW = none) : MemoryHalf t where
  pending := by rw [hv, hm]; exact h.pending
  miss := by
    intro r hr
    rw [missConsistent_congr hc hb ha hs]
    exact h.miss r (hm ▸ hr)
  missAlone := by rw [hm]; exact hw
  blocks := by
    intro set hset
    rw [blockConsistent_congr hc hb hi]
    exact h.blocks set (hc ▸ hset)

/-- The half about the records in flight, for the admitted ones `A`, the one in L_FD `F`, and the
registers and control state that the rules compare them with. -/
structure PipeHalf (s : State) (A : List Rec) (F : Option Rec) : Prop where
  operands : ∀ r ∈ A, operandsCurrent s r = true
  interlock : A.Pairwise (fun q r => independent q r = true)
  depCounts : ∀ k : Fin 32, s.dep.get k = A.countP (writesReg k.val)
  chain : (A ++ F.toList).IsChain (fun q r => r.pc = fetchNext s.cfg q)
  follows : ∀ q, F = some q → q.instr.cls = .jump ∨ s.pc = fetchNext s.cfg q
  followsLast : F = none → ∀ q, A.getLast? = some q → s.pc = fetchNext s.cfg q
  stopped : s.pcValid = !(!s.cfg.predEnabled && (A ++ F.toList).getLast?.any Rec.isBranch)
  branchLast : s.cfg.predEnabled = false → ∀ r ∈ (A ++ F.toList).dropLast, r.isBranch = false

theorem fetchFollows_iff (s : State) : fetchFollows s = true ↔
    (∀ q, s.lFD = some q → q.instr.cls = .jump ∨ s.pc = fetchNext s.cfg q)
      ∧ (s.lFD = none → ∀ q, (admitted s).getLast? = some q → s.pc = fetchNext s.cfg q) := by
  unfold fetchFollows
  cases s.lFD with
  | some q => simp
  | none => cases (admitted s).getLast? <;> simp

theorem Inv.pipeHalf {s : State} (h : Inv s k) : PipeHalf s (admitted s) s.lFD where
  operands := h.operands
  interlock := h.interlock
  depCounts := h.depCounts
  chain := h.chain
  follows := ((fetchFollows_iff s).1 h.follows).1
  followsLast := ((fetchFollows_iff s).1 h.follows).2
  stopped := h.stopped
  branchLast := h.branchLast

/-- The invariant, put together from its halves. -/
theorem Inv.of_halves {s : State} (hc : configError s.cfg = none) (hf : s.cfg.forwarding = false)
    (hp : programAdmitted s = true) (pipe : PipeHalf s (admitted s) s.lFD)
    (results : ∀ r ∈ executed s, k.execute r = r) (mem : MemoryHalf s) : Inv s k where
  config := hc
  noForwarding := hf
  program := hp
  operands := pipe.operands
  results := results
  interlock := pipe.interlock
  depCounts := pipe.depCounts
  chain := pipe.chain
  follows := (fetchFollows_iff s).2 ⟨pipe.follows, pipe.followsLast⟩
  stopped := pipe.stopped
  branchLast := pipe.branchLast
  pending := mem.pending
  miss := mem.miss
  missAlone := mem.missAlone
  blocks := mem.blocks

/-- The pipeline half reads registers, counts, `pc` and `pc_valid` of the state. -/
theorem PipeHalf.congr {s t : State} {A : List Rec} {F : Option Rec} (h : PipeHalf s A F)
    (hc : t.cfg = s.cfg) (hx : t.x = s.x) (hd : t.dep = s.dep) (hpc : t.pc = s.pc)
    (hv : t.pcValid = s.pcValid) : PipeHalf t A F where
  operands := fun r hr => by rw [operandsCurrent_congr hx]; exact h.operands r hr
  interlock := h.interlock
  depCounts := by rw [hd]; exact h.depCounts
  chain := by rw [hc]; exact h.chain
  follows := by rw [hc, hpc]; exact h.follows
  followsLast := by rw [hc, hpc]; exact h.followsLast
  stopped := by rw [hc, hv]; exact h.stopped
  branchLast := by rw [hc]; exact h.branchLast

/-- The pipeline half reads records through their skeletons. -/
theorem PipeHalf.of_skeleton {s : State} {A B : List Rec} {F : Option Rec} (h : PipeHalf s A F)
    (hAB : B.map Rec.skeleton = A.map Rec.skeleton) : PipeHalf s B F := by
  have key : ∀ p : Rec → Prop, (∀ r, p r.skeleton ↔ p r) → ((∀ r ∈ B, p r) ↔ ∀ r ∈ A, p r) := by
    intro p hp
    have e : ∀ L : List Rec, (∀ r ∈ L, p r) ↔ ∀ r ∈ L.map Rec.skeleton, p r := by
      intro L; simp [hp]
    rw [e B, e A, hAB]
  have hF : (B ++ F.toList).map Rec.skeleton = (A ++ F.toList).map Rec.skeleton := by
    simp [hAB]
  have keyF : ∀ p : Rec → Prop, (∀ r, p r.skeleton ↔ p r) →
      ((∀ r ∈ (B ++ F.toList).dropLast, p r) ↔ ∀ r ∈ (A ++ F.toList).dropLast, p r) := by
    intro p hp
    have e : ∀ L : List Rec, (∀ r ∈ L.dropLast, p r) ↔ ∀ r ∈ (L.map Rec.skeleton).dropLast, p r := by
      intro L; rw [← List.map_dropLast, List.forall_mem_map]; simp only [hp]
    rw [e (B ++ F.toList), e (A ++ F.toList), hF]
  have lastB : ∀ L : List Rec, (L.map Rec.skeleton).getLast? = L.getLast?.map Rec.skeleton := by
    intro L; simp
  have lastAny : ∀ L : List Rec,
      L.getLast?.any Rec.isBranch = (L.map Rec.skeleton).getLast?.any Rec.isBranch := by
    intro L
    rw [lastB]
    cases L.getLast? <;> rfl
  constructor
  · exact (key _ (fun r => by rw [operandsCurrent_skeleton])).2 h.operands
  · have e : ∀ L : List Rec, L.Pairwise (fun q r => independent q r = true) ↔
        (L.map Rec.skeleton).Pairwise (fun q r => independent q r = true) := by
      intro L; rw [List.pairwise_map]; rfl
    rw [e B, hAB, ← e A]; exact h.interlock
  · intro k
    have e : ∀ L : List Rec, L.countP (writesReg k.val) =
        (L.map Rec.skeleton).countP (writesReg k.val) := by
      intro L; rw [List.countP_map]; rfl
    rw [e B, hAB, ← e A]; exact h.depCounts k
  · have e : ∀ L : List Rec, L.IsChain (fun q r => r.pc = fetchNext s.cfg q) ↔
        (L.map Rec.skeleton).IsChain (fun q r => r.pc = fetchNext s.cfg q) := by
      intro L; rw [List.isChain_map]; rfl
    rw [e (B ++ F.toList), hF, ← e (A ++ F.toList)]; exact h.chain
  · exact h.follows
  · intro hn q' hb
    have hl : B.getLast?.map Rec.skeleton = A.getLast?.map Rec.skeleton := by
      rw [← lastB, ← lastB, hAB]
    cases ha : A.getLast? with
    | none => simp [ha, hb] at hl
    | some q =>
      simp only [ha, hb, Option.map_some, Option.some.injEq] at hl
      rw [← fetchNext_skeleton, hl, fetchNext_skeleton]
      exact h.followsLast hn q ha
  · rw [lastAny, hF, ← lastAny]; exact h.stopped
  · intro hp
    exact (keyF (fun r => r.isBranch = false) (fun r => by rw [Rec.isBranch_skeleton])).2
      (h.branchLast hp)

/-- A move that keeps skeletons and order of the admitted records, and touches neither registers nor
control state, keeps the invariant if the memory half and the executed records are in order. -/
theorem Inv.move {s t : State} (h : Inv s k) (hc : t.cfg = s.cfg) (hp : t.prog = s.prog)
    (hx : t.x = s.x) (hd : t.dep = s.dep) (hpc : t.pc = s.pc) (hv : t.pcValid = s.pcValid)
    (hF : t.lFD = s.lFD)
    (hA : (admitted t).map Rec.skeleton = (admitted s).map Rec.skeleton)
    (hE : ∀ r ∈ executed t, k.execute r = r) (hm : MemoryHalf t) : Inv t k := by
  refine Inv.of_halves (by rw [hc]; exact h.config) (by rw [hc]; exact h.noForwarding) ?_ ?_ hE hm
  · have := h.program
    unfold programAdmitted at *
    rw [hp]; exact this
  · rw [hF]
    exact (h.pipeHalf.of_skeleton hA).congr hc hx hd hpc hv

/-- What no rule of the invariant reads may change. -/
theorem Inv.irrelevant {s t : State} (h : Inv s k)
    (e : t = { s with
      tick := t.tick, fuExit := t.fuExit, acc := t.acc, pendTick := t.pendTick, bht := t.bht,
      pht := t.pht, btb := t.btb, stats := t.stats, status := t.status }) : Inv t k := by
  rw [e]
  exact h.move rfl rfl rfl rfl rfl rfl rfl rfl h.results
    (h.memoryHalf.congr rfl rfl rfl rfl rfl rfl rfl h.missAlone)

end Sys2Proof.Machine
end

