-- ==== Sys2Proof/Laws/Moves.lean ====
section
/-! SUPPORT. Each move of a record keeps the pipeline invariant: issue to the unit and output from it
(40_pipeline_control.md R160), admission (R165), fetch (R168 to R173), retirement and flush (R152 to
R156, R178). -/

namespace Sys2Proof.Machine

/-! ## The records in flight, as lists -/

theorem filterMap_id_cons {α : Type} (o : Option α) (l : List (Option α)) :
    (o :: l).filterMap id = o.toList ++ l.filterMap id := by cases o <;> rfl

theorem admitted_eq (s : State) : admitted s =
    s.lMW.toList ++ (s.missInst.toList ++ (s.lXM.toList ++ (s.fuInst.toList ++ s.lDX.toList))) := by
  simp only [admitted, filterMap_id_cons, List.filterMap_nil, List.append_nil]

theorem executed_eq (s : State) : executed s =
    s.lMW.toList ++ (s.missInst.toList ++ (s.lXM.toList ++ s.fuInst.toList)) := by
  simp only [executed, filterMap_id_cons, List.filterMap_nil, List.append_nil]

theorem admitted_eq_executed (s : State) : admitted s = executed s ++ s.lDX.toList := by
  simp [admitted_eq, executed_eq]

theorem oldest_eq (s : State) : oldest s = (inFlight s).head? := by
  simp only [oldest, inFlight, admitted_eq]
  cases s.lMW <;> cases s.missInst <;> cases s.lXM <;> cases s.fuInst <;> cases s.lDX <;>
    cases s.lFD <;> rfl

/-! ## Execute (R160) -/

section
variable {s : State} {k : Collaborators}

theorem Inv.issuing {r : Rec} (h : Inv s k) (hx : s.lXM = none) (hf : s.fuInst = none)
    (hd : s.lDX = some r) (e : Nat) :
    Inv { s with lDX := none, fuInst := some (k.execute r), fuExit := e } k := by
  refine h.move rfl rfl rfl rfl rfl rfl rfl ?_ ?_
    (h.memoryHalf.congr rfl rfl rfl rfl rfl rfl rfl h.missAlone)
  · simp [admitted_eq, hx, hf, hd, execute_skeleton]
  · intro q hq
    have hE := h.results
    simp only [executed_eq, hx, hf, Option.toList_none, Option.toList_some, List.nil_append,
      List.append_nil, List.mem_append, List.mem_singleton] at hq hE
    rcases hq with hq | hq | rfl
    · exact hE q (.inl hq)
    · exact hE q (.inr hq)
    · exact execute_execute k r

theorem Inv.delivery {r : Rec} (h : Inv s k) (hx : s.lXM = none) (hf : s.fuInst = some r) :
    Inv { s with fuInst := none, lXM := some r } k := by
  have hA : admitted { s with fuInst := none, lXM := some r } = admitted s := by
    simp [admitted_eq, hx, hf]
  refine h.move rfl rfl rfl rfl rfl rfl rfl (by rw [hA]) ?_
    (h.memoryHalf.congr rfl rfl rfl rfl rfl rfl rfl h.missAlone)
  intro q hq
  apply h.results q
  simpa [executed_eq, hx, hf] using hq

/-! ## Decode (R165) -/

theorem dep_eq_zero_iff (h : Inv s k) (r : Reg) :
    depOf s r = 0 ↔ ∀ q ∈ admitted s, writesReg r.toNat q = false := by
  have := h.depCounts (regIndex r)
  unfold depOf
  rw [this, List.countP_eq_zero]
  simp [regIndex]

theorem not_hasDependency (h : Inv s k) {i : Instr} (hd : hasDependency s i = false) {r : Rec}
    (hr : r.instr = i) : ∀ q ∈ admitted s, independent q r = true := by
  intro q hq
  subst hr
  simp only [hasDependency, Bool.or_eq_false_iff, Bool.and_eq_false_iff, decide_eq_false_iff_not,
    Nat.not_lt, Nat.le_zero] at hd
  simp only [independent, Bool.not_eq_true', Bool.and_eq_false_iff, Bool.or_eq_false_iff,
    decide_eq_false_iff_not]
  by_cases hw : q.instr.writesRd = true
  · by_cases h0 : q.instr.rd = 0#5
    · exact .inl (.inr (by simp [h0]))
    · right
      have key : ∀ x : Reg, x ≠ 0#5 → depOf s x = 0 → x ≠ q.instr.rd := by
        intro x hx hz he
        have := (dep_eq_zero_iff h x).1 hz q hq
        simp [writesReg, hw, h0, he] at this
      refine ⟨?_, ?_⟩
      · rcases hd.1 with (hh | hh) | hh
        · exact .inl hh
        · refine .inr fun he => ?_
          rw [Decidable.not_not] at hh
          exact h0 (he ▸ hh)
        · by_cases hz : r.instr.rs1 = 0#5
          · exact .inr fun he => h0 (he ▸ hz)
          · exact .inr (key _ hz hh)
      · rcases hd.2 with (hh | hh) | hh
        · exact .inl hh
        · refine .inr fun he => ?_
          rw [Decidable.not_not] at hh
          exact h0 (he ▸ hh)
        · by_cases hz : r.instr.rs2 = 0#5
          · exact .inr fun he => h0 (he ▸ hz)
          · exact .inr (key _ hz hh)
  · exact .inl (.inl (by simpa using hw))

/-- The counts after a mark (R162). -/
theorem markPending_get (i : Instr) (s : State) (k : Fin 32) :
    (markPending i s).dep.get k =
      s.dep.get k + if i.writesRd = true ∧ i.rd ≠ 0#5 ∧ i.rd.toNat = k.val then 1 else 0 := by
  unfold markPending
  by_cases hc : i.writesRd = true ∧ i.rd ≠ 0#5
  · by_cases hk : i.rd.toNat = k.val
    · have : regIndex i.rd = k := Fin.ext hk
      simp [hc, hk, setDep, depOf, this, Vector.get_eq_getElem]
    · simp [hc, hk, setDep, Vector.get_eq_getElem]
  · simp only [hc, if_false]
    have : ¬ (i.writesRd = true ∧ i.rd ≠ 0#5 ∧ i.rd.toNat = k.val) := fun hh => hc ⟨hh.1, hh.2.1⟩
    simp [this]

theorem admit_eq (r : Rec) (s : State) : admitRecord r s =
    { s with
      lFD := none
      lDX := some (readOperands s r)
      dep := (markPending r.instr s).dep
      pc := if r.instr.cls = .jump then (readOperands s r).jumpTarget else s.pc } := by
  unfold admitRecord redirectJump markPending
  rw [readOperands_instr]
  split_ifs <;> rfl

theorem Inv.admission {r : Rec} (h : Inv s k) (hF : s.lFD = some r) (hX : s.lDX = none)
    (hd : hasDependency s r.instr = false) : Inv (admitRecord r s) k := by
  have hp := h.pipeHalf
  rw [hF] at hp
  have hA : admitted (admitRecord r s) = admitted s ++ [readOperands s r] := by
    simp [admit_eq, admitted_eq, hX]
  refine Inv.of_halves (by rw [admit_eq]; exact h.config) (by rw [admit_eq]; exact h.noForwarding)
    (by rw [admit_eq]; exact h.program) ?_ ?_
    (by rw [admit_eq]; exact h.memoryHalf.congr rfl rfl rfl rfl rfl rfl rfl h.missAlone)
  · rw [hA, show (admitRecord r s).lFD = none by rw [admit_eq]]
    have hx : (admitRecord r s).x = s.x := by rw [admit_eq]
    have hcfg : (admitRecord r s).cfg = s.cfg := by rw [admit_eq]
    have hind := not_hasDependency h hd rfl
    constructor
    · intro q hq
      rw [operandsCurrent_congr hx]
      rcases List.mem_append.1 hq with hq | hq
      · exact hp.operands q hq
      · rw [List.mem_singleton.1 hq]; exact readOperands_current r s
    · rw [List.pairwise_append]
      exact ⟨hp.interlock, List.pairwise_singleton _ _,
        fun q hq q' hq' => by rw [List.mem_singleton.1 hq']; exact hind q hq⟩
    · intro k
      rw [show (admitRecord r s).dep = (markPending r.instr s).dep by rw [admit_eq], markPending_get,
        hp.depCounts k, List.countP_append]
      rw [List.countP_singleton, show writesReg k.val (readOperands s r) = writesReg k.val r from rfl]
      congr 1
      exact if_congr (by simp [writesReg, and_assoc]) rfl rfl
    · have hc := hp.chain
      rw [hcfg]
      simp only [Option.toList_some, Option.toList_none, List.append_nil,
        List.isChain_append] at hc ⊢
      refine ⟨hc.1, List.isChain_singleton _, ?_⟩
      intro q hq q' hq'
      simp only [List.head?_cons, Option.mem_some_iff] at hq'
      subst hq'
      exact hc.2.2 q hq r (by simp)
    · intro q hq; cases hq
    · intro _ q hq
      simp only [List.getLast?_append, List.getLast?_singleton, Option.some_or,
        Option.some.injEq] at hq
      subst hq
      rw [hcfg, show (admitRecord r s).pc = if r.instr.cls = .jump then (readOperands s r).jumpTarget
        else s.pc by rw [admit_eq]]
      split
      · next hj => rw [fetchNext_jump (readOperands s r) _ hj]
      · next hj =>
        rw [fetchNext_readOperands _ _ _ hj]
        rcases hp.follows r rfl with hh | hh
        · exact absurd hh hj
        · exact hh
    · have hs := hp.stopped
      rw [hcfg, show (admitRecord r s).pcValid = s.pcValid by rw [admit_eq]]
      have hb : (readOperands s r).isBranch = r.isBranch := rfl
      simpa [hb] using hs
    · intro hpred q hq
      rw [hcfg] at hpred
      apply hp.branchLast hpred q
      simpa using hq
  · intro q hq
    apply h.results q
    simpa [admit_eq, executed_eq] using hq

/-! ## Fetch (R168 to R173) -/

theorem Inv.fetching (h : Inv s k) (hF : s.lFD = none) (hv : s.pcValid = true) (i : Instr) :
    Inv (fetched i s k) k := by
  have hp := h.pipeHalf
  rw [hF] at hp
  obtain ⟨q0, hq0, hi0, hpc0, hpt0⟩ : ∃ q, (fetched i s k).lFD = some q ∧ q.instr = i ∧ q.pc = s.pc
      ∧ (i.cls = .branch → s.cfg.predEnabled = true →
        q.predTarget = predictedTarget k s.tables s.pc) := by
    rw [fetched_lFD]
    exact ⟨_, rfl, rfl, rfl, fun h1 h2 => by simp [h1, h2]⟩
  have e := fetched_eq (k := k) i s
  have hcfg : (fetched i s k).cfg = s.cfg := by rw [e]
  have hA : admitted (fetched i s k) = admitted s := by rw [e]; rfl
  refine Inv.of_halves (by rw [hcfg]; exact h.config) (by rw [hcfg]; exact h.noForwarding)
    (by rw [e]; exact h.program) ?_ (by rw [e]; exact h.results)
    (by rw [e]; exact h.memoryHalf.congr rfl rfl rfl rfl rfl rfl rfl h.missAlone)
  have hlast : ∀ q, (admitted s).getLast? = some q → s.pc = fetchNext s.cfg q := hp.followsLast rfl
  have hstop := hp.stopped
  rw [hv] at hstop
  simp only [Option.toList_none, List.append_nil] at hstop
  rw [hA, hq0]
  constructor
  · rw [e]; exact hp.operands
  · exact hp.interlock
  · rw [e]; exact hp.depCounts
  · have hc := hp.chain
    rw [hcfg]
    simp only [Option.toList_some, Option.toList_none, List.append_nil,
      List.isChain_append] at hc ⊢
    refine ⟨hc, List.isChain_singleton _, ?_⟩
    intro q hq q' hq'
    simp only [List.head?_cons, Option.mem_some_iff] at hq'
    subst hq'
    rw [hpc0]
    exact hlast q hq
  · intro q hq
    obtain rfl := Option.some.inj hq
    by_cases hj : i.cls = .jump
    · exact .inl (hi0 ▸ hj)
    · right
      rw [hcfg, show (fetched i s k).pc = if i.cls = .branch ∧ s.cfg.predEnabled = true then
        predictedTarget k s.tables s.pc else s.pc + 4#64 by rw [e]]
      unfold fetchNext
      rw [hi0, hpc0]
      cases hc : i.cls <;> simp only [reduceCtorEq, false_and, if_false, true_and]
      · split
        · next hpr => exact (hpt0 hc hpr).symm
        · rfl
      · exact absurd hc hj
  · intro hn; cases hn
  · rw [hcfg, show (fetched i s k).pcValid = if i.cls = .branch ∧ s.cfg.predEnabled = false then false
      else s.pcValid by rw [e], hv]
    have : q0.isBranch = decide (i.cls = .branch) := by rw [Rec.isBranch, hi0]
    simp only [Option.toList_some, List.getLast?_append, List.getLast?_singleton, Option.some_or,
      Option.any_some, this]
    by_cases hb : i.cls = .branch <;> cases s.cfg.predEnabled <;> simp [hb]
  · intro hpred q hq
    rw [hcfg] at hpred
    simp only [Option.toList_some, List.dropLast_concat] at hq
    have hbl := hp.branchLast hpred
    simp only [Option.toList_none, List.append_nil] at hbl
    rcases List.eq_nil_or_concat (admitted s) with hn | ⟨l, b, hl⟩
    · rw [hn] at hq; cases hq
    · rw [List.concat_eq_append] at hl
      rw [hl] at hq hbl hstop
      rcases List.mem_append.1 hq with hq | hq
      · exact hbl q (by simpa using hq)
      · rw [List.mem_singleton.1 hq]
        simpa [hpred] using hstop

end

end Sys2Proof.Machine
end

