-- ==== Sys2Proof/Laws/Retirement.lean ====
section
/-! SUPPORT. The writeback stage: what a retirement writes, and that it keeps the pipeline invariant
(40_pipeline_control.md R152 to R156, R163, R178, R184). -/

namespace Sys2Proof.Machine

/-! ## Registers -/

theorem readReg_writeReg (k r : Reg) (v : Word) (s : State) :
    readReg (writeReg r v s) k = if k = r ∧ k ≠ 0#5 then v else readReg s k := by
  unfold readReg writeReg
  by_cases hk : k = 0#5
  · simp [hk]
  · by_cases hr : r = 0#5
    · subst hr; simp [hk]
    · by_cases he : k = r
      · subst he; simp [hk, Vector.get_eq_getElem, regIndex]
      · have : r.toNat ≠ k.toNat := fun h => he (BitVec.eq_of_toNat_eq h.symm)
        simp [hk, hr, he, Vector.get_eq_getElem, regIndex, this]

@[simp] theorem readReg_setDep (k r : Reg) (n : Nat) (s : State) :
    readReg (setDep r n s) k = readReg s k := rfl

section
variable (r : Rec) (s : State)

/-- The registers after a retirement (R152). -/
theorem readReg_retire (k : Reg) : readReg (retire r s) k =
    if r.instr.writesRd = true ∧ k = r.instr.rd ∧ k ≠ 0#5 then r.rdVal else readReg s k := by
  unfold retire retireRegister
  by_cases hw : r.instr.writesRd = true ∧ r.instr.rd ≠ 0#5
  · rw [if_pos hw, readReg_setDep, readReg_writeReg]
    by_cases hk : k = r.instr.rd ∧ k ≠ 0#5
    · rw [if_pos hk, if_pos ⟨hw.1, hk⟩]
    · rw [if_neg hk, if_neg (fun h => hk h.2)]
      rfl
  · have : ¬ (r.instr.writesRd = true ∧ k = r.instr.rd ∧ k ≠ 0#5) :=
      fun h => hw ⟨h.1, h.2.1 ▸ h.2.2⟩
    rw [if_neg hw, if_neg this]
    rfl

/-- The counts after a retirement (R163). -/
theorem retire_dep_get (k : Fin 32) :
    (retire r s).dep.get k = s.dep.get k - if writesReg k.val r = true then 1 else 0 := by
  unfold retire retireRegister
  by_cases hw : r.instr.writesRd = true ∧ r.instr.rd ≠ 0#5
  · rw [if_pos hw]
    by_cases hk : r.instr.rd.toNat = k.val
    · have hx : regIndex r.instr.rd = k := Fin.ext hk
      have hwr : (writeReg r.instr.rd r.rdVal (Latch.mw.clear
          { s with stats := { s.stats with numInsts := s.stats.numInsts + 1 } })).dep = s.dep := by
        simp
      simp [writesReg, hw, hk, setDep, depOf, hx, Vector.get_eq_getElem]
    · simp [writesReg, hw, hk, setDep, Vector.get_eq_getElem]
  · rw [if_neg hw]
    have : writesReg k.val r = false := by
      simp only [writesReg, Bool.and_eq_false_iff, decide_eq_false_iff_not]
      by_cases h1 : r.instr.writesRd = true
      · exact .inl (.inr fun h2 => hw ⟨h1, h2⟩)
      · exact .inl (.inl (by simpa using h1))
    simp [this]

/-- A retirement writes registers, counts, L_MW and the counter of retired instructions only. -/
theorem retire_eq : retire r s =
    { s with
      lMW := none
      x := (retire r s).x
      dep := (retire r s).dep
      stats := { s.stats with numInsts := s.stats.numInsts + 1 } } := by
  unfold retire retireRegister writeReg
  split_ifs <;> rfl

end

/-! ## The pipeline half -/

section
variable {s : State} {r : Rec} {k : Collaborators}

/-- Nothing in flight, nothing pending, and fetch may go on. -/
theorem PipeHalf.empty (hd : ∀ k : Fin 32, s.dep.get k = 0) (hv : s.pcValid = true) :
    PipeHalf s [] none where
  operands := by simp
  interlock := .nil
  depCounts := by simpa using hd
  chain := .nil
  follows := by simp
  followsLast := by simp
  stopped := by simp [hv]
  branchLast := by simp

/-- The registers an independent younger record has read keep their value. -/
theorem operandsCurrent_retire {q : Rec} (hi : independent r q = true)
    (h : operandsCurrent s q = true) : operandsCurrent (retire r s) q = true := by
  rw [operandsCurrent_iff] at h ⊢
  simp only [independent, Bool.not_eq_true', Bool.and_eq_false_iff, Bool.or_eq_false_iff,
    decide_eq_false_iff_not] at hi
  have key : ∀ k : Reg, (r.instr.writesRd = true → r.instr.rd ≠ 0#5 → k ≠ r.instr.rd) →
      readReg (retire r s) k = readReg s k := by
    intro k hk
    rw [readReg_retire, if_neg]
    rintro ⟨h1, h2, h3⟩
    exact hk h1 (h2 ▸ h3) h2
  constructor
  · rw [h.1]
    split
    · next hr =>
      rw [key]
      intro h1 h2
      rcases hi with (hi | hi) | hi
      · simp [h1] at hi
      · exact absurd h2 hi
      · rcases hi.1 with hi | hi
        · simp [hr] at hi
        · exact hi
    · rfl
  · rw [h.2]
    split
    · next hr =>
      rw [key]
      intro h1 h2
      rcases hi with (hi | hi) | hi
      · simp [h1] at hi
      · exact absurd h2 hi
      · rcases hi.2 with hi | hi
        · simp [hr] at hi
        · exact hi
    · rfl

theorem PipeHalf.retire {A : List Rec} {F : Option Rec} (h : PipeHalf s (r :: A) F)
    (hb : r.isBranch = false ∨ s.cfg.predEnabled = true) : PipeHalf (retire r s) A F := by
  have hcfg : (Machine.retire r s).cfg = s.cfg := by simp
  have hpc : (Machine.retire r s).pc = s.pc := by simp
  have hi := List.pairwise_cons.1 h.interlock
  constructor
  · intro q hq
    exact operandsCurrent_retire (hi.1 q hq) (h.operands q (List.mem_cons_of_mem _ hq))
  · exact hi.2
  · intro k
    rw [retire_dep_get, h.depCounts k, List.countP_cons]
    omega
  · rw [hcfg]
    have := h.chain
    rw [List.cons_append, List.isChain_cons] at this
    exact this.2
  · rw [hcfg, hpc]; exact h.follows
  · rw [hcfg, hpc]
    intro hF q hq
    apply h.followsLast hF q
    rw [List.getLast?_cons, hq]; rfl
  · rw [hcfg, retire_pcValid, h.stopped, List.cons_append, List.getLast?_cons]
    cases hl : (A ++ F.toList).getLast? with
    | some q => rfl
    | none => rcases hb with hb | hb <;> simp [hb]
  · rw [hcfg]
    intro hp q hq
    apply h.branchLast hp q
    rw [List.cons_append]
    rw [List.dropLast_cons_of_ne_nil (by intro hn; rw [hn] at hq; cases hq)]
    exact List.mem_cons_of_mem _ hq

/-- With prediction off a retiring conditional branch is alone (R191). -/
theorem PipeHalf.branch_alone {A : List Rec} {F : Option Rec} (h : PipeHalf s (r :: A) F)
    (hb : r.isBranch = true) (hp : s.cfg.predEnabled = false) : A = [] ∧ F = none := by
  by_cases hn : A ++ F.toList = []
  · rw [List.append_eq_nil_iff] at hn
    refine ⟨hn.1, ?_⟩
    cases F
    · rfl
    · cases hn.2
  · exfalso
    have := h.branchLast hp r (by
      rw [List.cons_append, List.dropLast_cons_of_ne_nil hn]; exact List.mem_cons_self)
    simp [hb] at this

/-! ## The writeback stage -/

theorem writebackStage_none (h : s.lMW = none) : writebackStage s k = s := by
  simp [writebackStage, h]

theorem writebackStage_plain (h : s.lMW = some r) (hb : r.isBranch = false) :
    writebackStage s k = retire r s := by
  simp [writebackStage, h, hb]

/-- Prediction off (R155, R156). -/
theorem writebackStage_resolved (h : s.lMW = some r) (hb : r.isBranch = true)
    (hp : s.cfg.predEnabled = false) :
    writebackStage s k =
      { countBranch (retire r s) with pc := r.actTarget, pcValid := true } := by
  simp [writebackStage, h, hb, resolveBranch, hp]

/-- Prediction on, the prediction right (R153 to R155). -/
theorem writebackStage_predicted (h : s.lMW = some r) (hb : r.isBranch = true)
    (hp : s.cfg.predEnabled = true) (ht : r.predTarget = r.actTarget) :
    writebackStage s k = callUpdate r (countBranch (retire r s)) k := by
  simp [writebackStage, h, hb, resolveBranch, hp, ht]

/-- Prediction on, the prediction wrong (R153 to R155). -/
theorem writebackStage_mispredicted (h : s.lMW = some r) (hb : r.isBranch = true)
    (hp : s.cfg.predEnabled = true) (ht : r.predTarget ≠ r.actTarget) :
    writebackStage s k = mispredict r (callUpdate r (countBranch (retire r s)) k) := by
  simp [writebackStage, h, hb, resolveBranch, hp, ht]

theorem Inv.no_miss (h : Inv s k) (hw : s.lMW = some r) : s.missInst = none := by
  have := h.missAlone
  cases hm : s.missInst with
  | none => rfl
  | some q => rw [hm, hw] at this; cases this rfl

theorem admitted_cons (hw : s.lMW = some r) :
    admitted s = r :: admitted { s with lMW := none } := by
  simp [admitted_eq, hw]

theorem Inv.retirement (h : Inv s k) : Inv (writebackStage s k) k := by
  cases hw : s.lMW with
  | none => rwa [writebackStage_none hw]
  | some r =>
    have hm := h.no_miss hw
    have hp := h.pipeHalf
    rw [admitted_cons hw] at hp
    have hE : ∀ q ∈ executed { s with lMW := none }, k.execute q = q := by
      intro q hq
      apply h.results q
      rw [executed_eq] at hq ⊢
      exact List.mem_append_right _ hq
    have hM : ∀ t : State, t.cfg = s.cfg → t.blk = s.blk → t.img = s.img →
        t.missInst = s.missInst → t.pendValid = s.pendValid → t.pendAddr = s.pendAddr →
        t.pendSize = s.pendSize → MemoryHalf t :=
      fun t h1 h2 h3 h4 h5 h6 h7 => h.memoryHalf.congr h1 h2 h3 h4 h5 h6 h7 (by simp [hm])
    have hprog : ∀ t : State, t.prog = s.prog → programAdmitted t = true := by
      intro t ht
      have := h.program
      unfold programAdmitted at *
      rwa [ht]
    have plain : (r.isBranch = false ∨ s.cfg.predEnabled = true) →
        ∀ t : State, t = { retire r s with
          stats := t.stats, bht := t.bht, pht := t.pht, btb := t.btb } → Inv t k := by
      intro hb t ht
      have hA : admitted t = admitted { s with lMW := none } := by rw [ht, retire_eq]; rfl
      have hEt : executed t = executed { s with lMW := none } := by rw [ht, retire_eq]; rfl
      have hF : t.lFD = s.lFD := by rw [ht]; simp
      refine Inv.of_halves (by rw [ht]; simpa using h.config)
        (by rw [ht]; simpa using h.noForwarding) (hprog t (by rw [ht]; simp)) ?_
        (by rw [hEt]; exact hE)
        (hM t (by rw [ht]; simp) (by rw [ht]; simp) (by rw [ht]; simp) (by rw [ht]; simp)
          (by rw [ht]; simp) (by rw [ht]; simp) (by rw [ht]; simp))
      rw [hA, hF]
      exact (hp.retire hb).congr (by rw [ht]) (by rw [ht]) (by rw [ht]) (by rw [ht]) (by rw [ht])
    by_cases hb : r.isBranch = true
    · cases hpr : s.cfg.predEnabled with
      | false =>
        obtain ⟨hA0, hF0⟩ := hp.branch_alone hb hpr
        rw [writebackStage_resolved hw hb hpr]
        have hA : admitted { countBranch (retire r s) with pc := r.actTarget, pcValid := true } =
            admitted { s with lMW := none } := by
          unfold countBranch; rw [retire_eq]; rfl
        have hEt : executed { countBranch (retire r s) with pc := r.actTarget, pcValid := true } =
            executed { s with lMW := none } := by
          unfold countBranch; rw [retire_eq]; rfl
        refine Inv.of_halves (by simpa using h.config) (by simpa using h.noForwarding)
          (hprog _ (by simp)) ?_ (by rw [hEt]; exact hE)
          (hM _ (by simp) (by simp) (by simp) (by simp) (by simp) (by simp) (by simp))
        rw [hA, hA0]
        have hFt : ({ countBranch (retire r s) with
            pc := r.actTarget, pcValid := true } : State).lFD = none := by simpa using hF0
        rw [hFt]
        refine PipeHalf.empty ?_ rfl
        intro k
        have := hp.depCounts k
        rw [hA0] at this
        show (retire r s).dep.get k = 0
        rw [retire_dep_get, this]
        simp only [List.countP_singleton]
        split <;> rfl
      | true =>
        by_cases ht : r.predTarget = r.actTarget
        · rw [writebackStage_predicted hw hb hpr ht]
          exact plain (.inr hpr) _ rfl
        · rw [writebackStage_mispredicted hw hb hpr ht]
          have hA : admitted (mispredict r (callUpdate r (countBranch (retire r s)) k)) = [] := by
            rw [admitted_eq]
            simp [mispredict, flush, fuFlush, clearDeps, hm]
          have hEt : executed (mispredict r (callUpdate r (countBranch (retire r s)) k)) = [] := by
            rw [executed_eq]
            simp [mispredict, flush, fuFlush, clearDeps, hm]
          refine Inv.of_halves (by simpa using h.config) (by simpa using h.noForwarding)
            (hprog _ (by simp)) ?_ (by rw [hEt]; simp)
            (hM _ (by simp) (by simp) (by simp) (by simp) (by simp) (by simp) (by simp))
          rw [hA]
          refine PipeHalf.empty ?_ ?_
          · intro k
            simp [mispredict, flush, fuFlush, clearDeps, Vector.get_eq_getElem]
          · have := hp.stopped
            simp [hpr] at this
            simpa using this
    · rw [Bool.not_eq_true] at hb
      rw [writebackStage_plain hw hb]
      exact plain (.inl hb) _ rfl

end

end Sys2Proof.Machine
end

