-- ==== Sys2Proof/Laws/Flow.lean ====
section
/-! SUPPORT. The stages after the memory stage: what execute, decode, fetch and the clock do to a state
that keeps the invariant (40_pipeline_control.md R150, R160 to R173, R180). They always complete, keep
the order of the records, and touch neither registers, memory nor the counters of retirements. -/

namespace Sys2Proof.Machine

/-- What the stages after the memory stage leave alone. -/
structure Calm (s t : State) : Prop where
  cfg : t.cfg = s.cfg
  prog : t.prog = s.prog
  tick : t.tick = s.tick
  x : t.x = s.x
  blk : t.blk = s.blk
  img : t.img = s.img
  acc : t.acc = s.acc
  missInst : t.missInst = s.missInst
  pendValid : t.pendValid = s.pendValid
  pendAddr : t.pendAddr = s.pendAddr
  pendSize : t.pendSize = s.pendSize
  pendTick : t.pendTick = s.pendTick
  bht : t.bht = s.bht
  pht : t.pht = s.pht
  btb : t.btb = s.btb
  lMW : t.lMW = s.lMW
  status : t.status = s.status
  stats : ∃ n, s.stats.numStalls ≤ n ∧ t.stats = { s.stats with numStalls := n }

theorem Calm.rfl (s : State) : Calm s s where
  cfg := Eq.refl _
  prog := Eq.refl _
  tick := Eq.refl _
  x := Eq.refl _
  blk := Eq.refl _
  img := Eq.refl _
  acc := Eq.refl _
  missInst := Eq.refl _
  pendValid := Eq.refl _
  pendAddr := Eq.refl _
  pendSize := Eq.refl _
  pendTick := Eq.refl _
  bht := Eq.refl _
  pht := Eq.refl _
  btb := Eq.refl _
  lMW := Eq.refl _
  status := Eq.refl _
  stats := ⟨s.stats.numStalls, Nat.le_refl _, Eq.refl _⟩

theorem Calm.trans {s t u : State} (h : Calm s t) (k : Calm t u) : Calm s u where
  cfg := k.cfg.trans h.cfg
  prog := k.prog.trans h.prog
  tick := k.tick.trans h.tick
  x := k.x.trans h.x
  blk := k.blk.trans h.blk
  img := k.img.trans h.img
  acc := k.acc.trans h.acc
  missInst := k.missInst.trans h.missInst
  pendValid := k.pendValid.trans h.pendValid
  pendAddr := k.pendAddr.trans h.pendAddr
  pendSize := k.pendSize.trans h.pendSize
  pendTick := k.pendTick.trans h.pendTick
  bht := k.bht.trans h.bht
  pht := k.pht.trans h.pht
  btb := k.btb.trans h.btb
  lMW := k.lMW.trans h.lMW
  status := k.status.trans h.status
  stats := by
    obtain ⟨n, hn, en⟩ := h.stats
    obtain ⟨m, hm, em⟩ := k.stats
    rw [en] at hm
    exact ⟨m, Nat.le_trans hn hm, by rw [em, en]⟩

/-- What identifies a record on its way: no stage changes it (R110). -/
def Rec.tag (r : Rec) : Instr × Word × Word := (r.instr, r.pc, r.predTarget)

/-- The records in flight by tag, oldest first. -/
def tags (s : State) : List (Instr × Word × Word) := (inFlight s).map Rec.tag

theorem tag_execute (k : Collaborators) (r : Rec) : (k.execute r).tag = r.tag := by simp [Rec.tag]

theorem tags_eq (s : State) : tags s =
    (s.lMW.toList ++ (s.missInst.toList ++ (s.lXM.toList ++ (s.fuInst.toList ++
      (s.lDX.toList ++ s.lFD.toList))))).map Rec.tag := by
  simp [tags, inFlight, admitted_eq]

/-- How many ticks the oldest record needs at most to come to L_MW while no miss is outstanding. -/
def wait (s : State) : Nat :=
  if s.lXM.isSome then s.cfg.memLatency + 2
  else if s.fuInst.isSome then (s.fuExit - s.tick) + s.cfg.memLatency + 3
  else if s.lDX.isSome then s.cfg.memLatency + 6
  else if s.lFD.isSome then s.cfg.memLatency + 7
  else s.cfg.memLatency + 8

section
variable {s : State} {k : Collaborators}

/-- Execute (R160): it completes, and the records it moves keep their order. -/
theorem execute_step (h : Inv s k) (hr : s.status = .running) : ∃ t, executeStage s k = .next t ∧ Inv t k
    ∧ Calm s t ∧ tags t = tags s ∧ t.lFD = s.lFD ∧ t.dep = s.dep ∧ t.pc = s.pc
    ∧ t.pcValid = s.pcValid
    ∧ (s.lXM = none → s.fuInst = none → s.lDX = none → t = s)
    ∧ (s.lXM = none → s.fuInst.isSome ∨ s.lDX.isSome → (t.lXM.isSome ∨
        t.fuInst.isSome) ∧ wait { t with tick := s.tick + 1 } < wait s) := by
  cases hx : s.lXM with
  | some q =>
    exact ⟨s, executeStage_blocked hx, h, .rfl s, rfl, rfl, rfl, rfl, rfl, by simp, by simp⟩
  | none =>
    cases hf : s.fuInst with
    | none =>
      cases hd : s.lDX with
      | none =>
        exact ⟨s, executeStage_idle hx hf hd hr, h, .rfl s, rfl, rfl, rfl, rfl, rfl, by simp, by simp⟩
      | some r =>
        refine ⟨_, executeStage_issue hx hf hd hr, h.issuing hx hf hd _, ?_, ?_, rfl, rfl, rfl, rfl,
          by simp, ?_⟩
        · exact { Calm.rfl s with }
        · simp [tags_eq, hx, hf, hd, tag_execute]
        · have := lat_le r.instr
          simp only [wait, hx, hf, hd]
          simp
          omega
    | some r =>
      by_cases he : s.fuExit ≤ s.tick
      · refine ⟨_, executeStage_output hx hf he hr, h.delivery hx hf, ?_, ?_, rfl, rfl, rfl, rfl,
          by simp, ?_⟩
        · exact { Calm.rfl s with }
        · simp [tags_eq, hx, hf]
        · simp [wait, hx, hf]
      · refine ⟨s, executeStage_wait hx hf (by omega) hr, h, .rfl s, rfl, rfl, rfl, rfl, rfl,
          by simp, ?_⟩
        simp [wait, hx, hf]
        omega

/-- Decode (R165, R167): it completes. -/
theorem decode_step (h : Inv s k) (hr : s.status = .running) : ∃ t, decodeStage s = .next t ∧ Inv t k
    ∧ Calm s t ∧ tags t = tags s ∧ t.lXM = s.lXM ∧ t.fuInst = s.fuInst ∧ t.fuExit = s.fuExit
    ∧ t.pcValid = s.pcValid ∧ (s.lFD = none → t = s)
    ∧ (admitted s = [] → s.lFD.isSome → t.lDX.isSome) := by
  have stay : ∀ hd : s.lFD = none ∨ admitted s ≠ [], Inv s k ∧ Calm s s ∧ tags s = tags s
      ∧ s.lXM = s.lXM ∧ s.fuInst = s.fuInst ∧ s.fuExit = s.fuExit
      ∧ s.pcValid = s.pcValid ∧ (s.lFD = none → s = s)
      ∧ (admitted s = [] → s.lFD.isSome → s.lDX.isSome) := by
    intro hd
    refine ⟨h, .rfl s, rfl, rfl, rfl, rfl, rfl, fun _ => rfl, ?_⟩
    intro h1 h2
    rcases hd with hd | hd
    · simp [hd] at h2
    · exact absurd h1 hd
  obtain hF | ⟨r, hF⟩ := Option.eq_none_or_eq_some s.lFD
  · exact ⟨s, decodeStage_empty hF, stay (.inl hF)⟩
  obtain hX | ⟨q, hX⟩ := Option.eq_none_or_eq_some s.lDX
  · by_cases hd : hasDependency s r.instr = true
    · refine ⟨s, decodeStage_stall hF hd, stay (.inr ?_)⟩
      intro hn
      have : ∀ x : Reg, depOf s x = 0 := fun x => (dep_eq_zero_iff h x).2 (by simp [hn])
      simp [hasDependency, this] at hd
    · rw [Bool.not_eq_true] at hd
      refine ⟨_, decodeStage_admit hF hX hd hr, h.admission hF hX hd, ?_⟩
      rw [admit_eq]
      refine ⟨{ Calm.rfl s with }, ?_, rfl, rfl, rfl, rfl, by simp [hF], by simp⟩
      simp [tags_eq, hF, hX, Rec.tag]
  · exact ⟨s, decodeStage_blocked hX, stay (.inr (by simp [admitted_eq, hX]))⟩

/-- Fetch (R168 to R173): it completes when the source delivers admitted records only. -/
theorem fetch_step (h : Inv s k) {src : Word → Delivery}
    (hs : ∀ w, src s.pc ≠ .unadmitted w) : ∃ t, fetchStage src s k = .next t ∧ Inv t k
    ∧ Calm s t ∧ (∃ L, tags t = tags s ++ L) ∧ t.lXM = s.lXM ∧ t.fuInst = s.fuInst
    ∧ t.fuExit = s.fuExit ∧ t.lDX = s.lDX
    ∧ (∀ i, s.lFD = none → s.pcValid = true → src s.pc = .instr i → ∃ p, tags t = tags s ++ [(i, s.pc, p)]
        ∧ (i.cls = .branch → s.cfg.predEnabled = true → p = predictedTarget k s.tables s.pc)
        ∧ t.lFD.isSome = true) := by
  by_cases hg : s.lFD ≠ none ∨ s.pcValid = false
  · refine ⟨_, fetchStage_stall src hg, h.irrelevant (by simp [countStall]), ?_, ⟨[], ?_⟩, rfl, rfl, rfl,
      rfl, ?_⟩
    · exact { Calm.rfl s with stats := ⟨s.stats.numStalls + 1, Nat.le_succ _, rfl⟩ }
    · simp [tags_eq]
    · intro i h1 h2
      rcases hg with hg | hg
      · exact absurd h1 hg
      · simp [hg] at h2
  · have hF : s.lFD = none := by
      cases hF : s.lFD
      · rfl
      · exact absurd (.inl (by simp [hF])) hg
    have hv : s.pcValid = true := by
      cases hv : s.pcValid
      · exact absurd (.inr hv) hg
      · rfl
    cases hsrc : src s.pc with
    | nothing =>
      exact ⟨s, fetchStage_nothing hF hv hsrc, h, .rfl s, ⟨[], by simp⟩, rfl, rfl, rfl, rfl,
        by simp⟩
    | unadmitted w => exact absurd hsrc (hs w)
    | instr i =>
      refine ⟨_, fetchStage_instr hF hv hsrc, h.fetching hF hv i, ?_⟩
      have key : ∃ p, tags (fetched i s k) = tags s ++ [(i, s.pc, p)]
          ∧ (i.cls = .branch → s.cfg.predEnabled = true → p = predictedTarget k s.tables s.pc)
          ∧ (fetched i s k).lFD.isSome = true := by
        refine ⟨if i.cls = .branch ∧ s.cfg.predEnabled = true then
          predictedTarget k s.tables s.pc else 0#64, ?_, ?_,
          by rw [fetched_lFD]; rfl⟩
        · rw [fetched_eq, tags_eq, fetched_lFD, tags_eq]
          simp only [hF, Option.toList_some, Option.toList_none, List.append_nil, List.map_append,
            List.append_assoc, List.map_cons, List.map_nil]
          rfl
        · intro h1 h2
          simp [h1, h2]
      rw [fetched_eq] at *
      refine ⟨{ Calm.rfl s with }, ?_, rfl, rfl, rfl, rfl, ?_⟩
      · obtain ⟨p, hp, -⟩ := key
        exact ⟨_, hp⟩
      · intro j _ _ hj
        cases hj
        exact key

/-! ## From the memory stage to the end of the tick -/

/-- The stages after the memory stage, and the clock. -/
def afterMemory (src : Word → Delivery) (s : State) (k : Collaborators := .reference) : Answer :=
  andThen (executeStage s k) fun s2 =>
    andThen (decodeStage s2) fun s3 =>
      andThen (fetchStage src s3 k) fun s4 => .next (endOfTick s4)

theorem restOfTickFrom_eq (src : Word → Delivery) (s : State) :
    restOfTickFrom src s k = andThen (memoryStage s) fun t => afterMemory src t k := rfl

theorem drained_of_tags (s : State) : drained s = true ↔ tags s = [] := by
  simp only [drained, tags_eq]
  cases s.lMW <;> cases s.missInst <;> cases s.lXM <;> cases s.fuInst <;> cases s.lDX <;>
    cases s.lFD <;> simp

theorem Inv.clock (h : Inv s k) : Inv (endOfTick s) k := by
  refine h.irrelevant ?_
  unfold endOfTick
  split <;> rfl

theorem tags_endOfTick (s : State) : tags (endOfTick s) = tags s := by
  unfold endOfTick; split <;> rfl

theorem wait_endOfTick (s : State) : wait (endOfTick s) = wait { s with tick := s.tick + 1 } := by
  unfold endOfTick; split <;> rfl

/-- While the unit or L_XM holds a record, decode and fetch change no bound. -/
theorem wait_congr {s t : State} (hc : t.cfg = s.cfg) (hk : t.tick = s.tick) (hx : t.lXM = s.lXM)
    (hf : t.fuInst = s.fuInst) (he : t.fuExit = s.fuExit)
    (h : s.lXM.isSome = true ∨ s.fuInst.isSome = true) : wait t = wait s := by
  unfold wait
  rw [hc, hk, hx, hf, he]
  rcases h with h | h
  · rw [if_pos h, if_pos h]
  · rw [if_pos h, if_pos h]

/-- The rest of a tick completes, keeps the invariant and the order of the records, appends at most
what it fetches, and brings the oldest record closer to L_MW. -/
theorem after_memory (h : Inv s k) (hr : s.status = .running) {src : Word → Delivery}
    (hs : ∀ pc w, src pc ≠ .unadmitted w) :
    ∃ t, afterMemory src s k = .next (endOfTick t) ∧ Inv (endOfTick t) k ∧ Calm s t
      ∧ (∃ L, tags t = tags s ++ L)
      ∧ (s.lXM = none → s.missInst = none → s.lMW = none → tags s ≠ [] →
          wait (endOfTick t) < wait s)
      ∧ (∀ i, tags s = [] → s.pcValid = true → src s.pc = .instr i →
          (∃ p, tags t = [(i, s.pc, p)]
            ∧ (i.cls = .branch → s.cfg.predEnabled = true → p = predictedTarget k s.tables s.pc))
          ∧ t.lXM = none ∧ t.fuInst = none ∧ t.lDX = none) := by
  obtain ⟨t1, e1, i1, c1, g1, f1, -, p1, v1, n1, w1⟩ := execute_step h hr
  have r1 : t1.status = .running := c1.status.trans hr
  obtain ⟨t2, e2, i2, c2, g2, x2, u2, y2, v2, n2, w2⟩ := decode_step i1 r1
  have r2 : t2.status = .running := c2.status.trans r1
  obtain ⟨t3, e3, i3, c3, ⟨L, g3⟩, x3, u3, y3, d3, n3⟩ := fetch_step i2 (hs t2.pc)
  have r3 : t3.status = .running := c3.status.trans r2
  refine ⟨t3, ?_, i3.clock, (c1.trans c2).trans c3, ⟨L, by rw [g3, g2, g1]⟩, ?_, ?_⟩
  · rw [afterMemory, e1, andThen_running r1, e2, andThen_running r2, e3, andThen_running r3]
  · intro hx hm hw hne
    rw [wait_endOfTick]
    by_cases hb : s.fuInst.isSome = true ∨ s.lDX.isSome = true
    · obtain ⟨h1, h2⟩ := w1 hx hb
      refine lt_of_eq_of_lt ?_ h2
      refine wait_congr (s := { t1 with tick := s.tick + 1 }) (c2.trans c3).cfg ?_ (x3.trans x2)
        (u3.trans u2) (y3.trans y2) h1
      show t3.tick + 1 = s.tick + 1
      rw [((c1.trans c2).trans c3).tick]
    · have hf : s.fuInst = none := by
        cases hq : s.fuInst with
        | none => rfl
        | some q => exact absurd (.inl (by simp [hq])) hb
      have hd : s.lDX = none := by
        cases hq : s.lDX with
        | none => rfl
        | some q => exact absurd (.inr (by simp [hq])) hb
      obtain rfl := n1 hx hf hd
      have hF : t1.lFD.isSome = true := by
        cases hq : t1.lFD with
        | some q => rfl
        | none => exact absurd (by simp [tags_eq, hx, hm, hw, hf, hd, hq]) hne
      have hdx := w2 (by simp [admitted_eq, hx, hm, hw, hf, hd]) hF
      have hcfg : t3.cfg = t1.cfg := (c2.trans c3).cfg
      simp [wait, x3, x2, hx, u3, u2, hf, d3, hdx, hd, hF, hcfg]
  · intro i hne hv hi
    have hnil : s.lMW = none ∧ s.missInst = none ∧ s.lXM = none ∧ s.fuInst = none ∧ s.lDX = none
        ∧ s.lFD = none := by
      rw [tags_eq] at hne
      revert hne
      cases s.lMW <;> cases s.missInst <;> cases s.lXM <;> cases s.fuInst <;> cases s.lDX <;>
        cases s.lFD <;> simp
    obtain ⟨-, -, hx, hf, hd, hF⟩ := hnil
    obtain rfl := n1 hx hf hd
    obtain rfl := n2 hF
    obtain ⟨p, hp, hb, -⟩ := n3 i hF hv hi
    exact ⟨⟨p, by rw [hp, hne]; rfl, hb⟩, x3.trans hx, u3.trans hf, d3.trans hd⟩

end

end Sys2Proof.Machine
end

