-- ==== Sys2Proof/Laws/Access.lean ====
section
/-! SUPPORT. A completed access of the cache: what a read hit and a write hit do to the block, the
coherent memory, the record and the counters (20_memory.md R76 to R80, R85, R86, R89). -/

namespace Sys2Proof.Machine

theorem accessBytes_cases {i : Instr} (h : i.cls = .load ∨ i.cls = .store) :
    i.accessBytes = 1 ∨ i.accessBytes = 2 ∨ i.accessBytes = 4 ∨ i.accessBytes = 8 := by
  cases i <;> first
    | (exfalso; revert h; simp [Instr.cls]; done)
    | simp [Instr.accessBytes]

/-- Blocks equal, blocks consistent. -/
theorem blockConsistent_of_blkAt {s t : State} (hc : t.cfg = s.cfg) (hi : t.img = s.img) {set : Nat}
    (hb : blkAt t set 0 = blkAt s set 0) : blockConsistent t set = blockConsistent s set := by
  simp [blockConsistent, hc, hi, hb]

theorem coherentByte_of_blkAt {s t : State} (hc : t.cfg = s.cfg) (hi : t.img = s.img)
    (hb : ∀ set, blkAt t set 0 = blkAt s set 0) (a : Nat) : coherentByte t a = coherentByte s a := by
  simp [coherentByte, isHit, blockOf, hc, hi, hb]

theorem isHit_of_blkAt {s t : State} (hc : t.cfg = s.cfg)
    (hb : ∀ set, blkAt t set 0 = blkAt s set 0) (a : Nat) : isHit t a = isHit s a := by
  simp [isHit, blockOf, hc, hb]

/-- A completed access of record `r`, from `s` to `t`, the record then being `q`. -/
structure Accessed (r : Rec) (s t : State) (q : Rec) : Prop where
  frame : t = { s with blk := t.blk, stats := t.stats }
  stats : t.stats = { s.stats with
    numAccesses := s.stats.numAccesses + 1
    numLoads := s.stats.numLoads + if r.instr.cls = .load then 1 else 0
    numStores := s.stats.numStores + if r.instr.cls = .store then 1 else 0 }
  record : q = { r with
    rdVal := if r.instr.cls = .load then
      loadValue r.instr (coherentLE s r.memAddr.toNat r.instr.accessBytes) else r.rdVal }
  coherent : ∀ b, coherentByte t b =
    if r.instr.cls = .store ∧ r.memAddr.toNat ≤ b ∧ b < r.memAddr.toNat + r.instr.accessBytes then
      byteOf r.rs2Val (b - r.memAddr.toNat)
    else coherentByte s b
  present : ∀ b, isHit t b = isHit s b
  blocks : ∀ set < numSets t.cfg, blockConsistent t set = true
  others : ∀ set, set ≠ setIndex s.cfg r.memAddr.toNat → blkAt t set 0 = blkAt s set 0
  dirty : (blockOf t r.memAddr.toNat).dirty =
    (decide (r.instr.cls = .store) || (blockOf s r.memAddr.toNat).dirty)

section
variable {s : State} {r : Rec}

theorem loadHit_accessed (g : GeometryFacts s.cfg)
    (hb : ∀ set < numSets s.cfg, blockConsistent s set = true) (hc : r.instr.cls = .load)
    (ha : r.memAddr.toNat % r.instr.accessBytes = 0) (hit : isHit s r.memAddr.toNat = true) :
    Accessed r s (loadHit r s).1 (loadHit r s).2 where
  frame := rfl
  stats := by simp [loadHit, countLoad, hc]
  record := by simp [loadHit, hc, memRead_eq_coherentLE g (accessBytes_cases (.inl hc)) ha hit]
  coherent := by
    intro b
    simp only [hc, reduceCtorEq, false_and, if_false]
    exact coherentByte_updateBlock (s := s) (a := r.memAddr.toNat)
      (f := fun b => { b with lastAccess := s.tick }) g.waysPos (fun _ => ⟨rfl, rfl, rfl⟩) b
  present := fun b => isHit_updateBlock (s := s) (a := r.memAddr.toNat)
      (f := fun b => { b with lastAccess := s.tick }) g.waysPos (fun _ => ⟨rfl, rfl⟩) b
  blocks := blockConsistent_updateBlock (s := s) (a := r.memAddr.toNat)
      (f := fun b => { b with lastAccess := s.tick }) g.waysPos (fun _ => ⟨rfl, rfl⟩)
      (fun _ => .inr ⟨rfl, rfl⟩) hb
  others := by
    intro set hset
    exact (blkAt_updateBlock (s := s) (a := r.memAddr.toNat)
      (f := fun b => { b with lastAccess := s.tick }) g.waysPos set).trans (if_neg hset)
  dirty := by
    have := blkAt_updateBlock (s := s) (a := r.memAddr.toNat)
      (f := fun b => { b with lastAccess := s.tick }) g.waysPos (setIndex s.cfg r.memAddr.toNat)
    rw [if_pos rfl] at this
    simp only [hc, reduceCtorEq, decide_false, Bool.false_or]
    have hd := congrArg Block.dirty this
    exact hd

/-- The block after a write hit (R76, R80, R86). -/
def storedBlock (r : Rec) (s : State) (b : Block) : Block :=
  { b with
    lastAccess := s.tick
    data := b.data.writeLE (offsetOf s.cfg r.memAddr.toNat) r.instr.accessBytes r.rs2Val
    dirty := true }

theorem blkAt_storeHit (g : GeometryFacts s.cfg) (set : Nat) :
    blkAt (storeHit r s).1 set 0 =
      blkAt (updateBlock r.memAddr.toNat (storedBlock r s) s) set 0 := by
  have e : ∀ u : State, blkAt (countStore u) set 0 = blkAt u set 0 := fun _ => rfl
  have w : ∀ (a : Nat) (f : Block → Block) (u : State), u.cfg = s.cfg → ∀ τ,
      blkAt (updateBlock a f u) τ 0 =
        if τ = setIndex s.cfg a then f (blkAt u (setIndex s.cfg a) 0) else blkAt u τ 0 := by
    intro a f u hu τ
    rw [blkAt_updateBlock (by rw [hu]; exact g.waysPos), hu, blockOf, hu]
  simp only [storeHit, e, dirtyBlock, memWrite, touchBlock]
  simp only [w _ _ s rfl, w _ _ (updateBlock _ _ s) (updateBlock_cfg ..),
    w _ _ (updateBlock _ _ (updateBlock _ _ s)) (updateBlock_cfg ..), updateBlock_cfg, if_true]
  split <;> rfl

theorem storeHit_coherent (g : GeometryFacts s.cfg) (hc : r.instr.cls = .store)
    (ha : r.memAddr.toNat % r.instr.accessBytes = 0) (hit : isHit s r.memAddr.toNat = true) (b : Nat) :
    coherentByte (storeHit r s).1 b =
      if r.memAddr.toNat ≤ b ∧ b < r.memAddr.toNat + r.instr.accessBytes then
        byteOf r.rs2Val (b - r.memAddr.toNat)
      else coherentByte s b := by
  have w := g.waysPos
  have e : ∀ u : State, coherentByte (countStore u) b = coherentByte u b := fun _ => rfl
  simp only [storeHit, e]
  rw [dirtyBlock, coherentByte_updateBlock (f := fun b => { b with dirty := true })
    (by simpa using w) (fun _ => ⟨rfl, rfl, rfl⟩)]
  have hit' : isHit (touchBlock r.memAddr.toNat s) r.memAddr.toNat = true := by
    rw [touchBlock, isHit_updateBlock (f := fun b => { b with lastAccess := s.tick }) w
      (fun _ => ⟨rfl, rfl⟩)]
    exact hit
  rw [coherentByte_memWrite (s := touchBlock r.memAddr.toNat s) (by simpa using g) r.rs2Val
    (accessBytes_cases (.inr hc)) ha hit']
  rw [touchBlock, coherentByte_updateBlock (f := fun b => { b with lastAccess := s.tick }) w
    (fun _ => ⟨rfl, rfl, rfl⟩)]

theorem updates_frame (a b c : Nat) (f1 f2 f3 : Block → Block) (s : State) :
    countStore (updateBlock a f1 (updateBlock b f2 (updateBlock c f3 s))) =
      { s with
        blk := (countStore (updateBlock a f1 (updateBlock b f2 (updateBlock c f3 s)))).blk
        stats := (countStore (updateBlock a f1 (updateBlock b f2 (updateBlock c f3 s)))).stats } :=
  rfl

theorem storeHit_frame (r : Rec) (s : State) :
    (storeHit r s).1 = { s with blk := (storeHit r s).1.blk, stats := (storeHit r s).1.stats } := by
  unfold storeHit dirtyBlock memWrite touchBlock
  exact updates_frame _ _ _ _ _ _ s

theorem storeHit_accessed (g : GeometryFacts s.cfg)
    (hb : ∀ set < numSets s.cfg, blockConsistent s set = true) (hc : r.instr.cls = .store)
    (ha : r.memAddr.toNat % r.instr.accessBytes = 0) (hit : isHit s r.memAddr.toNat = true) :
    Accessed r s (storeHit r s).1 (storeHit r s).2 := by
  have hcfg : (storeHit r s).1.cfg = s.cfg := by simp [storeHit]
  have himg : (storeHit r s).1.img = s.img := by simp [storeHit]
  refine ⟨storeHit_frame r s, ?_, ?_, ?_, ?_, ?_, ?_, ?_⟩
  · simp [storeHit, countStore, hc]
  · simp [storeHit, hc]
  · intro b
    simp only [hc, true_and]
    exact storeHit_coherent g hc ha hit b
  · intro b
    rw [isHit_of_blkAt (s := updateBlock r.memAddr.toNat (storedBlock r s) s) hcfg
      (blkAt_storeHit g)]
    exact isHit_updateBlock (f := storedBlock r s) g.waysPos (fun _ => ⟨rfl, rfl⟩) b
  · intro set hset
    rw [blockConsistent_of_blkAt (s := updateBlock r.memAddr.toNat (storedBlock r s) s) hcfg himg
      (blkAt_storeHit g set)]
    rw [hcfg] at hset
    exact blockConsistent_updateBlock (f := storedBlock r s) g.waysPos (fun _ => ⟨rfl, rfl⟩)
      (fun _ => .inl rfl) hb set hset
  · intro set hset
    rw [blkAt_storeHit g, blkAt_updateBlock g.waysPos, if_neg hset]
  · rw [blockOf, hcfg, blkAt_storeHit g, blkAt_updateBlock g.waysPos, if_pos rfl]
    simp [storedBlock, hc]

theorem performHit_accessed (g : GeometryFacts s.cfg)
    (hb : ∀ set < numSets s.cfg, blockConsistent s set = true)
    (hc : r.instr.cls = .load ∨ r.instr.cls = .store)
    (ha : r.memAddr.toNat % r.instr.accessBytes = 0) (hit : isHit s r.memAddr.toNat = true) :
    Accessed r s (performHit r s).1 (performHit r s).2 := by
  rcases hc with hc | hc <;> simp only [performHit, hc]
  · exact loadHit_accessed g hb hc ha hit
  · exact storeHit_accessed g hb hc ha hit

end

end Sys2Proof.Machine
end

