-- ==== Sys2Proof/Laws/Predictor.lean ====
section
/-! SUPPORT. The predictor tables: every write keeps a table's sizes and its canonical form, and every read
stays within them (10_state.md R31, 40_pipeline_control.md R175). -/

namespace Sys2Proof.Machine

/-! ## One table -/

section
variable (t : Table) (k v j : Nat)

@[simp] theorem Table.write_entries : (t.write k v).entries = t.entries := by
  unfold Table.write; split <;> rfl
@[simp] theorem Table.write_width : (t.write k v).width = t.width := by
  unfold Table.write; split <;> rfl

/-- A read after a write: the value at its width, at an entry the table has. -/
theorem Table.read_write : (t.write k v).read j =
    if j = k ∧ k < t.entries then v % 2 ^ t.width else t.read j := by
  unfold Table.read
  rw [write_entries, write_width]
  unfold Table.write
  by_cases hk : k < t.entries
  · rw [if_pos hk]
    by_cases hj : j = k
    · subst hj; simp [hk, Sparse.get_put_self]
    · simp [hj, Sparse.get_put_of_ne]
  · simp [hk]

theorem Table.read_lt : t.read k < 2 ^ t.width := by
  unfold Table.read
  split
  · exact Nat.mod_lt _ (Nat.two_pow_pos _)
  · exact Nat.two_pow_pos _

theorem Table.read_past (h : t.entries ≤ k) : t.read k = 0 := if_neg (Nat.not_lt.2 h)

/-- In the canonical form a read is the listed entry. -/
theorem Table.read_of_wf {t : Table} (h : t.wf = true) (k : Nat) :
    t.read k = Sparse.get 0 t.cells k := by
  simp only [Table.wf, Bool.and_eq_true, List.all_eq_true, decide_eq_true_eq] at h
  unfold Table.read Sparse.get
  cases hf : Sparse.find? t.cells k with
  | none => simp
  | some w =>
    have hw := h.2 _ (Sparse.mem_of_find? hf)
    simp only at hw
    rw [if_pos hw.1]
    exact Nat.mod_eq_of_lt hw.2

/-- Every write keeps the canonical form. -/
theorem Table.wf_write {t : Table} (h : t.wf = true) (k v : Nat) : (t.write k v).wf = true := by
  simp only [Table.wf, Bool.and_eq_true, List.all_eq_true, decide_eq_true_eq] at h ⊢
  unfold Table.write
  split
  · next hk =>
    refine ⟨Sparse.wf_put h.1 _ _, fun p hp => ?_⟩
    rcases Sparse.mem_put hp with rfl | hp
    · exact ⟨hk, Nat.mod_lt _ (Nat.two_pow_pos _)⟩
    · exact h.2 p hp
  · exact h

end

/-! ## The three tables -/

/-- Everything the writes of an `Update` leave as it is. -/
structure SameSizes (t u : Tables) : Prop where
  bhtEntries : u.bht.entries = t.bht.entries
  bhtWidth : u.bht.width = t.bht.width
  phtEntries : u.pht.entries = t.pht.entries
  phtWidth : u.pht.width = t.pht.width
  btbEntries : u.btb.entries = t.btb.entries
  btbWidth : u.btb.width = t.btb.width

theorem sameSizes_write (t : Tables) (w : TableWrite) : SameSizes t (t.write w) := by
  unfold Tables.write
  cases w.table <;> constructor <;> simp

theorem sameSizes_writes (t : Tables) (ws : List TableWrite) : SameSizes t (t.writes ws) := by
  induction ws generalizing t with
  | nil => exact ⟨rfl, rfl, rfl, rfl, rfl, rfl⟩
  | cons w ws ih =>
    have a := sameSizes_write t w
    have b : SameSizes (t.write w) ((t.write w).writes ws) := ih (t.write w)
    exact ⟨b.1.trans a.1, b.2.trans a.2, b.3.trans a.3, b.4.trans a.4, b.5.trans a.5, b.6.trans a.6⟩

/-- The canonical form of the three tables. -/
structure TablesWf (t : Tables) : Prop where
  bht : t.bht.wf = true
  pht : t.pht.wf = true
  btb : t.btb.wf = true

theorem TablesWf.write {t : Tables} (h : TablesWf t) (w : TableWrite) : TablesWf (t.write w) := by
  unfold Tables.write
  cases w.table
  · exact ⟨Table.wf_write h.bht _ _, h.pht, h.btb⟩
  · exact ⟨h.bht, Table.wf_write h.pht _ _, h.btb⟩
  · exact ⟨h.bht, h.pht, Table.wf_write h.btb _ _⟩

theorem TablesWf.writes {t : Tables} (h : TablesWf t) (ws : List TableWrite) :
    TablesWf (t.writes ws) := by
  induction ws generalizing t with
  | nil => exact h
  | cons w ws ih => exact ih (h.write w)

/-! ## `Update` -/

@[simp] theorem writeTables_tables (s : State) (ws : List TableWrite) :
    (s.writeTables ws).tables = s.tables.writes ws := rfl

@[simp] theorem writeTables_nil (s : State) : s.writeTables [] = s := rfl

theorem callUpdate_tables (r : Rec) (s : State) (k : Collaborators) :
    (callUpdate r s k).tables = s.tables.writes (k.update r s.tables) := rfl

theorem callUpdate_sizes (r : Rec) (s : State) (k : Collaborators) :
    SameSizes s.tables (callUpdate r s k).tables := sameSizes_writes _ _

end Sys2Proof.Machine
end

