-- ==== Sys2Proof/Laws/Canonical.lean ====
section
/-! SUPPORT. Every memory operation keeps the canonical form of the image, the accessed flags and the
block array; registers, latches and counters have no part in it. -/

namespace Sys2Proof.Machine

/-- The canonical form, as its parts. -/
structure CanonicalParts (s : State) : Prop where
  img : Memory.wf s.img = true
  acc : Sparse.wf false s.acc = true
  blk : Sparse.wf ({} : Block) s.blk = true
  data : ∀ p ∈ s.blk, Memory.wf p.2.data = true
  prog : Sparse.rising s.prog = true
  tables : TablesWf s.tables

theorem canonical_iff (s : State) : canonical s = true ↔ CanonicalParts s := by
  unfold canonical
  simp only [Bool.and_eq_true, List.all_eq_true]
  exact ⟨fun ⟨⟨⟨⟨⟨⟨⟨h1, h2⟩, h3⟩, h4⟩, h5⟩, h6⟩, h7⟩, h8⟩ => ⟨h1, h2, h3, h4, h5, h6, h7, h8⟩,
    fun h => ⟨⟨⟨⟨⟨⟨⟨h.img, h.acc⟩, h.blk⟩, h.data⟩, h.prog⟩, h.tables.bht⟩, h.tables.pht⟩, h.tables.btb⟩⟩

section
variable {s t : State}

theorem CanonicalParts.congr (h : CanonicalParts s) (h1 : t.img = s.img) (h2 : t.acc = s.acc)
    (h3 : t.blk = s.blk) (h4 : t.prog = s.prog) (h5 : t.tables = s.tables) :
    CanonicalParts t :=
  ⟨h1 ▸ h.img, h2 ▸ h.acc, h3 ▸ h.blk, h3 ▸ h.data, h4 ▸ h.prog, h5 ▸ h.tables⟩

theorem CanonicalParts.blkAt (h : CanonicalParts s) (set way : Nat) :
    Memory.wf (Machine.blkAt s set way).data = true := by
  unfold Machine.blkAt Sparse.get
  cases hf : Sparse.find? s.blk (set * s.cfg.ways + way) with
  | none => rfl
  | some b => exact h.data _ (Sparse.mem_of_find? hf)

theorem CanonicalParts.setBlk (h : CanonicalParts s) (set way : Nat) {b : Block}
    (hb : Memory.wf b.data = true) : CanonicalParts (Machine.setBlk set way b s) where
  img := h.img
  acc := h.acc
  blk := Sparse.wf_put h.blk _ _
  data := by
    intro p hp
    rcases Sparse.mem_put hp with rfl | hp
    · exact hb
    · exact h.data p hp
  prog := h.prog
  tables := h.tables

theorem CanonicalParts.updateBlock (h : CanonicalParts s) (a : Nat) {f : Block → Block}
    (hf : ∀ b, Memory.wf b.data = true → Memory.wf (f b).data = true) :
    CanonicalParts (Machine.updateBlock a f s) :=
  h.setBlk _ _ (hf _ (h.blkAt _ _))

theorem CanonicalParts.markAccessed (h : CanonicalParts s) (k n : Nat) :
    CanonicalParts (Machine.markAccessed k n s) := by
  induction n generalizing k s with
  | zero => exact h
  | succ n ih =>
    exact ih (s := { s with acc := Sparse.put false s.acc k true })
      ⟨h.img, Sparse.wf_put h.acc k true, h.blk, h.data, h.prog, h.tables⟩ _

theorem CanonicalParts.imgWriteBlock (h : CanonicalParts s) (a : Nat) (d : Memory) :
    CanonicalParts (Machine.imgWriteBlock a d s) :=
  ⟨Memory.wf_copy h.img _ _ _ _, h.acc, h.blk, h.data, h.prog, h.tables⟩

theorem CanonicalParts.writeBackVictim (h : CanonicalParts s) (a : Nat) :
    CanonicalParts (Machine.writeBackVictim a s) := by
  unfold Machine.writeBackVictim
  split
  · exact (h.imgWriteBlock _ _).congr rfl rfl rfl rfl rfl
  · exact h

theorem wf_responseData (s : State) : Memory.wf (responseData s) = true :=
  Memory.wf_copy rfl _ _ _ _

theorem CanonicalParts.installBlock (h : CanonicalParts s) (a : Nat) {d : Memory}
    (hd : Memory.wf d = true) : CanonicalParts (Machine.installBlock a d s) :=
  h.setBlk _ _ hd

theorem CanonicalParts.touchBlock (h : CanonicalParts s) (a : Nat) :
    CanonicalParts (Machine.touchBlock a s) :=
  h.updateBlock a (f := fun b => { b with lastAccess := s.tick }) (fun _ hb => hb)

theorem CanonicalParts.memWrite (h : CanonicalParts s) (a n : Nat) (v : Word) :
    CanonicalParts (Machine.memWrite a n v s) :=
  h.updateBlock a (f := fun b => { b with data := b.data.writeLE (offsetOf s.cfg a) n v })
    (fun _ hb => Memory.wf_writeLE hb _ _ _)

theorem CanonicalParts.dirtyBlock (h : CanonicalParts s) (a : Nat) :
    CanonicalParts (Machine.dirtyBlock a s) :=
  h.updateBlock a (f := fun b => { b with dirty := true }) (fun _ hb => hb)

theorem CanonicalParts.performHit (h : CanonicalParts s) (r : Rec) :
    CanonicalParts (Machine.performHit r s).1 := by
  unfold Machine.performHit
  split
  · exact (h.touchBlock r.memAddr.toNat).congr (by simp [loadHit]) (by simp [loadHit]) rfl
      (by simp [loadHit]) (by simp [loadHit, State.tables])
  · exact (((h.touchBlock r.memAddr.toNat).memWrite r.memAddr.toNat r.instr.accessBytes
      r.rs2Val).dirtyBlock r.memAddr.toNat).congr (by simp [storeHit]) (by simp [storeHit])
      (by simp only [storeHit, countStore_blk]) (by simp [storeHit])
      (by simp [storeHit, State.tables])
  all_goals exact h

theorem CanonicalParts.loadBlock (h : CanonicalParts s) (a n : Nat) {t : State}
    (e : Machine.loadBlock a n s = .next t) : CanonicalParts t := by
  unfold Machine.loadBlock at e
  split_ifs at e
  · cases e; exact h.congr rfl rfl rfl rfl rfl
  · cases e; exact h.congr rfl rfl rfl rfl rfl
  · cases e; exact (h.markAccessed _ _).congr rfl rfl rfl rfl rfl

end

/-! ## Stages that touch no memory -/

section
variable {s : State}

theorem writebackStage_memory (s : State) (k : Collaborators) : (writebackStage s k).img = s.img
    ∧ (writebackStage s k).acc = s.acc ∧ (writebackStage s k).blk = s.blk
    ∧ (writebackStage s k).prog = s.prog ∧ (writebackStage s k).cfg = s.cfg := by
  unfold writebackStage resolveBranch
  cases s.lMW with
  | none => exact ⟨rfl, rfl, rfl, rfl, rfl⟩
  | some r =>
    dsimp only
    split_ifs <;> simp

end

end Sys2Proof.Machine
end

