-- ==== Sys2Proof/Laws/Codec.lean ====
section
/-! SUPPORT. The formats of 30_encoding.md R116 bit by bit: which field each bit of a word is, that the
decoder's fields of an encoded word are the encoder's operands, and that a word is its own fields put
together again. -/

namespace Sys2Proof

/-! ## Bits of each format -/

theorem formR_bit (f7 : BitVec 7) (f3 : BitVec 3) (op : BitVec 7) (rd rs1 rs2 : Reg) (i : Nat) :
    (formR f7 f3 op rd rs1 rs2).getLsbD i =
    if i < 7 then op.getLsbD i
    else if i < 12 then rd.getLsbD (i - 7)
    else if i < 15 then f3.getLsbD (i - 12)
    else if i < 20 then rs1.getLsbD (i - 15)
    else if i < 25 then rs2.getLsbD (i - 20)
    else f7.getLsbD (i - 25) := by
  change BitVec.getLsbD (w := 7 + 5 + 5 + 3 + 5 + 7)
    (f7 ++ rs2 ++ rs1 ++ f3 ++ rd ++ op) i = _
  simp only [BitVec.getLsbD_append, Nat.sub_sub]
  split_ifs <;> first | rfl | omega

theorem formI_bit (f3 : BitVec 3) (op : BitVec 7) (rd rs1 : Reg) (imm : BitVec 12) (i : Nat) :
    (formI f3 op rd rs1 imm).getLsbD i =
    if i < 7 then op.getLsbD i
    else if i < 12 then rd.getLsbD (i - 7)
    else if i < 15 then f3.getLsbD (i - 12)
    else if i < 20 then rs1.getLsbD (i - 15)
    else imm.getLsbD (i - 20) := by
  change BitVec.getLsbD (w := 12 + 5 + 3 + 5 + 7)
    (imm ++ rs1 ++ f3 ++ rd ++ op) i = _
  simp only [BitVec.getLsbD_append, Nat.sub_sub]
  split_ifs <;> first | rfl | omega

theorem formShift64_bit (f6 : BitVec 6) (f3 : BitVec 3) (op : BitVec 7) (rd rs1 : Reg) (sh : BitVec 6) (i : Nat) :
    (formShift64 f6 f3 op rd rs1 sh).getLsbD i =
    if i < 7 then op.getLsbD i
    else if i < 12 then rd.getLsbD (i - 7)
    else if i < 15 then f3.getLsbD (i - 12)
    else if i < 20 then rs1.getLsbD (i - 15)
    else if i < 26 then sh.getLsbD (i - 20)
    else f6.getLsbD (i - 26) := by
  change BitVec.getLsbD (w := 6 + 6 + 5 + 3 + 5 + 7)
    (f6 ++ sh ++ rs1 ++ f3 ++ rd ++ op) i = _
  simp only [BitVec.getLsbD_append, Nat.sub_sub]
  split_ifs <;> first | rfl | omega

theorem formShift32_bit (f7 : BitVec 7) (f3 : BitVec 3) (op : BitVec 7) (rd rs1 : Reg) (sh : BitVec 5) (i : Nat) :
    (formShift32 f7 f3 op rd rs1 sh).getLsbD i =
    if i < 7 then op.getLsbD i
    else if i < 12 then rd.getLsbD (i - 7)
    else if i < 15 then f3.getLsbD (i - 12)
    else if i < 20 then rs1.getLsbD (i - 15)
    else if i < 25 then sh.getLsbD (i - 20)
    else f7.getLsbD (i - 25) := by
  change BitVec.getLsbD (w := 7 + 5 + 5 + 3 + 5 + 7)
    (f7 ++ sh ++ rs1 ++ f3 ++ rd ++ op) i = _
  simp only [BitVec.getLsbD_append, Nat.sub_sub]
  split_ifs <;> first | rfl | omega

theorem formS_bit (f3 : BitVec 3) (op : BitVec 7) (rs2 rs1 : Reg) (imm : BitVec 12) (i : Nat) :
    (formS f3 op rs2 rs1 imm).getLsbD i =
    if i < 7 then op.getLsbD i
    else if i < 12 then imm.getLsbD (i - 7)
    else if i < 15 then f3.getLsbD (i - 12)
    else if i < 20 then rs1.getLsbD (i - 15)
    else if i < 25 then rs2.getLsbD (i - 20)
    else imm.getLsbD (i - 20) := by
  change BitVec.getLsbD (w := 7 + 5 + 5 + 3 + 5 + 7)
    (imm.extractLsb' 5 7 ++ rs2 ++ rs1 ++ f3 ++ imm.extractLsb' 0 5 ++ op) i = _
  simp only [BitVec.getLsbD_append, Nat.sub_sub, BitVec.getLsbD_extractLsb']
  split_ifs <;> first
    | rfl
    | omega
    | (rw [decide_eq_true (by omega), Bool.true_and]; congr 1; omega)
    | (rw [decide_eq_false (by omega), Bool.false_and, BitVec.getLsbD_of_ge _ _ (by omega)])
    | (by_cases h : i < 32
       · rw [decide_eq_true (by omega), Bool.true_and]; congr 1; omega
       · rw [decide_eq_false (by omega), Bool.false_and, BitVec.getLsbD_of_ge _ _ (by omega)])

theorem formB_bit (f3 : BitVec 3) (op : BitVec 7) (rs1 rs2 : Reg) (off : BitVec 13) (i : Nat) :
    (formB f3 op rs1 rs2 off).getLsbD i =
    if i < 7 then op.getLsbD i
    else if i < 8 then off.getLsbD 11
    else if i < 12 then off.getLsbD (i - 7)
    else if i < 15 then f3.getLsbD (i - 12)
    else if i < 20 then rs1.getLsbD (i - 15)
    else if i < 25 then rs2.getLsbD (i - 20)
    else if i < 31 then off.getLsbD (i - 20)
    else off.getLsbD (i - 19) := by
  change BitVec.getLsbD (w := 1 + 6 + 5 + 5 + 3 + 4 + 1 + 7)
    (off.extractLsb' 12 1 ++ off.extractLsb' 5 6 ++ rs2 ++ rs1 ++ f3 ++
      off.extractLsb' 1 4 ++ off.extractLsb' 11 1 ++ op) i = _
  simp only [BitVec.getLsbD_append, Nat.sub_sub, BitVec.getLsbD_extractLsb']
  split_ifs <;> first
    | rfl
    | omega
    | (rw [decide_eq_true (by omega), Bool.true_and]; congr 1; omega)
    | (rw [decide_eq_false (by omega), Bool.false_and, BitVec.getLsbD_of_ge _ _ (by omega)])
    | (by_cases h : i < 32
       · rw [decide_eq_true (by omega), Bool.true_and]; congr 1; omega
       · rw [decide_eq_false (by omega), Bool.false_and, BitVec.getLsbD_of_ge _ _ (by omega)])

theorem formU_bit (op : BitVec 7) (rd : Reg) (imm : BitVec 20) (i : Nat) :
    (formU op rd imm).getLsbD i =
    if i < 7 then op.getLsbD i
    else if i < 12 then rd.getLsbD (i - 7)
    else imm.getLsbD (i - 12) := by
  change BitVec.getLsbD (w := 20 + 5 + 7)
    (imm ++ rd ++ op) i = _
  simp only [BitVec.getLsbD_append, Nat.sub_sub]
  split_ifs <;> first | rfl | omega

theorem formJ_bit (op : BitVec 7) (rd : Reg) (off : BitVec 21) (i : Nat) :
    (formJ op rd off).getLsbD i =
    if i < 7 then op.getLsbD i
    else if i < 12 then rd.getLsbD (i - 7)
    else if i < 20 then off.getLsbD i
    else if i < 21 then off.getLsbD 11
    else if i < 31 then off.getLsbD (i - 20)
    else off.getLsbD (i - 11) := by
  change BitVec.getLsbD (w := 1 + 10 + 1 + 8 + 5 + 7)
    (off.extractLsb' 20 1 ++ off.extractLsb' 1 10 ++ off.extractLsb' 11 1 ++
      off.extractLsb' 12 8 ++ rd ++ op) i = _
  simp only [BitVec.getLsbD_append, Nat.sub_sub, BitVec.getLsbD_extractLsb']
  split_ifs <;> first
    | rfl
    | omega
    | (rw [decide_eq_true (by omega), Bool.true_and]; congr 1; omega)
    | (rw [decide_eq_false (by omega), Bool.false_and, BitVec.getLsbD_of_ge _ _ (by omega)])
    | (by_cases h : i < 32
       · rw [decide_eq_true (by omega), Bool.true_and]; congr 1; omega
       · rw [decide_eq_false (by omega), Bool.false_and, BitVec.getLsbD_of_ge _ _ (by omega)])

/-! ## Fields of each format -/

theorem fieldOpcode_formR (f7 : BitVec 7) (f3 : BitVec 3) (op : BitVec 7) (rd rs1 rs2 : Reg) :
    fieldOpcode (formR f7 f3 op rd rs1 rs2) = op := by
  apply BitVec.eq_of_getLsbD_eq
  intro i hi
  simp only [fieldOpcode, BitVec.getLsbD_extractLsb', formR_bit]
  split_ifs <;> first | omega | simp [hi]

theorem fieldRd_formR (f7 : BitVec 7) (f3 : BitVec 3) (op : BitVec 7) (rd rs1 rs2 : Reg) :
    fieldRd (formR f7 f3 op rd rs1 rs2) = rd := by
  apply BitVec.eq_of_getLsbD_eq
  intro i hi
  simp only [fieldRd, BitVec.getLsbD_extractLsb', formR_bit]
  split_ifs <;> first | omega | simp [hi]

theorem fieldFunct3_formR (f7 : BitVec 7) (f3 : BitVec 3) (op : BitVec 7) (rd rs1 rs2 : Reg) :
    fieldFunct3 (formR f7 f3 op rd rs1 rs2) = f3 := by
  apply BitVec.eq_of_getLsbD_eq
  intro i hi
  simp only [fieldFunct3, BitVec.getLsbD_extractLsb', formR_bit]
  split_ifs <;> first | omega | simp [hi]

theorem fieldRs1_formR (f7 : BitVec 7) (f3 : BitVec 3) (op : BitVec 7) (rd rs1 rs2 : Reg) :
    fieldRs1 (formR f7 f3 op rd rs1 rs2) = rs1 := by
  apply BitVec.eq_of_getLsbD_eq
  intro i hi
  simp only [fieldRs1, BitVec.getLsbD_extractLsb', formR_bit]
  split_ifs <;> first | omega | simp [hi]

theorem fieldRs2_formR (f7 : BitVec 7) (f3 : BitVec 3) (op : BitVec 7) (rd rs1 rs2 : Reg) :
    fieldRs2 (formR f7 f3 op rd rs1 rs2) = rs2 := by
  apply BitVec.eq_of_getLsbD_eq
  intro i hi
  simp only [fieldRs2, BitVec.getLsbD_extractLsb', formR_bit]
  split_ifs <;> first | omega | simp [hi]

theorem fieldFunct7_formR (f7 : BitVec 7) (f3 : BitVec 3) (op : BitVec 7) (rd rs1 rs2 : Reg) :
    fieldFunct7 (formR f7 f3 op rd rs1 rs2) = f7 := by
  apply BitVec.eq_of_getLsbD_eq
  intro i hi
  simp only [fieldFunct7, BitVec.getLsbD_extractLsb', formR_bit]
  split_ifs <;> first | omega | simp [hi]

theorem fieldOpcode_formI (f3 : BitVec 3) (op : BitVec 7) (rd rs1 : Reg) (imm : BitVec 12) :
    fieldOpcode (formI f3 op rd rs1 imm) = op := by
  apply BitVec.eq_of_getLsbD_eq
  intro i hi
  simp only [fieldOpcode, BitVec.getLsbD_extractLsb', formI_bit]
  split_ifs <;> first | omega | simp [hi]

theorem fieldRd_formI (f3 : BitVec 3) (op : BitVec 7) (rd rs1 : Reg) (imm : BitVec 12) :
    fieldRd (formI f3 op rd rs1 imm) = rd := by
  apply BitVec.eq_of_getLsbD_eq
  intro i hi
  simp only [fieldRd, BitVec.getLsbD_extractLsb', formI_bit]
  split_ifs <;> first | omega | simp [hi]

theorem fieldFunct3_formI (f3 : BitVec 3) (op : BitVec 7) (rd rs1 : Reg) (imm : BitVec 12) :
    fieldFunct3 (formI f3 op rd rs1 imm) = f3 := by
  apply BitVec.eq_of_getLsbD_eq
  intro i hi
  simp only [fieldFunct3, BitVec.getLsbD_extractLsb', formI_bit]
  split_ifs <;> first | omega | simp [hi]

theorem fieldRs1_formI (f3 : BitVec 3) (op : BitVec 7) (rd rs1 : Reg) (imm : BitVec 12) :
    fieldRs1 (formI f3 op rd rs1 imm) = rs1 := by
  apply BitVec.eq_of_getLsbD_eq
  intro i hi
  simp only [fieldRs1, BitVec.getLsbD_extractLsb', formI_bit]
  split_ifs <;> first | omega | simp [hi]

theorem fieldImmI_formI (f3 : BitVec 3) (op : BitVec 7) (rd rs1 : Reg) (imm : BitVec 12) :
    fieldImmI (formI f3 op rd rs1 imm) = imm := by
  apply BitVec.eq_of_getLsbD_eq
  intro i hi
  simp only [fieldImmI, BitVec.getLsbD_extractLsb', formI_bit]
  split_ifs <;> first | omega | simp [hi]

theorem fieldOpcode_formShift64 (f6 : BitVec 6) (f3 : BitVec 3) (op : BitVec 7) (rd rs1 : Reg) (sh : BitVec 6) :
    fieldOpcode (formShift64 f6 f3 op rd rs1 sh) = op := by
  apply BitVec.eq_of_getLsbD_eq
  intro i hi
  simp only [fieldOpcode, BitVec.getLsbD_extractLsb', formShift64_bit]
  split_ifs <;> first | omega | simp [hi]

theorem fieldRd_formShift64 (f6 : BitVec 6) (f3 : BitVec 3) (op : BitVec 7) (rd rs1 : Reg) (sh : BitVec 6) :
    fieldRd (formShift64 f6 f3 op rd rs1 sh) = rd := by
  apply BitVec.eq_of_getLsbD_eq
  intro i hi
  simp only [fieldRd, BitVec.getLsbD_extractLsb', formShift64_bit]
  split_ifs <;> first | omega | simp [hi]

theorem fieldFunct3_formShift64 (f6 : BitVec 6) (f3 : BitVec 3) (op : BitVec 7) (rd rs1 : Reg) (sh : BitVec 6) :
    fieldFunct3 (formShift64 f6 f3 op rd rs1 sh) = f3 := by
  apply BitVec.eq_of_getLsbD_eq
  intro i hi
  simp only [fieldFunct3, BitVec.getLsbD_extractLsb', formShift64_bit]
  split_ifs <;> first | omega | simp [hi]

theorem fieldRs1_formShift64 (f6 : BitVec 6) (f3 : BitVec 3) (op : BitVec 7) (rd rs1 : Reg) (sh : BitVec 6) :
    fieldRs1 (formShift64 f6 f3 op rd rs1 sh) = rs1 := by
  apply BitVec.eq_of_getLsbD_eq
  intro i hi
  simp only [fieldRs1, BitVec.getLsbD_extractLsb', formShift64_bit]
  split_ifs <;> first | omega | simp [hi]

theorem fieldShamt6_formShift64 (f6 : BitVec 6) (f3 : BitVec 3) (op : BitVec 7) (rd rs1 : Reg) (sh : BitVec 6) :
    fieldShamt6 (formShift64 f6 f3 op rd rs1 sh) = sh := by
  apply BitVec.eq_of_getLsbD_eq
  intro i hi
  simp only [fieldShamt6, BitVec.getLsbD_extractLsb', formShift64_bit]
  split_ifs <;> first | omega | simp [hi]

theorem fieldFunct6_formShift64 (f6 : BitVec 6) (f3 : BitVec 3) (op : BitVec 7) (rd rs1 : Reg) (sh : BitVec 6) :
    fieldFunct6 (formShift64 f6 f3 op rd rs1 sh) = f6 := by
  apply BitVec.eq_of_getLsbD_eq
  intro i hi
  simp only [fieldFunct6, BitVec.getLsbD_extractLsb', formShift64_bit]
  split_ifs <;> first | omega | simp [hi]

theorem fieldOpcode_formShift32 (f7 : BitVec 7) (f3 : BitVec 3) (op : BitVec 7) (rd rs1 : Reg) (sh : BitVec 5) :
    fieldOpcode (formShift32 f7 f3 op rd rs1 sh) = op := by
  apply BitVec.eq_of_getLsbD_eq
  intro i hi
  simp only [fieldOpcode, BitVec.getLsbD_extractLsb', formShift32_bit]
  split_ifs <;> first | omega | simp [hi]

theorem fieldRd_formShift32 (f7 : BitVec 7) (f3 : BitVec 3) (op : BitVec 7) (rd rs1 : Reg) (sh : BitVec 5) :
    fieldRd (formShift32 f7 f3 op rd rs1 sh) = rd := by
  apply BitVec.eq_of_getLsbD_eq
  intro i hi
  simp only [fieldRd, BitVec.getLsbD_extractLsb', formShift32_bit]
  split_ifs <;> first | omega | simp [hi]

theorem fieldFunct3_formShift32 (f7 : BitVec 7) (f3 : BitVec 3) (op : BitVec 7) (rd rs1 : Reg) (sh : BitVec 5) :
    fieldFunct3 (formShift32 f7 f3 op rd rs1 sh) = f3 := by
  apply BitVec.eq_of_getLsbD_eq
  intro i hi
  simp only [fieldFunct3, BitVec.getLsbD_extractLsb', formShift32_bit]
  split_ifs <;> first | omega | simp [hi]

theorem fieldRs1_formShift32 (f7 : BitVec 7) (f3 : BitVec 3) (op : BitVec 7) (rd rs1 : Reg) (sh : BitVec 5) :
    fieldRs1 (formShift32 f7 f3 op rd rs1 sh) = rs1 := by
  apply BitVec.eq_of_getLsbD_eq
  intro i hi
  simp only [fieldRs1, BitVec.getLsbD_extractLsb', formShift32_bit]
  split_ifs <;> first | omega | simp [hi]

theorem fieldShamt5_formShift32 (f7 : BitVec 7) (f3 : BitVec 3) (op : BitVec 7) (rd rs1 : Reg) (sh : BitVec 5) :
    fieldShamt5 (formShift32 f7 f3 op rd rs1 sh) = sh := by
  apply BitVec.eq_of_getLsbD_eq
  intro i hi
  simp only [fieldShamt5, BitVec.getLsbD_extractLsb', formShift32_bit]
  split_ifs <;> first | omega | simp [hi]

theorem fieldFunct7_formShift32 (f7 : BitVec 7) (f3 : BitVec 3) (op : BitVec 7) (rd rs1 : Reg) (sh : BitVec 5) :
    fieldFunct7 (formShift32 f7 f3 op rd rs1 sh) = f7 := by
  apply BitVec.eq_of_getLsbD_eq
  intro i hi
  simp only [fieldFunct7, BitVec.getLsbD_extractLsb', formShift32_bit]
  split_ifs <;> first | omega | simp [hi]

theorem fieldOpcode_formS (f3 : BitVec 3) (op : BitVec 7) (rs2 rs1 : Reg) (imm : BitVec 12) :
    fieldOpcode (formS f3 op rs2 rs1 imm) = op := by
  apply BitVec.eq_of_getLsbD_eq
  intro i hi
  simp only [fieldOpcode, BitVec.getLsbD_extractLsb', formS_bit]
  split_ifs <;> first | omega | simp [hi]

theorem fieldFunct3_formS (f3 : BitVec 3) (op : BitVec 7) (rs2 rs1 : Reg) (imm : BitVec 12) :
    fieldFunct3 (formS f3 op rs2 rs1 imm) = f3 := by
  apply BitVec.eq_of_getLsbD_eq
  intro i hi
  simp only [fieldFunct3, BitVec.getLsbD_extractLsb', formS_bit]
  split_ifs <;> first | omega | simp [hi]

theorem fieldRs1_formS (f3 : BitVec 3) (op : BitVec 7) (rs2 rs1 : Reg) (imm : BitVec 12) :
    fieldRs1 (formS f3 op rs2 rs1 imm) = rs1 := by
  apply BitVec.eq_of_getLsbD_eq
  intro i hi
  simp only [fieldRs1, BitVec.getLsbD_extractLsb', formS_bit]
  split_ifs <;> first | omega | simp [hi]

theorem fieldRs2_formS (f3 : BitVec 3) (op : BitVec 7) (rs2 rs1 : Reg) (imm : BitVec 12) :
    fieldRs2 (formS f3 op rs2 rs1 imm) = rs2 := by
  apply BitVec.eq_of_getLsbD_eq
  intro i hi
  simp only [fieldRs2, BitVec.getLsbD_extractLsb', formS_bit]
  split_ifs <;> first | omega | simp [hi]

theorem fieldImmS_formS (f3 : BitVec 3) (op : BitVec 7) (rs2 rs1 : Reg) (imm : BitVec 12) : fieldImmS (formS f3 op rs2 rs1 imm) = imm := by
  apply BitVec.eq_of_getLsbD_eq
  intro i hi
  change BitVec.getLsbD (w := 7 + 5)
    ((formS f3 op rs2 rs1 imm).extractLsb' 25 7 ++ (formS f3 op rs2 rs1 imm).extractLsb' 7 5) i = _
  simp only [BitVec.getLsbD_append, Nat.sub_sub, BitVec.getLsbD_extractLsb', formS_bit]
  split_ifs <;> first
    | omega
    | (rw [decide_eq_true (by omega), Bool.true_and]; congr 1; omega)

theorem fieldOpcode_formB (f3 : BitVec 3) (op : BitVec 7) (rs1 rs2 : Reg) (off : BitVec 13) :
    fieldOpcode (formB f3 op rs1 rs2 off) = op := by
  apply BitVec.eq_of_getLsbD_eq
  intro i hi
  simp only [fieldOpcode, BitVec.getLsbD_extractLsb', formB_bit]
  split_ifs <;> first | omega | simp [hi]

theorem fieldFunct3_formB (f3 : BitVec 3) (op : BitVec 7) (rs1 rs2 : Reg) (off : BitVec 13) :
    fieldFunct3 (formB f3 op rs1 rs2 off) = f3 := by
  apply BitVec.eq_of_getLsbD_eq
  intro i hi
  simp only [fieldFunct3, BitVec.getLsbD_extractLsb', formB_bit]
  split_ifs <;> first | omega | simp [hi]

theorem fieldRs1_formB (f3 : BitVec 3) (op : BitVec 7) (rs1 rs2 : Reg) (off : BitVec 13) :
    fieldRs1 (formB f3 op rs1 rs2 off) = rs1 := by
  apply BitVec.eq_of_getLsbD_eq
  intro i hi
  simp only [fieldRs1, BitVec.getLsbD_extractLsb', formB_bit]
  split_ifs <;> first | omega | simp [hi]

theorem fieldRs2_formB (f3 : BitVec 3) (op : BitVec 7) (rs1 rs2 : Reg) (off : BitVec 13) :
    fieldRs2 (formB f3 op rs1 rs2 off) = rs2 := by
  apply BitVec.eq_of_getLsbD_eq
  intro i hi
  simp only [fieldRs2, BitVec.getLsbD_extractLsb', formB_bit]
  split_ifs <;> first | omega | simp [hi]

theorem fieldImmB_formB (f3 : BitVec 3) (op : BitVec 7) (rs1 rs2 : Reg) (off : BitVec 13)
    (h : offsetEven off = true) : fieldImmB (formB f3 op rs1 rs2 off) = off := by
  have h0 : off.getLsbD 0 = false := by simpa [offsetEven] using h
  apply BitVec.eq_of_getLsbD_eq
  intro i hi
  change BitVec.getLsbD (w := 1 + 1 + 6 + 4 + 1)
    ((formB f3 op rs1 rs2 off).extractLsb' 31 1 ++ (formB f3 op rs1 rs2 off).extractLsb' 7 1 ++
      (formB f3 op rs1 rs2 off).extractLsb' 25 6 ++ (formB f3 op rs1 rs2 off).extractLsb' 8 4 ++ 0#1) i = _
  simp only [BitVec.getLsbD_append, Nat.sub_sub, BitVec.getLsbD_extractLsb', formB_bit]
  interval_cases i <;> first | rfl | (rw [h0]; rfl)

theorem fieldOpcode_formU (op : BitVec 7) (rd : Reg) (imm : BitVec 20) :
    fieldOpcode (formU op rd imm) = op := by
  apply BitVec.eq_of_getLsbD_eq
  intro i hi
  simp only [fieldOpcode, BitVec.getLsbD_extractLsb', formU_bit]
  split_ifs <;> first | omega | simp [hi]

theorem fieldRd_formU (op : BitVec 7) (rd : Reg) (imm : BitVec 20) :
    fieldRd (formU op rd imm) = rd := by
  apply BitVec.eq_of_getLsbD_eq
  intro i hi
  simp only [fieldRd, BitVec.getLsbD_extractLsb', formU_bit]
  split_ifs <;> first | omega | simp [hi]

theorem fieldImmU_formU (op : BitVec 7) (rd : Reg) (imm : BitVec 20) :
    fieldImmU (formU op rd imm) = imm := by
  apply BitVec.eq_of_getLsbD_eq
  intro i hi
  simp only [fieldImmU, BitVec.getLsbD_extractLsb', formU_bit]
  split_ifs <;> first | omega | simp [hi]

theorem fieldOpcode_formJ (op : BitVec 7) (rd : Reg) (off : BitVec 21) :
    fieldOpcode (formJ op rd off) = op := by
  apply BitVec.eq_of_getLsbD_eq
  intro i hi
  simp only [fieldOpcode, BitVec.getLsbD_extractLsb', formJ_bit]
  split_ifs <;> first | omega | simp [hi]

theorem fieldRd_formJ (op : BitVec 7) (rd : Reg) (off : BitVec 21) :
    fieldRd (formJ op rd off) = rd := by
  apply BitVec.eq_of_getLsbD_eq
  intro i hi
  simp only [fieldRd, BitVec.getLsbD_extractLsb', formJ_bit]
  split_ifs <;> first | omega | simp [hi]

theorem fieldImmJ_formJ (op : BitVec 7) (rd : Reg) (off : BitVec 21)
    (h : offsetEven off = true) : fieldImmJ (formJ op rd off) = off := by
  have h0 : off.getLsbD 0 = false := by simpa [offsetEven] using h
  apply BitVec.eq_of_getLsbD_eq
  intro i hi
  change BitVec.getLsbD (w := 1 + 8 + 1 + 10 + 1)
    ((formJ op rd off).extractLsb' 31 1 ++ (formJ op rd off).extractLsb' 12 8 ++
      (formJ op rd off).extractLsb' 20 1 ++ (formJ op rd off).extractLsb' 21 10 ++ 0#1) i = _
  simp only [BitVec.getLsbD_append, Nat.sub_sub, BitVec.getLsbD_extractLsb', formJ_bit]
  interval_cases i <;> first | rfl | (rw [h0]; rfl)

/-! ## A word from its fields -/

theorem fieldImmS_bit (w : BitVec 32) (i : Nat) : (fieldImmS w).getLsbD i =
    if i < 5 then w.getLsbD (7 + i) else decide (i < 12) && w.getLsbD (20 + i) := by
  change BitVec.getLsbD (w := 7 + 5) (w.extractLsb' 25 7 ++ w.extractLsb' 7 5) i = _
  simp only [BitVec.getLsbD_append, BitVec.getLsbD_extractLsb']
  split_ifs with h
  · simp [h]
  · congr 1
    · rw [decide_eq_decide]; omega
    · congr 1; omega

theorem fieldImmB_bit (w : BitVec 32) (i : Nat) : (fieldImmB w).getLsbD i =
    if i < 1 then false else if i < 5 then w.getLsbD (7 + i) else if i < 11 then w.getLsbD (20 + i)
    else if i < 12 then w.getLsbD 7 else decide (i < 13) && w.getLsbD 31 := by
  change BitVec.getLsbD (w := 1 + 1 + 6 + 4 + 1) (w.extractLsb' 31 1 ++ w.extractLsb' 7 1 ++
    w.extractLsb' 25 6 ++ w.extractLsb' 8 4 ++ 0#1) i = _
  simp only [BitVec.getLsbD_append, Nat.sub_sub, BitVec.getLsbD_extractLsb']
  split_ifs <;> first
    | omega
    | simp; done
    | (rw [decide_eq_true (by omega), Bool.true_and]; congr 1; omega)
    | (by_cases h : i < 13
       · rw [decide_eq_true (by omega), decide_eq_true h]; congr 2; omega
       · rw [decide_eq_false (by omega), decide_eq_false h]; rfl)

theorem fieldImmJ_bit (w : BitVec 32) (i : Nat) : (fieldImmJ w).getLsbD i =
    if i < 1 then false else if i < 11 then w.getLsbD (20 + i) else if i < 12 then w.getLsbD 20
    else if i < 20 then w.getLsbD i else decide (i < 21) && w.getLsbD 31 := by
  change BitVec.getLsbD (w := 1 + 8 + 1 + 10 + 1) (w.extractLsb' 31 1 ++ w.extractLsb' 12 8 ++
    w.extractLsb' 20 1 ++ w.extractLsb' 21 10 ++ 0#1) i = _
  simp only [BitVec.getLsbD_append, Nat.sub_sub, BitVec.getLsbD_extractLsb']
  split_ifs <;> first
    | omega
    | simp; done
    | (rw [decide_eq_true (by omega), Bool.true_and]; congr 1; omega)
    | (by_cases h : i < 21
       · rw [decide_eq_true (by omega), decide_eq_true h]; congr 2; omega
       · rw [decide_eq_false (by omega), decide_eq_false h]; rfl)

theorem formR_fields (w : BitVec 32) :
    formR (fieldFunct7 w) (fieldFunct3 w) (fieldOpcode w) (fieldRd w) (fieldRs1 w) (fieldRs2 w) = w := by
  apply BitVec.eq_of_getLsbD_eq
  intro i hi
  simp only [formR_bit, fieldOpcode, fieldRd, fieldFunct3, fieldRs1, fieldRs2, fieldFunct7,
    BitVec.getLsbD_extractLsb']
  split_ifs <;> first
    | omega
    | (rw [decide_eq_true (by omega), Bool.true_and]; congr 1; omega)
    | (congr 1; omega)

theorem formI_fields (w : BitVec 32) :
    formI (fieldFunct3 w) (fieldOpcode w) (fieldRd w) (fieldRs1 w) (fieldImmI w) = w := by
  apply BitVec.eq_of_getLsbD_eq
  intro i hi
  simp only [formI_bit, fieldOpcode, fieldRd, fieldFunct3, fieldRs1, fieldImmI,
    BitVec.getLsbD_extractLsb']
  split_ifs <;> first
    | omega
    | (rw [decide_eq_true (by omega), Bool.true_and]; congr 1; omega)
    | (congr 1; omega)

theorem formShift64_fields (w : BitVec 32) :
    formShift64 (fieldFunct6 w) (fieldFunct3 w) (fieldOpcode w) (fieldRd w) (fieldRs1 w) (fieldShamt6 w) = w := by
  apply BitVec.eq_of_getLsbD_eq
  intro i hi
  simp only [formShift64_bit, fieldOpcode, fieldRd, fieldFunct3, fieldRs1, fieldFunct6, fieldShamt6,
    BitVec.getLsbD_extractLsb']
  split_ifs <;> first
    | omega
    | (rw [decide_eq_true (by omega), Bool.true_and]; congr 1; omega)
    | (congr 1; omega)

theorem formShift32_fields (w : BitVec 32) :
    formShift32 (fieldFunct7 w) (fieldFunct3 w) (fieldOpcode w) (fieldRd w) (fieldRs1 w) (fieldShamt5 w) = w := by
  apply BitVec.eq_of_getLsbD_eq
  intro i hi
  simp only [formShift32_bit, fieldOpcode, fieldRd, fieldFunct3, fieldRs1, fieldFunct7, fieldShamt5,
    BitVec.getLsbD_extractLsb']
  split_ifs <;> first
    | omega
    | (rw [decide_eq_true (by omega), Bool.true_and]; congr 1; omega)
    | (congr 1; omega)

theorem formS_fields (w : BitVec 32) :
    formS (fieldFunct3 w) (fieldOpcode w) (fieldRs2 w) (fieldRs1 w) (fieldImmS w) = w := by
  apply BitVec.eq_of_getLsbD_eq
  intro i hi
  simp only [formS_bit, fieldImmS_bit, fieldOpcode, fieldFunct3, fieldRs1, fieldRs2,
    BitVec.getLsbD_extractLsb']
  split_ifs <;> first
    | omega
    | (rw [decide_eq_true (by omega), Bool.true_and]; congr 1; omega)
    | (congr 1; omega)

theorem formB_fields (w : BitVec 32) :
    formB (fieldFunct3 w) (fieldOpcode w) (fieldRs1 w) (fieldRs2 w) (fieldImmB w) = w := by
  apply BitVec.eq_of_getLsbD_eq
  intro i hi
  simp only [formB_bit, fieldImmB_bit, fieldOpcode, fieldFunct3, fieldRs1, fieldRs2, BitVec.getLsbD_extractLsb']
  interval_cases i <;> rfl

theorem formU_fields (w : BitVec 32) :
    formU (fieldOpcode w) (fieldRd w) (fieldImmU w) = w := by
  apply BitVec.eq_of_getLsbD_eq
  intro i hi
  simp only [formU_bit, fieldOpcode, fieldRd, fieldImmU,
    BitVec.getLsbD_extractLsb']
  split_ifs <;> first
    | omega
    | (rw [decide_eq_true (by omega), Bool.true_and]; congr 1; omega)
    | (congr 1; omega)

theorem formJ_fields (w : BitVec 32) :
    formJ (fieldOpcode w) (fieldRd w) (fieldImmJ w) = w := by
  apply BitVec.eq_of_getLsbD_eq
  intro i hi
  simp only [formJ_bit, fieldImmJ_bit, fieldOpcode, fieldRd, BitVec.getLsbD_extractLsb']
  interval_cases i <;> rfl

/-! ## Masks: what is left of a word when its operand bits are masked out -/

theorem mask_formR (f7 : BitVec 7) (f3 : BitVec 3) (op : BitVec 7) (rd rs1 rs2 : Reg) :
    formR f7 f3 op rd rs1 rs2 &&& 0xFE00707F#32 = formR f7 f3 op 0 0 0 := by
  apply BitVec.eq_of_getLsbD_eq
  intro i hi
  rw [BitVec.getLsbD_and]
  simp only [formR_bit]
  interval_cases i <;> simp

theorem mask_formI (f3 : BitVec 3) (op : BitVec 7) (rd rs1 : Reg) (imm : BitVec 12) :
    formI f3 op rd rs1 imm &&& 0x0000707F#32 = formI f3 op 0 0 0 := by
  apply BitVec.eq_of_getLsbD_eq
  intro i hi
  rw [BitVec.getLsbD_and]
  simp only [formI_bit]
  interval_cases i <;> simp

theorem mask_formShift64 (f6 : BitVec 6) (f3 : BitVec 3) (op : BitVec 7) (rd rs1 : Reg) (sh : BitVec 6) :
    formShift64 f6 f3 op rd rs1 sh &&& 0xFC00707F#32 = formShift64 f6 f3 op 0 0 0 := by
  apply BitVec.eq_of_getLsbD_eq
  intro i hi
  rw [BitVec.getLsbD_and]
  simp only [formShift64_bit]
  interval_cases i <;> simp

theorem mask_formShift32 (f7 : BitVec 7) (f3 : BitVec 3) (op : BitVec 7) (rd rs1 : Reg) (sh : BitVec 5) :
    formShift32 f7 f3 op rd rs1 sh &&& 0xFE00707F#32 = formShift32 f7 f3 op 0 0 0 := by
  apply BitVec.eq_of_getLsbD_eq
  intro i hi
  rw [BitVec.getLsbD_and]
  simp only [formShift32_bit]
  interval_cases i <;> simp

theorem mask_formS (f3 : BitVec 3) (op : BitVec 7) (rs2 rs1 : Reg) (imm : BitVec 12) :
    formS f3 op rs2 rs1 imm &&& 0x0000707F#32 = formS f3 op 0 0 0 := by
  apply BitVec.eq_of_getLsbD_eq
  intro i hi
  rw [BitVec.getLsbD_and]
  simp only [formS_bit]
  interval_cases i <;> simp

theorem mask_formB (f3 : BitVec 3) (op : BitVec 7) (rs1 rs2 : Reg) (off : BitVec 13) :
    formB f3 op rs1 rs2 off &&& 0x0000707F#32 = formB f3 op 0 0 0 := by
  apply BitVec.eq_of_getLsbD_eq
  intro i hi
  rw [BitVec.getLsbD_and]
  simp only [formB_bit]
  interval_cases i <;> simp

theorem mask_formU (op : BitVec 7) (rd : Reg) (imm : BitVec 20) :
    formU op rd imm &&& 0x0000007F#32 = formU op 0 0 := by
  apply BitVec.eq_of_getLsbD_eq
  intro i hi
  rw [BitVec.getLsbD_and]
  simp only [formU_bit]
  interval_cases i <;> simp

theorem mask_formJ (op : BitVec 7) (rd : Reg) (off : BitVec 21) :
    formJ op rd off &&& 0x0000007F#32 = formJ op 0 0 := by
  apply BitVec.eq_of_getLsbD_eq
  intro i hi
  rw [BitVec.getLsbD_and]
  simp only [formJ_bit]
  interval_cases i <;> simp

theorem fieldImmB_even (w : BitVec 32) : offsetEven (fieldImmB w) = true := by
  rw [offsetEven, fieldImmB_bit]; rfl

theorem fieldImmJ_even (w : BitVec 32) : offsetEven (fieldImmJ w) = true := by
  rw [offsetEven, fieldImmJ_bit]; rfl

end Sys2Proof
end

