-- ==== Sys2Proof/Laws/MemoryStage.lean ====
section
/-! SUPPORT. The memory stage, case by case, from a state that keeps the invariant
(40_pipeline_control.md R158, R159; 20_memory.md R65 to R87): it passes a record, completes an access,
misses, waits, or stops with a Fatal. -/

namespace Sys2Proof.Machine

/-- The class of a load or store. -/
def Rec.accesses (r : Rec) : Prop := r.instr.cls = .load ∨ r.instr.cls = .store

/-- The byte address of a record, as a number (20_memory.md R63). -/
abbrev Rec.addr (r : Rec) : Nat := r.memAddr.toNat

/-- The Fatal an access raises at issue, if any (42_memory_ops.md R262). -/
def recordError (s : State) (r : Rec) : Option FatalCode :=
  if r.instr.cls = .load ∨ r.instr.cls = .store then
    if r.addr % r.instr.accessBytes ≠ 0 then some .accessMisaligned
    else if isHit s r.addr = false ∧ s.cfg.memSize < blockAddr s.cfg r.addr + s.cfg.blockBytes then
      some .accessOutOfRange
    else none
  else none

/-- What a record's memory work did from `s` to `t`, when it went on to L_MW. -/
structure Landed (r : Rec) (s t : State) : Prop where
  coherent : ∀ b, coherentByte t b =
    if r.instr.cls = .store ∧ r.addr ≤ b ∧ b < r.addr + r.instr.accessBytes then
      byteOf r.rs2Val (b - r.addr)
    else coherentByte s b
  stats : t.stats = { s.stats with
    numAccesses := s.stats.numAccesses + if r.instr.cls = .load ∨ r.instr.cls = .store then 1 else 0
    numLoads := s.stats.numLoads + if r.instr.cls = .load then 1 else 0
    numStores := s.stats.numStores + if r.instr.cls = .store then 1 else 0
    numWritebacks := s.stats.numWritebacks +
      if s.missInst.isSome = true ∧ (blockOf s r.addr).valid = true ∧ (blockOf s r.addr).dirty = true
      then 1 else 0 }
  acc : t.acc = s.acc
  present : r.accesses → isHit t r.addr = true
  others : ∀ set, set ≠ setIndex s.cfg r.addr → blkAt t set 0 = blkAt s set 0
  dirty : r.accesses → (blockOf t r.addr).dirty =
    (decide (r.instr.cls = .store) || (isHit s r.addr && (blockOf s r.addr).dirty))
  image : s.missInst = none → t.img = s.img
  untouched : ¬ r.accesses → t.blk = s.blk ∧ t.img = s.img ∧ t.pendAddr = s.pendAddr
    ∧ t.pendSize = s.pendSize ∧ t.pendTick = s.pendTick

/-- The record `r` went to L_MW. -/
structure Done (k : Collaborators) (r : Rec) (s t : State) : Prop where
  inv : Inv t k
  status : t.status = .running
  cfg : t.cfg = s.cfg
  prog : t.prog = s.prog
  tick : t.tick = s.tick
  x : t.x = s.x
  bht : t.bht = s.bht
  pht : t.pht = s.pht
  btb : t.btb = s.btb
  missInst : t.missInst = none
  tags : tags t = tags s
  record : t.lMW = some { r with
    rdVal := if r.instr.cls = .load then loadValue r.instr (coherentLE s r.addr r.instr.accessBytes)
      else r.rdVal }
  landed : Landed r s t

/-- The access of `r` missed. -/
structure Missed (k : Collaborators) (r : Rec) (s t : State) : Prop where
  inv : Inv t k
  status : t.status = .running
  cfg : t.cfg = s.cfg
  prog : t.prog = s.prog
  tick : t.tick = s.tick
  x : t.x = s.x
  blk : t.blk = s.blk
  img : t.img = s.img
  bht : t.bht = s.bht
  pht : t.pht = s.pht
  btb : t.btb = s.btb
  lMW : t.lMW = none
  missInst : t.missInst = some r
  tags : tags t = tags s
  pendTick : t.pendTick = s.tick + s.cfg.memLatency
  stats : t.stats = { s.stats with numMisses := s.stats.numMisses + 1 }
  acc : ∀ k, accessed t k = (accessed s k || (decide (blockAddr s.cfg r.addr / 8 ≤ k)
    && decide (k < (blockAddr s.cfg r.addr + s.cfg.blockBytes) / 8)))

/-- A Fatal was raised. -/
structure Stopped (c : FatalCode) (s t : State) : Prop where
  status : t.status = .fatal c
  cfg : t.cfg = s.cfg
  prog : t.prog = s.prog
  tick : t.tick = s.tick
  x : t.x = s.x
  blk : t.blk = s.blk
  img : t.img = s.img
  acc : t.acc = s.acc
  bht : t.bht = s.bht
  pht : t.pht = s.pht
  btb : t.btb = s.btb
  stats : t.stats = { s.stats with
    numMisses := s.stats.numMisses + if c = .accessOutOfRange then 1 else 0 }

section
variable {s : State} {r : Rec} {k : Collaborators}

theorem accessed_markAccessed (k n : Nat) (s : State) (j : Nat) :
    accessed (markAccessed k n s) j = (accessed s j || (decide (k ≤ j) && decide (j < k + n))) := by
  induction n generalizing k s with
  | zero =>
    simp [markAccessed]
  | succ n ih =>
    rw [markAccessed, ih]
    simp only [accessed, Sparse.get_put]
    by_cases hj : j = k
    · subst hj; simp
    · have : (k ≤ j ∧ j < k + (n + 1)) ↔ (k + 1 ≤ j ∧ j < k + 1 + n) := by omega
      have h2 : (decide (k ≤ j) && decide (j < k + (n + 1))) =
          (decide (k + 1 ≤ j) && decide (j < k + 1 + n)) := by
        rw [Bool.eq_iff_iff]; simpa using this
      simp [hj, h2]

theorem blockAddr_mod (g : GeometryFacts s.cfg) (a : Nat) : blockAddr s.cfg a % 8 = 0 := by
  rw [blockAddr_eq_base, blockBase]
  have := g.blockMul
  rw [Nat.mul_mod, this]; simp

theorem blockAddr_le (c : Config) (a : Nat) : blockAddr c a ≤ a := Nat.sub_le _ _

/-- The invariant knows of no request without a missed record. -/
theorem Inv.pend_none (h : Inv s k) (hm : s.missInst = none) : s.pendValid = false := by
  rw [h.pending, hm]; rfl

theorem Inv.pass (h : Inv s k) (hr : s.status = .running) (hw : s.lMW = none)
    (hm : s.missInst = none) (hx : s.lXM = some r) (hc : ¬ r.accesses) :
    ∃ t, memoryStage s = .next t ∧ Done k r s t := by
  simp only [Rec.accesses, not_or] at hc
  refine ⟨{ s with lXM := none, lMW := some r }, ?_, ?_⟩
  · rw [memoryStage_issue (h.pend_none hm) hm hw hx]
    exact issue_passive (s := { s with lXM := none }) hc.1 hc.2 hr hm hw
  · have hA : admitted { s with lXM := none, lMW := some r } = admitted s := by
      simp [admitted_eq, hw, hm, hx]
    have hE : executed { s with lXM := none, lMW := some r } = executed s := by
      simp [executed_eq, hw, hm, hx]
    constructor <;> try rfl
    · exact h.move rfl rfl rfl rfl rfl rfl rfl (by rw [hA]) (by rw [hE]; exact h.results)
        (h.memoryHalf.congr rfl rfl rfl rfl rfl rfl rfl (by simp [hm]))
    · exact hr
    · exact hm
    · simp [tags_eq, hw, hm, hx]
    · simp [hc.1]
    · constructor
      · intro b; simp only [hc.2, false_and, if_false]; rfl
      · simp [hc, hm]
      · rfl
      · intro ha; rcases ha with ha | ha <;> simp [ha] at hc
      · intros; rfl
      · intro ha; rcases ha with ha | ha <;> simp [ha] at hc
      · intro; rfl
      · intro; exact ⟨rfl, rfl, rfl, rfl, rfl⟩

/-- A hit at issue. -/
theorem Inv.hit (h : Inv s k) (hr : s.status = .running) (hw : s.lMW = none)
    (hm : s.missInst = none) (hx : s.lXM = some r) (hc : r.accesses)
    (ha : r.addr % r.instr.accessBytes = 0) (hit : isHit s r.addr = true) :
    ∃ t, memoryStage s = .next t ∧ Done k r s t := by
  have g := geometryFacts h.config
  have hacc := performHit_accessed (s := { s with lXM := none }) g h.blocks hc ha hit
  obtain ⟨t1, q, hq⟩ : ∃ t1 q, performHit r { s with lXM := none } = (t1, q) := ⟨_, _, rfl⟩
  rw [hq] at hacc
  dsimp only at hacc
  have hf := hacc.frame
  have hrun : t1.status = .running := by rw [hf]; exact hr
  have hmiss : t1.missInst = none := by rw [hf]; exact hm
  have hmw : t1.lMW = none := by rw [hf]; exact hw
  have hcf : t1.cfg = s.cfg := by rw [hf]
  have hskel : q.skeleton = r.skeleton := by rw [hacc.record]; rfl
  have hexr : k.execute r = r := h.results r (by simp [executed_eq, hx])
  have hexq : k.execute q = q := by
    rw [hacc.record]
    split
    · next hl => exact execute_setValue k r hl hexr _
    · exact hexr
  refine ⟨{ t1 with lMW := some q }, ?_, ?_⟩
  · rw [memoryStage_issue (h.pend_none hm) hm hw hx, issue_memory hc]
    have hcf' : cacheFree { s with lXM := none } = true := by simp [cacheFree, hm]
    have hal : misaligned r = false := by simp [misaligned, ha]
    have hh' : isHit { s with lXM := none } r.memAddr.toNat = true := hit
    simp only [cacheAccess, hcf', hal, hh', Bool.true_eq_false, Bool.false_eq_true, if_true, if_false, hq, deliver]
    rw [if_pos hrun, if_pos (by simp [cacheFree, hmiss])]
    simp [hmw]
  · have hadm : (admitted { t1 with lMW := some q }).map Rec.skeleton =
        (admitted s).map Rec.skeleton := by
      rw [hf]
      simp [admitted_eq, hw, hm, hx, hskel]
    constructor
    · refine h.move (by rw [hf]) (by rw [hf]) (by rw [hf]) (by rw [hf]) (by rw [hf]) (by rw [hf])
        (by rw [hf]) hadm ?_ ?_
      · intro p hp
        have hE := h.results
        rw [hf] at hp
        simp only [executed_eq, hm, hw, hx, Option.toList_none, Option.toList_some, List.nil_append,
          List.mem_append, List.mem_singleton] at hp hE
        rcases hp with rfl | hp
        · exact hexq
        · exact hE p (.inr hp)
      · constructor
        · have := h.pending; rw [hf]; exact this
        · intro p hp
          have : p ∈ s.missInst := by rw [hf] at hp; exact hp
          simp [hm] at this
        · intro hs
          have : s.missInst.isSome = true := by rw [hf] at hs; exact hs
          simp [hm] at this
        · exact hacc.blocks
    · exact hrun
    · exact hcf
    · rw [hf]
    · rw [hf]
    · rw [hf]
    · rw [hf]
    · rw [hf]
    · rw [hf]
    · exact hmiss
    · rw [hf]
      simp [tags_eq, hw, hm, hx, hacc.record, Rec.tag]
    · rw [hacc.record, coherentLE_congr (s := s) (t := { s with lXM := none }) (fun _ _ => rfl)]
    · constructor
      · exact hacc.coherent
      · show t1.stats = _
        rw [hacc.stats]
        have h0 : r.instr.cls = .load ∨ r.instr.cls = .store := hc
        simp [hm, h0]
      · rw [hf]
      · intro _; exact (hacc.present _).trans hit
      · exact hacc.others
      · intro _
        rw [hit, Bool.true_and]; exact hacc.dirty
      · intro _; rw [hf]
      · intro hn; exact absurd hc hn

/-- A miss at issue, of a block wholly in memory. -/
theorem Inv.missing (h : Inv s k) (hr : s.status = .running) (hw : s.lMW = none)
    (hm : s.missInst = none) (hx : s.lXM = some r) (hc : r.accesses)
    (ha : r.addr % r.instr.accessBytes = 0) (hit : isHit s r.addr = false)
    (hrange : blockAddr s.cfg r.addr + s.cfg.blockBytes ≤ s.cfg.memSize) :
    ∃ t, memoryStage s = .next t ∧ Missed k r s t := by
  have g := geometryFacts h.config
  have hpv := h.pend_none hm
  have hB := blockAddr_mod g r.addr
  have hlt : blockAddr s.cfg r.addr < 2 ^ 64 :=
    Nat.lt_of_le_of_lt (blockAddr_le _ _) r.memAddr.isLt
  obtain ⟨u, hu⟩ : ∃ u, u = markAccessed (blockAddr s.cfg r.addr / 8)
      ((blockAddr s.cfg r.addr + s.cfg.blockBytes) / 8 - blockAddr s.cfg r.addr / 8)
      (countMiss { { s with lXM := none } with missInst := some r }) := ⟨_, rfl⟩
  have hf : u = { s with
      lXM := none
      missInst := some r
      stats := { s.stats with numMisses := s.stats.numMisses + 1 }
      acc := u.acc } := by
    have key : ∀ k n (v : State), markAccessed k n v = { v with acc := (markAccessed k n v).acc } := by
      intro k n
      induction n generalizing k with
      | zero => intro v; rfl
      | succ n ih => intro v; rw [markAccessed, ih]
    rw [hu, key]
    rfl
  refine ⟨{ u with
      pendValid := true
      pendAddr := BitVec.ofNat 64 (blockAddr s.cfg r.addr)
      pendSize := s.cfg.blockBytes
      pendTick := s.tick + s.cfg.memLatency }, ?_, ?_⟩
  · rw [memoryStage_issue hpv hm hw hx, issue_memory hc]
    have hcf' : cacheFree { s with lXM := none } = true := by simp [cacheFree, hm]
    have hal : misaligned r = false := by simp [misaligned, ha]
    have hh' : isHit { s with lXM := none } r.memAddr.toNat = false := hit
    have hno : ¬ s.cfg.memSize < blockAddr s.cfg r.addr + s.cfg.blockBytes := by omega
    have hlb : loadBlock (blockAddr s.cfg r.addr) s.cfg.blockBytes
        (countMiss { { s with lXM := none } with missInst := some r }) =
        .next { u with
          pendValid := true
          pendAddr := BitVec.ofNat 64 (blockAddr s.cfg r.addr)
          pendSize := s.cfg.blockBytes
          pendTick := s.tick + s.cfg.memLatency } := by
      unfold loadBlock
      rw [if_neg (by simp [countMiss, hpv]), if_neg (by simp [hB]),
        if_neg (by simpa [countMiss] using hrange), ← hu]
      rfl
    simp only [cacheAccess, hcf', hal, hh', Bool.true_eq_false, Bool.false_eq_true, if_false]
    have hlb' := hlb
    unfold Rec.addr at hlb'
    rw [hlb']
    simp only [withRec, deliver]
    rw [if_pos (by rw [hf]; exact hr)]
    rw [if_neg (by simp [cacheFree]; rw [hf]; simp)]
  · have hI : Inv { u with
          pendValid := true
          pendAddr := BitVec.ofNat 64 (blockAddr s.cfg r.addr)
          pendSize := s.cfg.blockBytes
          pendTick := s.tick + s.cfg.memLatency } k := by
      rw [hf]
      refine h.move rfl rfl rfl rfl rfl rfl rfl ?_ ?_ ?_
      · simp [admitted_eq, hw, hm, hx]
      · intro p hp
        apply h.results p
        simpa [executed_eq, hw, hm, hx] using hp
      · constructor
        · rfl
        · intro p hp
          simp only [Option.mem_def, Option.some.injEq] at hp
          subst hp
          have h1 : isHit { s with
            lXM := none, missInst := some r,
            stats := { s.stats with numMisses := s.stats.numMisses + 1 }, acc := u.acc,
            pendValid := true, pendAddr := BitVec.ofNat 64 (blockAddr s.cfg r.addr),
            pendSize := s.cfg.blockBytes, pendTick := s.tick + s.cfg.memLatency } r.memAddr.toNat
              = false := hit
          have h2 : (decide (r.instr.cls = .load) || decide (r.instr.cls = .store)) = true := by
            simpa [Rec.accesses] using hc
          have h3 : misaligned r = false := by simp [misaligned, ha]
          simp only [missConsistent, h1, h2, h3]
          simpa [hrange] using hlt
        · intro _; exact hw
        · exact h.blocks
    refine ⟨hI, ?_, ?_, ?_, ?_, ?_, ?_, ?_, ?_, ?_, ?_, ?_, ?_, ?_, rfl, ?_, ?_⟩
    all_goals try (rw [hf]; done)
    · rw [hf]; exact hr
    · rw [hf]; exact hw
    · rw [hf]; simp [tags_eq, hw, hm, hx]
    · intro k
      have e : accessed { u with
          pendValid := true
          pendAddr := BitVec.ofNat 64 (blockAddr s.cfg r.addr)
          pendSize := s.cfg.blockBytes
          pendTick := s.tick + s.cfg.memLatency } k = accessed u k := rfl
      rw [e, hu, accessed_markAccessed]
      have h0 : blockAddr s.cfg r.addr / 8
          ≤ (blockAddr s.cfg r.addr + s.cfg.blockBytes) / 8 := Nat.div_le_div_right (by omega)
      rw [Nat.add_sub_cancel' h0]
      rfl

/-- An access that raises a Fatal at issue (R66, R73). -/
theorem Inv.stops (h : Inv s k) (hr : s.status = .running) (hw : s.lMW = none)
    (hm : s.missInst = none) (hx : s.lXM = some r) {c : FatalCode} (he : recordError s r = some c) :
    ∃ t, memoryStage s = .next t ∧ Stopped c s t := by
  have g := geometryFacts h.config
  have hpv := h.pend_none hm
  have hcf' : cacheFree { s with lXM := none } = true := by simp [cacheFree, hm]
  unfold recordError at he
  by_cases hc : r.instr.cls = .load ∨ r.instr.cls = .store
  · rw [if_pos hc] at he
    rw [memoryStage_issue hpv hm hw hx, issue_memory hc]
    by_cases ha : r.addr % r.instr.accessBytes ≠ 0
    · rw [if_pos ha] at he
      cases he
      have hal : misaligned r = true := by simp [misaligned, ha]
      refine ⟨raiseFatal .accessMisaligned { s with lXM := none }, ?_, ?_⟩
      · simp only [cacheAccess, hcf', hal, Bool.true_eq_false, if_false, if_true, deliver]
        rw [if_neg (by simp)]
      · exact ⟨rfl, rfl, rfl, rfl, rfl, rfl, rfl, rfl, rfl, rfl, rfl, rfl⟩
    · rw [if_neg ha] at he
      split at he
      · next hh =>
        cases he
        have hal : misaligned r = false := by simpa [misaligned] using ha
        have hh' : isHit { s with lXM := none } r.memAddr.toNat = false := hh.1
        have hB := blockAddr_mod g r.addr
        refine ⟨raiseFatal .accessOutOfRange
          (countMiss { { s with lXM := none } with missInst := some r }), ?_, ?_⟩
        · have hlb : loadBlock (blockAddr s.cfg r.memAddr.toNat) s.cfg.blockBytes
              (countMiss { { s with lXM := none } with missInst := some r }) =
              .next (raiseFatal .accessOutOfRange
                (countMiss { { s with lXM := none } with missInst := some r })) := by
            unfold loadBlock
            rw [if_neg (by simp [countMiss, hpv]), if_neg (by simpa using hB), if_pos (by simpa [countMiss] using hh.2)]
          simp only [cacheAccess, hcf', hal, hh', Bool.true_eq_false, Bool.false_eq_true, if_false, hlb,
            withRec, deliver]
          rw [if_neg (by simp)]
        · exact ⟨rfl, rfl, rfl, rfl, rfl, rfl, rfl, rfl, rfl, rfl, rfl, rfl⟩
      · cases he
  · rw [if_neg hc] at he
    cases he

/-- The response of the data memory (R67, R82 to R84, R87): the hierarchy answers the replayed record and
is free again. -/
theorem Inv.replayed (h : Inv s k) (hr : s.status = .running) (hm : s.missInst = some r)
    (ht : s.pendTick ≤ s.tick) : ∃ t q, cacheRun s = .next (t, some q, false)
      ∧ t.status = .running ∧ t.lMW = none ∧ t.lXM = s.lXM ∧ Done k r s { t with lMW := some q } := by
  have g := geometryFacts h.config
  have hpv : s.pendValid = true := by rw [h.pending, hm]; rfl
  have hw : s.lMW = none := h.missAlone (by rw [hm]; rfl)
  have hmc := h.miss r hm
  simp only [missConsistent, Bool.and_eq_true, Bool.or_eq_true, decide_eq_true_eq,
    Bool.not_eq_true'] at hmc
  obtain ⟨⟨⟨⟨⟨hc, hal⟩, hpa⟩, hps⟩, hrange⟩, hmiss⟩ := hmc
  have ha : r.addr % r.instr.accessBytes = 0 := by simpa [misaligned] using hal
  obtain ⟨s0, hs0⟩ : ∃ s0 : State, s0 = { s with pendValid := false } := ⟨_, rfl⟩
  have hdata : ∀ j < s0.cfg.blockBytes,
      (responseData s).read j = s0.img.read (blockAddr s0.cfg r.addr + j) := by
    intro j hj
    rw [hs0] at hj ⊢
    simp only [responseData, Memory.read_copy, hps, hpa] at hj ⊢
    rw [if_pos ⟨Nat.zero_le _, by simpa using hj⟩]
    simp
  have hb0 : ∀ set < numSets s0.cfg, blockConsistent s0 set = true := by rw [hs0]; exact h.blocks
  have hm0 : isHit s0 r.addr = false := by rw [hs0]; exact hmiss
  have hr0 : blockAddr s0.cfg r.addr + s0.cfg.blockBytes ≤ s0.cfg.memSize := by
    rw [hs0]; exact hrange
  have g0 : GeometryFacts s0.cfg := by rw [hs0]; exact g
  obtain ⟨s1, hs1⟩ : ∃ s1, s1 = installBlock r.addr (responseData s) (writeBackVictim r.addr s0) :=
    ⟨_, rfl⟩
  have hcf1 : s1.cfg = s0.cfg := by rw [hs1]; simp
  have hcoh : ∀ b, coherentByte s1 b = coherentByte s b := by
    intro b
    rw [hs1, coherentByte_response g0 hb0 hm0 _ hdata, hs0]
    rfl
  have hb1 : ∀ set < numSets s1.cfg, blockConsistent s1 set = true := by
    intro set hset
    rw [hcf1] at hset
    rw [hs1]
    exact blockConsistent_response g0 hb0 hr0 hm0 _ hdata set hset
  have hit1 : isHit s1 r.addr = true := by rw [hs1]; exact isHit_response g0 _
  have hfr1 : s1 = { s0 with blk := s1.blk, img := s1.img, stats := s1.stats } := by
    rw [hs1]
    unfold installBlock setBlk writeBackVictim
    split <;> rfl
  have hst1 : s1.stats = { s.stats with
      numWritebacks := s.stats.numWritebacks + if s.missInst.isSome = true
        ∧ (blockOf s r.addr).valid = true ∧ (blockOf s r.addr).dirty = true then 1 else 0 } := by
    rw [hs1, installBlock_stats]
    have e1 : blockOf s0 r.addr = blockOf s r.addr := by rw [hs0]; rfl
    have e2 : s0.stats = s.stats := by rw [hs0]
    unfold writeBackVictim
    rw [e1]
    by_cases hv : (blockOf s r.addr).valid = true ∧ (blockOf s r.addr).dirty = true
    · have hv' : ((blockOf s r.addr).valid && (blockOf s r.addr).dirty) = true := by
        simpa using hv
      rw [if_pos hv', if_pos ⟨by rw [hm]; rfl, hv⟩]
      simp [countWriteback, imgWriteBlock, e2]
    · have hv' : ¬ ((blockOf s r.addr).valid && (blockOf s r.addr).dirty) = true := by
        simpa using hv
      rw [if_neg hv', if_neg (fun hh => hv hh.2), e2]
      rfl
  have hacc := performHit_accessed (by rw [hcf1]; exact g0) hb1 hc ha hit1
  obtain ⟨t1, q, hq⟩ : ∃ t1 q, performHit r s1 = (t1, q) := ⟨_, _, rfl⟩
  rw [hq] at hacc
  dsimp only at hacc
  have hf := hacc.frame
  have hfull : t1 = { s with
      pendValid := false, blk := t1.blk, img := t1.img, stats := t1.stats } := by
    rw [hf, hfr1, hs0]
  have hrun : t1.status = .running := by rw [hfull]; exact hr
  have hmw : t1.lMW = none := by rw [hfull]; exact hw
  have hcf : t1.cfg = s.cfg := by rw [hfull]
  have hskel : q.skeleton = r.skeleton := by rw [hacc.record]; rfl
  have hexr : k.execute r = r := h.results r (by simp [executed_eq, hm])
  have hexq : k.execute q = q := by
    rw [hacc.record]
    split
    · next hl => exact execute_setValue k r hl hexr _
    · exact hexr
  have hset : ∀ set, set ≠ setIndex s.cfg r.addr → blkAt s1 set 0 = blkAt s set 0 := by
    intro set hset
    rw [hs1, blkAt_response g0.waysPos, if_neg (by rw [hs0]; exact hset), hs0]
    rfl
  refine ⟨{ t1 with missInst := none }, q, ?_, hrun, hmw, by rw [hfull], ?_⟩
  · rw [cacheRun_response hpv ht hm]
    have hrep : replay r (installBlock r.memAddr.toNat (responseData s)
        (writeBackVictim r.memAddr.toNat { s with pendValid := false })) = .next (t1, q) := by
      rw [← hs0, ← hs1]
      unfold replay
      rw [hal, if_neg (by simp), if_pos hit1, hq]
    rw [hrep]
    simp only [releaseMiss]
    rw [if_pos hrun]
    rfl
  · have hadm : (admitted { t1 with missInst := none, lMW := some q }).map Rec.skeleton =
        (admitted s).map Rec.skeleton := by
      rw [hfull]
      simp [admitted_eq, hw, hm, hskel]
    constructor
    · refine h.move (by rw [hfull]) (by rw [hfull]) (by rw [hfull]) (by rw [hfull]) (by rw [hfull])
        (by rw [hfull]) (by rw [hfull]) hadm ?_ ?_
      · intro p hp
        have hE := h.results
        rw [hfull] at hp
        simp only [executed_eq, hm, hw, Option.toList_none, Option.toList_some, List.nil_append,
          List.mem_append, List.mem_singleton] at hp hE
        rcases hp with rfl | hp
        · exact hexq
        · exact hE p (.inr hp)
      · constructor
        · rw [hfull]; rfl
        · intro p hp; cases hp
        · intro hs; cases hs
        · intro set hset'
          have : blockConsistent { t1 with missInst := none, lMW := some q } set
            = blockConsistent t1 set := rfl
          rw [this]
          exact hacc.blocks set hset'
    · exact hrun
    · exact hcf
    · rw [hfull]
    · rw [hfull]
    · rw [hfull]
    · rw [hfull]
    · rw [hfull]
    · rw [hfull]
    · rfl
    · rw [hfull]
      simp [tags_eq, hw, hm, hacc.record, Rec.tag]
    · rw [hacc.record, coherentLE_congr (s := s) (t := s1) (fun _ _ => hcoh _)]
    · constructor
      · intro b
        rw [← hcoh b]
        exact hacc.coherent b
      · show t1.stats = _
        rw [hacc.stats, hst1]
        have h0 : r.instr.cls = .load ∨ r.instr.cls = .store := hc
        simp [h0]
      · rw [hfull]
      · intro _; exact (hacc.present _).trans hit1
      · intro set hs'
        rw [← hset set hs']
        exact hacc.others set (by rw [hcf1, hs0]; exact hs')
      · intro _
        have hd := hacc.dirty
        have hd1 : (blockOf s1 r.addr).dirty = false := by
          rw [blockOf, hcf1, hs1, blkAt_response g0.waysPos, if_pos rfl]
        rw [hd1] at hd
        rw [hmiss, Bool.false_and]
        exact hd
      · intro hn; rw [hm] at hn; cases hn
      · intro hn; exact absurd hc hn

/-- The response as the memory stage takes it (R158). -/
theorem Inv.response (h : Inv s k) (hr : s.status = .running) (hm : s.missInst = some r)
    (ht : s.pendTick ≤ s.tick) : ∃ t, memoryStage s = .next t ∧ Done k r s t := by
  obtain ⟨t, q, e, hs, hw, -, D⟩ := h.replayed hr hm ht
  exact ⟨_, memoryStage_replayed e hs hw, D⟩

/-- The memory stage has nothing to do. -/
theorem Inv.resting (h : Inv s k) (hn : s.missInst = none → s.lXM = none)
    (hm : s.missInst ≠ none → s.tick < s.pendTick) : memoryStage s = .next s := by
  apply memoryStage_idle
  · cases hq : s.missInst with
    | none => exact .inl (h.pend_none hq)
    | some q => exact .inr (hm (by simp [hq]))
  · by_cases hq : s.missInst = none
    · exact .inl (hn hq)
    · exact .inr hq

end

end Sys2Proof.Machine
end

