-- ==== Sys2Proof/Laws/Passage.lean ====
section
/-! SUPPORT. The passage of the next instruction to its retirement, which is the meaning every
instruction shares: what it does, whatever else is in flight (40_pipeline_control.md R190). -/

namespace Sys2Proof.Machine

/-! ## The record and the sequential reading -/

theorem oldest_of_tags {s : State} {i : Instr} {a p : Word}
    (h : (tags s).head? = some (i, a, p)) :
    ∃ r, oldest s = some r ∧ r.instr = i ∧ r.pc = a ∧ r.predTarget = p := by
  rw [tags, List.head?_map, ← oldest_eq] at h
  cases ho : oldest s with
  | none => rw [ho] at h; cases h
  | some r =>
    rw [ho] at h
    simp only [Option.map_some, Rec.tag, Option.some.injEq, Prod.mk.injEq] at h
    exact ⟨r, rfl, h.1, h.2.1, h.2.2⟩

theorem tags_of_oldest {s : State} {r : Rec} (h : oldest s = some r) :
    (tags s).head? = some (r.instr, r.pc, r.predTarget) := by
  rw [tags, List.head?_map, ← oldest_eq, h]
  rfl

/-- What a record in flight carries is what its instruction computes in program order (R162, R190). -/
structure SeqRecord (i : Instr) (s0 : State) (r : Rec) : Prop where
  instr : r.instr = i
  pc : r.pc = archPc s0
  rs2Val : r.rs2Val = (seqRecord i s0).rs2Val
  jump : r.jumpTarget = (readOperands s0 (Rec.fresh i (archPc s0))).jumpTarget

/-- The same, after `Exec`. -/
structure SeqExecuted (k : Collaborators) (i : Instr) (s0 : State) (r : Rec) : Prop extends SeqRecord i s0 r where
  rdVal : i.cls = .alu ∨ i.cls = .muldiv ∨ i.cls = .jump → r.rdVal = (seqRecord i s0 k).rdVal
  addr : i.cls = .load ∨ i.cls = .store → r.addr = seqAddress i s0
  outcome : i.cls = .branch → r.actTarget = (seqRecord i s0 k).actTarget

section
variable {k : Collaborators} {s s0 : State} {r : Rec} {i : Instr}

theorem seqExecuted (h : Inv s k) (hx : s.x = s0.x) (hr : r ∈ executed s) (hi : r.instr = i)
    (hp : r.pc = archPc s0) : SeqExecuted k i s0 r := by
  have hadm : r ∈ admitted s := by
    rw [admitted_eq_executed]; exact List.mem_append_left _ hr
  have ho := h.operands r hadm
  rw [operandsCurrent_congr hx, operandsCurrent_iff] at ho
  have he := h.results r hr
  subst hi
  have hk := execute_congr k (q := r) (r := readOperands s0 (Rec.fresh r.instr (archPc s0)))
    rfl hp ho.1 ho.2
  rw [he] at hk
  refine ⟨⟨rfl, hp, ?_, hk.2.2.2⟩, hk.1, fun hc => ?_, fun hb => (hk.2.2.1 hb).2⟩
  · rw [ho.2, seqRecord, execute_rs2Val]; rfl
  · have e : ∀ k : Collaborators, (k.execute (readOperands s0 (Rec.fresh r.instr (archPc s0)))).memAddr =
        _ := fun k => execute_memAddr k _ hc
    rw [Rec.addr, hk.2.1 hc, e, seqAddress, seqRecord, e]

end

/-! ## On the way -/

/-- Whether a miss came up on the way from `s0` to `s`. -/
def missedSince (s0 s : State) : Bool := s.missInst.isSome && s0.missInst.isNone

/-- The block is on the way with `i`, its oldest instruction, since `s0`; `i` has not reached L_MW. -/
structure Underway (k : Collaborators) (i : Instr) (s0 s : State) : Prop where
  inv : Inv s k
  status : s.status = .running
  lMW : s.lMW = none
  cfg : s.cfg = s0.cfg
  prog : s.prog = s0.prog
  x : s.x = s0.x
  blk : s.blk = s0.blk
  img : s.img = s0.img
  bht : s.bht = s0.bht
  pht : s.pht = s0.pht
  btb : s.btb = s0.btb
  front : ∃ p, (tags s).head? = some (i, archPc s0, p)
    ∧ (i.cls = .branch → s0.cfg.predEnabled = true → p = predictedNext s0 k)
  stats : ∃ n, s0.stats.numStalls ≤ n ∧ s.stats = { s0.stats with
    numStalls := n
    numMisses := s0.stats.numMisses + if missedSince s0 s = true then 1 else 0 }
  kept : s0.missInst.isSome = true → s.missInst.isSome = true
  acc : ∀ k, accessed s k =
    (accessed s0 k || (missedSince s0 s && inBlock s0.cfg (seqAddress i s0) k))
  accSame : missedSince s0 s = false → s.acc = s0.acc
  pend : s.missInst = none → s.pendAddr = s0.pendAddr ∧ s.pendSize = s0.pendSize
    ∧ s.pendTick = s0.pendTick

/-- `i`, the oldest instruction since `s0`, is in L_MW. -/
structure Arrived (k : Collaborators) (i : Instr) (s0 s : State) : Prop where
  inv : Inv s k
  status : s.status = .running
  cfg : s.cfg = s0.cfg
  prog : s.prog = s0.prog
  x : s.x = s0.x
  bht : s.bht = s0.bht
  pht : s.pht = s0.pht
  btb : s.btb = s0.btb
  missInst : s.missInst = none
  record : ∃ q, s.lMW = some q ∧ SeqExecuted k i s0 q
    ∧ (i.cls = .branch → s0.cfg.predEnabled = true → q.predTarget = predictedNext s0 k)
    ∧ (i.cls = .load → q.rdVal = seqValue i s0 k)
  noError : accessError i s0 = none
  coherent : ∀ b, coherentByte s b = seqByte i s0 b
  stats : ∃ n, s0.stats.numStalls ≤ n ∧ s.stats = { s0.stats with
    numStalls := n
    numAccesses := s0.stats.numAccesses + if i.cls = .load ∨ i.cls = .store then 1 else 0
    numLoads := s0.stats.numLoads + if i.cls = .load then 1 else 0
    numStores := s0.stats.numStores + if i.cls = .store then 1 else 0
    numMisses := s0.stats.numMisses +
      if (i.cls = .load ∨ i.cls = .store) ∧ isHit s0 (seqAddress i s0) = false ∧ s0.missInst = none
      then 1 else 0
    numWritebacks := s0.stats.numWritebacks +
      if (i.cls = .load ∨ i.cls = .store) ∧ isHit s0 (seqAddress i s0) = false
        ∧ (blockOf s0 (seqAddress i s0)).valid = true ∧ (blockOf s0 (seqAddress i s0)).dirty = true
      then 1 else 0 }
  acc : ∀ k, accessed s k = (accessed s0 k ||
    (decide ((i.cls = .load ∨ i.cls = .store) ∧ isHit s0 (seqAddress i s0) = false
      ∧ s0.missInst = none) && inBlock s0.cfg (seqAddress i s0) k))
  present : i.cls = .load ∨ i.cls = .store → isHit s (seqAddress i s0) = true
  others : ∀ set, set ≠ setIndex s0.cfg (seqAddress i s0) → blkAt s set 0 = blkAt s0 set 0
  dirty : i.cls = .load ∨ i.cls = .store → (blockOf s (seqAddress i s0)).dirty =
    (decide (i.cls = .store)
      || (isHit s0 (seqAddress i s0) && (blockOf s0 (seqAddress i s0)).dirty))
  image : isHit s0 (seqAddress i s0) = true → s.img = s0.img
  untouched : ¬ (i.cls = .load ∨ i.cls = .store) → s.blk = s0.blk ∧ s.img = s0.img ∧ s.acc = s0.acc
    ∧ s.pendAddr = s0.pendAddr ∧ s.pendSize = s0.pendSize ∧ s.pendTick = s0.pendTick

/-- How many more ticks a record under way needs at most to reach L_MW. -/
def remaining (s : State) : Nat :=
  if s.missInst.isSome then (s.pendTick - s.tick) + 1 else wait s

section
variable {k : Collaborators} {s s0 t u : State} {r : Rec} {i : Instr}

theorem endOfTick_busy (h : tags s ≠ []) : endOfTick s = { s with tick := s.tick + 1 } := by
  have : drained s ≠ true := fun hd => h ((drained_of_tags s).1 hd)
  unfold endOfTick
  rw [if_neg this]

theorem head?_append_of_some {α : Type} {l L : List α} {a : α} (h : l.head? = some a) :
    (l ++ L).head? = some a := by
  cases l with
  | nil => cases h
  | cons b l => exact h

theorem ne_nil_of_head? {α : Type} {l : List α} {a : α} (h : l.head? = some a) : l ≠ [] := by
  intro hn; rw [hn] at h; cases h

theorem Underway.after (U : Underway k i s0 s) (c : Calm s t) (hi : Inv (endOfTick t) k)
    (hg : ∃ L, tags t = tags s ++ L) : Underway k i s0 (endOfTick t) := by
  obtain ⟨p, hp, hb⟩ := U.front
  obtain ⟨L, hL⟩ := hg
  have hh : (tags t).head? = some (i, archPc s0, p) := by rw [hL]; exact head?_append_of_some hp
  have e := endOfTick_busy (ne_nil_of_head? hh)
  have hms : missedSince s0 (endOfTick t) = missedSince s0 s := by
    rw [e]; simp only [missedSince, c.missInst]
  rw [e] at hi hms ⊢
  constructor
  · exact hi
  · exact c.status.trans U.status
  · exact c.lMW.trans U.lMW
  · exact c.cfg.trans U.cfg
  · exact c.prog.trans U.prog
  · exact c.x.trans U.x
  · exact c.blk.trans U.blk
  · exact c.img.trans U.img
  · exact c.bht.trans U.bht
  · exact c.pht.trans U.pht
  · exact c.btb.trans U.btb
  · exact ⟨p, hh, hb⟩
  · obtain ⟨n, hn, en⟩ := U.stats
    obtain ⟨m, hm, em⟩ := c.stats
    rw [en] at hm em
    exact ⟨m, Nat.le_trans hn hm, by rw [hms]; exact em⟩
  · intro h0
    exact (congrArg Option.isSome c.missInst).trans (U.kept h0)
  · intro k
    rw [hms, ← U.acc k]
    simp only [accessed, c.acc]
  · rw [hms]
    intro h0
    exact c.acc.trans (U.accSame h0)
  · intro h0
    have h1 := U.pend (c.missInst.symm.trans h0)
    exact ⟨c.pendAddr.trans h1.1, c.pendSize.trans h1.2.1, c.pendTick.trans h1.2.2⟩

theorem Underway.blkAt (U : Underway k i s0 s) (set : Nat) :
    Machine.blkAt s set 0 = Machine.blkAt s0 set 0 := by
  simp [Machine.blkAt, U.cfg, U.blk]

theorem Underway.hit (U : Underway k i s0 s) (a : Nat) : isHit s a = isHit s0 a :=
  isHit_congr U.cfg U.blk a

theorem Underway.byte (U : Underway k i s0 s) (a : Nat) : coherentByte s a = coherentByte s0 a :=
  coherentByte_congr U.cfg U.blk U.img a

theorem Underway.blockOf (U : Underway k i s0 s) (a : Nat) :
    Machine.blockOf s a = Machine.blockOf s0 a := by
  simp [Machine.blockOf, U.cfg, U.blkAt]

theorem Underway.seq (U : Underway k i s0 s) (ho : oldest s = some r) (hr : r ∈ executed s) :
    SeqExecuted k i s0 r
      ∧ (i.cls = .branch → s0.cfg.predEnabled = true → r.predTarget = predictedNext s0 k) := by
  obtain ⟨p, hp, hb⟩ := U.front
  have := tags_of_oldest ho
  rw [hp] at this
  simp only [Option.some.injEq, Prod.mk.injEq] at this
  obtain ⟨h1, h2, h3⟩ := this
  exact ⟨seqExecuted U.inv U.x hr h1.symm h2.symm, fun hc he => h3 ▸ hb hc he⟩

/-- A record that went on to L_MW has arrived, and the rest of the tick leaves that alone. -/
theorem Underway.arrive (U : Underway k i s0 s) (ho : oldest s = some r) (hr : r ∈ executed s)
    (D : Done k r s t) (c : Calm t u) (hi : Inv (endOfTick u) k) (hg : ∃ L, tags u = tags t ++ L)
    (herr : s.missInst = none → recordError s r = none)
    (hmiss : s.missInst.isSome = true → r.accesses ∧ isHit s r.addr = false
      ∧ recordError s r = none)
    (hclass : s.missInst = none → r.accesses → isHit s r.addr = true) :
    Arrived k i s0 (endOfTick u) := by
  obtain ⟨S, hpred⟩ := U.seq ho hr
  have hinstr := S.instr
  have hacc : r.accesses ↔ (i.cls = .load ∨ i.cls = .store) := by rw [Rec.accesses, hinstr]
  obtain ⟨p, hp, -⟩ := U.front
  obtain ⟨L, hL⟩ := hg
  have hh : (tags u).head? = some (i, archPc s0, p) := by
    rw [hL, D.tags]; exact head?_append_of_some hp
  have e := endOfTick_busy (ne_nil_of_head? hh)
  have hcoh : ∀ b, coherentByte { u with tick := u.tick + 1 } b = coherentByte t b := fun b =>
    coherentByte_congr c.cfg c.blk c.img b
  have hblk : ∀ set, Machine.blkAt { u with tick := u.tick + 1 } set 0 = Machine.blkAt t set 0 := by
    intro set; simp [Machine.blkAt, c.cfg, c.blk]
  have hrecerr : recordError s r = none := by
    cases hm : s.missInst with
    | none => exact herr hm
    | some q => exact (hmiss (by rw [hm]; rfl)).2.2
  have hmissed : (i.cls = .load ∨ i.cls = .store) →
      (s.missInst.isSome = true ↔ isHit s0 (seqAddress i s0) = false) := by
    intro hc
    rw [← U.hit, ← S.addr hc]
    constructor
    · intro hm; exact (hmiss hm).2.1
    · intro hh0
      cases hm : s.missInst with
      | some q => rfl
      | none =>
        have := hclass hm (hacc.2 hc)
        rw [hh0] at this; cases this
  have hnomiss : ¬ (i.cls = .load ∨ i.cls = .store) → s.missInst = none := by
    intro hc
    cases hm : s.missInst with
    | none => rfl
    | some q => exact absurd (hacc.1 (hmiss (by rw [hm]; rfl)).1) hc
  have hsince : missedSince s0 s = decide ((i.cls = .load ∨ i.cls = .store)
      ∧ isHit s0 (seqAddress i s0) = false ∧ s0.missInst = none) := by
    rw [Bool.eq_iff_iff, decide_eq_true_eq, missedSince, Bool.and_eq_true, Option.isNone_iff_eq_none]
    constructor
    · rintro ⟨h1, h2⟩
      have hc := hacc.1 (hmiss h1).1
      exact ⟨hc, (hmissed hc).1 h1, h2⟩
    · rintro ⟨hc, h1, h2⟩
      exact ⟨(hmissed hc).2 h1, h2⟩
  rw [e] at hi ⊢
  constructor
  · exact hi
  · exact c.status.trans D.status
  · exact c.cfg.trans (D.cfg.trans U.cfg)
  · exact c.prog.trans (D.prog.trans U.prog)
  · exact c.x.trans (D.x.trans U.x)
  · exact c.bht.trans (D.bht.trans U.bht)
  · exact c.pht.trans (D.pht.trans U.pht)
  · exact c.btb.trans (D.btb.trans U.btb)
  · exact c.missInst.trans D.missInst
  · refine ⟨_, c.lMW.trans D.record, ?_, hpred, ?_⟩
    · refine ⟨⟨hinstr, S.pc, S.rs2Val, ?_⟩, ?_, S.addr, S.outcome⟩
      · rw [← S.jump]; rfl
      · intro hc
        have : r.instr.cls ≠ .load := by
          rw [hinstr]; rcases hc with hc | hc | hc <;> rw [hc] <;> decide
        rw [if_neg this]
        exact S.rdVal hc
    · intro hc
      have : r.instr.cls = .load := by rw [hinstr]; exact hc
      rw [if_pos this, seqValue, if_pos hc, S.addr (.inl hc), hinstr]
      rw [coherentLE_congr (s := s0) (t := s) (fun _ _ => U.byte _)]
  · have h1 := hrecerr
    unfold recordError at h1
    unfold accessError
    by_cases hc : i.cls = .load ∨ i.cls = .store
    · rw [if_pos hc]
      rw [if_pos (by rw [hinstr]; exact hc), S.addr hc, U.hit, U.cfg, hinstr] at h1
      exact h1
    · rw [if_neg hc]
  · intro b
    rw [hcoh, D.landed.coherent, seqByte, storesTo, U.byte, hinstr]
    by_cases hc : i.cls = .store
    · rw [S.addr (.inr hc), S.rs2Val]
      simp [hc]
    · simp [hc]
  · obtain ⟨n, hn, en⟩ := U.stats
    obtain ⟨m, hm, em⟩ := c.stats
    rw [D.landed.stats, en] at hm em
    refine ⟨m, Nat.le_trans hn hm, ?_⟩
    show u.stats = _
    rw [em, hsince, hinstr, U.blockOf]
    by_cases hc : i.cls = .load ∨ i.cls = .store
    · rw [S.addr hc]
      have h1 := hmissed hc
      have h2 : (s.missInst.isSome = true
          ∧ (Machine.blockOf s0 (seqAddress i s0)).valid = true
          ∧ (Machine.blockOf s0 (seqAddress i s0)).dirty = true) ↔
        ((i.cls = .load ∨ i.cls = .store) ∧ isHit s0 (seqAddress i s0) = false
          ∧ (Machine.blockOf s0 (seqAddress i s0)).valid = true
          ∧ (Machine.blockOf s0 (seqAddress i s0)).dirty = true) := by
        rw [h1]; exact ⟨fun h => ⟨hc, h⟩, fun h => h.2⟩
      simp only [h2, decide_eq_true_eq]
    · have h1 := hnomiss hc
      simp [hc, h1]
  · intro k
    rw [← hsince, ← U.acc k]
    simp only [accessed, c.acc, D.landed.acc]
  · intro hc
    rw [← S.addr hc]
    exact (isHit_congr (s := t) c.cfg c.blk _).trans (D.landed.present (hacc.2 hc))
  · intro set hset
    rw [hblk, ← U.blkAt]
    by_cases hc : i.cls = .load ∨ i.cls = .store
    · exact D.landed.others set (by rw [U.cfg, S.addr hc]; exact hset)
    · have := (D.landed.untouched (fun h => hc (hacc.1 h))).1
      simp [Machine.blkAt, D.cfg, this]
  · intro hc
    have h1 := D.landed.dirty (hacc.2 hc)
    rw [S.addr hc, U.hit, U.blockOf, hinstr] at h1
    have hb : Machine.blockOf { u with tick := u.tick + 1 } (seqAddress i s0) =
        Machine.blockOf t (seqAddress i s0) :=
      (hblk _).trans (by
        rw [show ({ u with tick := u.tick + 1 } : State).cfg = t.cfg from c.cfg]; rfl)
    rw [← h1, hb]
  · intro hh0
    have hm : s.missInst = none := by
      by_cases hc : i.cls = .load ∨ i.cls = .store
      · cases hm : s.missInst with
        | none => rfl
        | some q =>
          have := (hmissed hc).1 (by rw [hm]; rfl)
          rw [hh0] at this; cases this
      · exact hnomiss hc
    exact c.img.trans ((D.landed.image hm).trans U.img)
  · intro hc
    obtain ⟨h1, h2, h3, h4, h5⟩ := D.landed.untouched (fun h => hc (hacc.1 h))
    have hm := hnomiss hc
    obtain ⟨h6, h7, h8⟩ := U.pend hm
    have hs0 : missedSince s0 s = false := by simp [missedSince, hm]
    exact ⟨c.blk.trans (h1.trans U.blk), c.img.trans (h2.trans U.img),
      c.acc.trans (D.landed.acc.trans (U.accSame hs0)), c.pendAddr.trans (h3.trans h6),
      c.pendSize.trans (h4.trans h7), c.pendTick.trans (h5.trans h8)⟩

/-- A Fatal of the next instruction, raised since `s0`. -/
structure Failed (i : Instr) (s0 t : State) : Prop where
  error : ∃ c, accessError i s0 = some c ∧ t.status = .fatal c
    ∧ ∃ n, s0.stats.numStalls ≤ n ∧ t.stats = { s0.stats with
      numStalls := n
      numMisses := s0.stats.numMisses + if c = .accessOutOfRange then 1 else 0 }
  cfg : t.cfg = s0.cfg
  prog : t.prog = s0.prog
  x : t.x = s0.x
  blk : t.blk = s0.blk
  img : t.img = s0.img
  acc : t.acc = s0.acc
  bht : t.bht = s0.bht
  pht : t.pht = s0.pht
  btb : t.btb = s0.btb

theorem Underway.fail (U : Underway k i s0 s) (ho : oldest s = some r) (hr : r ∈ executed s)
    (hm : s.missInst = none) {c : FatalCode} (he : recordError s r = some c)
    (T : Stopped c s t) : Failed i s0 t := by
  obtain ⟨S, -⟩ := U.seq ho hr
  have hs0 : missedSince s0 s = false := by simp [missedSince, hm]
  constructor
  · refine ⟨c, ?_, T.status, ?_⟩
    swap
    · obtain ⟨n, hn, en⟩ := U.stats
      exact ⟨n, hn, by rw [T.stats, en, hs0]; rfl⟩
    unfold recordError at he
    unfold accessError
    rw [S.instr] at he
    by_cases hc : i.cls = .load ∨ i.cls = .store
    · rw [if_pos hc, S.addr hc, U.hit, U.cfg] at he
      rw [if_pos hc]
      exact he
    · rw [if_neg hc] at he; cases he
  · exact T.cfg.trans U.cfg
  · exact T.prog.trans U.prog
  · exact T.x.trans U.x
  · exact T.blk.trans U.blk
  · exact T.img.trans U.img
  · exact T.acc.trans (U.accSame hs0)
  · exact T.bht.trans U.bht
  · exact T.pht.trans U.pht
  · exact T.btb.trans U.btb

/-- Underway after a miss of the record in L_XM. -/
theorem Underway.miss (U : Underway k i s0 s) (ho : oldest s = some r) (hr : r ∈ executed s)
    (hm : s.missInst = none) (hc : r.accesses) (M : Missed k r s t) : Underway k i s0 t := by
  obtain ⟨S, -⟩ := U.seq ho hr
  have hacc : i.cls = .load ∨ i.cls = .store := by rw [← S.instr]; exact hc
  have hs0 : missedSince s0 s = false := by simp [missedSince, hm]
  have h0 : s0.missInst = none := by
    cases h0 : s0.missInst with
    | none => rfl
    | some q =>
      have := U.kept (by rw [h0]; rfl)
      rw [hm] at this; cases this
  have ht : missedSince s0 t = true := by simp [missedSince, M.missInst, h0]
  constructor
  · exact M.inv
  · exact M.status
  · exact M.lMW
  · exact M.cfg.trans U.cfg
  · exact M.prog.trans U.prog
  · exact M.x.trans U.x
  · exact M.blk.trans U.blk
  · exact M.img.trans U.img
  · exact M.bht.trans U.bht
  · exact M.pht.trans U.pht
  · exact M.btb.trans U.btb
  · rw [M.tags]; exact U.front
  · obtain ⟨n, hn, en⟩ := U.stats
    refine ⟨n, hn, ?_⟩
    rw [M.stats, en, hs0, ht]
    rfl
  · intro h; rw [M.missInst]; rfl
  · intro k
    rw [M.acc, ht, Bool.true_and, inBlock, ← S.addr hacc, U.cfg]
    have := U.acc k
    rw [hs0, Bool.false_and, Bool.or_false] at this
    rw [this]
  · rw [ht]; intro h; cases h
  · intro h; rw [M.missInst] at h; cases h

/-- One tick on: the instruction arrives, or comes closer, or stops with its Fatal. -/
theorem Underway.tick (U : Underway k i s0 s) {src : Word → Delivery}
    (hs : ∀ pc w, src pc ≠ .unadmitted w) :
    ∃ t, restOfTickFrom src s k = .next t ∧
      (Arrived k i s0 t ∨ (Underway k i s0 t ∧ remaining t < remaining s) ∨ Failed i s0 t) := by
  have h := U.inv
  have hfront := U.front
  -- the stages after a memory stage that kept `i` under way
  have onward : ∀ s1, memoryStage s = .next s1 → Underway k i s0 s1 →
      (s1.missInst = none → s1.lXM = none ∧ wait s1 ≤ remaining s) →
      (s1.missInst.isSome = true → (s1.pendTick - (s1.tick + 1)) + 1 < remaining s) →
      ∃ t, restOfTickFrom src s k = .next t ∧
        (Arrived k i s0 t ∨ (Underway k i s0 t ∧ remaining t < remaining s) ∨ Failed i s0 t) := by
    intro s1 e1 U1 hw1 hm1
    obtain ⟨t, et, hi, c, hg, hw, -⟩ := after_memory U1.inv U1.status hs
    have Ut := U1.after c hi hg
    refine ⟨endOfTick t, ?_, .inr (.inl ⟨Ut, ?_⟩)⟩
    · rw [restOfTickFrom_eq, e1, andThen_running U1.status, et]
    · obtain ⟨p, hp, -⟩ := Ut.front
      have hne : tags t ≠ [] := by
        rw [← tags_endOfTick]; exact ne_nil_of_head? hp
      have eb := endOfTick_busy hne
      unfold remaining
      cases hm : s1.missInst with
      | none =>
        have hmt : (endOfTick t).missInst = none := by
          rw [endOfTick_missInst, c.missInst, hm]
        obtain ⟨hx1, hle⟩ := hw1 hm
        obtain ⟨p1, hp1, -⟩ := U1.front
        rw [hmt]
        exact Nat.lt_of_lt_of_le (hw hx1 hm U1.lMW (ne_nil_of_head? hp1)) hle
      | some q =>
        have hmt : (endOfTick t).missInst = some q := by
          rw [endOfTick_missInst, c.missInst, hm]
        have h1 := hm1 (by rw [hm]; rfl)
        rw [hmt]
        simp only [Option.isSome_some, if_true]
        rw [eb]
        show t.pendTick - (t.tick + 1) + 1 < _
        rw [c.pendTick, c.tick]
        exact h1
  -- the stages after a memory stage that brought `i` to L_MW
  have landing : ∀ s1 r, memoryStage s = .next s1 → Done k r s s1 → oldest s = some r →
      r ∈ executed s → (s.missInst = none → recordError s r = none) →
      (s.missInst.isSome = true → r.accesses ∧ isHit s r.addr = false ∧ recordError s r = none) →
      (s.missInst = none → r.accesses → isHit s r.addr = true) →
      ∃ t, restOfTickFrom src s k = .next t ∧
        (Arrived k i s0 t ∨ (Underway k i s0 t ∧ remaining t < remaining s) ∨ Failed i s0 t) := by
    intro s1 r e1 D ho hr h1 h2 h3
    obtain ⟨t, et, hi, c, hg, -, -⟩ := after_memory D.inv D.status hs
    refine ⟨endOfTick t, ?_, .inl (U.arrive ho hr D c hi hg h1 h2 h3)⟩
    rw [restOfTickFrom_eq, e1, andThen_running D.status, et]
  obtain hm | ⟨r, hm⟩ := Option.eq_none_or_eq_some s.missInst
  · have hrem : remaining s = wait s := by simp [remaining, hm]
    obtain hx | ⟨r, hx⟩ := Option.eq_none_or_eq_some s.lXM
    · -- nothing for the memory stage
      refine onward s (h.resting (fun _ => hx) (fun hn => absurd hm hn)) U (fun _ => ⟨hx, ?_⟩) ?_
      · rw [hrem]
      · rw [hm]; intro hn; cases hn
    · have ho : oldest s = some r := by simp [oldest, U.lMW, hm, hx]
      have hr : r ∈ executed s := by simp [executed_eq, hx]
      cases he : recordError s r with
      | some c =>
        obtain ⟨t, et, T⟩ := h.stops U.status U.lMW hm hx he
        refine ⟨t, ?_, .inr (.inr (U.fail ho hr hm he T))⟩
        rw [restOfTickFrom_eq, et, andThen_stopped (by rw [T.status]; simp)]
      | none =>
        by_cases hc : r.accesses
        · have hc' : r.instr.cls = .load ∨ r.instr.cls = .store := hc
          unfold recordError at he
          rw [if_pos hc'] at he
          have ha : r.addr % r.instr.accessBytes = 0 := by
            by_cases ha : r.addr % r.instr.accessBytes = 0
            · exact ha
            · rw [if_pos ha] at he; cases he
          rw [if_neg (by simp [ha])] at he
          have hrec : recordError s r = none := by
            unfold recordError
            rw [if_pos hc', if_neg (by simp [ha])]
            exact he
          cases hit : isHit s r.addr with
          | true =>
            obtain ⟨t, et, D⟩ := h.hit U.status U.lMW hm hx hc ha hit
            exact landing t r et D ho hr (fun _ => hrec) (by rw [hm]; intro hn; cases hn)
              (fun _ _ => hit)
          | false =>
            have hrange : blockAddr s.cfg r.addr + s.cfg.blockBytes ≤ s.cfg.memSize := by
              by_contra hn
              rw [if_pos ⟨hit, by omega⟩] at he
              cases he
            obtain ⟨t, et, M⟩ := h.missing U.status U.lMW hm hx hc ha hit hrange
            refine onward t et (U.miss ho hr hm hc M) ?_ ?_
            · rw [M.missInst]; intro hn; cases hn
            · intro _
              rw [hrem, M.pendTick, M.tick]
              simp only [wait, hx, Option.isSome_some, if_true]
              omega
        · obtain ⟨t, et, D⟩ := h.pass U.status U.lMW hm hx hc
          exact landing t r et D ho hr (fun _ => he) (by rw [hm]; intro hn; cases hn)
            (fun _ hacc => absurd hacc hc)
  · have ho : oldest s = some r := by simp [oldest, U.lMW, hm]
    have hr : r ∈ executed s := by simp [executed_eq, hm]
    by_cases ht : s.pendTick ≤ s.tick
    · obtain ⟨t, et, D⟩ := h.response U.status hm ht
      have hmc := h.miss r hm
      simp only [missConsistent, Bool.and_eq_true, Bool.or_eq_true, decide_eq_true_eq,
        Bool.not_eq_true'] at hmc
      obtain ⟨⟨⟨⟨⟨hc, hal⟩, -⟩, -⟩, hrange⟩, hmiss⟩ := hmc
      have hrec : recordError s r = none := by
        unfold recordError
        rw [if_pos hc, if_neg (by simpa [misaligned] using hal), if_neg]
        rintro ⟨-, hlt⟩
        exact absurd hrange (by simp only [Rec.addr] at hlt; omega)
      exact landing t r et D ho hr (fun _ => hrec) (fun _ => ⟨hc, hmiss, hrec⟩)
        (by rw [hm]; intro hn; cases hn)
    · refine onward s (h.resting (fun hn => by rw [hm] at hn; cases hn) (fun _ => by omega)) U ?_ ?_
      · rw [hm]; intro hn; cases hn
      · intro _
        simp only [remaining, hm, Option.isSome_some, if_true]
        omega

/-- The source of an admitted program delivers admitted records only (R120). -/
theorem source_admitted (h : Inv s k) (pc : Word) (w : BitVec 32) : source s pc ≠ .unadmitted w := by
  intro hw
  have hp := h.program
  unfold programAdmitted at hp
  rw [List.all_eq_true] at hp
  unfold source at hw
  cases hf : Sparse.find? s.prog pc.toNat with
  | none => rw [hf] at hw; cases hw
  | some w' =>
    rw [hf] at hw
    have := hp _ (Sparse.mem_of_find? hf)
    dsimp only at this hw
    cases hd : decodeWord w' with
    | none => rw [hd] at this; cases this
    | some j => rw [hd] at hw; cases hw

/-- `advance` brings an instruction under way to its retirement. -/
theorem Underway.advance (U : Underway k i s0 s) {n : Nat} (hn : remaining s < n) :
    (∃ t, Arrived k i s0 t ∧ Machine.advance n s k = .next (writebackStage t k))
      ∨ (∃ t, Failed i s0 t ∧ Machine.advance n s k = .next t) := by
  induction n generalizing s with
  | zero => exact absurd hn (Nat.not_lt_zero _)
  | succ n ih =>
    have hsrc := source_admitted U.inv
    obtain ⟨t, et, ht⟩ := U.tick hsrc
    have e : Machine.advance (n + 1) s k = andThen (.next t) fun v => Machine.advance n v k := by
      rw [Machine.advance, U.lMW]
      show andThen (restOfTick s k) _ = _
      rw [restOfTick, et]
    rcases ht with A | ⟨U', hlt⟩ | F
    · left
      refine ⟨t, A, ?_⟩
      rw [e, andThen_running A.status]
      obtain ⟨q, hq, -⟩ := A.record
      cases n with
      | zero =>
        exfalso
        have : 0 < remaining s := by
          unfold remaining wait
          split_ifs <;> omega
        omega
      | succ m => rw [Machine.advance, hq]
    · rw [e, andThen_running U'.status]
      exact ih U' (by omega)
    · right
      obtain ⟨c, -, hc, -⟩ := F.error
      exact ⟨t, F, by rw [e, andThen_stopped (by rw [hc]; simp)]⟩

end

end Sys2Proof.Machine
end

