-- ==== Sys2Proof/Laws/Effect.lean ====
section
/-! SUPPORT. What one instruction does, from its turn to its retirement: the specification lemma of
`passage`, which every meaning is one call of. A proof about an instruction's result cites
`passage_spec` and reads the fields of `Effect` or `Failed`. -/

namespace Sys2Proof.Machine

/-- Everything the passage of `i` does to `s`, when it retires. -/
structure Effect (k : Collaborators) (i : Instr) (s t : State) : Prop where
  boundary : Boundary t k
  cfg : t.cfg = s.cfg
  prog : t.prog = s.prog
  tables : t.tables = s.tables ∨ ∃ q, t.tables = s.tables.writes (k.update q s.tables)
  missInst : t.missInst = none
  noError : accessError i s = none
  regs : ∀ n, readReg t n =
    if i.writesRd = true ∧ n = i.rd ∧ n ≠ 0#5 then seqValue i s k else readReg s n
  zero : t.x.get 0 = s.x.get 0
  noRegs : i.writesRd = false → t.x = s.x
  coherent : ∀ b, coherentByte t b = seqByte i s b
  next : archPc t = seqNextPc i s k
  redirect : i.cls = .branch → s.cfg.predEnabled = false ∨ mispredicts i s k = true →
    oldest t = none
  stats : ∃ n, s.stats.numStalls ≤ n ∧ t.stats = { s.stats with
    numInsts := s.stats.numInsts + 1
    numStalls := n
    numBranches := s.stats.numBranches + if i.cls = .branch then 1 else 0
    numMispredictions := s.stats.numMispredictions + if mispredicts i s k = true then 1 else 0
    numFlushes := s.stats.numFlushes + if mispredicts i s k = true then 1 else 0
    numAccesses := s.stats.numAccesses + if i.cls = .load ∨ i.cls = .store then 1 else 0
    numLoads := s.stats.numLoads + if i.cls = .load then 1 else 0
    numStores := s.stats.numStores + if i.cls = .store then 1 else 0
    numMisses := s.stats.numMisses +
      if (i.cls = .load ∨ i.cls = .store) ∧ isHit s (seqAddress i s) = false ∧ s.missInst = none
      then 1 else 0
    numWritebacks := s.stats.numWritebacks +
      if (i.cls = .load ∨ i.cls = .store) ∧ isHit s (seqAddress i s) = false
        ∧ (blockOf s (seqAddress i s)).valid = true ∧ (blockOf s (seqAddress i s)).dirty = true
      then 1 else 0 }
  acc : ∀ k, accessed t k = (accessed s k ||
    (decide ((i.cls = .load ∨ i.cls = .store) ∧ isHit s (seqAddress i s) = false
      ∧ s.missInst = none) && inBlock s.cfg (seqAddress i s) k))
  present : i.cls = .load ∨ i.cls = .store → isHit t (seqAddress i s) = true
  others : ∀ set, set ≠ setIndex s.cfg (seqAddress i s) → blkAt t set 0 = blkAt s set 0
  dirty : i.cls = .load ∨ i.cls = .store → (blockOf t (seqAddress i s)).dirty =
    (decide (i.cls = .store)
      || (isHit s (seqAddress i s) && (blockOf s (seqAddress i s)).dirty))
  image : isHit s (seqAddress i s) = true → t.img = s.img
  untouched : ¬ (i.cls = .load ∨ i.cls = .store) → t.blk = s.blk ∧ t.img = s.img ∧ t.acc = s.acc
    ∧ t.pendAddr = s.pendAddr ∧ t.pendSize = s.pendSize ∧ t.pendTick = s.pendTick

section
variable {k : Collaborators} {s t u : State} {q r : Rec} {i : Instr}

/-! ## The writeback stage, field by field -/

/-- The four ways a record retires. -/
theorem writebackStage_cases (h : s.lMW = some q) :
    (q.isBranch = false ∧ writebackStage s k = retire q s)
      ∨ (q.isBranch = true ∧ s.cfg.predEnabled = false
        ∧ writebackStage s k =
          { countBranch (retire q s) with pc := q.actTarget, pcValid := true })
      ∨ (q.isBranch = true ∧ s.cfg.predEnabled = true ∧ q.predTarget = q.actTarget
        ∧ writebackStage s k = callUpdate q (countBranch (retire q s)) k)
      ∨ (q.isBranch = true ∧ s.cfg.predEnabled = true ∧ q.predTarget ≠ q.actTarget
        ∧ writebackStage s k = mispredict q (callUpdate q (countBranch (retire q s)) k)) := by
  cases hb : q.isBranch with
  | false => exact .inl ⟨rfl, writebackStage_plain h hb⟩
  | true =>
    cases hp : s.cfg.predEnabled with
    | false => exact .inr (.inl ⟨rfl, rfl, writebackStage_resolved h hb hp⟩)
    | true =>
      by_cases ht : q.predTarget = q.actTarget
      · exact .inr (.inr (.inl ⟨rfl, rfl, ht, writebackStage_predicted h hb hp ht⟩))
      · exact .inr (.inr (.inr ⟨rfl, rfl, ht, writebackStage_mispredicted h hb hp ht⟩))

/-- What a retirement leaves alone. -/
theorem writebackStage_frame (h : s.lMW = some q) :
    (writebackStage s k).cfg = s.cfg ∧ (writebackStage s k).prog = s.prog
      ∧ (writebackStage s k).tick = s.tick
      ∧ (writebackStage s k).blk = s.blk ∧ (writebackStage s k).img = s.img
      ∧ (writebackStage s k).acc = s.acc ∧ (writebackStage s k).missInst = s.missInst
      ∧ (writebackStage s k).pendValid = s.pendValid ∧ (writebackStage s k).pendAddr = s.pendAddr
      ∧ (writebackStage s k).pendSize = s.pendSize ∧ (writebackStage s k).pendTick = s.pendTick
      ∧ (writebackStage s k).status = s.status
      ∧ (writebackStage s k).lMW = none ∧ (writebackStage s k).x = (retire q s).x := by
  rcases writebackStage_cases h with ⟨-, e⟩ | ⟨-, -, e⟩ | ⟨-, -, -, e⟩ | ⟨-, -, -, e⟩ <;> rw [e]
  · simp
  · simp [countBranch]
  · simp
  · have hl : ∀ u : State, (mispredict q u).lMW = none := fun _ => rfl
    simp [hl]

/-- The predictor state after a retirement (R154): `Update` has been called for a conditional branch with
prediction on, and no table changes its size. -/
theorem writebackStage_tables (h : s.lMW = some q) : (writebackStage s k).tables =
    if q.isBranch = true ∧ s.cfg.predEnabled = true then
      s.tables.writes (k.update q s.tables)
    else s.tables := by
  have hr : (countBranch (retire q s)).tables = s.tables := by simp [State.tables]
  have hu : (callUpdate q (countBranch (retire q s)) k).tables =
      s.tables.writes (k.update q s.tables) := by
    unfold callUpdate
    rw [hr, writeTables_tables, hr]
  have hm : ∀ u : State, (mispredict q u).tables = u.tables := by
    intro u; simp [State.tables]
  rcases writebackStage_cases h with ⟨h1, e⟩ | ⟨h1, h2, e⟩ | ⟨h1, h2, -, e⟩ | ⟨h1, h2, -, e⟩ <;>
    rw [e]
  · rw [if_neg (by simp [h1])]
    simp [State.tables]
  · rw [if_neg (by simp [h2]), ← hr]
    rfl
  · rw [if_pos ⟨h1, h2⟩, hu]
  · rw [if_pos ⟨h1, h2⟩, hm, hu]

/-- The writeback stage keeps the canonical form of the tables. -/
theorem TablesWf.writebackStage (h : TablesWf s.tables) (k : Collaborators) :
    TablesWf (writebackStage s k).tables := by
  cases hm : s.lMW with
  | none => rw [Machine.writebackStage, hm]; exact h
  | some q =>
    rw [writebackStage_tables hm]
    split
    · exact h.writes _
    · exact h

/-- The counters a retirement writes (R152, R153, R155, R178). -/
theorem writebackStage_stats (h : s.lMW = some q) : (writebackStage s k).stats = { s.stats with
    numInsts := s.stats.numInsts + 1
    numBranches := s.stats.numBranches + if q.isBranch = true then 1 else 0
    numMispredictions := s.stats.numMispredictions +
      if q.isBranch = true ∧ s.cfg.predEnabled = true ∧ q.predTarget ≠ q.actTarget then 1 else 0
    numFlushes := s.stats.numFlushes +
      if q.isBranch = true ∧ s.cfg.predEnabled = true ∧ q.predTarget ≠ q.actTarget then 1
      else 0 } := by
  have hr : (retire q s).stats = { s.stats with numInsts := s.stats.numInsts + 1 } := by
    rw [retire_eq]
  rcases writebackStage_cases h with ⟨h1, e⟩ | ⟨h1, h2, e⟩ | ⟨h1, h2, h3, e⟩ | ⟨h1, h2, h3, e⟩ <;>
    rw [e]
  · rw [hr]; simp [h1]
  · simp [countBranch, hr, h1, h2]
  · simp [countBranch, hr, h1, h3]
  · simp [mispredict, flush, fuFlush, clearDeps, countBranch, hr, h1, h2, h3]

/-- Where the program goes on after a retirement (R153, R156, R166, R170, R186, R188). -/
theorem archPc_writeback (hI : Inv s k) (h : s.lMW = some q) :
    archPc (writebackStage s k) =
      if q.isBranch = true then q.actTarget else fetchNext s.cfg q := by
  have hm := hI.no_miss h
  have hp := hI.pipeHalf
  rw [admitted_cons h] at hp
  -- what is in flight behind `q`
  have behind : ∀ t : State, (inFlight t = admitted { s with lMW := none } ++ s.lFD.toList) →
      t.pc = s.pc → archPc t = fetchNext s.cfg q := by
    intro t hf hpc
    unfold archPc
    rw [oldest_eq, hf]
    cases hl : admitted { s with lMW := none } ++ s.lFD.toList with
    | nil =>
      rw [List.append_eq_nil_iff] at hl
      have hF : s.lFD = none := by
        cases hF : s.lFD with
        | none => rfl
        | some p => rw [hF] at hl; cases hl.2
      simp only [List.head?_nil]
      rw [hpc]
      exact hp.followsLast hF q (by rw [hl.1]; rfl)
    | cons p L =>
      simp only [List.head?_cons]
      have hc := hp.chain
      rw [List.cons_append, hl, List.isChain_cons_cons] at hc
      exact hc.1
  have hflight : inFlight (retire q s) = admitted { s with lMW := none } ++ s.lFD.toList := by
    rw [retire_eq]; rfl
  rcases writebackStage_cases h with ⟨h1, e⟩ | ⟨h1, h2, e⟩ | ⟨h1, h2, h3, e⟩ | ⟨h1, h2, h3, e⟩ <;>
    rw [e]
  · rw [if_neg (by simp [h1])]
    exact behind _ hflight (by simp)
  · rw [if_pos h1]
    obtain ⟨hA, hF⟩ := hp.branch_alone h1 h2
    have hfl : inFlight { countBranch (retire q s) with pc := q.actTarget, pcValid := true } = [] := by
      have : inFlight { countBranch (retire q s) with pc := q.actTarget, pcValid := true } =
          inFlight (retire q s) := rfl
      rw [this, hflight, hA, hF]
      rfl
    unfold archPc
    rw [oldest_eq, hfl]
    rfl
  · rw [if_pos h1]
    have h4 : fetchNext s.cfg q = q.actTarget := by
      have hb : q.instr.cls = .branch := by simpa [Rec.isBranch] using h1
      simp [fetchNext, hb, h2, h3]
    rw [← h4]
    exact behind _ hflight (by simp)
  · rw [if_pos h1]
    have hfl : inFlight (mispredict q (callUpdate q (countBranch (retire q s)) k)) = [] := by
      simp [inFlight, admitted_eq, mispredict, flush, fuFlush, clearDeps, countBranch, hm]
    unfold archPc
    rw [oldest_eq, hfl]
    rfl

/-- After a resolved or a mispredicted branch nothing is in flight (R153, R156, R178, R191). -/
theorem writeback_redirects (hI : Inv s k) (h : s.lMW = some q) (hb : q.isBranch = true)
    (hp : s.cfg.predEnabled = false
      ∨ s.cfg.predEnabled = true ∧ q.predTarget ≠ q.actTarget) :
    oldest (writebackStage s k) = none := by
  have hm := hI.no_miss h
  rcases hp with hp | ⟨hp, ht⟩
  · have hh := hI.pipeHalf
    rw [admitted_cons h] at hh
    obtain ⟨hA, hF⟩ := hh.branch_alone hb hp
    have e : inFlight (writebackStage s k) = admitted { s with lMW := none } ++ s.lFD.toList := by
      rw [writebackStage_resolved h hb hp]
      unfold countBranch
      rw [retire_eq]
      rfl
    rw [oldest_eq, e, hA, hF]
    rfl
  · have e : inFlight (writebackStage s k) = [] := by
      rw [writebackStage_mispredicted h hb hp ht]
      simp [inFlight, admitted_eq, mispredict, flush, fuFlush, clearDeps, countBranch, hm]
    rw [oldest_eq, e]
    rfl

/-! ## From L_MW to the retirement -/

theorem Arrived.retires (A : Arrived k i s u) : Effect k i s (writebackStage u k) := by
  obtain ⟨q, hq, S, hpred, hload⟩ := A.record
  obtain ⟨f1, f2, -, f4, f5, f6, f7, f8, f9, f10, f11, f15, f16, f17⟩ :=
    writebackStage_frame (k := k) hq
  have hbr : q.isBranch = decide (i.cls = .branch) := by rw [Rec.isBranch, S.instr]
  have hcoh : ∀ b, coherentByte (writebackStage u k) b = coherentByte u b := fun b =>
    coherentByte_congr f1 f4 f5 b
  have hblk : ∀ set, blkAt (writebackStage u k) set 0 = blkAt u set 0 := by
    intro set; simp [blkAt, f1, f4]
  have hblkOf : ∀ a, blockOf (writebackStage u k) a = blockOf u a := by
    intro a; simp only [blockOf, f1, hblk]
  have hnext : seqNextPc i s k = if q.isBranch = true then q.actTarget else fetchNext s.cfg q := by
    unfold seqNextPc
    rw [hbr]
    cases hc : i.cls with
    | branch => simp [S.outcome hc]
    | jump =>
      have hj : q.instr.cls = .jump := by rw [S.instr]; exact hc
      simp [fetchNext_jump q s.cfg hj, S.jump]
    | alu => simp [fetchNext, S.instr, hc, S.pc]
    | muldiv => simp [fetchNext, S.instr, hc, S.pc]
    | load => simp [fetchNext, S.instr, hc, S.pc]
    | store => simp [fetchNext, S.instr, hc, S.pc]
  have hmis : (q.isBranch = true ∧ u.cfg.predEnabled = true ∧ q.predTarget ≠ q.actTarget) ↔
      mispredicts i s k = true := by
    unfold mispredicts
    rw [Bool.and_eq_true, Bool.and_eq_true, decide_eq_true_eq, decide_eq_true_eq, A.cfg, hbr,
      decide_eq_true_eq, and_assoc]
    constructor
    · rintro ⟨h1, h2, h3⟩
      refine ⟨h1, h2, ?_⟩
      rw [hnext, hbr, if_pos (by simpa using h1), ← hpred h1 h2]
      exact h3
    · rintro ⟨h1, h2, h3⟩
      refine ⟨h1, h2, ?_⟩
      rw [hnext, hbr, if_pos (by simpa using h1), ← hpred h1 h2] at h3
      exact h3
  have hval : i.writesRd = true → q.rdVal = seqValue i s k := by
    intro hw
    by_cases hc : i.cls = .load
    · exact hload hc
    · rw [seqValue, if_neg hc]
      apply S.rdVal
      cases i <;> simp [Instr.cls, Instr.writesRd] at hc hw ⊢
  have hx : u.x = s.x := A.x
  refine ⟨⟨A.inv.retirement, f16, f15.trans A.status⟩, f1.trans A.cfg, f2.trans A.prog,
    ?_, f7.trans A.missInst, A.noError, ?_, ?_, ?_, ?_, ?_, ?_, ?_,
    ?_, ?_, ?_, ?_, ?_, ?_⟩
  · have ht : u.tables = s.tables := by simp only [State.tables, A.bht, A.pht, A.btb]
    rw [writebackStage_tables hq, ht]
    split
    · exact .inr ⟨q, rfl⟩
    · exact .inl rfl
  · intro n
    rw [readReg_congr f17, readReg_retire, S.instr]
    split
    · next hh => exact hval hh.1
    · exact readReg_congr hx n
  · rw [f17, ← hx]
    unfold retire retireRegister writeReg
    split
    · next hh =>
      rw [if_neg hh.2]
      have : q.instr.rd.toNat ≠ 0 := fun h0 => hh.2 (BitVec.eq_of_toNat_eq h0)
      simp [setDep, Vector.get_eq_getElem, this]
    · rfl
  · intro hw
    rw [f17, ← hx]
    unfold retire retireRegister
    rw [if_neg (by rw [S.instr, hw]; simp)]
    rfl
  · intro b; rw [hcoh]; exact A.coherent b
  · rw [archPc_writeback A.inv hq, hnext, A.cfg]
  · intro hc hor
    apply writeback_redirects A.inv hq (by simpa [hbr] using hc)
    rcases hor with hor | hor
    · exact .inl (by rw [A.cfg]; exact hor)
    · exact .inr (hmis.2 hor).2
  · obtain ⟨n, hn, en⟩ := A.stats
    refine ⟨n, hn, ?_⟩
    rw [writebackStage_stats hq, en]
    simp only [hmis]
    simp only [hbr, decide_eq_true_eq]
  · intro n
    have : accessed (writebackStage u k) n = accessed u n := by simp only [accessed, f6]
    rw [this]; exact A.acc n
  · intro hc
    exact (isHit_congr f1 f4 _).trans (A.present hc)
  · intro set hset
    rw [hblk]; exact A.others set hset
  · intro hc
    rw [hblkOf]; exact A.dirty hc
  · intro hh
    exact f5.trans (A.image hh)
  · intro hc
    obtain ⟨h1, h2, h3, h4, h5, h6⟩ := A.untouched hc
    exact ⟨f4.trans h1, f5.trans h2, f6.trans h3, f9.trans h4, f10.trans h5, f11.trans h6⟩

/-! ## The passage -/

/-- At its turn, an instruction in flight is under way. -/
theorem Boundary.underway (h : Boundary s k) (ho : oldest s = some r) (hi : r.instr = i) :
    Underway k i s s := by
  have hs : missedSince s s = false := by
    unfold missedSince
    cases s.missInst <;> rfl
  refine ⟨h.1, h.2.2, h.2.1, rfl, rfl, rfl, rfl, rfl, rfl, rfl, rfl, ?_, ?_, fun h => h, ?_,
    fun _ => rfl, fun _ => ⟨rfl, rfl, rfl⟩⟩
  · refine ⟨r.predTarget, ?_, ?_⟩
    · rw [tags_of_oldest ho, hi]; simp [archPc, ho]
    · intro _ _; simp [predictedNext, ho]
  · exact ⟨s.stats.numStalls, Nat.le_refl _, by rw [hs]; rfl⟩
  · intro k; rw [hs]; simp

/-- With nothing in flight, the first tick fetches the instruction. -/
theorem Boundary.fetches (h : Boundary s k) (ho : oldest s = none) (i : Instr) :
    ∃ t, restOfTickFrom (fun _ => .instr i) s k = .next t ∧ Underway k i s t
      ∧ remaining t ≤ s.cfg.memLatency + 8 := by
  have hnil : s.lMW = none ∧ s.missInst = none ∧ s.lXM = none ∧ s.fuInst = none ∧ s.lDX = none
      ∧ s.lFD = none := by
    unfold oldest at ho
    revert ho
    cases s.lMW <;> cases s.missInst <;> cases s.lXM <;> cases s.fuInst <;> cases s.lDX <;>
      cases s.lFD <;> simp
  obtain ⟨hw, hm, hx, hf, hd, hF⟩ := hnil
  have htags : tags s = [] := by simp [tags_eq, hw, hm, hx, hf, hd, hF]
  have hv : s.pcValid = true := by
    have := h.1.pipeHalf.stopped
    simpa [admitted_eq, hw, hm, hx, hf, hd, hF] using this
  have hmem : memoryStage s = .next s := h.1.resting (fun _ => hx) (fun hn => absurd hm hn)
  obtain ⟨t, et, hi, c, -, -, hfetch⟩ := after_memory h.1 h.2.2
    (src := fun _ => .instr i) (fun _ _ hn => by cases hn)
  obtain ⟨⟨p, hp, hb⟩, hx', hf', hd'⟩ := hfetch i htags hv rfl
  have hne : tags t ≠ [] := by rw [hp]; simp
  have eb := endOfTick_busy hne
  refine ⟨endOfTick t, ?_, ?_, ?_⟩
  · rw [restOfTickFrom_eq, hmem, andThen_running h.2.2, et]
  · have hpc : archPc s = s.pc := by simp [archPc, ho]
    have hms : missedSince s (endOfTick t) = false := by
      simp [missedSince, c.missInst, hm]
    refine ⟨hi, ?_, by rw [endOfTick_lMW]; exact c.lMW.trans hw, by rw [endOfTick_cfg]; exact c.cfg,
      by rw [endOfTick_prog]; exact c.prog, by rw [endOfTick_x]; exact c.x,
      by rw [endOfTick_blk]; exact c.blk, by rw [endOfTick_img]; exact c.img,
      by rw [endOfTick_bht]; exact c.bht, by rw [endOfTick_pht]; exact c.pht,
      by rw [endOfTick_btb]; exact c.btb, ?_, ?_, ?_, ?_, ?_, ?_⟩
    · rw [eb]; exact c.status.trans h.2.2
    · refine ⟨p, by rw [tags_endOfTick, hp, hpc]; rfl, ?_⟩
      intro h1 h2
      rw [hb h1 h2]
      simp [predictedNext, ho]
    · obtain ⟨n, hn, en⟩ := c.stats
      exact ⟨n, hn, by rw [hms, endOfTick_stats, en]; rfl⟩
    · intro h0; rw [hm] at h0; cases h0
    · intro k
      rw [hms]
      simp only [accessed, endOfTick_acc, c.acc, Bool.false_and, Bool.or_false]
    · intro _; rw [endOfTick_acc]; exact c.acc
    · intro _
      rw [endOfTick_pendAddr, endOfTick_pendSize, endOfTick_pendTick]
      exact ⟨c.pendAddr, c.pendSize, c.pendTick⟩
  · unfold remaining
    rw [endOfTick_missInst, c.missInst, hm]
    simp only [Option.isSome_none, Bool.false_eq_true, if_false]
    have hcfg : (endOfTick t).cfg = s.cfg := by rw [endOfTick_cfg]; exact c.cfg
    unfold wait
    rw [hcfg, endOfTick_lXM, endOfTick_fuInst, endOfTick_lDX, hx', hf', hd']
    simp only [Option.isSome_none, Bool.false_eq_true, if_false]
    split <;> omega

/-- The specification of the shared meaning: at its turn an instruction retires with its effect, or
stops the block with the Fatal its access raises (R190, 42_memory_ops.md R262). -/
theorem passage_spec (h : Boundary s k)
    (hi : (∃ r, oldest s = some r ∧ r.instr = i) ∨ oldest s = none) :
    (∃ t, passage i s k = .next t ∧ Effect k i s t) ∨ (∃ t, passage i s k = .next t ∧ Failed i s t) := by
  have hf : s.cfg.forwarding = false := h.1.noForwarding
  have fin : ∀ u : State, Underway k i s u → remaining u < patience s →
      (∃ t, advance (patience s) u k = .next t ∧ Effect k i s t)
        ∨ (∃ t, advance (patience s) u k = .next t ∧ Failed i s t) := by
    intro u U hu
    rcases U.advance hu with ⟨t, A, e⟩ | ⟨t, F, e⟩
    · exact .inl ⟨_, e, A.retires⟩
    · exact .inr ⟨_, e, F⟩
  rcases hi with ⟨r, ho, hr⟩ | ho
  · have e : passage i s k = advance (patience s) s k := by
      unfold passage
      rw [h.2.2, hf, ho]
      simp [hr]
    rw [e]
    apply fin s (h.underway ho hr)
    unfold remaining wait patience
    split_ifs <;> omega
  · have hv : s.pcValid = true := by
      have := h.1.pipeHalf.stopped
      have hnil : inFlight s = [] := by
        rw [oldest_eq] at ho
        exact List.head?_eq_none_iff.1 ho
      have h2 : admitted s ++ s.lFD.toList = [] := hnil
      rw [h2] at this
      simpa using this
    obtain ⟨u, eu, U, hu⟩ := h.fetches ho i
    have e : passage i s k = advance (patience s) u k := by
      unfold passage
      rw [h.2.2, hf, ho, hv, eu, andThen_running U.status]
      rfl
    rw [e]
    apply fin u U
    unfold patience
    omega

end

end Sys2Proof.Machine
end

