-- ==== Sys2Proof/Laws/Tick.lean ====
section
/-! SUPPORT. What `exec` and a step are, and one stage or tick at a time from any state that keeps the
invariant, whichever record is oldest (40_pipeline_control.md R150, R189). -/

namespace Sys2Proof.Machine

/-- Every meaning is the passage of its instruction. -/
theorem exec_eq_passage (i : Instr) (s : State) : exec i s = passage i s := by
  cases i <;> rfl

section
variable {s : State} {i : Instr} {k : Collaborators}

/-- The next instruction is the oldest in flight, or nothing is in flight. -/
theorem Next.turn (h : Next i s k) : (∃ r, oldest s = some r ∧ r.instr = i) ∨ oldest s = none := by
  have := h.2
  unfold nextUp at this
  cases ho : oldest s with
  | none => exact .inr rfl
  | some r =>
    rw [ho] at this
    exact .inl ⟨r, rfl, by simpa using this⟩

/-- The passage of the next instruction, with any collaborators (R190). -/
theorem Next.passage_spec (h : Next i s k) :
    (∃ t, passage i s k = .next t ∧ Effect k i s t) ∨ (∃ t, passage i s k = .next t ∧ Failed i s t) :=
  Machine.passage_spec h.1 h.turn

/-- The next instruction's meaning, at its turn (R190). -/
theorem Next.exec_spec (h : Next i s) : (∃ t, exec i s = .next t ∧ Effect .reference i s t)
    ∨ (∃ t, exec i s = .next t ∧ Failed i s t) := by
  rw [exec_eq_passage]
  exact h.passage_spec

/-- With the reference collaborators a step is the machine's (R348). -/
theorem stepWith_reference (s : State) : stepWith .reference s = step s := by
  have e : (fun i t => passage i t) = exec := by
    funext i t; exact (exec_eq_passage i t).symm
  unfold stepWith step
  rw [e]

theorem stepWith_running (hr : s.status = .running) (hf : s.cfg.forwarding = false) :
    stepWith k s = match nextUp s with
      | .instr i => passage i s k
      | .unadmitted w => .refused (.unadmittedOp w)
      | .nothing => drain s k := by
  unfold stepWith stepFrom
  rw [hr, hf]
  rfl

/-- A tick of a block without FORWARDING (R150). -/
theorem tick_eq (hf : s.cfg.forwarding = false) : tick s k = restOfTick (writebackStage s k) k := by
  unfold tick
  rw [if_neg (by simp [hf])]

theorem step_running (hr : s.status = .running) (hf : s.cfg.forwarding = false) :
    step s = match nextUp s with
      | .instr i => exec i s
      | .unadmitted w => .refused (.unadmittedOp w)
      | .nothing => drain s := by
  unfold step stepFrom
  rw [hr, hf]
  rfl

/-- The memory stage completes: the invariant is kept, or a Fatal is raised. -/
theorem memoryStage_keeps (h : Inv s k) (hr : s.status = .running) (hw : s.lMW = none) :
    ∃ t, memoryStage s = .next t
      ∧ ((Inv t k ∧ t.status = .running) ∨ ∃ c, t.status = .fatal c) := by
  obtain hm | ⟨r, hm⟩ := Option.eq_none_or_eq_some s.missInst
  · obtain hx | ⟨r, hx⟩ := Option.eq_none_or_eq_some s.lXM
    · exact ⟨s, h.resting (fun _ => hx) (fun hn => absurd hm hn), .inl ⟨h, hr⟩⟩
    · by_cases hc : r.accesses
      · have hc' : r.instr.cls = .load ∨ r.instr.cls = .store := hc
        cases he : recordError s r with
        | some c =>
          obtain ⟨t, et, T⟩ := h.stops hr hw hm hx he
          exact ⟨t, et, .inr ⟨c, T.status⟩⟩
        | none =>
          unfold recordError at he
          rw [if_pos hc'] at he
          have ha : r.addr % r.instr.accessBytes = 0 := by
            by_cases ha : r.addr % r.instr.accessBytes = 0
            · exact ha
            · rw [if_pos ha] at he; cases he
          rw [if_neg (by simp [ha])] at he
          cases hit : isHit s r.addr with
          | true =>
            obtain ⟨t, et, D⟩ := h.hit hr hw hm hx hc ha hit
            exact ⟨t, et, .inl ⟨D.inv, D.status⟩⟩
          | false =>
            have hrange : blockAddr s.cfg r.addr + s.cfg.blockBytes ≤ s.cfg.memSize := by
              by_contra hn
              rw [if_pos ⟨hit, by omega⟩] at he
              cases he
            obtain ⟨t, et, M⟩ := h.missing hr hw hm hx hc ha hit hrange
            exact ⟨t, et, .inl ⟨M.inv, M.status⟩⟩
      · obtain ⟨t, et, D⟩ := h.pass hr hw hm hx hc
        exact ⟨t, et, .inl ⟨D.inv, D.status⟩⟩
  · by_cases ht : s.pendTick ≤ s.tick
    · obtain ⟨t, et, D⟩ := h.response hr hm ht
      exact ⟨t, et, .inl ⟨D.inv, D.status⟩⟩
    · exact ⟨s, h.resting (fun hn => by rw [hm] at hn; cases hn) (fun _ => by omega),
        .inl ⟨h, hr⟩⟩

end

end Sys2Proof.Machine
end

