-- ==== Sys2Proof/Laws/Families.lean ====
section
/-! SUPPORT. The instruction rules from `Next.exec_spec`, once per class: what is left to prove about one
instruction is its row and its result as an equation of words. -/

namespace Sys2Proof.Machine

section
variable {s t : State} {i : Instr}

/-- A retirement goes on from a boundary with the parameters as they were. -/
theorem Effect.continues (E : Effect .reference i s t) : Continues s t :=
  have h : t.tables = s.tables := by
    rcases E.tables with h | ⟨q, h⟩
    · exact h
    · exact h.trans rfl
  ⟨E.boundary, E.cfg, E.prog, congrArg Tables.bht h, congrArg Tables.pht h, congrArg Tables.btb h⟩

/-- The next instruction is a load or store if a miss is outstanding (R183, R188). -/
theorem Next.no_miss (h : Next i s) (hc : i.cls ≠ .load) (hs : i.cls ≠ .store) :
    s.missInst = none := by
  cases hm : s.missInst with
  | none => rfl
  | some r =>
    exfalso
    have hI := h.1.1
    have hw := hI.missAlone (by rw [hm]; rfl)
    have ho : oldest s = some r := by simp [oldest, hw, hm]
    have hr : r.instr = i := by
      have := h.2
      unfold nextUp at this
      rw [ho] at this
      simpa using this
    have := hI.miss r (by rw [hm]; rfl)
    rw [missConsistent] at this
    simp only [Bool.and_eq_true, Bool.or_eq_true, decide_eq_true_eq] at this
    rw [hr] at this
    rcases this.1.1.1.1.1 with h | h
    · exact hc h
    · exact hs h

/-- A class without an access raises no Fatal. -/
theorem accessError_none (hc : i.cls ≠ .load) (hs : i.cls ≠ .store) : accessError i s = none := by
  unfold accessError
  rw [if_neg (by simp [hc, hs])]

/-- Without an access error the next instruction retires. -/
theorem Next.effect (h : Next i s) (he : accessError i s = none) :
    ∃ t, exec i s = .next t ∧ Effect .reference i s t := by
  rcases h.exec_spec with h | ⟨t, -, F⟩
  · exact h
  · obtain ⟨c, hc, -⟩ := F.error
    rw [he] at hc
    cases hc

/-- With one, it raises that Fatal. -/
theorem Next.fatal (h : Next i s) {c : FatalCode} (he : accessError i s = some c) :
    ∃ t, exec i s = .next t ∧ FatalRaised c s t := by
  rcases h.exec_spec with ⟨t, -, E⟩ | ⟨t, e, F⟩
  · rw [E.noError] at he
    cases he
  · obtain ⟨c', hc, hst, n, hn, en⟩ := F.error
    obtain rfl : c' = c := by rw [hc] at he; exact Option.some.inj he
    refine ⟨t, e, hst, F.cfg, F.prog, F.x, fun a => coherentByte_congr F.cfg F.blk F.img a,
      F.img, F.blk, F.acc, ?_⟩
    rw [en]

/-- Memory is as before where nothing is accessed. -/
theorem Effect.memoryKept (E : Effect .reference i s t) (h : Next i s) (hc : i.cls ≠ .load)
    (hs : i.cls ≠ .store) : MemoryKept s t := by
  obtain ⟨h1, h2, h3, h4, h5, h6⟩ := E.untouched (by simp [hc, hs])
  refine ⟨?_, h2, h1, h3, ?_, ?_, h4, h5, h6⟩
  · intro a
    rw [E.coherent, seqByte, storesTo]
    simp [hs]
  · rw [E.missInst, h.no_miss hc hs]
  · rw [E.boundary.1.pending, h.1.1.pending, E.missInst, h.no_miss hc hs]

/-- The rule of a class that writes a result and accesses nothing. -/
theorem Next.writesResult (h : Next i s) (hcls : i.cls = .alu ∨ i.cls = .muldiv ∨ i.cls = .jump)
    {rd : Reg} {v pc : Word} (hw : i.writesRd = true) (hrd : i.rd = rd)
    (hv : seqValue i s = v) (hpc : seqNextPc i s = pc) : WritesResult i rd v pc s := by
  have hc : i.cls ≠ .load := by rcases hcls with h | h | h <;> simp [h]
  have hs : i.cls ≠ .store := by rcases hcls with h | h | h <;> simp [h]
  have hb : i.cls ≠ .branch := by rcases hcls with h | h | h <;> simp [h]
  obtain ⟨t, e, E⟩ := h.effect (accessError_none hc hs)
  refine ⟨t, e, E.continues, ⟨?_, E.zero⟩, E.memoryKept h hc hs, ?_, E.next.trans hpc⟩
  · intro r
    rw [E.regs r, hw, hrd, hv]
    simp
  · obtain ⟨n, hn, en⟩ := E.stats
    have hm : mispredicts i s = false := by simp [mispredicts, hb]
    rw [hm] at en
    constructor <;> rw [en] <;> simp [hc, hs, hb, hn]

/-- The rule of a conditional branch. -/
theorem Next.branchesTo (h : Next i s) (hcls : i.cls = .branch) {target : Word}
    (ht : seqNextPc i s = target) : BranchesTo i target s := by
  have hc : i.cls ≠ .load := by simp [hcls]
  have hs : i.cls ≠ .store := by simp [hcls]
  have hw : i.writesRd = false := by
    revert hcls
    cases i <;> simp [Instr.cls, Instr.writesRd]
  obtain ⟨t, e, E⟩ := h.effect (accessError_none hc hs)
  have hm : mispredicts i s = true ↔ s.cfg.predEnabled = true ∧ predictedNext s ≠ target := by
    simp [mispredicts, hcls, ht]
  refine ⟨t, e, E.continues, E.noRegs hw, E.memoryKept h hc hs, E.next.trans ht, ?_, ?_⟩
  · obtain ⟨n, hn, en⟩ := E.stats
    constructor <;> rw [en] <;> simp [hcls, hn, hm]
  · intro hor
    have ho : oldest t = none := by
      apply E.redirect hcls
      rcases hor with h | h
      · exact .inl h
      · cases hp : s.cfg.predEnabled with
        | false => exact .inl rfl
        | true => exact .inr (hm.2 ⟨hp, h⟩)
    have hpc := E.next.trans ht
    rw [archPc, ho] at hpc
    refine ⟨ho, hpc, ?_⟩
    have := E.boundary.1.stopped
    rw [fetchStopped] at this
    rw [oldest_eq] at ho
    rw [List.head?_eq_none_iff.1 ho] at this
    simpa using this

/-- What a completed access does to the cache and the counters. -/
theorem Effect.cacheUsed (E : Effect .reference i s t) (hcls : i.cls = .load ∨ i.cls = .store)
    {a : Nat} (ha : seqAddress i s = a) : CacheUsed a (decide (i.cls = .store)) s t := by
  have hb : i.cls ≠ .branch := by rcases hcls with h | h <;> simp [h]
  have hm : mispredicts i s = false := by simp [mispredicts, hb]
  subst ha
  refine ⟨E.present hcls, E.dirty hcls, E.others, E.image, E.missInst, ?_, ?_, ?_⟩
  · rw [E.boundary.1.pending, E.missInst]; rfl
  · intro k
    rw [E.acc k]
    cases hh : isHit s (seqAddress i s) <;> cases hi : s.missInst <;> simp [hcls]
  · obtain ⟨n, hn, en⟩ := E.stats
    rw [hm] at en
    constructor <;> rw [en] <;>
      cases hh : isHit s (seqAddress i s) <;> cases hi : s.missInst <;>
      cases hv : (blockOf s (seqAddress i s)).valid <;>
      cases hd : (blockOf s (seqAddress i s)).dirty <;>
      rcases hcls with h | h <;> simp [h, hn]

theorem accessError_aligned (hcls : i.cls = .load ∨ i.cls = .store) {a n : Nat}
    (ha : seqAddress i s = a) (hn : i.accessBytes = n) (h1 : a % n = 0)
    (h2 : isHit s a = true ∨ blockAddr s.cfg a + s.cfg.blockBytes ≤ s.cfg.memSize) :
    accessError i s = none := by
  unfold accessError
  rw [if_pos hcls, ha, hn, if_neg (by simp [h1])]
  rw [if_neg]
  rintro ⟨h3, h4⟩
  rcases h2 with h2 | h2
  · rw [h2] at h3; cases h3
  · omega

theorem accessError_misaligned (hcls : i.cls = .load ∨ i.cls = .store) {a n : Nat}
    (ha : seqAddress i s = a) (hn : i.accessBytes = n) (h1 : a % n ≠ 0) :
    accessError i s = some .accessMisaligned := by
  unfold accessError
  rw [if_pos hcls, ha, hn, if_pos h1]

theorem accessError_outOfRange (hcls : i.cls = .load ∨ i.cls = .store) {a n : Nat}
    (ha : seqAddress i s = a) (hn : i.accessBytes = n) (h1 : a % n = 0) (h2 : isHit s a = false)
    (h3 : s.cfg.memSize < blockAddr s.cfg a + s.cfg.blockBytes) :
    accessError i s = some .accessOutOfRange := by
  unfold accessError
  rw [if_pos hcls, ha, hn, if_neg (by simp [h1]), if_pos ⟨h2, h3⟩]

/-- The rule of a load. -/
theorem Next.loadsFrom (h : Next i s) (hcls : i.cls = .load) {rd : Reg} {a n : Nat} {v : Word}
    (hrd : i.rd = rd) (ha : seqAddress i s = a) (hn : i.accessBytes = n) (hv : seqValue i s = v) :
    LoadsFrom i rd a n v s := by
  have hw : i.writesRd = true := by
    revert hcls
    cases i <;> simp [Instr.cls, Instr.writesRd]
  refine ⟨fun h1 h2 => ?_, fun _ h1 => h.fatal (accessError_misaligned (.inl hcls) ha hn h1),
    fun h1 h2 h3 => h.fatal (accessError_outOfRange (.inl hcls) ha hn h1 h2 h3)⟩
  obtain ⟨t, e, E⟩ := h.effect (accessError_aligned (.inl hcls) ha hn h1 h2)
  refine ⟨t, e, E.continues, ⟨?_, E.zero⟩, ?_, ?_, ?_⟩
  · intro r
    rw [E.regs r, hw, hrd, hv]
    simp
  · intro b
    rw [E.coherent, seqByte, storesTo]
    simp [hcls]
  · have := E.cacheUsed (.inl hcls) ha
    rwa [show decide (i.cls = .store) = false by simp [hcls]] at this
  · rw [E.next, seqNextPc, hcls]

/-- The rule of a store. -/
theorem Next.storesTo (h : Next i s) (hcls : i.cls = .store) {a n : Nat} {v : Word}
    (ha : seqAddress i s = a) (hn : i.accessBytes = n) (hv : (seqRecord i s).rs2Val = v) :
    StoresTo i a n v s := by
  have hw : i.writesRd = false := by
    revert hcls
    cases i <;> simp [Instr.cls, Instr.writesRd]
  refine ⟨fun h1 h2 => ?_, fun _ h1 => h.fatal (accessError_misaligned (.inr hcls) ha hn h1),
    fun h1 h2 h3 => h.fatal (accessError_outOfRange (.inr hcls) ha hn h1 h2 h3)⟩
  obtain ⟨t, e, E⟩ := h.effect (accessError_aligned (.inr hcls) ha hn h1 h2)
  refine ⟨t, e, E.continues, E.noRegs hw, ?_, ?_, ?_⟩
  · intro b
    rw [E.coherent, seqByte, Machine.storesTo, ha, hn, hv]
    simp [hcls]
  · have := E.cacheUsed (.inr hcls) ha
    rwa [show decide (i.cls = .store) = true by simp [hcls]] at this
  · rw [E.next, seqNextPc, hcls]

end

end Sys2Proof.Machine
end

