-- ==== Sys2Proof/Laws/Frame.lean ====
section
/-! SUPPORT. A relation between states that every stage of a tick keeps holds across ticks and steps, from
any state, whether or not it keeps the invariant (40_pipeline_control.md R150). A proof that a step
leaves something alone, or only lets it grow, gives the six stage facts once. -/

namespace Sys2Proof.Machine

/-- What the stages of a tick keep, with the collaborators `k`. -/
structure StageRelation (k : Collaborators) (R : State → State → Prop) : Prop where
  refl : ∀ s, R s s
  trans : ∀ s t u, R s t → R t u → R s u
  writeback : ∀ s, R s (writebackStage s k)
  memory : ∀ s t, memoryStage s = .next t → R s t
  execute : ∀ s t, executeStage s k = .next t → R s t
  decode : ∀ s t, decodeStage s = .next t → R s t
  fetch : ∀ src s t, fetchStage src s k = .next t → R s t
  clock : ∀ s, R s (endOfTick s)

section
variable {k : Collaborators} {R : State → State → Prop} {s t : State}

/-- A sequence answers a state by one of two ways. -/
theorem andThen_next {a : Answer} {f : State → Answer} (h : andThen a f = .next t) :
    ∃ s, a = .next s ∧ ((s.status = .running ∧ f s = .next t) ∨ (s.status ≠ .running ∧ s = t)) := by
  cases a with
  | next s =>
    refine ⟨s, rfl, ?_⟩
    by_cases hs : s.status = .running
    · rw [andThen_running hs] at h; exact .inl ⟨hs, h⟩
    · rw [andThen_stopped hs] at h
      injection h with h
      exact .inr ⟨hs, h⟩
  | fault e => cases h
  | refused e => cases h

theorem StageRelation.andThen (K : StageRelation k R) {a : Answer} {f : State → Answer}
    (ha : ∀ u, a = .next u → R s u) (hf : ∀ u v, f u = .next v → R u v)
    (h : Machine.andThen a f = .next t) : R s t := by
  obtain ⟨u, e, ⟨-, h⟩ | ⟨-, rfl⟩⟩ := andThen_next h
  · exact K.trans _ _ _ (ha u e) (hf u t h)
  · exact ha u e

theorem StageRelation.restOfTickFrom (K : StageRelation k R) {src : Word → Delivery}
    (h : Machine.restOfTickFrom src s k = .next t) : R s t := by
  refine K.andThen (K.memory s) (fun u v hv => ?_) h
  refine K.andThen (K.execute u) (fun u v hv => ?_) hv
  refine K.andThen (K.decode u) (fun u v hv => ?_) hv
  refine K.andThen (K.fetch src u) (fun u v hv => ?_) hv
  injection hv with hv
  exact hv ▸ K.clock u

theorem StageRelation.tick (K : StageRelation k R) (h : Machine.tick s k = .next t) :
    R s t := by
  unfold Machine.tick at h
  split at h
  · cases h
  · exact K.trans _ _ _ (K.writeback s) (K.restOfTickFrom h)

theorem StageRelation.advance (K : StageRelation k R) (n : Nat) :
    ∀ s t, Machine.advance n s k = .next t → R s t := by
  induction n with
  | zero =>
    intro s t h
    injection h with h
    exact h ▸ K.refl s
  | succ n ih =>
    intro s t h
    rw [Machine.advance] at h
    cases hw : s.lMW with
    | some q =>
      rw [hw] at h
      injection h with h
      exact h ▸ K.writeback s
    | none =>
      rw [hw] at h
      exact K.andThen (fun u hu => K.restOfTickFrom hu) ih h

theorem StageRelation.passage (K : StageRelation k R) {i : Instr}
    (h : Machine.passage i s k = .next t) : R s t := by
  rw [Machine.passage] at h
  split at h
  · cases h
  · cases h
  · split at h
    · cases h
    · split at h
      · split at h
        · exact K.advance _ _ _ h
        · cases h
      · split at h
        · exact K.andThen (fun u hu => K.restOfTickFrom hu) (K.advance _) h
        · cases h

theorem StageRelation.exec (K : StageRelation .reference R) {i : Instr}
    (h : Machine.exec i s = .next t) : R s t :=
  K.passage ((exec_eq_passage i s).symm.trans h)

theorem StageRelation.stepWith (K : StageRelation k R) (h : Machine.stepWith k s = .next t) :
    R s t := by
  unfold Machine.stepWith stepFrom at h
  split at h
  · cases h
  · injection h with h
    exact h ▸ K.refl s
  · split at h
    · cases h
    · split at h
      · exact K.passage h
      · cases h
      · exact K.restOfTickFrom h

theorem StageRelation.step (K : StageRelation .reference R) (h : Machine.step s = .next t) : R s t :=
  K.stepWith ((stepWith_reference s).trans h)

end

end Sys2Proof.Machine
end

