-- ==== Sys2Proof/Laws/Integer.lean ====
section
/-! SUPPORT. The integer helpers as plain arithmetic: shift amounts as remainders, the upper half of a
product as bits of the 128-bit product (41_integer_ops.md R202, R234 to R236). -/

namespace Sys2Proof.Machine

theorem shamt6_eq (b : Word) : shamt6 b = b.toNat % 64 := by simp [shamt6]

theorem shamt5_eq (b : Word) : shamt5 b = b.toNat % 32 := by simp [shamt5]

theorem setWidth32_sub (a b : Word) : (a - b).setWidth 32 = a.setWidth 32 - b.setWidth 32 := by
  apply BitVec.eq_of_toNat_eq
  simp only [BitVec.toNat_setWidth, BitVec.toNat_sub]
  have := a.isLt
  have := b.isLt
  omega

theorem upperHalf_eq (p : Int) : upperHalf p = (BitVec.ofInt 128 p).extractLsb' 64 64 := by
  apply BitVec.eq_of_toNat_eq
  simp only [upperHalf, BitVec.extractLsb'_toNat, BitVec.toNat_ofInt, Nat.shiftRight_eq_div_pow]
  push_cast
  omega

theorem ofInt_toInt_128 (a : Word) : BitVec.ofInt 128 a.toInt = a.signExtend 128 := rfl

end Sys2Proof.Machine
end

