-- ==== Sys2Proof/Laws/PerInstr.lean ====
section
/-! SUPPORT. Per instruction: its row of opcode_table.json says of it what the attribute functions say,
and its word is the row's word outside its operands (30_encoding.md R112, R113, R116, R119). -/

namespace Sys2Proof.Laws.Row

/-- The instruction and its row agree. -/
def Statement (i : Instr) : Prop :=
  ∃ row, opcodeRows[i.opid]? = some row ∧ row.cls = i.cls ∧ row.lat = i.lat
    ∧ row.width = i.accessBytes ∧ row.signed = i.signedLoad ∧ row.readsRs1 = i.readsRs1
    ∧ row.readsRs2 = i.readsRs2 ∧ row.writesRd = i.writesRd ∧ encode i &&& row.mask = row.word

theorem add (rd rs1 rs2 : Reg) : Statement (.add rd rs1 rs2) :=
  ⟨_, rfl, rfl, rfl, rfl, rfl, rfl, rfl, rfl, mask_formR ..⟩

theorem sub (rd rs1 rs2 : Reg) : Statement (.sub rd rs1 rs2) :=
  ⟨_, rfl, rfl, rfl, rfl, rfl, rfl, rfl, rfl, mask_formR ..⟩

theorem sll (rd rs1 rs2 : Reg) : Statement (.sll rd rs1 rs2) :=
  ⟨_, rfl, rfl, rfl, rfl, rfl, rfl, rfl, rfl, mask_formR ..⟩

theorem slt (rd rs1 rs2 : Reg) : Statement (.slt rd rs1 rs2) :=
  ⟨_, rfl, rfl, rfl, rfl, rfl, rfl, rfl, rfl, mask_formR ..⟩

theorem sltu (rd rs1 rs2 : Reg) : Statement (.sltu rd rs1 rs2) :=
  ⟨_, rfl, rfl, rfl, rfl, rfl, rfl, rfl, rfl, mask_formR ..⟩

theorem xor (rd rs1 rs2 : Reg) : Statement (.xor rd rs1 rs2) :=
  ⟨_, rfl, rfl, rfl, rfl, rfl, rfl, rfl, rfl, mask_formR ..⟩

theorem srl (rd rs1 rs2 : Reg) : Statement (.srl rd rs1 rs2) :=
  ⟨_, rfl, rfl, rfl, rfl, rfl, rfl, rfl, rfl, mask_formR ..⟩

theorem sra (rd rs1 rs2 : Reg) : Statement (.sra rd rs1 rs2) :=
  ⟨_, rfl, rfl, rfl, rfl, rfl, rfl, rfl, rfl, mask_formR ..⟩

theorem or (rd rs1 rs2 : Reg) : Statement (.or rd rs1 rs2) :=
  ⟨_, rfl, rfl, rfl, rfl, rfl, rfl, rfl, rfl, mask_formR ..⟩

theorem and (rd rs1 rs2 : Reg) : Statement (.and rd rs1 rs2) :=
  ⟨_, rfl, rfl, rfl, rfl, rfl, rfl, rfl, rfl, mask_formR ..⟩

theorem addw (rd rs1 rs2 : Reg) : Statement (.addw rd rs1 rs2) :=
  ⟨_, rfl, rfl, rfl, rfl, rfl, rfl, rfl, rfl, mask_formR ..⟩

theorem subw (rd rs1 rs2 : Reg) : Statement (.subw rd rs1 rs2) :=
  ⟨_, rfl, rfl, rfl, rfl, rfl, rfl, rfl, rfl, mask_formR ..⟩

theorem sllw (rd rs1 rs2 : Reg) : Statement (.sllw rd rs1 rs2) :=
  ⟨_, rfl, rfl, rfl, rfl, rfl, rfl, rfl, rfl, mask_formR ..⟩

theorem srlw (rd rs1 rs2 : Reg) : Statement (.srlw rd rs1 rs2) :=
  ⟨_, rfl, rfl, rfl, rfl, rfl, rfl, rfl, rfl, mask_formR ..⟩

theorem sraw (rd rs1 rs2 : Reg) : Statement (.sraw rd rs1 rs2) :=
  ⟨_, rfl, rfl, rfl, rfl, rfl, rfl, rfl, rfl, mask_formR ..⟩

theorem addi (rd rs1 : Reg) (imm : BitVec 12) : Statement (.addi rd rs1 imm) :=
  ⟨_, rfl, rfl, rfl, rfl, rfl, rfl, rfl, rfl, mask_formI ..⟩

theorem slti (rd rs1 : Reg) (imm : BitVec 12) : Statement (.slti rd rs1 imm) :=
  ⟨_, rfl, rfl, rfl, rfl, rfl, rfl, rfl, rfl, mask_formI ..⟩

theorem sltiu (rd rs1 : Reg) (imm : BitVec 12) : Statement (.sltiu rd rs1 imm) :=
  ⟨_, rfl, rfl, rfl, rfl, rfl, rfl, rfl, rfl, mask_formI ..⟩

theorem xori (rd rs1 : Reg) (imm : BitVec 12) : Statement (.xori rd rs1 imm) :=
  ⟨_, rfl, rfl, rfl, rfl, rfl, rfl, rfl, rfl, mask_formI ..⟩

theorem ori (rd rs1 : Reg) (imm : BitVec 12) : Statement (.ori rd rs1 imm) :=
  ⟨_, rfl, rfl, rfl, rfl, rfl, rfl, rfl, rfl, mask_formI ..⟩

theorem andi (rd rs1 : Reg) (imm : BitVec 12) : Statement (.andi rd rs1 imm) :=
  ⟨_, rfl, rfl, rfl, rfl, rfl, rfl, rfl, rfl, mask_formI ..⟩

theorem slli (rd rs1 : Reg) (shamt : BitVec 6) : Statement (.slli rd rs1 shamt) :=
  ⟨_, rfl, rfl, rfl, rfl, rfl, rfl, rfl, rfl, mask_formShift64 ..⟩

theorem srli (rd rs1 : Reg) (shamt : BitVec 6) : Statement (.srli rd rs1 shamt) :=
  ⟨_, rfl, rfl, rfl, rfl, rfl, rfl, rfl, rfl, mask_formShift64 ..⟩

theorem srai (rd rs1 : Reg) (shamt : BitVec 6) : Statement (.srai rd rs1 shamt) :=
  ⟨_, rfl, rfl, rfl, rfl, rfl, rfl, rfl, rfl, mask_formShift64 ..⟩

theorem addiw (rd rs1 : Reg) (imm : BitVec 12) : Statement (.addiw rd rs1 imm) :=
  ⟨_, rfl, rfl, rfl, rfl, rfl, rfl, rfl, rfl, mask_formI ..⟩

theorem slliw (rd rs1 : Reg) (shamt : BitVec 5) : Statement (.slliw rd rs1 shamt) :=
  ⟨_, rfl, rfl, rfl, rfl, rfl, rfl, rfl, rfl, mask_formShift32 ..⟩

theorem srliw (rd rs1 : Reg) (shamt : BitVec 5) : Statement (.srliw rd rs1 shamt) :=
  ⟨_, rfl, rfl, rfl, rfl, rfl, rfl, rfl, rfl, mask_formShift32 ..⟩

theorem sraiw (rd rs1 : Reg) (shamt : BitVec 5) : Statement (.sraiw rd rs1 shamt) :=
  ⟨_, rfl, rfl, rfl, rfl, rfl, rfl, rfl, rfl, mask_formShift32 ..⟩

theorem lui (rd : Reg) (imm20 : BitVec 20) : Statement (.lui rd imm20) :=
  ⟨_, rfl, rfl, rfl, rfl, rfl, rfl, rfl, rfl, mask_formU ..⟩

theorem auipc (rd : Reg) (imm20 : BitVec 20) : Statement (.auipc rd imm20) :=
  ⟨_, rfl, rfl, rfl, rfl, rfl, rfl, rfl, rfl, mask_formU ..⟩

theorem mul (rd rs1 rs2 : Reg) : Statement (.mul rd rs1 rs2) :=
  ⟨_, rfl, rfl, rfl, rfl, rfl, rfl, rfl, rfl, mask_formR ..⟩

theorem mulh (rd rs1 rs2 : Reg) : Statement (.mulh rd rs1 rs2) :=
  ⟨_, rfl, rfl, rfl, rfl, rfl, rfl, rfl, rfl, mask_formR ..⟩

theorem mulhsu (rd rs1 rs2 : Reg) : Statement (.mulhsu rd rs1 rs2) :=
  ⟨_, rfl, rfl, rfl, rfl, rfl, rfl, rfl, rfl, mask_formR ..⟩

theorem mulhu (rd rs1 rs2 : Reg) : Statement (.mulhu rd rs1 rs2) :=
  ⟨_, rfl, rfl, rfl, rfl, rfl, rfl, rfl, rfl, mask_formR ..⟩

theorem div (rd rs1 rs2 : Reg) : Statement (.div rd rs1 rs2) :=
  ⟨_, rfl, rfl, rfl, rfl, rfl, rfl, rfl, rfl, mask_formR ..⟩

theorem divu (rd rs1 rs2 : Reg) : Statement (.divu rd rs1 rs2) :=
  ⟨_, rfl, rfl, rfl, rfl, rfl, rfl, rfl, rfl, mask_formR ..⟩

theorem rem (rd rs1 rs2 : Reg) : Statement (.rem rd rs1 rs2) :=
  ⟨_, rfl, rfl, rfl, rfl, rfl, rfl, rfl, rfl, mask_formR ..⟩

theorem remu (rd rs1 rs2 : Reg) : Statement (.remu rd rs1 rs2) :=
  ⟨_, rfl, rfl, rfl, rfl, rfl, rfl, rfl, rfl, mask_formR ..⟩

theorem mulw (rd rs1 rs2 : Reg) : Statement (.mulw rd rs1 rs2) :=
  ⟨_, rfl, rfl, rfl, rfl, rfl, rfl, rfl, rfl, mask_formR ..⟩

theorem divw (rd rs1 rs2 : Reg) : Statement (.divw rd rs1 rs2) :=
  ⟨_, rfl, rfl, rfl, rfl, rfl, rfl, rfl, rfl, mask_formR ..⟩

theorem divuw (rd rs1 rs2 : Reg) : Statement (.divuw rd rs1 rs2) :=
  ⟨_, rfl, rfl, rfl, rfl, rfl, rfl, rfl, rfl, mask_formR ..⟩

theorem remw (rd rs1 rs2 : Reg) : Statement (.remw rd rs1 rs2) :=
  ⟨_, rfl, rfl, rfl, rfl, rfl, rfl, rfl, rfl, mask_formR ..⟩

theorem remuw (rd rs1 rs2 : Reg) : Statement (.remuw rd rs1 rs2) :=
  ⟨_, rfl, rfl, rfl, rfl, rfl, rfl, rfl, rfl, mask_formR ..⟩

theorem lb (rd rs1 : Reg) (imm : BitVec 12) : Statement (.lb rd rs1 imm) :=
  ⟨_, rfl, rfl, rfl, rfl, rfl, rfl, rfl, rfl, mask_formI ..⟩

theorem lh (rd rs1 : Reg) (imm : BitVec 12) : Statement (.lh rd rs1 imm) :=
  ⟨_, rfl, rfl, rfl, rfl, rfl, rfl, rfl, rfl, mask_formI ..⟩

theorem lw (rd rs1 : Reg) (imm : BitVec 12) : Statement (.lw rd rs1 imm) :=
  ⟨_, rfl, rfl, rfl, rfl, rfl, rfl, rfl, rfl, mask_formI ..⟩

theorem ld (rd rs1 : Reg) (imm : BitVec 12) : Statement (.ld rd rs1 imm) :=
  ⟨_, rfl, rfl, rfl, rfl, rfl, rfl, rfl, rfl, mask_formI ..⟩

theorem lbu (rd rs1 : Reg) (imm : BitVec 12) : Statement (.lbu rd rs1 imm) :=
  ⟨_, rfl, rfl, rfl, rfl, rfl, rfl, rfl, rfl, mask_formI ..⟩

theorem lhu (rd rs1 : Reg) (imm : BitVec 12) : Statement (.lhu rd rs1 imm) :=
  ⟨_, rfl, rfl, rfl, rfl, rfl, rfl, rfl, rfl, mask_formI ..⟩

theorem lwu (rd rs1 : Reg) (imm : BitVec 12) : Statement (.lwu rd rs1 imm) :=
  ⟨_, rfl, rfl, rfl, rfl, rfl, rfl, rfl, rfl, mask_formI ..⟩

theorem sb (rs2 rs1 : Reg) (imm : BitVec 12) : Statement (.sb rs2 rs1 imm) :=
  ⟨_, rfl, rfl, rfl, rfl, rfl, rfl, rfl, rfl, mask_formS ..⟩

theorem sh (rs2 rs1 : Reg) (imm : BitVec 12) : Statement (.sh rs2 rs1 imm) :=
  ⟨_, rfl, rfl, rfl, rfl, rfl, rfl, rfl, rfl, mask_formS ..⟩

theorem sw (rs2 rs1 : Reg) (imm : BitVec 12) : Statement (.sw rs2 rs1 imm) :=
  ⟨_, rfl, rfl, rfl, rfl, rfl, rfl, rfl, rfl, mask_formS ..⟩

theorem sd (rs2 rs1 : Reg) (imm : BitVec 12) : Statement (.sd rs2 rs1 imm) :=
  ⟨_, rfl, rfl, rfl, rfl, rfl, rfl, rfl, rfl, mask_formS ..⟩

theorem beq (rs1 rs2 : Reg) (offset : BitVec 13) : Statement (.beq rs1 rs2 offset) :=
  ⟨_, rfl, rfl, rfl, rfl, rfl, rfl, rfl, rfl, mask_formB ..⟩

theorem bne (rs1 rs2 : Reg) (offset : BitVec 13) : Statement (.bne rs1 rs2 offset) :=
  ⟨_, rfl, rfl, rfl, rfl, rfl, rfl, rfl, rfl, mask_formB ..⟩

theorem blt (rs1 rs2 : Reg) (offset : BitVec 13) : Statement (.blt rs1 rs2 offset) :=
  ⟨_, rfl, rfl, rfl, rfl, rfl, rfl, rfl, rfl, mask_formB ..⟩

theorem bge (rs1 rs2 : Reg) (offset : BitVec 13) : Statement (.bge rs1 rs2 offset) :=
  ⟨_, rfl, rfl, rfl, rfl, rfl, rfl, rfl, rfl, mask_formB ..⟩

theorem bltu (rs1 rs2 : Reg) (offset : BitVec 13) : Statement (.bltu rs1 rs2 offset) :=
  ⟨_, rfl, rfl, rfl, rfl, rfl, rfl, rfl, rfl, mask_formB ..⟩

theorem bgeu (rs1 rs2 : Reg) (offset : BitVec 13) : Statement (.bgeu rs1 rs2 offset) :=
  ⟨_, rfl, rfl, rfl, rfl, rfl, rfl, rfl, rfl, mask_formB ..⟩

theorem jal (rd : Reg) (offset : BitVec 21) : Statement (.jal rd offset) :=
  ⟨_, rfl, rfl, rfl, rfl, rfl, rfl, rfl, rfl, mask_formJ ..⟩

theorem jalr (rd rs1 : Reg) (imm : BitVec 12) : Statement (.jalr rd rs1 imm) :=
  ⟨_, rfl, rfl, rfl, rfl, rfl, rfl, rfl, rfl, mask_formI ..⟩

end Sys2Proof.Laws.Row
end

