-- ==== Sys2Proof/Tests/Slice0.lean ====
section
/-! SUPPORT. Tests, each about one operation or one step on a small state, with expected values from the
spec's examples (41_integer_ops.md, 42_memory_ops.md, 43_control_ops.md, 95_test_vectors.md) or computed
by hand from its rules; and for every statement with hypotheses a concrete state that meets them. -/

namespace Sys2Proof.Tests

open Sys2Proof Sys2Proof.Machine

set_option Elab.async false

/-! ## Well-formedness: each check refuses an ill-formed term -/

theorem test_odd_branch_offset_is_ill_formed :
    Instr.wellFormed (.beq 1 2 3) = false ∧ Instr.wellFormed (.bne 1 2 3) = false
      ∧ Instr.wellFormed (.blt 1 2 3) = false ∧ Instr.wellFormed (.bge 1 2 3) = false
      ∧ Instr.wellFormed (.bltu 1 2 3) = false ∧ Instr.wellFormed (.bgeu 1 2 3) = false := by decide

theorem test_odd_jump_offset_is_ill_formed : Instr.wellFormed (.jal 1 5) = false := by decide

theorem test_even_offsets_are_well_formed :
    Instr.wellFormed (.beq 1 2 8) = true ∧ Instr.wellFormed (.jal 1 8) = true := by decide

/-! ## Decoding: every constructor from a word written field by field (30_encoding.md R116, R119) -/

/-- Major opcode 0x33, funct7 0 and 0x20. -/
theorem test_decode_register_forms :
    decodeWord 0b0000000_00010_00001_000_00011_0110011#32 = some (.add 3 1 2)
      ∧ decodeWord 0b0100000_00010_00001_000_00011_0110011#32 = some (.sub 3 1 2)
      ∧ decodeWord 0b0000000_00010_00001_001_00011_0110011#32 = some (.sll 3 1 2)
      ∧ decodeWord 0b0000000_00010_00001_010_00011_0110011#32 = some (.slt 3 1 2)
      ∧ decodeWord 0b0000000_00010_00001_011_00011_0110011#32 = some (.sltu 3 1 2)
      ∧ decodeWord 0b0000000_00010_00001_100_00011_0110011#32 = some (.xor 3 1 2)
      ∧ decodeWord 0b0000000_00010_00001_101_00011_0110011#32 = some (.srl 3 1 2)
      ∧ decodeWord 0b0100000_00010_00001_101_00011_0110011#32 = some (.sra 3 1 2)
      ∧ decodeWord 0b0000000_00010_00001_110_00011_0110011#32 = some (.or 3 1 2)
      ∧ decodeWord 0b0000000_00010_00001_111_00011_0110011#32 = some (.and 3 1 2) := by decide

/-- Major opcode 0x3B, funct7 0 and 0x20. -/
theorem test_decode_register_word_forms :
    decodeWord 0b0000000_00010_00001_000_00011_0111011#32 = some (.addw 3 1 2)
      ∧ decodeWord 0b0100000_00010_00001_000_00011_0111011#32 = some (.subw 3 1 2)
      ∧ decodeWord 0b0000000_00010_00001_001_00011_0111011#32 = some (.sllw 3 1 2)
      ∧ decodeWord 0b0000000_00010_00001_101_00011_0111011#32 = some (.srlw 3 1 2)
      ∧ decodeWord 0b0100000_00010_00001_101_00011_0111011#32 = some (.sraw 3 1 2) := by decide

/-- Major opcodes 0x13 and 0x1B, I format. -/
theorem test_decode_immediate_forms :
    decodeWord 0b100000000011_00110_000_00101_0010011#32 = some (.addi 5 6 (-2045))
      ∧ decodeWord 0b100000000011_00110_010_00101_0010011#32 = some (.slti 5 6 (-2045))
      ∧ decodeWord 0b100000000011_00110_011_00101_0010011#32 = some (.sltiu 5 6 (-2045))
      ∧ decodeWord 0b100000000011_00110_100_00101_0010011#32 = some (.xori 5 6 (-2045))
      ∧ decodeWord 0b100000000011_00110_110_00101_0010011#32 = some (.ori 5 6 (-2045))
      ∧ decodeWord 0b100000000011_00110_111_00101_0010011#32 = some (.andi 5 6 (-2045))
      ∧ decodeWord 0b100000000011_00110_000_00101_0011011#32 = some (.addiw 5 6 (-2045)) := by decide

/-- The two shift formats. -/
theorem test_decode_shift_forms :
    decodeWord 0b000000_100001_00110_001_00101_0010011#32 = some (.slli 5 6 33)
      ∧ decodeWord 0b000000_100001_00110_101_00101_0010011#32 = some (.srli 5 6 33)
      ∧ decodeWord 0b010000_100001_00110_101_00101_0010011#32 = some (.srai 5 6 33)
      ∧ decodeWord 0b0000000_10001_00110_001_00101_0011011#32 = some (.slliw 5 6 17)
      ∧ decodeWord 0b0000000_10001_00110_101_00101_0011011#32 = some (.srliw 5 6 17)
      ∧ decodeWord 0b0100000_10001_00110_101_00101_0011011#32 = some (.sraiw 5 6 17) := by decide

/-- U format. -/
theorem test_decode_upper_forms :
    decodeWord 0b10000000000000000011_00101_0110111#32 = some (.lui 5 0x80003)
      ∧ decodeWord 0b10000000000000000011_00101_0010111#32 = some (.auipc 5 0x80003) := by decide

/-- Major opcodes 0x33 and 0x3B, funct7 1. -/
theorem test_decode_multiply_divide_forms :
    decodeWord 0b0000001_00010_00001_000_00011_0110011#32 = some (.mul 3 1 2)
      ∧ decodeWord 0b0000001_00010_00001_001_00011_0110011#32 = some (.mulh 3 1 2)
      ∧ decodeWord 0b0000001_00010_00001_010_00011_0110011#32 = some (.mulhsu 3 1 2)
      ∧ decodeWord 0b0000001_00010_00001_011_00011_0110011#32 = some (.mulhu 3 1 2)
      ∧ decodeWord 0b0000001_00010_00001_100_00011_0110011#32 = some (.div 3 1 2)
      ∧ decodeWord 0b0000001_00010_00001_101_00011_0110011#32 = some (.divu 3 1 2)
      ∧ decodeWord 0b0000001_00010_00001_110_00011_0110011#32 = some (.rem 3 1 2)
      ∧ decodeWord 0b0000001_00010_00001_111_00011_0110011#32 = some (.remu 3 1 2)
      ∧ decodeWord 0b0000001_00010_00001_000_00011_0111011#32 = some (.mulw 3 1 2)
      ∧ decodeWord 0b0000001_00010_00001_100_00011_0111011#32 = some (.divw 3 1 2)
      ∧ decodeWord 0b0000001_00010_00001_101_00011_0111011#32 = some (.divuw 3 1 2)
      ∧ decodeWord 0b0000001_00010_00001_110_00011_0111011#32 = some (.remw 3 1 2)
      ∧ decodeWord 0b0000001_00010_00001_111_00011_0111011#32 = some (.remuw 3 1 2) := by decide

/-- Major opcode 0x03. -/
theorem test_decode_loads :
    decodeWord 0b100000000011_00110_000_00101_0000011#32 = some (.lb 5 6 (-2045))
      ∧ decodeWord 0b100000000011_00110_001_00101_0000011#32 = some (.lh 5 6 (-2045))
      ∧ decodeWord 0b100000000011_00110_010_00101_0000011#32 = some (.lw 5 6 (-2045))
      ∧ decodeWord 0b100000000011_00110_011_00101_0000011#32 = some (.ld 5 6 (-2045))
      ∧ decodeWord 0b100000000011_00110_100_00101_0000011#32 = some (.lbu 5 6 (-2045))
      ∧ decodeWord 0b100000000011_00110_101_00101_0000011#32 = some (.lhu 5 6 (-2045))
      ∧ decodeWord 0b100000000011_00110_110_00101_0000011#32 = some (.lwu 5 6 (-2045)) := by decide

/-- Major opcode 0x23; imm = 0b100000100011, which is -2013. -/
theorem test_decode_stores :
    decodeWord 0b1000001_00101_00010_000_00011_0100011#32 = some (.sb 5 2 (-2013))
      ∧ decodeWord 0b1000001_00101_00010_001_00011_0100011#32 = some (.sh 5 2 (-2013))
      ∧ decodeWord 0b1000001_00101_00010_010_00011_0100011#32 = some (.sw 5 2 (-2013))
      ∧ decodeWord 0b1000001_00101_00010_011_00011_0100011#32 = some (.sd 5 2 (-2013)) := by decide

/-- Major opcode 0x63; offset = 0b1_1_000001_0001_0, which is -2014. -/
theorem test_decode_branches :
    decodeWord 0b1_000001_00010_00001_000_0001_1_1100011#32 = some (.beq 1 2 (-2014))
      ∧ decodeWord 0b1_000001_00010_00001_001_0001_1_1100011#32 = some (.bne 1 2 (-2014))
      ∧ decodeWord 0b1_000001_00010_00001_100_0001_1_1100011#32 = some (.blt 1 2 (-2014))
      ∧ decodeWord 0b1_000001_00010_00001_101_0001_1_1100011#32 = some (.bge 1 2 (-2014))
      ∧ decodeWord 0b1_000001_00010_00001_110_0001_1_1100011#32 = some (.bltu 1 2 (-2014))
      ∧ decodeWord 0b1_000001_00010_00001_111_0001_1_1100011#32 = some (.bgeu 1 2 (-2014)) := by decide

/-- J format, offset = 0b1_00000001_1_0000000001_0, which is -1042430; JALR. -/
theorem test_decode_jumps :
    decodeWord 0b1_0000000001_1_00000001_00101_1101111#32 = some (.jal 5 (-1042430))
      ∧ decodeWord 0b100000000011_00110_000_00101_1100111#32 = some (.jalr 5 6 (-2045)) := by decide

/-- FENCE, FENCE.I, ECALL, EBREAK, a custom word, an atomic, and reserved function values (R120). -/
theorem test_words_of_no_row :
    decodeWord 0x0000000F#32 = none
      ∧ decodeWord 0x0000100F#32 = none
      ∧ decodeWord 0x00000073#32 = none
      ∧ decodeWord 0x00100073#32 = none
      ∧ decodeWord 0x0000000B#32 = none
      ∧ decodeWord 0x0000202F#32 = none
      ∧ decodeWord 0x00002063#32 = none
      ∧ decodeWord 0x00007003#32 = none
      ∧ decodeWord 0x00004023#32 = none
      ∧ decodeWord 0x0200101B#32 = none
      ∧ decodeWord 0x00001067#32 = none
      ∧ decodeWord 0xFFFFFFFF#32 = none := by decide

/-- 95_test_vectors.md section 1.1: the words of the three instructions. -/
theorem test_vector_words :
    decodeWord 0x02A00093#32 = some (.addi 1 0 42) ∧ decodeWord 0x00103023#32 = some (.sd 1 0 0)
      ∧ decodeWord 0x00003103#32 = some (.ld 2 0 0) ∧ encode (.beq 0 0 8) = 0x00000463#32 := by decide

theorem test_decode_bytes :
    decodeBytes [0x93#8, 0x00#8, 0xA0#8, 0x02#8, 0x77#8] = .ok (.addi 1 0 42, [0x77#8])
      ∧ decodeBytes [0x93#8, 0x00#8, 0xA0#8] = .error .tooShort
      ∧ decodeBytes [0x0F#8, 0x00#8, 0x00#8, 0x00#8] = .error (.notAdmitted 0x0000000F#32)
      ∧ decodeTableWord 32 0x02A00093 = some (.addi 1 0 42) := ⟨rfl, rfl, rfl, rfl⟩

/-! ## Small states -/

/-- A block with nothing in flight, `i` as its only instruction at `pc`, and the two registers given. -/
def placed (cfg : Config) (img : Memory) (i : Instr) (x1 x2 pc : Word) : State :=
  { State.allocate cfg [(pc.toNat, encode i)] with
    pc := pc, img := img, x := ((Vector.replicate 32 0#64).set 1 x1).set 2 x2 }

/-- At pc 0 of the reference configuration. -/
def startWith (i : Instr) (x1 x2 : Word) : State := placed Config.reference [] i x1 x2 0

/-- With registers 0. -/
def start (i : Instr) : State := startWith i 0 0

/-- At another pc. -/
def startAt (i : Instr) (x1 x2 pc : Word) : State := placed Config.reference [] i x1 x2 pc

/-- The reference configuration with prediction on. -/
def predicting : Config := { Config.reference with predEnabled := true }

/-- Word 0 of the image of 95_test_vectors.md, 0x8899AABBCCDDEEFF. -/
def image : Memory :=
  [(0, 0xFF), (1, 0xEE), (2, 0xDD), (3, 0xCC), (4, 0xBB), (5, 0xAA), (6, 0x99), (7, 0x88)]

/-- Over that image. -/
def startOn (i : Instr) (x1 x2 : Word) : State := placed Config.reference image i x1 x2 0

/-- With that word in the cache, in set 0. -/
def startCached (i : Instr) (x1 x2 : Word) : State :=
  { startOn i x1 x2 with
    blk := [(0, { tag := 0, valid := true, dirty := false, lastAccess := 0, data := image })] }

/-- The next state of an instruction's meaning, if it answers one. -/
def after (i : Instr) (s : State) : Option State :=
  match exec i s with
  | .next t => some t
  | .fault _ => none
  | .refused _ => none

/-- The register `i` writes, after it. -/
def result (i : Instr) (s : State) : Option Word := (after i s).map fun t => readReg t i.rd

/-- Where the program goes on after `i`. -/
def goesOn (i : Instr) (s : State) : Option Word := (after i s).map archPc

/-- The coherent 8-byte value at `a` after `i`, and its image value. -/
def stored (i : Instr) (s : State) (a : Nat) : Option (Word × Word) :=
  (after i s).map fun t => (coherentLE t a 8, imgWord t (a / 8))

/-! ## Results: the examples of 41_integer_ops.md (operands in x1 and x2) -/

/-- R203 to R212. -/
theorem test_register_forms :
    result (.add 3 1 2) (startWith (.add 3 1 2) 0x5 0x7) = some 0xc
      ∧ result (.add 3 1 2) (startWith (.add 3 1 2) 0xffffffffffffffff 0x1) = some 0x0
      ∧ result (.sub 3 1 2) (startWith (.sub 3 1 2) 0x3 0x5) = some 0xfffffffffffffffe
      ∧ result (.sll 3 1 2) (startWith (.sll 3 1 2) 0x1 0x41) = some 0x2
      ∧ result (.slt 3 1 2) (startWith (.slt 3 1 2) 0xffffffffffffffff 0x1) = some 0x1
      ∧ result (.sltu 3 1 2) (startWith (.sltu 3 1 2) 0xffffffffffffffff 0x1) = some 0x0
      ∧ result (.xor 3 1 2) (startWith (.xor 3 1 2) 0xf0 0xff) = some 0xf
      ∧ result (.srl 3 1 2) (startWith (.srl 3 1 2) 0x8000000000000000 0x3f) = some 0x1
      ∧ result (.sra 3 1 2) (startWith (.sra 3 1 2) 0x8000000000000000 0x3f) = some 0xffffffffffffffff
      ∧ result (.or 3 1 2) (startWith (.or 3 1 2) 0xf0 0xf) = some 0xff
      ∧ result (.and 3 1 2) (startWith (.and 3 1 2) 0xf0 0x3c) = some 0x30 := by
  decide +kernel

/-- R213 to R217. -/
theorem test_register_word_forms :
    result (.addw 3 1 2) (startWith (.addw 3 1 2) 0x7fffffff 0x1) = some 0xffffffff80000000
      ∧ result (.subw 3 1 2) (startWith (.subw 3 1 2) 0x0 0x1) = some 0xffffffffffffffff
      ∧ result (.sllw 3 1 2) (startWith (.sllw 3 1 2) 0x1 0x1f) = some 0xffffffff80000000
      ∧ result (.sllw 3 1 2) (startWith (.sllw 3 1 2) 0x1 0x21) = some 0x2
      ∧ result (.srlw 3 1 2) (startWith (.srlw 3 1 2) 0xffffffff80000000 0x1f) = some 0x1
      ∧ result (.sraw 3 1 2) (startWith (.sraw 3 1 2) 0x80000000 0x1f) = some 0xffffffffffffffff := by
  decide +kernel

/-- R218 to R226, and the suppressed write of R121. -/
theorem test_immediate_forms :
    result (.addi 3 1 (-7)) (startWith (.addi 3 1 (-7)) 0x5 0x0) = some 0xfffffffffffffffe
      ∧ result (.addi 0 1 7) (startWith (.addi 0 1 7) 0x5 0x0) = some 0x0
      ∧ result (.slti 3 1 0) (startWith (.slti 3 1 0) 0xffffffffffffffff 0x0) = some 0x1
      ∧ result (.sltiu 3 1 (-1)) (startWith (.sltiu 3 1 (-1)) 0x0 0x0) = some 0x1
      ∧ result (.sltiu 3 1 1) (startWith (.sltiu 3 1 1) 0x5 0x0) = some 0x0
      ∧ result (.xori 3 1 (-1)) (startWith (.xori 3 1 (-1)) 0x5 0x0) = some 0xfffffffffffffffa
      ∧ result (.ori 3 1 15) (startWith (.ori 3 1 15) 0x100 0x0) = some 0x10f
      ∧ result (.andi 3 1 (-2048)) (startWith (.andi 3 1 (-2048)) 0xffffffffffffffff 0x0) = some 0xfffffffffffff800
      ∧ result (.slli 3 1 63) (startWith (.slli 3 1 63) 0x1 0x0) = some 0x8000000000000000
      ∧ result (.srli 3 1 60) (startWith (.srli 3 1 60) 0xffffffffffffffff 0x0) = some 0xf
      ∧ result (.srai 3 1 60) (startWith (.srai 3 1 60) 0x8000000000000000 0x0) = some 0xfffffffffffffff8 := by
  decide +kernel

/-- R227 to R231. -/
theorem test_immediate_word_forms :
    result (.addiw 3 1 1) (startWith (.addiw 3 1 1) 0x7fffffff 0x0) = some 0xffffffff80000000
      ∧ result (.slliw 3 1 31) (startWith (.slliw 3 1 31) 0x1 0x0) = some 0xffffffff80000000
      ∧ result (.srliw 3 1 28) (startWith (.srliw 3 1 28) 0xffffffffffffffff 0x0) = some 0xf
      ∧ result (.sraiw 3 1 4) (startWith (.sraiw 3 1 4) 0x80000000 0x0) = some 0xfffffffff8000000
      ∧ result (.lui 3 0x80000) (startWith (.lui 3 0x80000) 0x0 0x0) = some 0xffffffff80000000 := by
  decide +kernel

/-- R233 to R236, R241. -/
theorem test_multiply_forms :
    result (.mul 3 1 2) (startWith (.mul 3 1 2) 0xffffffffffffffff 0xffffffffffffffff) = some 0x1
      ∧ result (.mulh 3 1 2) (startWith (.mulh 3 1 2) 0x8000000000000000 0x8000000000000000) = some 0x4000000000000000
      ∧ result (.mulhsu 3 1 2) (startWith (.mulhsu 3 1 2) 0xffffffffffffffff 0xffffffffffffffff) = some 0xffffffffffffffff
      ∧ result (.mulhu 3 1 2) (startWith (.mulhu 3 1 2) 0xffffffffffffffff 0xffffffffffffffff) = some 0xfffffffffffffffe
      ∧ result (.mulw 3 1 2) (startWith (.mulw 3 1 2) 0x7fffffff 0x2) = some 0xfffffffffffffffe := by
  decide +kernel

/-- R237 to R240, with a zero divisor and the overflow. -/
theorem test_divide_forms :
    result (.div 3 1 2) (startWith (.div 3 1 2) 0x7 0xfffffffffffffffe) = some 0xfffffffffffffffd
      ∧ result (.div 3 1 2) (startWith (.div 3 1 2) 0x7 0x0) = some 0xffffffffffffffff
      ∧ result (.divu 3 1 2) (startWith (.divu 3 1 2) 0x7 0x2) = some 0x3
      ∧ result (.divu 3 1 2) (startWith (.divu 3 1 2) 0x7 0x0) = some 0xffffffffffffffff
      ∧ result (.rem 3 1 2) (startWith (.rem 3 1 2) 0xfffffffffffffff9 0x2) = some 0xffffffffffffffff
      ∧ result (.rem 3 1 2) (startWith (.rem 3 1 2) 0x8000000000000000 0xffffffffffffffff) = some 0x0
      ∧ result (.remu 3 1 2) (startWith (.remu 3 1 2) 0x7 0x2) = some 0x1
      ∧ result (.remu 3 1 2) (startWith (.remu 3 1 2) 0x7 0x0) = some 0x7 := by
  decide +kernel

/-- R242 to R245, with a zero divisor and the overflow. -/
theorem test_divide_word_forms :
    result (.divw 3 1 2) (startWith (.divw 3 1 2) 0xfffffffffffffff9 0x2) = some 0xfffffffffffffffd
      ∧ result (.divw 3 1 2) (startWith (.divw 3 1 2) 0x80000000 0xffffffffffffffff) = some 0xffffffff80000000
      ∧ result (.divuw 3 1 2) (startWith (.divuw 3 1 2) 0xffffffff 0x1) = some 0xffffffffffffffff
      ∧ result (.divuw 3 1 2) (startWith (.divuw 3 1 2) 0x7 0x100000000) = some 0xffffffffffffffff
      ∧ result (.remw 3 1 2) (startWith (.remw 3 1 2) 0xfffffffffffffff9 0x2) = some 0xffffffffffffffff
      ∧ result (.remw 3 1 2) (startWith (.remw 3 1 2) 0x80000005 0x0) = some 0xffffffff80000005
      ∧ result (.remuw 3 1 2) (startWith (.remuw 3 1 2) 0x7 0x3) = some 0x1
      ∧ result (.remuw 3 1 2) (startWith (.remuw 3 1 2) 0x80000005 0x0) = some 0xffffffff80000005 := by
  decide +kernel

theorem test_auipc : result (.auipc 3 1) (startAt (.auipc 3 1) 0 0 0x100) = some 0x1100 := by
  decide +kernel

theorem test_auipc_wraps :
    result (.auipc 3 0xFFFFF) (startAt (.auipc 3 0xFFFFF) 0 0 0x1000) = some 0 := by decide +kernel

/-- R203: the destination may be a source; the old value is read. -/
theorem test_source_is_destination :
    result (.add 1 1 1) (startWith (.add 1 1 1) 3 0) = some 6 := by decide +kernel

/-! ## Loads and stores: the examples of 42_memory_ops.md over word 0 = 0x8899AABBCCDDEEFF -/

/-- R265 to R271. -/
theorem test_loads :
    result (.lb 5 0 7) (startOn (.lb 5 0 7) 0 0) = some 0xffffffffffffff88
      ∧ result (.lh 5 0 6) (startOn (.lh 5 0 6) 0 0) = some 0xffffffffffff8899
      ∧ result (.lw 5 0 4) (startOn (.lw 5 0 4) 0 0) = some 0xffffffff8899aabb
      ∧ result (.ld 5 0 0) (startOn (.ld 5 0 0) 0 0) = some 0x8899aabbccddeeff
      ∧ result (.lbu 5 0 0) (startOn (.lbu 5 0 0) 0 0) = some 0xff
      ∧ result (.lhu 5 0 2) (startOn (.lhu 5 0 2) 0 0) = some 0xccdd
      ∧ result (.lwu 5 0 0) (startOn (.lwu 5 0 0) 0 0) = some 0xccddeeff := by
  decide +kernel

/-- A load to register 0 still makes its access (30_encoding.md R121). -/
theorem test_load_to_x0_accesses :
    (after (.ld 0 0 0) (startOn (.ld 0 0 0) 0 0)).map
        (fun t => (readReg t 0, t.stats.numLoads, t.stats.numMisses, accessed t 0))
      = some (0, 1, 1, true) := by decide +kernel

/-- R272 to R275: the coherent word, and the image, which a store does not write (R80). -/
theorem test_stores :
    stored (.sb 1 0 3) (startWith (.sb 1 0 3) 0x1ff 0) 0 = some (0xff000000, 0)
      ∧ stored (.sh 1 0 2) (startWith (.sh 1 0 2) 0xffffffffffffffff 0) 0 = some (0xffff0000, 0)
      ∧ stored (.sw 1 0 4) (startWith (.sw 1 0 4) 0xffffffffffffffff 0) 0 = some (0xffffffff00000000, 0)
      ∧ stored (.sd 1 0 0) (startWith (.sd 1 0 0) 0x2a 0) 0 = some (0x2a, 0) := by
  decide +kernel

/-- R73: `ld x1, 4(x0)` raises ACCESS_MISALIGNED; `ld x1, 4096(x0)` cannot be written, and 4088 + 8 from
a base is out of range of MEM_SIZE 4096 (42_memory_ops.md R268). -/
theorem test_access_errors :
    (after (.ld 1 0 4) (start (.ld 1 0 4))).map State.status = some (.fatal .accessMisaligned)
      ∧ (after (.ld 2 1 8) (startWith (.ld 2 1 8) 4088 0)).map State.status
        = some (.fatal .accessOutOfRange)
      ∧ (after (.ld 2 1 0) (startWith (.ld 2 1 0) 4088 0)).map State.status = some .running := by
  decide +kernel

/-! ## Control transfers: the examples of 43_control_ops.md, at pc = 0x40 with offset 16 -/

/-- R283 to R288: taken, then not taken. -/
theorem test_branches :
    goesOn (.beq 1 2 16) (startAt (.beq 1 2 16) 0x1 0x1 0x40) = some 0x50
      ∧ goesOn (.beq 1 2 16) (startAt (.beq 1 2 16) 0xffffffffffffffff 0x1 0x40) = some 0x44
      ∧ goesOn (.bne 1 2 16) (startAt (.bne 1 2 16) 0xffffffffffffffff 0x1 0x40) = some 0x50
      ∧ goesOn (.bne 1 2 16) (startAt (.bne 1 2 16) 0x1 0x1 0x40) = some 0x44
      ∧ goesOn (.blt 1 2 16) (startAt (.blt 1 2 16) 0xffffffffffffffff 0x1 0x40) = some 0x50
      ∧ goesOn (.blt 1 2 16) (startAt (.blt 1 2 16) 0x1 0xffffffffffffffff 0x40) = some 0x44
      ∧ goesOn (.bge 1 2 16) (startAt (.bge 1 2 16) 0x1 0xffffffffffffffff 0x40) = some 0x50
      ∧ goesOn (.bge 1 2 16) (startAt (.bge 1 2 16) 0xffffffffffffffff 0x1 0x40) = some 0x44
      ∧ goesOn (.bltu 1 2 16) (startAt (.bltu 1 2 16) 0x1 0xffffffffffffffff 0x40) = some 0x50
      ∧ goesOn (.bltu 1 2 16) (startAt (.bltu 1 2 16) 0xffffffffffffffff 0x1 0x40) = some 0x44
      ∧ goesOn (.bgeu 1 2 16) (startAt (.bgeu 1 2 16) 0xffffffffffffffff 0x1 0x40) = some 0x50
      ∧ goesOn (.bgeu 1 2 16) (startAt (.bgeu 1 2 16) 0x1 0xffffffffffffffff 0x40) = some 0x44 := by
  decide +kernel

/-- With prediction on a taken branch is a misprediction, and one taken to pc + 4 is none (R153). -/
theorem test_misprediction_is_a_difference_of_targets :
    (after (.beq 0 0 16) (placed predicting [] (.beq 0 0 16) 0 0 0)).map
        (fun t => (t.stats.numMispredictions, t.stats.numFlushes, t.pc)) = some (1, 1, 16)
      ∧ (after (.beq 0 0 4) (placed predicting [] (.beq 0 0 4) 0 0 0)).map
        (fun t => (t.stats.numMispredictions, t.stats.numFlushes, archPc t)) = some (0, 0, 4) := by
  decide +kernel

theorem test_jal :
    result (.jal 1 8) (start (.jal 1 8)) = some 4 ∧ goesOn (.jal 1 8) (start (.jal 1 8)) = some 8 := by
  decide +kernel

/-- The link goes to the register the target comes from: the old value is the target's (R291). -/
theorem test_jalr :
    result (.jalr 1 1 (-1)) (startWith (.jalr 1 1 (-1)) 13 0) = some 4
      ∧ goesOn (.jalr 1 1 (-1)) (startWith (.jalr 1 1 (-1)) 13 0) = some 12 := by decide +kernel

/-! ## Reset, memory state, ticks -/

/-- 70_reset_and_hazards.md R341: the empty program ends after 1 tick, one ALU instruction after 6. -/
theorem test_tick_counts :
    ticks 1 State.reset = .next { State.reset with tick := 1, status := .done }
      ∧ (match ticks 6 (start (.addi 1 0 5)) with
        | .next t => decide (t.status = .done) && decide (t.tick = 6) && decide (readReg t 1 = 5)
        | .fault _ => false
        | .refused _ => false) = true := ⟨rfl, by decide +kernel⟩

/-- 95_test_vectors.md sections 1.2 and 1.3: `8 = 100`, and the conflict with `8 = 200`. -/
theorem test_memory_state :
    imgWord (construct Config.reference [] (Vector.replicate 32 0) "8 = 100".toList) 1 = 100
      ∧ (construct Config.reference [] (Vector.replicate 32 0) "8 = 100\n8 = 200".toList).status
        = .fatal .memstateConflict
      ∧ parseLine "# only a comment".toList = .blank ∧ parseLine "16=-1".toList = .entry 16 (-1)
      ∧ parseLine "8=".toList = .malformed := by decide +kernel

/-- R334 (d), R335 (iv): a letter, a base prefix, a plus sign and a second `=` are malformed. -/
theorem test_memory_state_other_characters :
    parseLine "x=1".toList = .malformed ∧ parseLine "8=0x10".toList = .malformed
      ∧ parseLine "8=+1".toList = .malformed ∧ parseLine "8=1=2".toList = .malformed
      ∧ parseLine "-8=1".toList = .malformed := by decide +kernel

/-- A word placed with withFetchWord is the one the next step runs. -/
theorem test_with_fetch_word :
    (match step (State.reset.withFetchWord 32 0x02A00093) with
      | .next t => decide (readReg t 1 = 42)
      | .fault _ => false
      | .refused _ => false) = true := by decide +kernel

/-! ## Witnesses: for every statement with hypotheses, a state and operands that meet them -/

/-- The invariant from its parts, each decidable on a concrete state. -/
theorem inv_of_checks {s : State} {k : Collaborators}
    (h : configError s.cfg = none ∧ s.cfg.forwarding = false ∧ programAdmitted s = true
      ∧ (∀ r ∈ admitted s, operandsCurrent s r = true) ∧ (∀ r ∈ executed s, k.execute r = r)
      ∧ (admitted s).Pairwise (fun q r => independent q r = true)
      ∧ (∀ n : Fin 32, s.dep.get n = (admitted s).countP (writesReg n.val))
      ∧ (inFlight s).IsChain (fun q r => r.pc = fetchNext s.cfg q) ∧ fetchFollows s = true
      ∧ s.pcValid = !fetchStopped s
      ∧ (s.cfg.predEnabled = false → ∀ r ∈ (inFlight s).dropLast, r.isBranch = false)
      ∧ s.pendValid = s.missInst.isSome ∧ (∀ r ∈ s.missInst, missConsistent s r = true)
      ∧ (s.missInst.isSome = true → s.lMW = none)
      ∧ ∀ set < numSets s.cfg, blockConsistent s set = true) : Inv s k :=
  ⟨h.1, h.2.1, h.2.2.1, h.2.2.2.1, h.2.2.2.2.1, h.2.2.2.2.2.1, h.2.2.2.2.2.2.1, h.2.2.2.2.2.2.2.1,
    h.2.2.2.2.2.2.2.2.1, h.2.2.2.2.2.2.2.2.2.1, h.2.2.2.2.2.2.2.2.2.2.1, h.2.2.2.2.2.2.2.2.2.2.2.1,
    h.2.2.2.2.2.2.2.2.2.2.2.2.1, h.2.2.2.2.2.2.2.2.2.2.2.2.2.1, h.2.2.2.2.2.2.2.2.2.2.2.2.2.2⟩

/-- A block with nothing in flight is at a boundary, and its instruction is next, with any
collaborators. -/
theorem placed_next {cfg : Config} {img : Memory} {i : Instr} {x1 x2 pc : Word} {k : Collaborators}
    (hc : configError cfg = none) (hf : cfg.forwarding = false)
    (hd : decodeWord (encode i) = some i) : Next i (placed cfg img i x1 x2 pc) k := by
  refine ⟨⟨?_, rfl, rfl⟩, ?_⟩
  · constructor
    · exact hc
    · exact hf
    · simp [programAdmitted, placed, State.allocate, hd]
    · simp [admitted, placed, State.allocate]
    · simp [executed, placed, State.allocate]
    · simp [admitted, placed, State.allocate]
    · intro n
      simp [admitted, placed, State.allocate, Vector.get]
    · simp [inFlight, admitted, placed, State.allocate]
    · simp [fetchFollows, admitted, placed, State.allocate]
    · simp [fetchStopped, inFlight, admitted, placed, State.allocate]
    · simp [inFlight, admitted, placed, State.allocate]
    · rfl
    · simp [placed, State.allocate]
    · simp [placed, State.allocate]
    · intro set _
      simp [blockConsistent, blkAt, placed, State.allocate, Sparse.get, Sparse.find?]
  · simp [nextUp, oldest, source, placed, State.allocate, Sparse.find?, hd]

def samplesA : List Instr :=
  [.add 3 1 2, .sub 3 1 2, .sll 3 1 2, .slt 3 1 2, .sltu 3 1 2, .xor 3 1 2, .srl 3 1 2,
    .sra 3 1 2, .or 3 1 2, .and 3 1 2, .addw 3 1 2, .subw 3 1 2, .sllw 3 1 2, .srlw 3 1 2,
    .sraw 3 1 2, .addi 3 1 8]

def samplesB : List Instr :=
  [.slti 3 1 8, .sltiu 3 1 8, .xori 3 1 8, .ori 3 1 8, .andi 3 1 8, .slli 3 1 4, .srli 3 1 4,
    .srai 3 1 4, .addiw 3 1 8, .slliw 3 1 4, .srliw 3 1 4, .sraiw 3 1 4, .lui 3 7, .auipc 3 7,
    .mul 3 1 2, .mulh 3 1 2]

def samplesC : List Instr :=
  [.mulhsu 3 1 2, .mulhu 3 1 2, .div 3 1 2, .divu 3 1 2, .rem 3 1 2, .remu 3 1 2, .mulw 3 1 2,
    .divw 3 1 2, .divuw 3 1 2, .remw 3 1 2, .remuw 3 1 2, .lb 3 1 8, .lh 3 1 8, .lw 3 1 8,
    .ld 3 1 8, .lbu 3 1 8]

def samplesD : List Instr :=
  [.lhu 3 1 8, .lwu 3 1 8, .sb 2 1 8, .sh 2 1 8, .sw 2 1 8, .sd 2 1 8, .beq 1 2 16, .bne 1 2 16,
    .blt 1 2 16, .bge 1 2 16, .bltu 1 2 16, .bgeu 1 2 16, .jal 3 16, .jalr 3 1 8]

/-- One instruction per constructor, in table order. -/
def samples : List Instr := samplesA ++ samplesB ++ samplesC ++ samplesD

/-- For the eleven statements of instruction rules (RegisterForms64 to JumpForms), DecodeAfterEncode,
SequentialEffect and StepRunsDecoded: every constructor at its turn, with operands 5 and 7 in x1 and x2,
in both prediction modes. -/
theorem witness_every_instruction :
    samples.map Instr.opid = List.range 62
      ∧ ∀ i ∈ samples, i.wellFormed = true ∧ Next i (startWith i 5 7)
        ∧ Next i (placed predicting [] i 5 7 0) := by
  have h : ∀ i ∈ samples, i.wellFormed = true ∧ decodeWord (encode i) = some i := by
    decide +kernel
  exact ⟨by decide, fun i hi =>
    ⟨(h i hi).1, placed_next rfl rfl (h i hi).2, placed_next rfl rfl (h i hi).2⟩⟩

/-- LoadForms, clause by clause, for the width 8: a hit; a miss of the last block in range; a misaligned
address; the first address out of range. FatalIsPrecise: the last two. -/
theorem witness_load_clauses :
    (Next (.ld 5 1 0) (startCached (.ld 5 1 0) 0 0)
        ∧ isHit (startCached (.ld 5 1 0) 0 0) (addressOf (startCached (.ld 5 1 0) 0 0) 1 0) = true
        ∧ addressOf (startCached (.ld 5 1 0) 0 0) 1 0 % 8 = 0)
      ∧ (Next (.ld 5 1 0) (startWith (.ld 5 1 0) 4088 0)
        ∧ addressOf (startWith (.ld 5 1 0) 4088 0) 1 0 % 8 = 0
        ∧ blockAddr Config.reference (addressOf (startWith (.ld 5 1 0) 4088 0) 1 0) + 8 = 4096
        ∧ accessError (.ld 5 1 0) (startWith (.ld 5 1 0) 4088 0) = none)
      ∧ (Next (.ld 5 1 0) (startWith (.ld 5 1 0) 4084 0)
        ∧ addressOf (startWith (.ld 5 1 0) 4084 0) 1 0 % 8 ≠ 0
        ∧ accessError (.ld 5 1 0) (startWith (.ld 5 1 0) 4084 0) = some .accessMisaligned)
      ∧ (Next (.ld 5 1 0) (startWith (.ld 5 1 0) 4096 0)
        ∧ addressOf (startWith (.ld 5 1 0) 4096 0) 1 0 % 8 = 0
        ∧ isHit (startWith (.ld 5 1 0) 4096 0) (addressOf (startWith (.ld 5 1 0) 4096 0) 1 0) = false
        ∧ 4096 < blockAddr Config.reference (addressOf (startWith (.ld 5 1 0) 4096 0) 1 0) + 8
        ∧ accessError (.ld 5 1 0) (startWith (.ld 5 1 0) 4096 0) = some .accessOutOfRange) := by
  refine ⟨⟨⟨⟨inv_of_checks (by decide +kernel), by decide +kernel⟩, by decide +kernel⟩, by decide +kernel⟩,
    ⟨placed_next rfl rfl (by decide +kernel), by decide +kernel⟩, ⟨placed_next rfl rfl (by decide +kernel), by decide +kernel⟩,
    ⟨placed_next rfl rfl (by decide +kernel), by decide +kernel⟩⟩

/-- StoreForms, clause by clause, for the width 4. -/
theorem witness_store_clauses :
    (Next (.sw 2 1 0) (startCached (.sw 2 1 0) 4 9)
        ∧ isHit (startCached (.sw 2 1 0) 4 9) (addressOf (startCached (.sw 2 1 0) 4 9) 1 0) = true
        ∧ addressOf (startCached (.sw 2 1 0) 4 9) 1 0 % 4 = 0)
      ∧ (Next (.sw 2 1 0) (startWith (.sw 2 1 0) 4092 9)
        ∧ addressOf (startWith (.sw 2 1 0) 4092 9) 1 0 % 4 = 0
        ∧ blockAddr Config.reference (addressOf (startWith (.sw 2 1 0) 4092 9) 1 0) + 8 = 4096)
      ∧ (Next (.sw 2 1 0) (startWith (.sw 2 1 0) 4090 9)
        ∧ addressOf (startWith (.sw 2 1 0) 4090 9) 1 0 % 4 ≠ 0)
      ∧ (Next (.sw 2 1 0) (startWith (.sw 2 1 0) 4096 9)
        ∧ addressOf (startWith (.sw 2 1 0) 4096 9) 1 0 % 4 = 0
        ∧ isHit (startWith (.sw 2 1 0) 4096 9) (addressOf (startWith (.sw 2 1 0) 4096 9) 1 0) = false
        ∧ 4096 < blockAddr Config.reference (addressOf (startWith (.sw 2 1 0) 4096 9) 1 0) + 8) := by
  refine ⟨⟨⟨⟨inv_of_checks (by decide +kernel), by decide +kernel⟩, by decide +kernel⟩, by decide +kernel⟩,
    ⟨placed_next rfl rfl (by decide +kernel), by decide +kernel⟩, ⟨placed_next rfl rfl (by decide +kernel), by decide +kernel⟩,
    ⟨placed_next rfl rfl (by decide +kernel), by decide +kernel⟩⟩

/-- The state some ticks later. -/
def ran (n : Nat) (s : State) (k : Collaborators := .reference) : State :=
  match ticks n s k with
  | .next t => t
  | .fault _ => s
  | .refused _ => s

/-- Four instructions: an operand ready, a store that misses, a load that evicts its dirty block. -/
def four : State :=
  { State.reset with
    prog := [(0, encode (.addi 1 0 5)), (4, encode (.sd 1 0 0)), (8, encode (.ld 2 0 1024)),
      (12, encode (.add 3 1 1))] }

/-- A branch behind an instruction, with prediction on. -/
def branching : State :=
  { State.allocate predicting [(0, encode (.addi 1 0 5)), (4, encode (.beq 0 0 12)),
      (8, encode (.addi 2 0 1))] with tick := 0 }

/-- Whether an outcome is a next state, and that state. -/
def isNext (a : Answer) : Bool :=
  match a with
  | .next _ => true
  | .fault _ => false
  | .refused _ => false

theorem exists_next {a : Answer} (h : isNext a = true) : ∃ t, a = .next t := by
  cases a with
  | next t => exact ⟨t, rfl⟩
  | fault _ => cases h
  | refused _ => cases h

/-- TickKeepsInvariant, CounterLaws, ClockAndDone: running states in the invariant with L_MW occupied,
with a miss outstanding, and at reset. -/
theorem witness_tick_invariant :
    (Inv (ran 5 four) ∧ (ran 5 four).status = .running ∧ (ran 5 four).lMW.isSome = true)
      ∧ (Inv (ran 10 four) ∧ (ran 10 four).status = .running ∧ (ran 10 four).missInst.isSome = true)
      ∧ isNext (tick (ran 5 four)) = true ∧ isNext (tick (ran 10 four)) = true
      ∧ isNext (tick State.reset) = true := by
  exact ⟨⟨inv_of_checks (by decide +kernel), by decide +kernel⟩,
    ⟨inv_of_checks (by decide +kernel), by decide +kernel⟩, by decide +kernel⟩

/-- SequentialEffect, EveryStepIsSequential, StepKeepsInvariant, StepIsTicks, NotNextRefused: boundaries
with an instruction next, one of them with instructions in flight behind it. -/
theorem witness_in_flight :
    Next (.addi 1 0 5) (ran 4 four) ∧ (ran 4 four).lFD.isSome = true
      ∧ (ran 4 four).lXM = some (Rec.execute (Rec.fresh (.addi 1 0 5) 0))
      ∧ accessError (.addi 1 0 5) (ran 4 four) = none ∧ Next (.beq 0 0 12) (ran 6 branching)
      ∧ isNext (step (ran 4 four)) = true := by
  exact ⟨⟨⟨inv_of_checks (by decide +kernel), by decide +kernel⟩, by decide +kernel⟩,
    by decide +kernel, by decide +kernel, by decide +kernel,
    ⟨⟨inv_of_checks (by decide +kernel), by decide +kernel⟩, by decide +kernel⟩, by decide +kernel⟩

/-- FatalIsPrecise: an access error next, with a younger instruction in flight behind it. -/
theorem witness_fatal_in_flight :
    Next (.ld 1 0 4) (ran 4 { State.reset with prog := [(0, encode (.ld 1 0 4)), (4, encode (.addi 2 0 1))] })
      ∧ accessError (.ld 1 0 4)
          (ran 4 { State.reset with prog := [(0, encode (.ld 1 0 4)), (4, encode (.addi 2 0 1))] })
        = some .accessMisaligned := by
  exact ⟨⟨⟨inv_of_checks (by decide +kernel), by decide +kernel⟩, by decide +kernel⟩, by decide +kernel⟩

/-- EveryStepIsSequential, StepKeepsInvariant, StepIsTicks, StepKeepsCanonicalForm,
NothingWritesTheseParts, CountersNeverDecrease: steps that answer a next state from a boundary with
canonical maps: one that retires, one that raises a Fatal, one that ends the run. -/
theorem witness_steps :
    (Boundary (startWith (.sd 2 1 8) 8 9) ∧ canonical (startWith (.sd 2 1 8) 8 9) = true
        ∧ ∃ t, step (startWith (.sd 2 1 8) 8 9) = .next t)
      ∧ (Boundary (startWith (.sd 2 1 8) 1 9) ∧ ∃ t, step (startWith (.sd 2 1 8) 1 9) = .next t)
      ∧ (Boundary State.reset ∧ ∃ t, step State.reset = .next t) := by
  exact ⟨⟨(placed_next rfl rfl (by decide +kernel)).1, by decide +kernel,
      exists_next (by decide +kernel)⟩,
    ⟨(placed_next rfl rfl (by decide +kernel)).1, exists_next (by decide +kernel)⟩,
    ⟨⟨inv_of_checks (by decide +kernel), rfl, rfl⟩, exists_next (by decide +kernel)⟩⟩

/-- A slower memory, prediction on, larger blocks. -/
def other : Config := { predicting with memLatency := 9, blockBytes := 16 }

/-- An empty cache over an empty image reads as 0. -/
theorem coherent_of_empty {s : State} (hb : s.blk = []) (hi : s.img = []) (a : Nat) :
    coherentByte s a = 0#8 := by
  simp [coherentByte, isHit, blockOf, blkAt, hb, hi, Sparse.get, Sparse.find?, Memory.read]

/-- An instruction at its turn with another in flight behind it. -/
def pair : State :=
  ran 4 { State.reset with prog := [(0, encode (.addi 1 0 5)), (4, encode (.sub 3 1 2))] }

/-- ResultsIndependentOfTiming: one instruction at its turn under two configurations, in one of them with
an instruction in flight behind it. -/
theorem witness_two_timings :
    let u := placed other [] (.addi 1 0 5) 0 0 0
    Next (.addi 1 0 5) pair ∧ Next (.addi 1 0 5) u ∧ (∀ r : Reg, readReg pair r = readReg u r)
      ∧ (∀ a, coherentByte pair a = coherentByte u a) ∧ archPc pair = archPc u
      ∧ accessError (.addi 1 0 5) pair = none ∧ accessError (.addi 1 0 5) u = none
      ∧ pair.lFD.isSome = true := by
  refine ⟨⟨⟨inv_of_checks (by decide +kernel), by decide +kernel⟩, by decide +kernel⟩,
    placed_next (by decide +kernel) rfl (by decide +kernel), ?_, ?_, by decide +kernel,
    by decide +kernel, by decide +kernel, by decide +kernel⟩
  · have h : ∀ n : Fin 32, readReg pair (BitVec.ofFin n)
        = readReg (placed other [] (.addi 1 0 5) 0 0 0) (BitVec.ofFin n) := by decide +kernel
    exact fun r => h r.toFin
  · intro a
    rw [coherent_of_empty (by decide +kernel) (by decide +kernel),
      coherent_of_empty (by decide +kernel) (by decide +kernel)]

/-- EncodeAfterDecode, RowsPartitionWords, ImmediateAssembly: words that spell instructions, and their
row; the words of the other formats are those of `test_decode_loads` and its neighbours. -/
theorem witness_spelled_words :
    decodeWord 0x00803083#32 = some (.ld 1 0 8)
      ∧ (opcodeRows[Instr.opid (.ld 1 0 8)]?).isSome = true
      ∧ decodeWord 0x00000463#32 = some (.beq 0 0 8) ∧ decodeWord 0x0000000F#32 = none := by decide

/-- ExecContract: a record of each class, and another one with the same inputs and other contents. -/
theorem witness_exec_contract :
    Instr.cls (.add 3 1 2) = .alu ∧ Instr.cls (.mul 3 1 2) = .muldiv ∧ Instr.cls (.jal 3 8) = .jump
      ∧ Instr.cls (.ld 3 1 0) = .load ∧ Instr.cls (.sd 3 1 0) = .store
      ∧ Instr.cls (.beq 3 1 8) = .branch
      ∧ Instr.opid (.add 4 5 6) = Instr.opid (.add 3 1 2)
      ∧ Instr.imm (.add 4 5 6) = Instr.imm (.add 3 1 2) := by decide

/-- A block built from a program, registers and a text with a comment and the same word twice. -/
def built : State :=
  construct predicting [(0, encode (.addi 1 0 5))] (Vector.replicate 32 3)
    "8 = 100\n\n# x\n4088=-9223372036854775808\n8=100".toList

/-- ResetValues, StartKeepsInvariant: a block built from a program, registers and a text, without an
error. ConfigurationChecks, clause by clause. -/
theorem witness_construction :
    (built.status = .running ∧ built.cfg.forwarding = false
        ∧ (built.prog.all fun p => (decodeWord p.2).isSome) = true)
      ∧ 4095 % 8 ≠ 0 ∧ configError { Config.reference with memSize := 4095 } = some .cfgMemSize
      ∧ configError { Config.reference with blockBytes := 12 } = some .cfgCacheGeometry
      ∧ configError { Config.reference with ways := 3 } = some .cfgCacheGeometry
      ∧ configError { Config.reference with cacheBytes := 0 } = some .cfgCacheGeometry
      ∧ configError { Config.reference with memSize := 0, ways := 2 } = none := by decide +kernel

/-- MemoryStateErrors, clause by clause, at the last word in range and the first one out of it. -/
theorem witness_memory_state_errors :
    State.reset.status = .running
      ∧ (loadLines [] ["4088=1".toList] State.reset).status = .running
      ∧ parseLine "8=".toList = .malformed ∧ parseLine "9=1".toList = .entry 9 1
      ∧ parseLine "4096=1".toList = .entry 4096 1 ∧ 4096 < 4096 + 8 ∧ 4088 + 8 ≤ 4096
      ∧ parseLine "4088=2".toList = .entry 4088 2
      ∧ parseLine "4088=18446744073709551617".toList = .malformed := by decide +kernel

/-- A branch that was taken to 16, with the given prediction, in L_MW. -/
def retiringBranch (cfg : Config) (predTarget : Word) : State :=
  { State.allocate cfg [] with
    lMW := some { instr := .beq 0 0 16, pc := 0, predTarget := predTarget, actTaken := true,
                  actTarget := 16 } }

/-- RetirementOfARecord, MispredictionFlushes, BranchResolution. -/
theorem witness_writeback :
    ({ State.reset with lMW := some (Rec.fresh (.add 3 1 2) 0) } : State).lMW
        = some (Rec.fresh (.add 3 1 2) 0)
      ∧ Instr.cls (.add 3 1 2) ≠ .branch
      ∧ (retiringBranch predicting 4).cfg.predEnabled = true
      ∧ ((retiringBranch predicting 4).lMW.any fun r =>
          r.isBranch && decide (r.predTarget ≠ r.actTarget)) = true
      ∧ ((retiringBranch predicting 16).lMW.any fun r =>
          r.isBranch && decide (r.predTarget = r.actTarget)) = true
      ∧ (retiringBranch Config.reference 0).cfg.predEnabled = false := by decide +kernel

/-- MemoryStageMoves, ExecuteStageCases, DecodeStageCases, FetchStageCases: a record waiting in each
place, with and without a hazard, and a miss whose response is not due. -/
theorem witness_stages :
    ((ran 4 four).lXM.any fun r => decide (r.instr.cls = .alu)) = true
      ∧ (ran 4 four).missInst = none ∧ (ran 4 four).pendValid = false ∧ (ran 4 four).lMW = none
      ∧ (ran 10 four).missInst.isSome = true ∧ (ran 10 four).tick < (ran 10 four).pendTick
      ∧ (ran 10 four).lXM.isSome = true ∧ (ran 10 four).lMW = none
      ∧ ((ran 2 four).lDX.isSome = true ∧ (ran 2 four).fuInst = none ∧ (ran 2 four).lXM = none)
      ∧ ((ran 3 four).fuInst.isSome = true ∧ (ran 3 four).fuExit ≤ (ran 3 four).tick)
      ∧ ((ran 2 four).lFD.any fun r => hasDependency (ran 2 four) r.instr) = true
      ∧ ((ran 1 four).lFD.any fun r => !hasDependency (ran 1 four) r.instr) = true
      ∧ (ran 1 four).lDX = none ∧ State.reset.lFD = none ∧ State.reset.pcValid = true
      ∧ source (start (.beq 0 0 8)) 0 = .instr (.beq 0 0 8)
      ∧ source (start (.beq 0 0 8)) 4 = .nothing := by decide +kernel

/-- A load of 8 bytes at `a`, as the memory stage gets it, and a store. -/
def loadAt (a : Word) : Rec := { instr := .ld 5 1 0, rs1Val := a, memAddr := a }

/-- A store of 2 bytes at `a`. -/
def storeAt (a : Word) : Rec := { instr := .sh 2 1 0, rs1Val := a, rs2Val := 0xABCD, memAddr := a }

/-- ReadHit, WriteHit, CoherentRead, AddressDecomposition: a valid block with the tag, at both ends of the
block. MissRequest, AccessErrors: the last block in range, the first out of it, and a misaligned one. -/
theorem witness_accesses :
    (let s := startCached (.ld 5 1 0) 0 0;
      s.missInst = none ∧ configError s.cfg = none ∧ (blockOf s 0).valid = true
        ∧ (blockOf s 0).tag = tagOf s.cfg 0 ∧ (loadAt 0).memAddr.toNat % 8 = 0
        ∧ (blockOf s 6).valid = true ∧ (blockOf s 6).tag = tagOf s.cfg 6
        ∧ (storeAt 6).memAddr.toNat % 2 = 0 ∧ isHit s 0 = true ∧ isHit s 6 = true)
      ∧ (let s := State.reset;
        s.missInst = none ∧ s.pendValid = false ∧ isHit s 4088 = false ∧ isHit s 4096 = false
          ∧ (loadAt 4088).memAddr.toNat % 8 = 0 ∧ 4088 - 4088 % 8 + 8 ≤ s.cfg.memSize
          ∧ (loadAt 4096).memAddr.toNat % 8 = 0 ∧ s.cfg.memSize < 4096 - 4096 % 8 + 8
          ∧ (loadAt 4089).memAddr.toNat % 8 ≠ 0) := by decide +kernel

/-- MissResponse, MemoryStageMoves: a store's miss, one tick before its answer is due and at that tick;
and a load's miss over a dirty victim, at the tick its answer is due. -/
theorem witness_miss_response :
    (Inv (ran 11 four) ∧ (ran 11 four).status = .running
        ∧ ((ran 11 four).missInst.any fun r => decide (r.instr = .sd 1 0 0)) = true
        ∧ (ran 11 four).tick = 11 ∧ (ran 11 four).pendTick = 11)
      ∧ (Inv (ran 10 four) ∧ (ran 10 four).missInst.isSome = true
        ∧ (ran 10 four).tick < (ran 10 four).pendTick)
      ∧ (Inv (ran 15 four) ∧ (ran 15 four).status = .running
        ∧ ((ran 15 four).missInst.any fun r =>
            decide (r.instr = .ld 2 0 1024) && (blockOf (ran 15 four) r.memAddr.toNat).valid
              && (blockOf (ran 15 four) r.memAddr.toNat).dirty) = true
        ∧ (ran 15 four).pendTick ≤ (ran 15 four).tick) := by
  exact ⟨⟨inv_of_checks (by decide +kernel), by decide +kernel⟩,
    ⟨inv_of_checks (by decide +kernel), by decide +kernel⟩,
    ⟨inv_of_checks (by decide +kernel), by decide +kernel⟩⟩

/-- CounterLaws: the laws hold of a state with a miss outstanding. -/
theorem witness_counter_laws :
    let s := ran 10 four;
    s.stats.numAccesses = s.stats.numLoads + s.stats.numStores
      ∧ s.stats.numMisses = s.stats.numAccesses + 1 ∧ s.missInst ≠ none
      ∧ s.stats.numFlushes = s.stats.numMispredictions
      ∧ s.stats.numMispredictions ≤ s.stats.numBranches ∧ s.stats.numBranches ≤ s.stats.numInsts
      ∧ s.stats.numInsts ≤ s.tick ∧ isNext (tick s) = true := by decide +kernel

/-- TerminalStates, EndOfRunReport: a run that is done with accessed words, and one stopped by a Fatal. -/
theorem witness_ends :
    (ran 30 four).status = .done ∧ canonical (ran 30 four) = true
      ∧ (ran 30 four).acc = [(0, true), (128, true)]
      ∧ (ran 30 (start (.ld 1 0 4))).status = .fatal .accessMisaligned
      ∧ canonical State.reset = true ∧ State.reset.status = .running := by decide +kernel

/-- RefusedInputs, StepRunsDecoded, NotNextRefused: FORWARDING on; a word of no row at the pc; an
instruction at the pc; something in flight, and another instruction; nothing to fetch. -/
theorem witness_step_forms :
    ({ State.reset with cfg := { Config.reference with forwarding := true } } : State).status = .running
      ∧ (let s : State := { State.reset with prog := [(0, 0x0000000F#32)] };
        s.status = .running ∧ s.cfg.forwarding = false ∧ oldest s = none ∧ s.pcValid = true
          ∧ Sparse.find? s.prog s.pc.toNat = some 0x0000000F#32 ∧ decodeWord 0x0000000F#32 = none
          ∧ s.lFD = none)
      ∧ (let s := start (.addi 1 0 5);
        s.status = .running ∧ s.cfg.forwarding = false ∧ oldest s = none ∧ s.pcValid = true
          ∧ Sparse.find? s.prog s.pc.toNat = some (encode (.addi 1 0 5))
          ∧ decodeWord (encode (.addi 1 0 5)) = some (.addi 1 0 5))
      ∧ ((ran 4 four).status = .running ∧ (ran 4 four).cfg.forwarding = false
        ∧ ((oldest (ran 4 four)).any fun r => decide (r.instr ≠ .addi 2 0 7)) = true)
      ∧ (oldest State.reset = none ∧ Sparse.find? State.reset.prog State.reset.pc.toNat = none) := by
  decide +kernel

/-- RefusedInputs: with FORWARDING on a tick is refused (log entry 20). -/
theorem test_forwarding_is_refused_at_the_tick :
    tick { State.reset with cfg := { Config.reference with forwarding := true } }
      = .refused .forwarding := rfl

/-- What the hierarchy's tick hands out: whether a record, and `busy`. -/
def handsOut (a : HierarchyAnswer) : Option (Bool × Bool) :=
  match a with
  | .next (_, q, busy) => some (q.isSome, busy)
  | .fault _ => none
  | .refused _ => none

/-- R87: idle; one tick before an answer is due; and at that tick. -/
theorem test_hierarchy_answer :
    handsOut (cacheRun (ran 4 four)) = some (false, false)
      ∧ handsOut (cacheRun (ran 10 four)) = some (false, true)
      ∧ handsOut (cacheRun (ran 11 four)) = some (true, false) := by decide +kernel

/-! ## Other collaborators than the defaults -/

/-- An `Exec` whose every result is 7, a policy that predicts every branch to go 8 on, and an `Update`
that writes three entries: one in range, one past the end of its table, one too wide for it. -/
def otherCollaborators : Collaborators :=
  { Collaborators.reference with
    result := fun _ _ _ _ _ => 7#64
    predict := fun _ pc => (true, pc + 8#64)
    update := fun _ _ => [⟨.bht, 0, 1⟩, ⟨.bht, 4096, 1⟩, ⟨.pht, 3, 7⟩] }

/-- The same `Exec` with the baseline policy. -/
def otherExec : Collaborators :=
  { Collaborators.reference with result := otherCollaborators.result }

/-- A taken branch the policy predicts right is no misprediction, and its table writes land within the
tables; the baseline mispredicts the same branch (R153, R154, R171, R175). -/
theorem test_other_policy :
    (match passage (.beq 0 0 8) (placed predicting [] (.beq 0 0 8) 0 0 0) otherCollaborators with
      | .next t => decide (archPc t = 8) && decide (t.stats.numMispredictions = 0)
          && decide (t.bht = { entries := 16, width := 4, cells := [(0, 1)] })
          && decide (t.pht = { entries := 256, width := 2, cells := [(3, 3)] }) && canonical t
      | .fault _ => false
      | .refused _ => false) = true
      ∧ (match passage (.beq 0 0 8) (placed predicting [] (.beq 0 0 8) 0 0 0) with
        | .next t => decide (archPc t = 8) && decide (t.stats.numMispredictions = 1)
        | .fault _ => false
        | .refused _ => false) = true := by decide +kernel

/-- PredictorTables: the tables as allocated have the history width of the configuration, the canonical
form, entries and something past them. -/
theorem witness_predictor_tables :
    let t := State.reset.tables;
    t.bht.wf = true ∧ t.pht.wf = true ∧ t.btb.wf = true
      ∧ t.bht.width = Config.reference.histBits ∧ 0 < Config.reference.btbSize
      ∧ 15 < t.bht.entries ∧ t.bht.entries ≤ 16 ∧ (t.bht.write 15 1).read 15 = 1
      ∧ phtIndex Config.reference (t.write ⟨.bht, 2, 5⟩) 8 = 2 * 16 + 5 := by decide +kernel

/-- The register value is the one `Exec` gives. -/
theorem test_other_exec :
    (match passage (.addi 1 0 5) (start (.addi 1 0 5)) otherCollaborators with
      | .next t => decide (readReg t 1 = 7)
      | .fault _ => false
      | .refused _ => false) = true := by decide +kernel

/-- SequentialEffect, FatalIsPrecise, EveryStepIsSequential, StepKeepsInvariant, TickKeepsInvariant,
NothingWritesTheseParts, StepKeepsCanonicalForm, with other collaborators: a branch and an access error next, something in flight,
and a tick and steps that complete, one of them of a cache of two ways. -/
theorem witness_other_collaborators :
    Next (.beq 0 0 8) (placed predicting [] (.beq 0 0 8) 0 0 0) otherCollaborators
      ∧ accessError (.beq 0 0 8) (placed predicting [] (.beq 0 0 8) 0 0 0) = none
      ∧ (Next (.ld 5 1 0) (startWith (.ld 5 1 0) 4084 0) otherCollaborators
        ∧ accessError (.ld 5 1 0) (startWith (.ld 5 1 0) 4084 0) = some .accessMisaligned)
      ∧ (Next (.addi 1 0 5) (ran 4 four otherCollaborators) otherCollaborators
        ∧ ((ran 4 four otherCollaborators).lXM.any fun r => decide (r.rdVal = 7)) = true)
      ∧ isNext (tick (ran 4 four otherCollaborators) otherCollaborators) = true
      ∧ isNext (stepWith otherCollaborators (ran 4 four otherCollaborators)) = true
      ∧ canonical (ran 4 four otherCollaborators) = true
      ∧ (let c : Config := { Config.reference with ways := 2 };
        1 < c.ways ∧ isNext (step (placed c [] (.sd 2 1 8) 8 9 0)) = true
          ∧ isNext (stepWith otherCollaborators (placed c [] (.sd 2 1 8) 8 9 0)) = true) := by
  exact ⟨placed_next rfl rfl (by decide +kernel), by decide +kernel,
    ⟨placed_next rfl rfl (by decide +kernel), by decide +kernel⟩,
    ⟨⟨⟨inv_of_checks (by decide +kernel), by decide +kernel⟩, by decide +kernel⟩, by decide +kernel⟩,
    by decide +kernel, by decide +kernel, by decide +kernel, by decide +kernel⟩

/-- ResultsIndependentOfTiming: two policies over one `Exec`, under two configurations. -/
theorem witness_two_policies :
    otherCollaborators.result = otherExec.result ∧ otherCollaborators.taken = otherExec.taken
      ∧ Next (.addi 1 0 5) (startWith (.addi 1 0 5) 5 7) otherCollaborators
      ∧ Next (.addi 1 0 5) (placed other [] (.addi 1 0 5) 5 7 0) otherExec
      ∧ (∀ r : Reg, readReg (startWith (.addi 1 0 5) 5 7) r
          = readReg (placed other [] (.addi 1 0 5) 5 7 0) r)
      ∧ (∀ a, coherentByte (startWith (.addi 1 0 5) 5 7) a
          = coherentByte (placed other [] (.addi 1 0 5) 5 7 0) a)
      ∧ archPc (startWith (.addi 1 0 5) 5 7) = archPc (placed other [] (.addi 1 0 5) 5 7 0)
      ∧ accessError (.addi 1 0 5) (startWith (.addi 1 0 5) 5 7) = none
      ∧ accessError (.addi 1 0 5) (placed other [] (.addi 1 0 5) 5 7 0) = none := by
  refine ⟨rfl, rfl, placed_next rfl rfl (by decide +kernel),
    placed_next (by decide +kernel) rfl (by decide +kernel), fun _ => rfl, ?_, rfl, by decide +kernel,
    by decide +kernel⟩
  intro a
  rw [coherent_of_empty rfl rfl, coherent_of_empty rfl rfl]

end Sys2Proof.Tests
end

section
/-! What a tick does to a state beyond its control, from any state and with any collaborators: the inversion
of each stage, and how a relation kept by the named operations is kept by the stages
(40_pipeline_control.md R150). -/

namespace Sys2Proof.Machine

/-! ## The contents of a state: everything that is not control -/

/-- A state without its pc, latches, unit, miss slot, request, pending counts and status. -/
structure Contents where
  cfg : Config
  prog : List (Nat × BitVec 32)
  tick : Nat
  blk : List (Nat × Block)
  img : Memory
  acc : List (Nat × Bool)
  tables : Tables
  x : Vector Word 32
  stats : Stats

def State.contents (s : State) : Contents where
  cfg := s.cfg
  prog := s.prog
  tick := s.tick
  blk := s.blk
  img := s.img
  acc := s.acc
  tables := s.tables
  x := s.x
  stats := s.stats

section
variable {k : Collaborators} {s t u : State} {r q : Rec}

@[simp] theorem raiseFatal_contents (c : FatalCode) (s : State) :
    (raiseFatal c s).contents = s.contents := rfl

@[simp] theorem markPending_contents (i : Instr) (s : State) :
    (markPending i s).contents = s.contents := by
  unfold markPending; split <;> rfl

@[simp] theorem redirectJump_contents (r : Rec) (s : State) :
    (redirectJump r s).contents = s.contents := by
  unfold redirectJump; split <;> rfl

@[simp] theorem releaseMiss_contents (s : State) : (releaseMiss s).contents = s.contents := by
  unfold releaseMiss; split <;> rfl

@[simp] theorem Latch.set_contents (l : Latch) (o : Option Rec) (s : State) :
    (l.set o s).contents = s.contents := by
  cases l <;> rfl

@[simp] theorem Latch.clear_contents (l : Latch) (s : State) : (l.clear s).contents = s.contents :=
  l.set_contents none s

theorem Latch.write_contents {l : Latch} (h : l.write r s = .next t) : t.contents = s.contents := by
  unfold Latch.write at h
  split at h
  · cases h; exact l.set_contents _ s
  · cases h

/-! ## Execute, decode and fetch (R160 to R173) -/

theorem fuRun_contents (h : fuRun r s k = .next t) : t.contents = s.contents := by
  unfold fuRun at h
  split at h
  · cases h; rfl
  · cases h

theorem executeIssue_contents (h : executeIssue s k = .next t) : t.contents = s.contents := by
  unfold executeIssue at h
  split at h
  · cases h; rfl
  · split at h
    · exact (fuRun_contents h).trans (Latch.clear_contents _ _)
    · cases h; rfl

theorem executeOutput_contents (h : executeOutput s = .next t) : t.contents = s.contents := by
  unfold executeOutput at h
  split at h
  · cases h; rfl
  · exact (Latch.write_contents h).trans rfl

/-- The execute stage writes control only. -/
theorem executeStage_contents (h : executeStage s k = .next t) : t.contents = s.contents := by
  unfold executeStage at h
  split at h
  · obtain ⟨u, hu, ⟨-, h⟩ | ⟨-, rfl⟩⟩ := andThen_next h
    · exact (executeOutput_contents h).trans (executeIssue_contents hu)
    · exact executeIssue_contents hu
  · cases h; rfl

/-- The decode stage writes control only. -/
theorem decodeStage_contents (h : decodeStage s = .next t) : t.contents = s.contents := by
  unfold decodeStage at h
  split at h
  · cases h; rfl
  · split at h
    · obtain ⟨u, hu, h⟩ := andThen_next h
      have hus : u.contents = s.contents :=
        (Latch.write_contents hu).trans (by rw [markPending_contents, Latch.clear_contents])
      obtain ⟨-, h⟩ | ⟨-, rfl⟩ := h
      · cases h; exact (redirectJump_contents _ u).trans hus
      · exact hus
    · cases h; rfl

theorem fetchBranch_contents (r : Rec) (s : State) (k : Collaborators) :
    (fetchBranch r s k).2.contents = s.contents := by
  unfold fetchBranch followPrediction
  split
  · split
    · dsimp only; split <;> rfl
    · rfl
  · rfl

/-- The fetch stage writes control only, or counts a stall (R168). -/
theorem fetchStage_contents {src : Word → Delivery} (h : fetchStage src s k = .next t) :
    t.contents = s.contents ∨ t = countStall s := by
  unfold fetchStage at h
  split at h
  · split at h
    · cases h; exact .inl rfl
    · exact .inl ((Latch.write_contents h).trans (fetchBranch_contents _ _ k))
    · cases h
  · cases h; exact .inr rfl

/-! ## Answers of the cache -/

theorem withRec_next {a : Answer} (h : withRec r a = .next (u, q)) : a = .next u := by
  cases a <;> cases h; rfl

/-- A request marks words as accessed, or raises a Fatal and marks none (20_memory.md R66). -/
theorem loadBlock_contents {a n : Nat} (h : loadBlock a n s = .next t) :
    t.contents = s.contents ∨ ∃ w m, t.contents = (markAccessed w m s).contents := by
  unfold loadBlock at h
  split_ifs at h
  · cases h; exact .inl rfl
  · cases h; exact .inl rfl
  · cases h; exact .inr ⟨_, _, rfl⟩

theorem deliver_contents {a : RecAnswer} (h : deliver a = .next t) :
    ∃ u q, a = .next (u, q) ∧ t.contents = u.contents := by
  cases a with
  | next p =>
    obtain ⟨u, q⟩ := p
    refine ⟨u, q, rfl, ?_⟩
    unfold deliver at h
    dsimp only at h
    split_ifs at h
    · exact Latch.write_contents h
    · cases h; rfl
    · cases h; rfl
  | fault e => cases h
  | refused e => cases h

end

/-! ## From the operations to the stages -/

/-- What the named operations of a tick keep, with the collaborators `k`: everything else a stage does is
control. -/
structure OperationRelation (k : Collaborators) (R : State → State → Prop) : Prop where
  control : ∀ s t, t.contents = s.contents → R s t
  trans : ∀ s t u, R s t → R t u → R s u
  retire : ∀ r s, R s (retire r s)
  countBranch : ∀ s, R s (countBranch s)
  update : ∀ r s, R s (callUpdate r s k)
  mispredict : ∀ r s, R s (mispredict r s)
  hit : ∀ r s, R s (performHit r s).1
  countMiss : ∀ s, R s (countMiss s)
  markAccessed : ∀ w n s, R s (markAccessed w n s)
  writeBack : ∀ a s, R s (writeBackVictim a s)
  install : ∀ a u s, R s (installBlock a (responseData u) s)
  stall : ∀ s, R s (countStall s)
  clock : ∀ s, R s (endOfTick s)

namespace OperationRelation

section
variable {k : Collaborators} {R : State → State → Prop} (K : OperationRelation k R) {s t u : State}
  {r q : Rec}
include K

theorem refl (s : State) : R s s := K.control s s rfl

/-- Control changes after an operation. -/
theorem followed (h : R s t) (e : u.contents = t.contents) : R s u :=
  K.trans s t u h (K.control t u e)

/-- Control changes before an operation. -/
theorem preceded (e : t.contents = s.contents) (h : R t u) : R s u :=
  K.trans s t u (K.control s t e) h

theorem resolveBranch (r : Rec) (s : State) : R s (resolveBranch r s k) := by
  unfold Machine.resolveBranch
  split
  · split
    · exact K.update r s
    · exact K.trans _ _ _ (K.update r s) (K.mispredict r _)
  · exact K.control _ _ rfl

theorem writebackStage (s : State) : R s (writebackStage s k) := by
  unfold Machine.writebackStage
  split
  · exact K.refl s
  · next r _ =>
    split
    · exact K.trans _ _ _ (K.trans _ _ _ (K.retire r s) (K.countBranch _)) (K.resolveBranch r _)
    · exact K.retire r s

theorem loadBlock {a n : Nat} (h : loadBlock a n s = .next t) : R s t := by
  obtain e | ⟨w, m, e⟩ := loadBlock_contents h
  · exact K.control s t e
  · exact K.followed (K.markAccessed w m s) e

/-- A hit, as the answer of an access or a replay. -/
theorem hit_answer (h : (.next (performHit r s) : RecAnswer) = .next (u, q)) : R s u := by
  have hu : performHit r s = (u, q) := by injection h
  have hhit := K.hit r s
  rwa [hu] at hhit

theorem cacheAccess (h : cacheAccess r s = .next (u, q)) : R s u := by
  unfold Machine.cacheAccess at h
  split_ifs at h
  · cases h; exact K.control _ _ rfl
  · exact K.hit_answer h
  · have hcount : R s (Machine.countMiss { s with missInst := some r }) :=
      
      K.preceded (t := { s with missInst := some r }) rfl (K.countMiss _)
    exact K.trans _ _ _ hcount (K.loadBlock (withRec_next h))

theorem issue (h : issue r s = .next t) : R s t := by
  unfold Machine.issue at h
  split at h
  all_goals obtain ⟨u, q, hu, e⟩ := deliver_contents h
  · exact K.followed (K.cacheAccess hu) e
  · exact K.followed (K.cacheAccess hu) e
  all_goals
    cases hu
    exact K.control s t e

theorem issueFromLatch (h : issueFromLatch s = .next t) : R s t := by
  unfold Machine.issueFromLatch at h
  split at h
  · split at h
    · cases h; exact K.refl s
    · exact K.preceded (Latch.clear_contents _ s) (K.issue h)
  · cases h; exact K.refl s

theorem replay (h : replay r s = .next (u, q)) : R s u := by
  unfold Machine.replay at h
  split_ifs at h
  · cases h; exact K.control _ _ rfl
  · exact K.hit_answer h

theorem handleResponse {v : State} {o : Option Rec}
    (h : handleResponse (responseData v) s = .next (t, o)) : R s t := by
  unfold Machine.handleResponse at h
  split at h
  · cases h
  · next r _ =>
    split at h
    · next u q hu =>
      cases h
      have hinstall := K.trans _ _ _ (K.writeBack r.memAddr.toNat s) (K.install r.memAddr.toNat v _)
      exact K.followed (K.trans _ _ _ hinstall (K.replay hu)) (releaseMiss_contents u)
    · cases h
    · cases h

theorem memRun {o : Option Rec} (h : memRun s = .next (t, o)) : R s t := by
  unfold Machine.memRun at h
  split at h
  · exact K.preceded (t := { s with pendValid := false }) rfl (K.handleResponse h)
  · cases h; exact K.refl s

theorem cacheRun {o : Option Rec} {b : Bool} (h : cacheRun s = .next (t, o, b)) : R s t := by
  unfold Machine.cacheRun at h
  split at h
  · next hm => cases h; exact K.memRun hm
  · cases h
  · cases h

theorem memoryStage (h : memoryStage s = .next t) : R s t := by
  unfold Machine.memoryStage at h
  split at h
  · next u q _ hu =>
    obtain ⟨v, hv, ⟨-, h⟩ | ⟨-, rfl⟩⟩ := andThen_next h
    · cases hv
      exact K.followed (K.cacheRun hu) (Latch.write_contents h)
    · cases hv
      exact K.cacheRun hu
  · next u _ hu => exact K.trans _ _ _ (K.cacheRun hu) (K.issueFromLatch h)
  · cases h
  · cases h

/-- A relation that the operations keep is one that every stage keeps, so it holds across ticks and steps
by the lemmas of `StageRelation`. -/
theorem stages : StageRelation k R where
  refl := K.refl
  trans := K.trans
  writeback := K.writebackStage
  memory _ _ := K.memoryStage
  execute _ _ h := K.control _ _ (executeStage_contents h)
  decode _ _ h := K.control _ _ (decodeStage_contents h)
  fetch src s t h := by
    obtain e | rfl := fetchStage_contents h
    · exact K.control s t e
    · exact K.stall s
  clock := K.clock

end

end OperationRelation

end Sys2Proof.Machine
end

section
/-! The parts no step writes: the configuration, the program, the stored value of register 0, the blocks of
a way from 1 up, and the predictor tables but for what `Update` writes (00_scope.md R8, 10_state.md R32,
20_memory.md R77, R95, 40_pipeline_control.md R175, R176). -/

namespace Sys2Proof.Machine

/-! ## Register 0 (10_state.md R32) -/

theorem writeReg_x_zero (r : Reg) (v : Word) (s : State) : (writeReg r v s).x.get 0 = s.x.get 0 := by
  unfold writeReg
  split
  · rfl
  · next hr =>
    have hne : r.toNat ≠ 0 := fun h => hr (BitVec.eq_of_toNat_eq h)
    simp [Vector.get_eq_getElem, hne]

theorem retire_x_zero (r : Rec) (s : State) : (retire r s).x.get 0 = s.x.get 0 := by
  unfold retire retireRegister
  split
  · exact writeReg_x_zero _ _ _
  · rfl

/-! ## The other ways (20_memory.md R77) -/

/-- A write to way 0 of any set leaves every block of a way from 1 up: no two blocks share a key. -/
theorem blkAt_setBlk_other_way (s : State) (set' : Nat) (b : Block) {set way : Nat} (h1 : 1 ≤ way)
    (hw : way < s.cfg.ways) : blkAt (setBlk set' 0 b s) set way = blkAt s set way := by
  have hkey : set * s.cfg.ways + way ≠ set' * s.cfg.ways + 0 := by
    intro h
    have hzero : way = 0 := by simpa [Nat.mod_eq_of_lt hw] using congrArg (· % s.cfg.ways) h
    omega
  exact Sparse.get_put_of_ne _ _ _ hkey

/-! ## What an operation leaves untouched -/

/-- What the writes of an `Update` of `k` do to the tables, one after another. -/
structure UpdateRelation (k : Collaborators) (T : Tables → Tables → Prop) : Prop where
  refl : ∀ t, T t t
  trans : ∀ t u v, T t u → T u v → T t v
  update : ∀ r t, T t (t.writes (k.update r t))

/-- The baseline policy writes no table (40_pipeline_control.md R176). -/
theorem updateRelation_reference : UpdateRelation .reference Eq where
  refl _ := rfl
  trans _ _ _ := Eq.trans
  update _ _ := rfl

/-- Any policy keeps the sizes of the tables (40_pipeline_control.md R175). -/
theorem updateRelation_sameSizes (k : Collaborators) : UpdateRelation k SameSizes where
  refl _ := ⟨rfl, rfl, rfl, rfl, rfl, rfl⟩
  trans _ _ _ a b :=
    ⟨b.bhtEntries.trans a.bhtEntries, b.bhtWidth.trans a.bhtWidth, b.phtEntries.trans a.phtEntries,
      b.phtWidth.trans a.phtWidth, b.btbEntries.trans a.btbEntries, b.btbWidth.trans a.btbWidth⟩
  update _ _ := sameSizes_writes _ _

/-- The parts no step writes are as they were, and the tables are related by `T`. -/
structure Untouched (T : Tables → Tables → Prop) (s t : State) : Prop where
  cfg : t.cfg = s.cfg
  prog : t.prog = s.prog
  tables : T s.tables t.tables
  zero : t.x.get 0 = s.x.get 0
  ways : ∀ set way, 1 ≤ way → way < s.cfg.ways → blkAt t set way = blkAt s set way

theorem blkAt_congr {s t : State} (hc : t.cfg = s.cfg) (hb : t.blk = s.blk) (set way : Nat) :
    blkAt t set way = blkAt s set way := by
  rw [blkAt, blkAt, hc, hb]

section
variable {k : Collaborators} {T : Tables → Tables → Prop} {s t u : State}

theorem Untouched.trans (hT : UpdateRelation k T) (a : Untouched T s t) (b : Untouched T t u) :
    Untouched T s u where
  cfg := b.cfg.trans a.cfg
  prog := b.prog.trans a.prog
  tables := hT.trans _ _ _ a.tables b.tables
  zero := b.zero.trans a.zero
  ways set way h1 hw := (b.ways set way h1 (a.cfg ▸ hw)).trans (a.ways set way h1 hw)

/-- An operation that writes neither the registers nor the blocks. -/
theorem Untouched.of_eq (hc : t.cfg = s.cfg) (hp : t.prog = s.prog) (ht : T s.tables t.tables)
    (hx : t.x = s.x) (hb : t.blk = s.blk) : Untouched T s t :=
  ⟨hc, hp, ht, by rw [hx], fun set way _ _ => blkAt_congr hc hb set way⟩

theorem Untouched.of_contents (hT : UpdateRelation k T) (e : t.contents = s.contents) :
    Untouched T s t :=
  have htables : t.tables = s.tables := congrArg Contents.tables e
  .of_eq (congrArg Contents.cfg e) (congrArg Contents.prog e) (htables.symm ▸ hT.refl _)
    (congrArg Contents.x e) (congrArg Contents.blk e)

theorem Untouched.setBlk (hT : UpdateRelation k T) (set : Nat) (b : Block) (s : State) :
    Untouched T s (Machine.setBlk set 0 b s) :=
  ⟨rfl, rfl, hT.refl _, rfl, fun _ _ h1 hw => blkAt_setBlk_other_way s set b h1 hw⟩

theorem Untouched.updateBlock (hT : UpdateRelation k T) (a : Nat) (f : Block → Block) (s : State) :
    Untouched T s (Machine.updateBlock a f s) :=
  .setBlk hT _ _ s

/-- A hit writes its block in way 0 and counts itself (20_memory.md R76, R77, R80). -/
theorem Untouched.performHit (hT : UpdateRelation k T) (r : Rec) (s : State) :
    Untouched T s (Machine.performHit r s).1 := by
  unfold Machine.performHit
  split
  · have htouch : Untouched T s (touchBlock r.memAddr.toNat s) := .updateBlock hT _ _ s
    exact htouch.trans hT (.of_eq rfl rfl (hT.refl _) rfl rfl)
  · have htouch : Untouched T s (touchBlock r.memAddr.toNat s) := .updateBlock hT _ _ s
    have hwrite := htouch.trans hT (u := memWrite r.memAddr.toNat r.instr.accessBytes r.rs2Val _)
      (.updateBlock hT _ _ _)
    have hdirty := hwrite.trans hT (u := dirtyBlock r.memAddr.toNat _) (.updateBlock hT _ _ _)
    exact hdirty.trans hT (.of_eq rfl rfl (hT.refl _) rfl rfl)
  all_goals exact .of_contents hT rfl

theorem markAccessed_tables (w n : Nat) (s : State) : (markAccessed w n s).tables = s.tables := by
  simp [State.tables]

theorem writeBackVictim_tables (a : Nat) (s : State) : (writeBackVictim a s).tables = s.tables := by
  simp [State.tables]

theorem endOfTick_tables (s : State) : (endOfTick s).tables = s.tables := by
  simp [State.tables]

theorem retire_tables (r : Rec) (s : State) : (retire r s).tables = s.tables := by
  simp [State.tables]

/-- Every operation of a tick leaves these parts untouched, but for the tables that `Update` writes. -/
theorem untouched_operations (hT : UpdateRelation k T) : OperationRelation k (Untouched T) where
  control _ _ := .of_contents hT
  trans _ _ _ a b := a.trans hT b
  retire r s :=
    { cfg := retire_cfg s r
      prog := retire_prog s r
      tables := (retire_tables r s).symm ▸ hT.refl s.tables
      zero := retire_x_zero r s
      ways := fun set way _ _ => blkAt_congr (retire_cfg s r) (retire_blk s r) set way }
  countBranch s := .of_eq rfl rfl (hT.refl _) rfl rfl
  update r s := .of_eq rfl rfl (hT.update r s.tables) rfl rfl
  mispredict r s := .of_eq rfl rfl (hT.refl _) rfl rfl
  hit := .performHit hT
  countMiss s := .of_eq rfl rfl (hT.refl _) rfl rfl
  markAccessed w n s :=
    .of_eq (by simp) (by simp) ((markAccessed_tables w n s).symm ▸ hT.refl _) (by simp) (by simp)
  writeBack a s :=
    .of_eq (by simp) (by simp) ((writeBackVictim_tables a s).symm ▸ hT.refl _) (by simp) (by simp)
  install a u s := .setBlk hT _ _ s
  stall s := .of_eq rfl rfl (hT.refl _) rfl rfl
  clock s := .of_eq (by simp) (by simp) ((endOfTick_tables s).symm ▸ hT.refl _) (by simp) (by simp)

end

/-- Settles O37: `Untouched` is kept by every operation of a tick, so by every step, with equal tables under
the baseline policy and with tables of the same sizes under any. -/
theorem nothingWritesTheseParts : Obligations.NothingWritesTheseParts := by
  unfold Obligations.NothingWritesTheseParts
  refine ⟨fun s t h => ?_, fun k s t h => ?_⟩
  · obtain ⟨hcfg, hprog, htables, hzero, hways⟩ :=
      (untouched_operations updateRelation_reference).stages.step h
    exact ⟨hcfg, hprog, (congrArg Tables.bht htables).symm, (congrArg Tables.pht htables).symm,
      (congrArg Tables.btb htables).symm, hzero, hways⟩
  · obtain ⟨hcfg, hprog, hsizes, hzero, hways⟩ :=
      (untouched_operations (updateRelation_sameSizes k)).stages.stepWith h
    exact ⟨hcfg, hprog, hzero, hsizes.bhtEntries, hsizes.bhtWidth, hsizes.phtEntries, hsizes.phtWidth,
      hsizes.btbEntries, hsizes.btbWidth, hways⟩

end Sys2Proof.Machine
end

section
/-! The predictor tables and their indices (10_state.md R31, 40_pipeline_control.md R175). -/

namespace Sys2Proof.Machine

/-- There is nothing to write past the last entry. -/
theorem Table.write_past (t : Table) {k : Nat} (h : t.entries ≤ k) (v : Nat) : t.write k v = t :=
  if_neg (Nat.not_lt.2 h)

section
variable {c : Config} {t : Tables} (pc : Word)

/-- What a PHT index takes from BHT is no wider than the history field of the configuration. -/
theorem bht_read_lt (h : t.bht.width = c.histBits) (k : Nat) : t.bht.read k < 2 ^ c.histBits :=
  h ▸ t.bht.read_lt k

theorem phtIndex_lt (h : t.bht.width = c.histBits) :
    phtIndex c t pc < 2 ^ (c.phtBits + c.histBits) :=
  have hpc : indexBits c pc % 2 ^ c.phtBits < 2 ^ c.phtBits := Nat.mod_lt _ (Nat.two_pow_pos _)
  calc phtIndex c t pc
    _ < indexBits c pc % 2 ^ c.phtBits * 2 ^ c.histBits + 2 ^ c.histBits :=
      Nat.add_lt_add_left (bht_read_lt h _) _
    _ = (indexBits c pc % 2 ^ c.phtBits + 1) * 2 ^ c.histBits := (Nat.succ_mul _ _).symm
    _ ≤ 2 ^ c.phtBits * 2 ^ c.histBits := Nat.mul_le_mul_right _ hpc
    _ = 2 ^ (c.phtBits + c.histBits) := (Nat.pow_add 2 _ _).symm

/-- The high part of the PHT index: the pc bits. -/
theorem phtIndex_div (h : t.bht.width = c.histBits) :
    phtIndex c t pc / 2 ^ c.histBits = indexBits c pc % 2 ^ c.phtBits := by
  rw [phtIndex, Nat.mul_comm, Nat.mul_add_div (Nat.two_pow_pos _),
    Nat.div_eq_of_lt (bht_read_lt h _), Nat.add_zero]

/-- The low part of the PHT index: the history read from BHT. -/
theorem phtIndex_mod (h : t.bht.width = c.histBits) :
    phtIndex c t pc % 2 ^ c.histBits = t.bht.read (bhtIndex c pc) := by
  rw [phtIndex, Nat.mul_add_mod_self_right, Nat.mod_eq_of_lt (bht_read_lt h _)]

end

/-- Settles O22: the read-after-write law of one table, the sizes and the canonical form along the writes of
an `Update`, and the two parts of the PHT index. -/
theorem predictorTables : Obligations.PredictorTables := by
  unfold Obligations.PredictorTables
  refine ⟨fun t j k v => ?_, fun t ws => ?_, fun c t pc => ?_⟩
  · have hself (h : k < t.entries) : (t.write k v).read k = v % 2 ^ t.width := by
      rw [Table.read_write, if_pos ⟨rfl, h⟩]
    have hother (h : j ≠ k) : (t.write k v).read j = t.read j := by
      rw [Table.read_write, if_neg (h ·.1)]
    exact ⟨t.read_lt k, fun h => ⟨t.read_past k h, t.write_past h v⟩, hself, hother,
      fun h => ⟨Table.read_of_wf h k, Table.wf_write h k v⟩⟩
  · obtain ⟨hbe, hbw, hpe, hpw, hte, htw⟩ := sameSizes_writes t ws
    refine ⟨hbe, hbw, hpe, hpw, hte, htw, fun ⟨hb, hp, ht⟩ => ?_⟩
    obtain ⟨hb', hp', ht'⟩ := TablesWf.writes ⟨hb, hp, ht⟩ ws
    exact ⟨hb', hp', ht'⟩
  · exact ⟨rfl, Nat.mod_lt _ (Nat.two_pow_pos _),
      fun h => ⟨phtIndex_lt pc h, phtIndex_div pc h, phtIndex_mod pc h⟩,
      fun h => ⟨rfl, Nat.mod_lt _ h⟩⟩

end Sys2Proof.Machine
end

section
/-! The canonical form along a step (10_state.md section 5, 20_memory.md section 1): the memory operations
keep it, and everything else a tick does leaves memory, blocks, flags, program and tables alone or writes
the tables through `Update`. -/

namespace Sys2Proof.Machine

/-- If `s` is in canonical form, so is `t`. -/
def KeepsCanonical (s t : State) : Prop := CanonicalParts s → CanonicalParts t

section
variable {s t : State}

theorem KeepsCanonical.of_eq (himg : t.img = s.img) (hacc : t.acc = s.acc) (hblk : t.blk = s.blk)
    (hprog : t.prog = s.prog) (htables : t.tables = s.tables) : KeepsCanonical s t :=
  fun h => h.congr himg hacc hblk hprog htables

theorem KeepsCanonical.of_contents (e : t.contents = s.contents) : KeepsCanonical s t :=
  .of_eq (congrArg Contents.img e) (congrArg Contents.acc e) (congrArg Contents.blk e)
    (congrArg Contents.prog e) (congrArg Contents.tables e)

/-- The writes of any policy keep the form of the tables (40_pipeline_control.md R175). -/
theorem CanonicalParts.callUpdate (h : CanonicalParts s) (r : Rec) (k : Collaborators) :
    CanonicalParts (Machine.callUpdate r s k) :=
  ⟨h.img, h.acc, h.blk, h.data, h.prog, h.tables.writes _⟩

end

/-- Every operation of a tick keeps the canonical form. -/
theorem keepsCanonical_operations (k : Collaborators) : OperationRelation k KeepsCanonical where
  control _ _ := .of_contents
  trans _ _ _ a b := b ∘ a
  retire r s := .of_eq (by simp) (by simp) (by simp) (by simp) (retire_tables r s)
  countBranch _ := .of_eq rfl rfl rfl rfl rfl
  update r _ h := h.callUpdate r k
  mispredict _ _ := .of_eq rfl rfl rfl rfl rfl
  hit r _ h := h.performHit r
  countMiss _ := .of_eq rfl rfl rfl rfl rfl
  markAccessed w n _ h := h.markAccessed w n
  writeBack a _ h := h.writeBackVictim a
  install a u _ h := h.installBlock a (wf_responseData u)
  stall _ := .of_eq rfl rfl rfl rfl rfl
  clock s := .of_eq (by simp) (by simp) (by simp) (by simp) (endOfTick_tables s)

/-- Settles O36: `KeepsCanonical` is kept by every operation of a tick, so by every step. -/
theorem stepKeepsCanonicalForm : Obligations.StepKeepsCanonicalForm := by
  unfold Obligations.StepKeepsCanonicalForm
  simp only [canonical_iff]
  exact ⟨fun s t hs h => (keepsCanonical_operations .reference).stages.step h hs,
    fun k s t hs h => (keepsCanonical_operations k).stages.stepWith h hs⟩

end Sys2Proof.Machine
end

section
/-! What only grows along a step: the clock, the counters and the accessed flags (10_state.md R21, R29,
R34). -/

namespace Sys2Proof.Machine

/-- Each counter of `a` is at most that of `b`; a proof names the counters that differ. -/
structure Stats.Le (a b : Stats) : Prop where
  numInsts : a.numInsts ≤ b.numInsts := by exact Nat.le_refl _
  numStalls : a.numStalls ≤ b.numStalls := by exact Nat.le_refl _
  numBranches : a.numBranches ≤ b.numBranches := by exact Nat.le_refl _
  numMispredictions : a.numMispredictions ≤ b.numMispredictions := by exact Nat.le_refl _
  numFlushes : a.numFlushes ≤ b.numFlushes := by exact Nat.le_refl _
  numAccesses : a.numAccesses ≤ b.numAccesses := by exact Nat.le_refl _
  numLoads : a.numLoads ≤ b.numLoads := by exact Nat.le_refl _
  numStores : a.numStores ≤ b.numStores := by exact Nat.le_refl _
  numMisses : a.numMisses ≤ b.numMisses := by exact Nat.le_refl _
  numWritebacks : a.numWritebacks ≤ b.numWritebacks := by exact Nat.le_refl _

theorem Stats.Le.refl (a : Stats) : a.Le a := {}

theorem Stats.Le.of_eq {a b : Stats} (h : b = a) : a.Le b := h ▸ .refl a

theorem Stats.Le.trans {a b c : Stats} (h : a.Le b) (h' : b.Le c) : a.Le c where
  numInsts := h.numInsts.trans h'.numInsts
  numStalls := h.numStalls.trans h'.numStalls
  numBranches := h.numBranches.trans h'.numBranches
  numMispredictions := h.numMispredictions.trans h'.numMispredictions
  numFlushes := h.numFlushes.trans h'.numFlushes
  numAccesses := h.numAccesses.trans h'.numAccesses
  numLoads := h.numLoads.trans h'.numLoads
  numStores := h.numStores.trans h'.numStores
  numMisses := h.numMisses.trans h'.numMisses
  numWritebacks := h.numWritebacks.trans h'.numWritebacks

/-- No clock, counter or accessed flag of `t` is below that of `s`. -/
structure Grown (s t : State) : Prop where
  tick : s.tick ≤ t.tick
  stats : s.stats.Le t.stats
  acc : ∀ j, accessed s j = true → accessed t j = true

section
variable {s t u : State}

theorem Grown.trans (a : Grown s t) (b : Grown t u) : Grown s u :=
  ⟨a.tick.trans b.tick, a.stats.trans b.stats, fun j h => b.acc j (a.acc j h)⟩

/-- An operation that marks no word as accessed. -/
theorem Grown.of_acc (htick : s.tick ≤ t.tick) (hstats : s.stats.Le t.stats) (hacc : t.acc = s.acc) :
    Grown s t :=
  ⟨htick, hstats, fun j h => by rwa [accessed, hacc]⟩

/-- An operation that only counts. -/
theorem Grown.of_stats (hstats : s.stats.Le t.stats) (htick : t.tick = s.tick) (hacc : t.acc = s.acc) :
    Grown s t :=
  .of_acc htick.ge hstats hacc

theorem Grown.of_contents (e : t.contents = s.contents) : Grown s t :=
  .of_stats (.of_eq (congrArg Contents.stats e)) (congrArg Contents.tick e) (congrArg Contents.acc e)

end

theorem retire_stats (r : Rec) (s : State) :
    (retire r s).stats = { s.stats with numInsts := s.stats.numInsts + 1 } := by
  simp [retire]

/-- A hit counts one load or one store (20_memory.md R79, R80). -/
theorem Grown.performHit (r : Rec) (s : State) : Grown s (Machine.performHit r s).1 := by
  unfold Machine.performHit
  split
  · exact .of_stats { numAccesses := Nat.le_succ _, numLoads := Nat.le_succ _ }
      (by simp [loadHit]) (by simp [loadHit])
  · exact .of_stats { numAccesses := Nat.le_succ _, numStores := Nat.le_succ _ }
      (by simp [storeHit]) (by simp [storeHit])
  all_goals exact .of_contents rfl

/-- A written victim is counted (20_memory.md R82). -/
theorem Grown.writeBackVictim (a : Nat) (s : State) : Grown s (Machine.writeBackVictim a s) := by
  unfold Machine.writeBackVictim
  split
  · exact .of_stats { numWritebacks := Nat.le_succ _ } rfl rfl
  · exact .of_contents rfl

/-- A request marks words as accessed and clears none (20_memory.md R66). -/
theorem Grown.markAccessed (w n : Nat) (s : State) : Grown s (Machine.markAccessed w n s) where
  tick := by simp
  stats := .of_eq (by simp)
  acc j h := by simp [accessed_markAccessed, h]

/-- No operation of a tick lowers the clock, a counter or an accessed flag. -/
theorem grown_operations (k : Collaborators) : OperationRelation k Grown where
  control _ _ := .of_contents
  trans _ _ _ := .trans
  retire r s := .of_stats (retire_stats r s ▸ { numInsts := Nat.le_succ _ }) (by simp) (by simp)
  countBranch _ := .of_stats { numBranches := Nat.le_succ _ } rfl rfl
  update _ _ := .of_stats (.refl _) rfl rfl
  mispredict _ _ :=
    .of_stats { numMispredictions := Nat.le_succ _, numFlushes := Nat.le_succ _ } rfl rfl
  hit := .performHit
  countMiss _ := .of_stats { numMisses := Nat.le_succ _ } rfl rfl
  markAccessed := .markAccessed
  writeBack := .writeBackVictim
  install _ _ _ := .of_stats (.refl _) rfl rfl
  stall _ := .of_stats { numStalls := Nat.le_succ _ } rfl rfl
  clock s := .of_acc (by simp) (.of_eq (by simp)) (by simp)

/-- Settles O38: `Grown` is kept by every operation of a tick, so by every step. -/
theorem countersNeverDecrease : Obligations.CountersNeverDecrease := by
  unfold Obligations.CountersNeverDecrease
  intro s t h
  obtain ⟨htick, hstats, hacc⟩ := (grown_operations .reference).stages.step h
  exact ⟨htick, hstats.numInsts, hstats.numStalls, hstats.numBranches, hstats.numMispredictions,
    hstats.numFlushes, hstats.numAccesses, hstats.numLoads, hstats.numStores, hstats.numMisses,
    hstats.numWritebacks, hacc⟩

end Sys2Proof.Machine
end

section
/-! The configuration checks at boot and the geometry of an address (20_memory.md R60, R70 to R72,
70_reset_and_hazards.md R330). -/

namespace Sys2Proof.Machine

/-! ## Configuration checks (R60, R70) -/

theorem powerOfTwo_iff (n : Nat) : powerOfTwo n = true ↔ ∃ b, n = 2 ^ b := by
  simp only [powerOfTwo, Bool.and_eq_true, decide_eq_true_eq]
  constructor
  · rintro ⟨-, h⟩
    exact ⟨n.log2, h.symm⟩
  · rintro ⟨b, rfl⟩
    exact ⟨Nat.two_pow_pos b |>.ne', by rw [Nat.log2_two_pow]⟩

/-- The five conditions of R70. -/
theorem geometryOk_iff (c : Config) : geometryOk c = true ↔
    (∃ b, c.blockBytes = 2 ^ b) ∧ c.blockBytes % 8 = 0 ∧ (∃ w, c.ways = 2 ^ w)
      ∧ c.cacheBytes % (c.blockBytes * c.ways) = 0
      ∧ 1 ≤ c.cacheBytes / (c.blockBytes * c.ways) := by
  simp only [geometryOk, Bool.and_eq_true, decide_eq_true_eq, powerOfTwo_iff, and_assoc]
  exact Iff.rfl

section
variable {c : Config}

theorem configError_memSize (h : c.memSize % 8 ≠ 0) : configError c = some .cfgMemSize := by
  simp [configError, memSizeOk, h]

theorem configError_geometry (h : c.memSize % 8 = 0) (hg : ¬ geometryOk c = true) :
    configError c = some .cfgCacheGeometry := by
  simp [configError, memSizeOk, h, hg]

theorem configError_none (h : c.memSize % 8 = 0) (hg : geometryOk c = true) :
    configError c = none := by
  simp [configError, memSizeOk, h, hg]

end

/-- A block with a configuration error is stopped before anything is loaded (R330). -/
theorem construct_error {c : Config} {code : FatalCode} (h : configError c = some code)
    (prog : List (Nat × BitVec 32)) (regInit : Vector Word 32) (text : List Char) :
    construct c prog regInit text = raiseFatal code (State.allocate c prog) := by
  rw [construct, h]

theorem construct_loads {c : Config} (h : configError c = none)
    (prog : List (Nat × BitVec 32)) (regInit : Vector Word 32) (text : List Char) :
    construct c prog regInit text =
      loadLines [] (splitLines text) (loadRegs regInit (State.allocate c prog)) := by
  rw [construct, h]

/-- The load of the memory state raises its own three codes only (R336). -/
theorem loadLines_status (seen : List (Nat × Word)) (lines : List (List Char)) (s : State) :
    (loadLines seen lines s).status ∈ [s.status, .fatal .memstateMalformed, .fatal .memstateAddr,
      .fatal .memstateConflict] := by
  induction lines generalizing seen s with
  | nil => simp [loadLines]
  | cons line lines ih =>
    unfold loadLines
    split
    · exact ih seen s
    · simp
    · split_ifs
      · simp
      · simp
      · exact ih _ _

/-- Settles O11: by which of the two checks fails first; with neither, the load of the memory state raises
codes of its own only. -/
theorem configurationChecks : Obligations.ConfigurationChecks := by
  unfold Obligations.ConfigurationChecks
  intro cfg prog regInit text
  dsimp only
  rw [← geometryOk_iff]
  refine ⟨fun hm => ?_, fun hm hg => ?_, fun hm hg => ?_⟩
  · rw [construct_error (configError_memSize hm)]
    exact ⟨rfl, rfl⟩
  · rw [construct_error (configError_geometry hm hg)]
    exact ⟨rfl, rfl⟩
  · rw [construct_loads (configError_none hm hg)]
    have hrun : (loadRegs regInit (State.allocate cfg prog)).status = .running := rfl
    have hstatus :=
      loadLines_status [] (splitLines text) (loadRegs regInit (State.allocate cfg prog))
    rw [hrun] at hstatus
    constructor <;> intro h <;> simp [h] at hstatus

/-! ## Addresses (R71, R72) -/

section
variable {c : Config}

theorem blockAddr_mod_eight (g : GeometryFacts c) (a : Nat) : blockAddr c a % 8 = 0 :=
  blockAddr_mod (s := State.allocate c []) g a

/-- The last byte of an aligned access lies in the block of the first (R72). -/
theorem offsetOf_add_le (g : GeometryFacts c) {a n : Nat} (hn : n = 1 ∨ n = 2 ∨ n = 4 ∨ n = 8)
    (ha : a % n = 0) : offsetOf c a + n ≤ c.blockBytes := by
  have hpos : 0 < n := by omega
  obtain ⟨-, -, hlast⟩ := access_in_block g hn ha (Nat.sub_lt hpos Nat.one_pos)
  have hlt := offset_lt g (a + (n - 1))
  omega

end

/-- Settles O23: an address is the base of its block plus its offset, and an aligned access ends in the
block it begins in. -/
theorem addressDecomposition : Obligations.AddressDecomposition := by
  unfold Obligations.AddressDecomposition
  intro c h a n
  have g := geometryFacts h
  exact ⟨rfl, rfl, rfl, rfl, setIndex_lt g a, offset_lt g a, (blockAddr_eq_base c a).symm,
    (address_decompose c a).symm, blockAddr_mod_eight g a, offsetOf_add_le g⟩

end Sys2Proof.Machine
end

section
/-! One access of the cache: hit, miss and the two errors (20_memory.md R66, R73 to R81). -/

namespace Sys2Proof.Machine

/-! ## Blocks read after a block update, with any number of ways -/

theorem blockOf_updateBlock (a : Nat) (f : Block → Block) (s : State) :
    blockOf (updateBlock a f s) a = f (blockOf s a) :=
  Sparse.get_put_self _ _ _ _

theorem blkAt_updateBlock_of_ne {a : Nat} {f : Block → Block} {s : State} {set way : Nat}
    (h : set * s.cfg.ways + way ≠ setIndex s.cfg a * s.cfg.ways) :
    blkAt (updateBlock a f s) set way = blkAt s set way :=
  Sparse.get_put_of_ne _ _ _ h

@[simp] theorem blkAt_countLoad (s : State) (set way : Nat) :
    blkAt (countLoad s) set way = blkAt s set way := rfl

@[simp] theorem blkAt_countStore (s : State) (set way : Nat) :
    blkAt (countStore s) set way = blkAt s set way := rfl

@[simp] theorem blockOf_countLoad (s : State) (a : Nat) :
    blockOf (countLoad s) a = blockOf s a := rfl

@[simp] theorem blockOf_countStore (s : State) (a : Nat) :
    blockOf (countStore s) a = blockOf s a := rfl

theorem isHit_iff {s : State} {a : Nat} :
    isHit s a = true ↔ (blockOf s a).valid = true ∧ (blockOf s a).tag = tagOf s.cfg a := by
  simp [isHit]

/-! ## A hit (R76, R78 to R80, R86) -/

/-- A load that hits changes the time of its block and nothing else of it. -/
theorem blockOf_loadHit (r : Rec) (s : State) :
    blockOf (loadHit r s).1 r.memAddr.toNat =
      { blockOf s r.memAddr.toNat with lastAccess := s.tick } := by
  rw [loadHit, blockOf_countLoad, touchBlock, blockOf_updateBlock]

/-- `blkAt_storeHit` for the block of the access, with any number of ways. -/
theorem blockOf_storeHit (r : Rec) (s : State) :
    blockOf (storeHit r s).1 r.memAddr.toNat = storedBlock r s (blockOf s r.memAddr.toNat) := by
  rw [storeHit, blockOf_countStore, dirtyBlock, blockOf_updateBlock, memWrite, blockOf_updateBlock,
    touchBlock, blockOf_updateBlock]
  rfl

theorem blkAt_loadHit_of_ne {r : Rec} {s : State} {set way : Nat}
    (h : set * s.cfg.ways + way ≠ setIndex s.cfg r.memAddr.toNat * s.cfg.ways) :
    blkAt (loadHit r s).1 set way = blkAt s set way := by
  rw [loadHit, blkAt_countLoad, touchBlock, blkAt_updateBlock_of_ne h]

theorem blkAt_storeHit_of_ne {r : Rec} {s : State} {set way : Nat}
    (h : set * s.cfg.ways + way ≠ setIndex s.cfg r.memAddr.toNat * s.cfg.ways) :
    blkAt (storeHit r s).1 set way = blkAt s set way := by
  rw [storeHit, blkAt_countStore, dirtyBlock, blkAt_updateBlock_of_ne, memWrite,
    blkAt_updateBlock_of_ne, touchBlock, blkAt_updateBlock_of_ne]
  all_goals exact h

/-- The bytes of the block after a write hit (R86). -/
theorem storedBlock_data_read (r : Rec) (s : State) (b : Block) (j : Nat) :
    (storedBlock r s b).data.read j =
      if offsetOf s.cfg r.memAddr.toNat ≤ j
          ∧ j < offsetOf s.cfg r.memAddr.toNat + r.instr.accessBytes then
        byteOf r.rs2Val (j - offsetOf s.cfg r.memAddr.toNat)
      else b.data.read j :=
  Memory.read_writeLE _ _ _ _ _

theorem byteOf_eq_extractLsb' (v : Word) (j : Nat) : byteOf v j = v.extractLsb' (8 * j) 8 :=
  BitVec.setWidth_ushiftRight_eq_extractLsb

theorem performHit_load {r : Rec} (hc : r.instr.cls = .load) (s : State) :
    performHit r s = loadHit r s := by
  unfold performHit; rw [hc]

theorem performHit_store {r : Rec} (hc : r.instr.cls = .store) (s : State) :
    performHit r s = storeHit r s := by
  unfold performHit; rw [hc]

/-! ## An access of a free cache, case by case (R73 to R75, R81) -/

section
variable {s : State} {r : Rec}

theorem misaligned_eq_false (ha : r.memAddr.toNat % r.instr.accessBytes = 0) :
    misaligned r = false := by
  simp [misaligned, ha]

theorem cacheAccess_misaligned (hfree : s.missInst = none)
    (ha : r.memAddr.toNat % r.instr.accessBytes ≠ 0) :
    cacheAccess r s = .next (raiseFatal .accessMisaligned s, r) := by
  simp [cacheAccess, cacheFree, hfree, misaligned, ha]

theorem cacheAccess_hit (hfree : s.missInst = none)
    (ha : r.memAddr.toNat % r.instr.accessBytes = 0) (hit : isHit s r.memAddr.toNat = true) :
    cacheAccess r s = .next (performHit r s) := by
  simp [cacheAccess, cacheFree, hfree, misaligned_eq_false ha, hit]

/-- A miss hands the record to the cache, is counted, and asks for the block of the address. -/
theorem cacheAccess_miss (hfree : s.missInst = none)
    (ha : r.memAddr.toNat % r.instr.accessBytes = 0) (hit : isHit s r.memAddr.toNat = false) :
    cacheAccess r s =
      withRec r (loadBlock (blockAddr s.cfg r.memAddr.toNat) s.cfg.blockBytes
        (countMiss { s with missInst := some r })) := by
  simp [cacheAccess, cacheFree, hfree, misaligned_eq_false ha, hit]

end

/-! ## A request for a block (R66) -/

theorem markAccessed_eq (k n : Nat) (s : State) :
    markAccessed k n s = { s with acc := (markAccessed k n s).acc } := by
  induction n generalizing k s with
  | zero => rfl
  | succ n ih => rw [markAccessed, ih]

/-- The words of `size` bytes from `addr` up become accessed, and the request is due `L` ticks on. -/
theorem loadBlock_inRange {s : State} {addr size : Nat} (hfree : s.pendValid = false)
    (h8 : addr % 8 = 0) (hrange : addr + size ≤ s.cfg.memSize) :
    loadBlock addr size s = .next
      { markAccessed (addr / 8) ((addr + size) / 8 - addr / 8) s with
        pendValid := true
        pendAddr := BitVec.ofNat 64 addr
        pendSize := size
        pendTick := s.tick + s.cfg.memLatency } := by
  simp [loadBlock, hfree, h8, Nat.not_lt.2 hrange]

theorem loadBlock_outOfRange {s : State} {addr size : Nat} (hfree : s.pendValid = false)
    (h8 : addr % 8 = 0) (hrange : s.cfg.memSize < addr + size) :
    loadBlock addr size s = .next (raiseFatal .accessOutOfRange s) := by
  simp [loadBlock, hfree, h8, hrange]

/-! ## The obligations about one access -/

/-- Settles O24: the access is a load hit, which touches its block. -/
theorem readHit : Obligations.ReadHit := by
  unfold Obligations.ReadHit
  intro s r hc hfree ha hvalid htag
  refine ⟨(loadHit r s).1, (loadHit r s).2.rdVal, ?_, rfl, rfl, blockOf_loadHit r s,
    fun _ _ => blkAt_loadHit_of_ne⟩
  rw [cacheAccess_hit hfree ha (isHit_iff.2 ⟨hvalid, htag⟩), performHit_load hc]
  rfl

/-- Settles O25: the access is a store hit, which leaves `storedBlock` in its set. -/
theorem writeHit : Obligations.WriteHit := by
  unfold Obligations.WriteHit
  intro s r hc hfree ha hvalid htag
  refine ⟨(storeHit r s).1, ?_, ?_, ?_, fun j => ?_, fun _ _ => blkAt_storeHit_of_ne⟩
  · rw [cacheAccess_hit hfree ha (isHit_iff.2 ⟨hvalid, htag⟩), performHit_store hc]
    rfl
  · exact storeHit_frame r s
  · rw [blockOf_storeHit]
    rfl
  · rw [blockOf_storeHit, storedBlock_data_read, byteOf_eq_extractLsb']
    rfl

/-- Settles O26: the request of a miss in range. -/
theorem missRequest : Obligations.MissRequest := by
  unfold Obligations.MissRequest
  intro s r hfree hpend hcfg ha hmiss base hrange
  have h8 : base % 8 = 0 := blockAddr_mod (geometryFacts hcfg) r.memAddr.toNat
  have hwords : base / 8 ≤ (base + s.cfg.blockBytes) / 8 := Nat.div_le_div_right (Nat.le_add_right _ _)
  have haccess := cacheAccess_miss hfree ha hmiss
  have hload := loadBlock_inRange (s := countMiss { s with missInst := some r }) hpend h8 hrange
  refine ⟨_, haccess.trans (congrArg (withRec r) hload), ?_, fun k => ?_⟩
  · rw [markAccessed_eq]
    rfl
  · refine (accessed_markAccessed (base / 8) ((base + s.cfg.blockBytes) / 8 - base / 8)
      (countMiss { s with missInst := some r }) k).trans ?_
    rw [Nat.add_sub_cancel' hwords]
    rfl

/-- Settles O27: the alignment check comes first, and the range check after the miss is counted. -/
theorem accessErrors : Obligations.AccessErrors := by
  unfold Obligations.AccessErrors
  intro s r hfree
  refine ⟨cacheAccess_misaligned hfree, fun ha hmiss hpend hcfg hrange => ?_⟩
  have h8 := blockAddr_mod (geometryFacts hcfg) r.memAddr.toNat
  have haccess := cacheAccess_miss hfree ha hmiss
  have hload := loadBlock_outOfRange (s := countMiss { s with missInst := some r }) hpend h8 hrange
  exact haccess.trans (congrArg (withRec r) hload)

end Sys2Proof.Machine
end

section
/-! The coherent memory on a hit (20_memory.md R85, R86, R89), and the response to a miss (R67, R82 to R84). -/

namespace Sys2Proof.Machine

/-! ## A write read back at its width (R86, R89) -/

/-- The low `n + 1` bytes of a word are its low byte and the `n` bytes above it. -/
theorem extendUnsigned_succ (n : Nat) (v : Word) :
    extendUnsigned (n + 1) v = (byteOf v 0).setWidth 64 ||| (extendUnsigned n (v >>> 8) <<< 8) := by
  apply BitVec.eq_of_getLsbD_eq
  intro i hi
  by_cases hlow : i < 8
  · simp [extendUnsigned, byteOf, hi, hlow]
    omega
  · have hup : 8 + (i - 8) = i := by omega
    have hn : i < 8 * (n + 1) ↔ i - 8 < 8 * n := by omega
    simp [extendUnsigned, byteOf, hi, hlow, hup, hn]

/-- A memory that holds the bytes of a word gives the word at that width (R61). -/
theorem Memory.readLE_of_bytes {m : Memory} {a n : Nat} {v : Word}
    (h : ∀ j < n, m.read (a + j) = byteOf v j) : m.readLE a n = extendUnsigned n v := by
  induction n generalizing a v with
  | zero => simp [Memory.readLE, extendUnsigned, BitVec.of_length_zero]
  | succ n ih =>
    have hrest : m.readLE (a + 1) n = extendUnsigned n (v >>> 8) := by
      refine ih fun j hj => ?_
      have hbyte : byteOf (v >>> 8) j = byteOf v (j + 1) := by
        rw [byteOf, byteOf, ← BitVec.shiftRight_add, Nat.mul_succ, Nat.add_comm]
      rw [hbyte, Nat.add_assoc, Nat.add_comm 1 j]
      exact h (j + 1) (Nat.succ_lt_succ hj)
    rw [Memory.readLE, hrest, extendUnsigned_succ, ← h 0 n.succ_pos, Nat.add_zero]

/-- What a cache write leaves is read back as its low bytes. -/
theorem memRead_memWrite (s : State) (a n : Nat) (v : Word) :
    memRead (memWrite a n v s) a n = extendUnsigned n v := by
  rw [memRead, memWrite, blockOf_updateBlock]
  refine Memory.readLE_of_bytes fun j hj => ?_
  have hin : offsetOf s.cfg a ≤ offsetOf s.cfg a + j ∧ offsetOf s.cfg a + j < offsetOf s.cfg a + n := by
    omega
  refine (Memory.read_writeLE _ _ _ _ _).trans ?_
  rw [updateBlock_cfg, if_pos hin, Nat.add_sub_cancel_left, byteOf]

/-- Settles O29: the laws of the cache's reads and writes over the coherent memory. -/
theorem coherentRead : Obligations.CoherentRead := by
  unfold Obligations.CoherentRead
  intro s a n v hcfg hit hn ha
  have g := geometryFacts hcfg
  exact ⟨memRead_eq_coherentLE g hn ha hit, memRead_memWrite s a n v,
    coherentByte_memWrite g v hn ha hit⟩

/-! ## A hit, whichever class it is of -/

section
variable {s : State} {r : Rec}

/-- A hit writes the blocks and the counters. -/
theorem performHit_frame (r : Rec) (s : State) :
    (performHit r s).1 =
      { s with blk := (performHit r s).1.blk, stats := (performHit r s).1.stats } := by
  unfold performHit
  split
  · rfl
  · exact storeHit_frame r s
  all_goals rfl

theorem performHit_img (r : Rec) (s : State) : (performHit r s).1.img = s.img := by
  rw [performHit_frame]

theorem blkAt_performHit_of_ne {set way : Nat}
    (h : set * s.cfg.ways + way ≠ setIndex s.cfg r.memAddr.toNat * s.cfg.ways) :
    blkAt (performHit r s).1 set way = blkAt s set way := by
  unfold performHit
  split
  · exact blkAt_loadHit_of_ne h
  · exact blkAt_storeHit_of_ne h
  all_goals rfl

/-- A hit leaves the time of the access in its block (R76). -/
theorem performHit_lastAccess (hc : r.accesses) :
    (blockOf (performHit r s).1 r.memAddr.toNat).lastAccess = s.tick := by
  obtain hc | hc := hc
  · rw [performHit_load hc, blockOf_loadHit]
  · rw [performHit_store hc, blockOf_storeHit, storedBlock]

/-! ## The bytes of a block, present or not (R71, R89) -/

/-- A block that is present holds the coherent bytes. -/
theorem data_read_of_isHit (g : GeometryFacts s.cfg) {a j : Nat} (hit : isHit s a = true)
    (hj : j < s.cfg.blockBytes) :
    (blockOf s a).data.read j = coherentByte s (blockAddr s.cfg a + j) := by
  obtain ⟨hset, htag, hoff⟩ := index_base_add g (tagOf s.cfg a) (setIndex_lt g a) hj
  rw [← blockAddr_eq_base] at hset htag hoff
  rw [coherentByte, isHit_eq hset htag, hit, if_pos rfl, hoff, blockOf, blockOf, hset]

/-- The coherent bytes of a block that is not present are the image's. -/
theorem coherentByte_of_not_isHit (g : GeometryFacts s.cfg) {a j : Nat} (hmiss : isHit s a = false)
    (hj : j < s.cfg.blockBytes) :
    coherentByte s (blockAddr s.cfg a + j) = s.img.read (blockAddr s.cfg a + j) := by
  obtain ⟨hset, htag, -⟩ := index_base_add g (tagOf s.cfg a) (setIndex_lt g a) hj
  rw [← blockAddr_eq_base] at hset htag
  simp [coherentByte, isHit_eq hset htag, hmiss]

/-! ## The response (R67, R82 to R84) -/

/-- The state in which the missed record `r` is replayed: the request is answered, the victim written back
and the block installed. -/
def responded (r : Rec) (s : State) : State :=
  installBlock r.memAddr.toNat (responseData s)
    (writeBackVictim r.memAddr.toNat { s with pendValid := false })

theorem responded_frame (r : Rec) (s : State) :
    responded r s =
      { s with
        pendValid := false
        blk := (responded r s).blk
        img := (responded r s).img
        stats := (responded r s).stats } := by
  unfold responded installBlock setBlk writeBackVictim
  split <;> rfl

theorem responded_cfg (r : Rec) (s : State) : (responded r s).cfg = s.cfg := by
  rw [responded_frame]

/-- The address of the block that a response for `a` evicts (R82). -/
def victimBase (s : State) (a : Nat) : Nat := blockBase s.cfg (setIndex s.cfg a) (blockOf s a).tag

/-- A valid dirty victim is written to the image at its own address, and nothing else is (R68, R82). -/
theorem responded_img (r : Rec) (s : State) (b : Nat) :
    (responded r s).img.read b =
      if ((blockOf s r.memAddr.toNat).valid = true ∧ (blockOf s r.memAddr.toNat).dirty = true)
          ∧ victimBase s r.memAddr.toNat ≤ b
          ∧ b < victimBase s r.memAddr.toNat + s.cfg.blockBytes then
        (blockOf s r.memAddr.toNat).data.read (b - victimBase s r.memAddr.toNat)
      else s.img.read b := by
  simp only [← Bool.and_eq_true]
  exact writeBackVictim_img (s := { s with pendValid := false }) (a := r.memAddr.toNat) b

theorem blkAt_responded_of_ne {set way : Nat}
    (h : set * s.cfg.ways + way ≠ setIndex s.cfg r.memAddr.toNat * s.cfg.ways) :
    blkAt (responded r s) set way = blkAt s set way := by
  have hvictim : blkAt (writeBackVictim r.memAddr.toNat { s with pendValid := false }) set way =
      blkAt s set way := blkAt_congr (by simp) (by simp) set way
  rw [← hvictim]
  refine Sparse.get_put_of_ne _ _ _ ?_
  simpa [responded_cfg] using h

/-- The record a response hands on is the one its replay answers (R84). -/
theorem handleResponse_replayed {data : Memory} {u : State} {q : Rec} (hm : s.missInst = some r)
    (h : replay r (installBlock r.memAddr.toNat data (writeBackVictim r.memAddr.toNat s)) =
      .next (u, q)) : handleResponse data s = .next (releaseMiss u, some q) := by
  simp [handleResponse, hm, h]

theorem memRun_early (ht : s.tick < s.pendTick) : memRun s = .next (s, none) := by
  simp [memRun, Nat.not_le.2 ht]

/-- A response that is due replays the missed access as a hit and frees the cache. -/
theorem memRun_due {t : State} {q : Rec} (g : GeometryFacts s.cfg) (hr : s.status = .running)
    (hp : s.pendValid = true) (ht : s.pendTick ≤ s.tick) (hm : s.missInst = some r)
    (ha : misaligned r = false) (hhit : performHit r (responded r s) = (t, q)) :
    memRun s = .next ({ t with missInst := none }, some q) := by
  have hit : isHit (responded r s) r.memAddr.toNat = true :=
    isHit_response (s := { s with pendValid := false }) g (responseData s)
  have hreplay : replay r (responded r s) = .next (t, q) := by
    simp only [replay, ha, hit, hhit, Bool.false_eq_true, if_false, if_true]
  have hrun : t.status = .running := by
    have heq : (performHit r (responded r s)).1 = t := congrArg Prod.fst hhit
    rw [← heq, performHit_frame, responded_frame]
    exact hr
  calc memRun s
    _ = handleResponse (responseData s) { s with pendValid := false } := by simp [memRun, hp, ht]
    _ = .next (releaseMiss t, some q) :=
      handleResponse_replayed (s := { s with pendValid := false }) hm hreplay
    _ = .next ({ t with missInst := none }, some q) := by rw [releaseMiss, if_pos hrun]

/-- What the invariant says of an outstanding miss (R81, R183). -/
theorem Inv.missed_record {k : Collaborators} (h : Inv s k) (hm : s.missInst = some r) :
    r.accesses ∧ misaligned r = false ∧ isHit s r.memAddr.toNat = false := by
  have hmiss := h.miss r hm
  simp only [missConsistent, Bool.and_eq_true, Bool.or_eq_true, decide_eq_true_eq,
    Bool.not_eq_true'] at hmiss
  obtain ⟨⟨⟨⟨⟨hc, ha⟩, -⟩, -⟩, -⟩, hhit⟩ := hmiss
  exact ⟨hc, ha, hhit⟩

/-- The state a response that is due leaves, the record it hands on, and what the memory stage knows of
both (`Inv.replayed`). -/
theorem Inv.memRun_replayed {k : Collaborators} (h : Inv s k) (hr : s.status = .running)
    (hm : s.missInst = some r) (ht : s.pendTick ≤ s.tick) :
    ∃ t q, memRun s = .next (t, some q)
      ∧ t = { (performHit r (responded r s)).1 with missInst := none }
      ∧ Done k r s { t with lMW := some q } := by
  obtain ⟨-, ha, -⟩ := h.missed_record hm
  have hp : s.pendValid = true := by rw [h.pending, hm]; rfl
  have hrun := memRun_due (geometryFacts h.config) hr hp ht hm ha rfl
  obtain ⟨t, q, hcache, -, -, -, D⟩ := h.replayed hr hm ht
  rw [cacheRun, hrun] at hcache
  cases hcache
  exact ⟨_, _, hrun, rfl, D⟩

end

/-- Settles O28: before it is due the data memory is silent; from then on the state is the one a hit leaves
of `responded`, and `Done` gives its coherent memory and counters. -/
theorem missResponse : Obligations.MissResponse := by
  unfold Obligations.MissResponse
  intro s r h hr hm a victim old writeBack
  refine ⟨memRun_early, fun ht => ?_⟩
  have g := geometryFacts h.config
  obtain ⟨hc, -, hmiss⟩ := h.missed_record hm
  obtain ⟨t, q, hrun, et, D⟩ := h.memRun_replayed hr hm ht
  have hrecord : q = _ := Option.some.inj D.record
  have hcfg : t.cfg = s.cfg := D.cfg
  have hpresent : isHit t a = true := D.landed.present hc
  have himg : t.img = (responded r s).img := et ▸ performHit_img r _
  obtain ⟨hvalid, htag⟩ := isHit_iff.1 hpresent
  refine ⟨t, q, hrun, ?_, fun hl => ?_, fun hs => ?_, fun b => ?_, hvalid, hcfg ▸ htag, ?_, ?_,
    fun j hj => ?_, fun set way hne => ?_, ?_⟩
  · rw [et, performHit_frame, responded_frame]
  · rw [hrecord, if_pos hl]
  · rw [hrecord, if_neg (by rw [hs]; decide)]
  · rw [himg]
    exact responded_img r s b
  · rw [et]
    refine (performHit_lastAccess hc).trans ?_
    rw [responded_frame]
  · have hdirty : (blockOf t a).dirty = _ := D.landed.dirty hc
    rw [hdirty, hmiss, Bool.false_and, Bool.or_false]
  · have hbyte : coherentByte t (blockAddr s.cfg a + j) = _ := D.landed.coherent _
    rw [data_read_of_isHit (hcfg ▸ g) hpresent (hcfg ▸ hj), hcfg, hbyte,
      coherentByte_of_not_isHit g hmiss hj]
  · have hothers := blkAt_performHit_of_ne (s := responded r s) (r := r) (set := set) (way := way)
    rw [responded_cfg] at hothers
    rw [et]
    exact (hothers hne).trans (blkAt_responded_of_ne hne)
  · have hstats : t.stats = _ := D.landed.stats
    have haccess : r.instr.cls = .load ∨ r.instr.cls = .store := hc
    rw [hstats, if_pos haccess, hm]
    simp only [Option.isSome_some, true_and]
    rfl

end Sys2Proof.Machine
end

section
/-! The laws between the counters along a tick (20_memory.md R88, 40_pipeline_control.md R178, R187,
70_reset_and_hazards.md R350). -/

namespace Sys2Proof.Machine

/-! ## What the memory stage can do (R158, R159) -/

/-- What the memory stage does to a state that keeps the invariant, with L_MW empty. -/
inductive MemoryOutcome (k : Collaborators) (s t : State) : Prop
  | idle (h : t = s)
  | done (r : Rec) (h : Done k r s t) (hm : s.missInst = none ∨ r.accesses)
  | missed (r : Rec) (h : Missed k r s t) (hm : s.missInst = none)
  | stopped (c : FatalCode) (h : Stopped c s t)

section
variable {k : Collaborators} {s t : State} {r : Rec}

/-- An access that raises no Fatal at issue hits, or misses in range (R66, R73). -/
theorem recordError_none (hc : r.accesses) (he : recordError s r = none) :
    r.addr % r.instr.accessBytes = 0 ∧ (isHit s r.addr = true
      ∨ isHit s r.addr = false ∧ blockAddr s.cfg r.addr + s.cfg.blockBytes ≤ s.cfg.memSize) := by
  have hc' : r.instr.cls = .load ∨ r.instr.cls = .store := hc
  rw [recordError, if_pos hc'] at he
  split_ifs at he with ha hrange
  refine ⟨not_not.1 ha, ?_⟩
  cases hit : isHit s r.addr with
  | true => exact .inl rfl
  | false => exact .inr ⟨rfl, Nat.not_lt.1 fun hlt => hrange ⟨hit, hlt⟩⟩

/-- The memory stage completes, in one of the four ways. -/
theorem Inv.memoryStage_outcome (h : Inv s k) (hr : s.status = .running) (hw : s.lMW = none) :
    ∃ t, memoryStage s = .next t ∧ MemoryOutcome k s t := by
  obtain hm | ⟨r, hm⟩ := Option.eq_none_or_eq_some s.missInst
  · obtain hx | ⟨r, hx⟩ := Option.eq_none_or_eq_some s.lXM
    · exact ⟨s, h.resting (fun _ => hx) (absurd hm), .idle rfl⟩
    by_cases hc : r.accesses
    · cases he : recordError s r with
      | some c =>
        obtain ⟨t, et, T⟩ := h.stops hr hw hm hx he
        exact ⟨t, et, .stopped c T⟩
      | none =>
        obtain ⟨ha, hit | ⟨hmiss, hrange⟩⟩ := recordError_none hc he
        · obtain ⟨t, et, D⟩ := h.hit hr hw hm hx hc ha hit
          exact ⟨t, et, .done r D (.inl hm)⟩
        · obtain ⟨t, et, M⟩ := h.missing hr hw hm hx hc ha hmiss hrange
          exact ⟨t, et, .missed r M hm⟩
    · obtain ⟨t, et, D⟩ := h.pass hr hw hm hx hc
      exact ⟨t, et, .done r D (.inl hm)⟩
  · by_cases ht : s.pendTick ≤ s.tick
    · obtain ⟨hc, -, -⟩ := h.missed_record hm
      obtain ⟨t, et, D⟩ := h.response hr hm ht
      exact ⟨t, et, .done r D (.inr hc)⟩
    · have hbusy : s.missInst ≠ none := by simp [hm]
      exact ⟨s, h.resting (absurd · hbusy) (fun _ => Nat.not_le.1 ht), .idle rfl⟩

/-- After the writeback stage L_MW is empty, and no Fatal has been raised (R152). -/
theorem writebackStage_lMW_status (s : State) (k : Collaborators) :
    (writebackStage s k).lMW = none ∧ (writebackStage s k).status = s.status := by
  obtain hw | ⟨q, hw⟩ := Option.eq_none_or_eq_some s.lMW
  · rw [writebackStage_none hw]
    exact ⟨hw, rfl⟩
  · obtain ⟨-, -, -, -, -, -, -, -, -, -, -, hstatus, hlMW, -⟩ := writebackStage_frame (k := k) hw
    exact ⟨hlMW, hstatus⟩

end

/-! ## The laws -/

/-- The laws between the counters, in a tick that may have retired `ahead` instructions before its clock
advances. -/
structure Balanced (ahead : Nat) (s : State) : Prop where
  accesses : s.stats.numAccesses = s.stats.numLoads + s.stats.numStores
  misses : s.stats.numMisses ≤ s.stats.numAccesses + (if s.missInst = none then 0 else 1)
  flushes : s.stats.numFlushes = s.stats.numMispredictions
  mispredictions : s.stats.numMispredictions ≤ s.stats.numBranches
  branches : s.stats.numBranches ≤ s.stats.numInsts
  insts : s.stats.numInsts ≤ s.tick + ahead

section
variable {k : Collaborators} {s t : State} {r : Rec}

/-- The writeback stage retires at most one instruction, and mispredicts only a branch (R152, R153). -/
theorem Balanced.writeback (b : Balanced 0 s) (k : Collaborators) :
    Balanced 1 (writebackStage s k) := by
  obtain hw | ⟨q, hw⟩ := Option.eq_none_or_eq_some s.lMW
  · rw [writebackStage_none hw]
    exact { b with insts := Nat.le_succ_of_le b.insts }
  · obtain ⟨-, -, htick, -, -, -, hmiss, -⟩ := writebackStage_frame (k := k) hw
    obtain ⟨haccesses, hmisses, hflushes, hmispredictions, hbranches, hinsts⟩ := b
    constructor <;> simp only [writebackStage_stats hw, htick, hmiss]
    · exact haccesses
    · exact hmisses
    · rw [hflushes]
    · by_cases hb : q.isBranch = true
      · simp only [hb, true_and, if_true]
        split_ifs <;> omega
      · simpa [hb] using hmispredictions
    · split_ifs <;> omega
    · omega

/-- An access is counted as a load or as a store, and pays for the miss it may have been (R84, R88). -/
theorem Balanced.done {n : Nat} (b : Balanced n s) (D : Done k r s t)
    (hm : s.missInst = none ∨ r.accesses) : Balanced n t := by
  obtain ⟨haccesses, hmisses, hflushes, hmispredictions, hbranches, hinsts⟩ := b
  have hkinds : (if r.instr.cls = .load ∨ r.instr.cls = .store then 1 else 0) =
      (if r.instr.cls = .load then 1 else 0) + (if r.instr.cls = .store then 1 else 0) := by
    cases r.instr.cls <;> rfl
  constructor <;> simp only [D.landed.stats, D.missInst, D.tick]
  · rw [hkinds]
    omega
  · obtain hm | hc := hm
    · rw [if_pos hm] at hmisses
      exact hmisses.trans (Nat.le_add_right _ _)
    · have hc' : r.instr.cls = .load ∨ r.instr.cls = .store := hc
      rw [if_pos hc']
      split_ifs at hmisses <;> omega
  · exact hflushes
  · exact hmispredictions
  · exact hbranches
  · exact hinsts

/-- A miss is outstanding when it is counted (R81). -/
theorem Balanced.missed {n : Nat} (b : Balanced n s) (M : Missed k r s t) (hm : s.missInst = none) :
    Balanced n t := by
  obtain ⟨haccesses, hmisses, hflushes, hmispredictions, hbranches, hinsts⟩ := b
  constructor <;> simp only [M.stats, M.missInst, M.tick]
  · exact haccesses
  · rw [hm] at hmisses
    simpa using hmisses
  · exact hflushes
  · exact hmispredictions
  · exact hbranches
  · exact hinsts

/-- The stages after the memory stage count nothing but stalls. -/
theorem Balanced.calm {n : Nat} (b : Balanced n s) (c : Calm s t) : Balanced n t := by
  obtain ⟨m, -, hstats⟩ := c.stats
  obtain ⟨haccesses, hmisses, hflushes, hmispredictions, hbranches, hinsts⟩ := b
  constructor <;> simp only [hstats, c.missInst, c.tick] <;> assumption

theorem Balanced.clock (b : Balanced 1 s) : Balanced 0 (endOfTick s) := by
  obtain ⟨haccesses, hmisses, hflushes, hmispredictions, hbranches, hinsts⟩ := b
  constructor <;> simp only [endOfTick_stats, endOfTick_missInst, endOfTick_tick] <;> assumption

/-- The memory stage counts as a record that is done, one that missed, or nothing; else it raised a Fatal. -/
theorem Balanced.memory {n : Nat} (b : Balanced n s) (h : Inv s k) (hr : s.status = .running)
    (o : MemoryOutcome k s t) :
    (Inv t k ∧ t.status = .running ∧ Balanced n t) ∨ ∃ c, t.status = .fatal c := by
  cases o with
  | idle e => exact .inl (e ▸ ⟨h, hr, b⟩)
  | done r D hm => exact .inl ⟨D.inv, D.status, b.done D hm⟩
  | missed r M hm => exact .inl ⟨M.inv, M.status, b.missed M hm⟩
  | stopped c T => exact .inr ⟨c, T.status⟩

/-- A tick that raises no Fatal keeps the laws. -/
theorem Balanced.tick (b : Balanced 0 s) (h : Inv s k) (hr : s.status = .running)
    (e : Machine.tick s k = .next t) (hf : ∀ c, t.status ≠ .fatal c) : Balanced 0 t := by
  obtain ⟨hw, hstatus⟩ := writebackStage_lMW_status s k
  rw [hr] at hstatus
  obtain ⟨u, hu, o⟩ := h.retirement.memoryStage_outcome hstatus hw
  rw [tick_eq h.noForwarding, restOfTick, restOfTickFrom_eq, hu] at e
  obtain ⟨hI, hrun, bu⟩ | ⟨c, hc⟩ := (b.writeback k).memory h.retirement hstatus o
  · obtain ⟨v, hv, -, c, -⟩ := after_memory hI hrun (source_admitted h.retirement)
    rw [andThen_running hrun, hv] at e
    cases e
    exact (bu.calm c).clock
  · rw [andThen_stopped (by rw [hc]; exact Status.noConfusion)] at e
    cases e
    exact absurd hc (hf c)

end

/-- Settles O39: the laws are `Balanced 0`, which every tick keeps. -/
theorem counterLaws : Obligations.CounterLaws := by
  unfold Obligations.CounterLaws
  intro laws
  refine ⟨by decide, fun s t h hr ⟨h1, h2, h3, h4, h5, h6⟩ e hf => ?_⟩
  obtain ⟨h1, h2, h3, h4, h5, h6⟩ := Balanced.tick ⟨h1, h2, h3, h4, h5, h6⟩ h hr e hf
  exact ⟨h1, h2, h3, h4, h5, h6⟩

end Sys2Proof.Machine
end

section
/-! The codec: the decoder one major opcode at a time, and from it that decoding and encoding are inverse and
that the rows of opcode_table.json partition the admitted words (30_encoding.md R116 to R122). -/

namespace Sys2Proof

/-! ## The decoder, by major opcode (R119) -/

section
variable {w : BitVec 32}

theorem decodeWord_lui (h : fieldOpcode w = 0x37#7) :
    decodeWord w = some (.lui (fieldRd w) (fieldImmU w)) := by
  rw [decodeWord, h]; rfl

theorem decodeWord_auipc (h : fieldOpcode w = 0x17#7) :
    decodeWord w = some (.auipc (fieldRd w) (fieldImmU w)) := by
  rw [decodeWord, h]; rfl

theorem decodeWord_jal (h : fieldOpcode w = 0x6F#7) :
    decodeWord w = some (.jal (fieldRd w) (fieldImmJ w)) := by
  rw [decodeWord, h]; rfl

theorem decodeWord_jalr (h : fieldOpcode w = 0x67#7) :
    decodeWord w = decodeJalr (fieldFunct3 w) (fieldRd w) (fieldRs1 w) (fieldImmI w) := by
  rw [decodeWord, h]; rfl

theorem decodeWord_branch (h : fieldOpcode w = 0x63#7) :
    decodeWord w = decodeBranch (fieldFunct3 w) (fieldRs1 w) (fieldRs2 w) (fieldImmB w) := by
  rw [decodeWord, h]; rfl

theorem decodeWord_load (h : fieldOpcode w = 0x03#7) :
    decodeWord w = decodeLoad (fieldFunct3 w) (fieldRd w) (fieldRs1 w) (fieldImmI w) := by
  rw [decodeWord, h]; rfl

theorem decodeWord_store (h : fieldOpcode w = 0x23#7) :
    decodeWord w = decodeStore (fieldFunct3 w) (fieldRs2 w) (fieldRs1 w) (fieldImmS w) := by
  rw [decodeWord, h]; rfl

theorem decodeWord_opImm (h : fieldOpcode w = 0x13#7) :
    decodeWord w = decodeOpImm w (fieldFunct3 w) (fieldRd w) (fieldRs1 w) := by
  rw [decodeWord, h]; rfl

theorem decodeWord_opImm32 (h : fieldOpcode w = 0x1B#7) :
    decodeWord w = decodeOpImm32 w (fieldFunct3 w) (fieldRd w) (fieldRs1 w) := by
  rw [decodeWord, h]; rfl

theorem decodeWord_op (h : fieldOpcode w = 0x33#7) :
    decodeWord w = decodeOp (fieldFunct7 w) (fieldFunct3 w) (fieldRd w) (fieldRs1 w) (fieldRs2 w) := by
  rw [decodeWord, h]; rfl

theorem decodeWord_op32 (h : fieldOpcode w = 0x3B#7) :
    decodeWord w = decodeOp32 (fieldFunct7 w) (fieldFunct3 w) (fieldRd w) (fieldRs1 w) (fieldRs2 w) := by
  rw [decodeWord, h]; rfl

end

/-! ## The word of an instruction decodes to it -/

theorem decodeWord_encode {i : Instr} (h : i.wellFormed = true) : decodeWord (encode i) = some i := by
  cases i with
  | add | sub | sll | slt | sltu | xor | srl | sra | or | and | mul | mulh | mulhsu | mulhu | div | divu
  | rem | remu =>
    refine (decodeWord_op (fieldOpcode_formR ..)).trans ?_
    rw [fieldFunct7_formR, fieldFunct3_formR, fieldRd_formR, fieldRs1_formR, fieldRs2_formR]
    rfl
  | addw | subw | sllw | srlw | sraw | mulw | divw | divuw | remw | remuw =>
    refine (decodeWord_op32 (fieldOpcode_formR ..)).trans ?_
    rw [fieldFunct7_formR, fieldFunct3_formR, fieldRd_formR, fieldRs1_formR, fieldRs2_formR]
    rfl
  | addi | slti | sltiu | xori | ori | andi =>
    refine (decodeWord_opImm (fieldOpcode_formI ..)).trans ?_
    rw [fieldFunct3_formI, fieldRd_formI, fieldRs1_formI]
    unfold decodeOpImm
    rw [fieldImmI_formI]
    rfl
  | slli | srli | srai =>
    refine (decodeWord_opImm (fieldOpcode_formShift64 ..)).trans ?_
    rw [fieldFunct3_formShift64, fieldRd_formShift64, fieldRs1_formShift64]
    unfold decodeOpImm
    rw [fieldFunct6_formShift64, fieldShamt6_formShift64]
    rfl
  | addiw =>
    refine (decodeWord_opImm32 (fieldOpcode_formI ..)).trans ?_
    rw [fieldFunct3_formI, fieldRd_formI, fieldRs1_formI]
    unfold decodeOpImm32
    rw [fieldImmI_formI]
    rfl
  | slliw | srliw | sraiw =>
    refine (decodeWord_opImm32 (fieldOpcode_formShift32 ..)).trans ?_
    rw [fieldFunct3_formShift32, fieldRd_formShift32, fieldRs1_formShift32]
    unfold decodeOpImm32
    rw [fieldFunct7_formShift32, fieldShamt5_formShift32]
    rfl
  | lui =>
    refine (decodeWord_lui (fieldOpcode_formU ..)).trans ?_
    rw [fieldRd_formU, fieldImmU_formU]
  | auipc =>
    refine (decodeWord_auipc (fieldOpcode_formU ..)).trans ?_
    rw [fieldRd_formU, fieldImmU_formU]
  | lb | lh | lw | ld | lbu | lhu | lwu =>
    refine (decodeWord_load (fieldOpcode_formI ..)).trans ?_
    rw [fieldFunct3_formI, fieldRd_formI, fieldRs1_formI, fieldImmI_formI]
    rfl
  | sb | sh | sw | sd =>
    refine (decodeWord_store (fieldOpcode_formS ..)).trans ?_
    rw [fieldFunct3_formS, fieldRs2_formS, fieldRs1_formS, fieldImmS_formS]
    rfl
  | beq | bne | blt | bge | bltu | bgeu =>
    refine (decodeWord_branch (fieldOpcode_formB ..)).trans ?_
    rw [fieldFunct3_formB, fieldRs1_formB, fieldRs2_formB, fieldImmB_formB (h := h)]
    rfl
  | jal =>
    refine (decodeWord_jal (fieldOpcode_formJ ..)).trans ?_
    rw [fieldRd_formJ, fieldImmJ_formJ (h := h)]
  | jalr =>
    refine (decodeWord_jalr (fieldOpcode_formI ..)).trans ?_
    rw [fieldFunct3_formI, fieldRd_formI, fieldRs1_formI, fieldImmI_formI]
    rfl

/-- A word is its four bytes put together (log entry 16). -/
theorem wordOfBytes_extract (w : BitVec 32) :
    wordOfBytes (w.extractLsb' 0 8) (w.extractLsb' 8 8) (w.extractLsb' 16 8) (w.extractLsb' 24 8) = w := by
  apply BitVec.eq_of_getLsbD_eq
  intro i hi
  rw [wordOfBytes]
  simp only [BitVec.getLsbD_append, BitVec.getLsbD_extractLsb']
  interval_cases i <;> rfl

theorem decodeBytes_encodeBytes {i : Instr} (h : i.wellFormed = true) (rest : List Byte) :
    decodeBytes (encodeBytes i ++ rest) = .ok (i, rest) := by
  simp only [encodeBytes, List.cons_append, List.nil_append, decodeBytes, wordOfBytes_extract,
    decodeWord_encode h]

/-- Settles O2: each field of a format is read back, and the major opcode selects the decoder's branch. -/
theorem decodeAfterEncode : Obligations.DecodeAfterEncode :=
  fun _ h => ⟨decodeWord_encode h, decodeBytes_encodeBytes h⟩

/-! ## A word that decodes is the word of a well-formed instruction -/

section
variable {w : BitVec 32} {i : Instr} {op f7 : BitVec 7} {f3 : BitVec 3} {f6 : BitVec 6}

theorem formI_of_fields (h0 : fieldOpcode w = op) (h3 : fieldFunct3 w = f3) :
    formI f3 op (fieldRd w) (fieldRs1 w) (fieldImmI w) = w := by
  subst h0 h3; exact formI_fields w

theorem formShift64_of_fields (h0 : fieldOpcode w = op) (h3 : fieldFunct3 w = f3)
    (h6 : fieldFunct6 w = f6) :
    formShift64 f6 f3 op (fieldRd w) (fieldRs1 w) (fieldShamt6 w) = w := by
  subst h0 h3 h6; exact formShift64_fields w

theorem formShift32_of_fields (h0 : fieldOpcode w = op) (h3 : fieldFunct3 w = f3)
    (h7 : fieldFunct7 w = f7) :
    formShift32 f7 f3 op (fieldRd w) (fieldRs1 w) (fieldShamt5 w) = w := by
  subst h0 h3 h7; exact formShift32_fields w

section
variable {rd rs1 rs2 : Reg}

theorem decodeOp_eq_some (h : decodeOp f7 f3 rd rs1 rs2 = some i) :
    encode i = formR f7 f3 0x33 rd rs1 rs2 ∧ i.wellFormed = true := by
  unfold decodeOp at h
  split at h <;> cases h <;> exact ⟨rfl, rfl⟩

theorem decodeOp32_eq_some (h : decodeOp32 f7 f3 rd rs1 rs2 = some i) :
    encode i = formR f7 f3 0x3B rd rs1 rs2 ∧ i.wellFormed = true := by
  unfold decodeOp32 at h
  split at h <;> cases h <;> exact ⟨rfl, rfl⟩

theorem decodeLoad_eq_some {imm : BitVec 12} (h : decodeLoad f3 rd rs1 imm = some i) :
    encode i = formI f3 0x03 rd rs1 imm ∧ i.wellFormed = true := by
  unfold decodeLoad at h
  split at h <;> cases h <;> exact ⟨rfl, rfl⟩

theorem decodeStore_eq_some {imm : BitVec 12} (h : decodeStore f3 rs2 rs1 imm = some i) :
    encode i = formS f3 0x23 rs2 rs1 imm ∧ i.wellFormed = true := by
  unfold decodeStore at h
  split at h <;> cases h <;> exact ⟨rfl, rfl⟩

theorem decodeBranch_eq_some {offset : BitVec 13} (he : offsetEven offset = true)
    (h : decodeBranch f3 rs1 rs2 offset = some i) :
    encode i = formB f3 0x63 rs1 rs2 offset ∧ i.wellFormed = true := by
  unfold decodeBranch at h
  split at h <;> cases h <;> exact ⟨rfl, he⟩

theorem decodeJalr_eq_some {imm : BitVec 12} (h : decodeJalr f3 rd rs1 imm = some i) :
    encode i = formI f3 0x67 rd rs1 imm ∧ i.wellFormed = true := by
  unfold decodeJalr at h
  split at h
  · cases h; exact ⟨rfl, rfl⟩
  · cases h

end

theorem decodeOpImm_eq_some (h0 : fieldOpcode w = 0x13#7)
    (h : decodeOpImm w (fieldFunct3 w) (fieldRd w) (fieldRs1 w) = some i) :
    encode i = w ∧ i.wellFormed = true := by
  unfold decodeOpImm at h
  split at h
  case h_1 h3 | h_2 h3 | h_3 h3 | h_4 h3 | h_5 h3 | h_6 h3 =>
    cases h
    exact ⟨formI_of_fields h0 h3, rfl⟩
  case h_7 h3 =>
    split at h <;> cases h
    next h6 => exact ⟨formShift64_of_fields h0 h3 h6, rfl⟩
  case h_8 h3 =>
    split at h <;> cases h
    · next h6 => exact ⟨formShift64_of_fields h0 h3 h6, rfl⟩
    · next h6 => exact ⟨formShift64_of_fields h0 h3 h6, rfl⟩
  case h_9 => cases h

theorem decodeOpImm32_eq_some (h0 : fieldOpcode w = 0x1B#7)
    (h : decodeOpImm32 w (fieldFunct3 w) (fieldRd w) (fieldRs1 w) = some i) :
    encode i = w ∧ i.wellFormed = true := by
  unfold decodeOpImm32 at h
  split at h
  · next h3 =>
    cases h
    exact ⟨formI_of_fields h0 h3, rfl⟩
  · next h3 =>
    split at h <;> cases h
    next h7 => exact ⟨formShift32_of_fields h0 h3 h7, rfl⟩
  · next h3 =>
    split at h <;> cases h
    · next h7 => exact ⟨formShift32_of_fields h0 h3 h7, rfl⟩
    · next h7 => exact ⟨formShift32_of_fields h0 h3 h7, rfl⟩
  · cases h

theorem encode_of_decodeWord (h : decodeWord w = some i) : encode i = w ∧ i.wellFormed = true := by
  unfold decodeWord at h
  split at h
  · next h0 => cases h; exact ⟨(congrArg (formU · _ _) h0.symm).trans (formU_fields w), rfl⟩
  · next h0 => cases h; exact ⟨(congrArg (formU · _ _) h0.symm).trans (formU_fields w), rfl⟩
  · next h0 =>
    cases h; exact ⟨(congrArg (formJ · _ _) h0.symm).trans (formJ_fields w), fieldImmJ_even w⟩
  · next h0 => rw [← formI_fields w, h0]; exact decodeJalr_eq_some h
  · next h0 => rw [← formB_fields w, h0]; exact decodeBranch_eq_some (fieldImmB_even w) h
  · next h0 => rw [← formI_fields w, h0]; exact decodeLoad_eq_some h
  · next h0 => rw [← formS_fields w, h0]; exact decodeStore_eq_some h
  · next h0 => exact decodeOpImm_eq_some h0 h
  · next h0 => exact decodeOpImm32_eq_some h0 h
  · next h0 => rw [← formR_fields w, h0]; exact decodeOp_eq_some h
  · next h0 => rw [← formR_fields w, h0]; exact decodeOp32_eq_some h
  · cases h

end

/-- Settles O3: a word is its own fields put together, and the decoder ignores none of them. -/
theorem encodeAfterDecode : Obligations.EncodeAfterDecode :=
  fun _ _ h => encode_of_decodeWord h

/-! ## What the opcode selects: the immediate and the row -/

/-- Settles O6: the word is the encoding of a well-formed instruction, whose immediate is read back. -/
theorem immediateAssembly : Obligations.ImmediateAssembly := by
  intro w i h
  obtain ⟨rfl, hwf⟩ := encode_of_decodeWord h
  cases i with
  | add | sub | sll | slt | sltu | xor | srl | sra | or | and | addw | subw | sllw | srlw | sraw | mul
  | mulh | mulhsu | mulhu | div | divu | rem | remu | mulw | divw | divuw | remw | remuw => rfl
  | addi | slti | sltiu | xori | ori | andi | addiw | lb | lh | lw | ld | lbu | lhu | lwu | jalr =>
    exact congrArg (BitVec.signExtend 64) (fieldImmI_formI ..).symm
  | slli | srli | srai => exact congrArg (BitVec.setWidth 64) (fieldShamt6_formShift64 ..).symm
  | slliw | srliw | sraiw => exact congrArg (BitVec.setWidth 64) (fieldShamt5_formShift32 ..).symm
  | lui | auipc => exact congrArg (fun x => (x ++ 0#12).signExtend 64) (fieldImmU_formU ..).symm
  | sb | sh | sw | sd => exact congrArg (BitVec.signExtend 64) (fieldImmS_formS ..).symm
  | beq | bne | blt | bge | bltu | bgeu =>
    exact congrArg (BitVec.signExtend 64) (fieldImmB_formB (h := hwf) ..).symm
  | jal => exact congrArg (BitVec.signExtend 64) (fieldImmJ_formJ (h := hwf) ..).symm

/-- The row lemmas of the 62 opcodes, as one. -/
theorem row_statement : ∀ i : Instr, Laws.Row.Statement i
  | .add .. => Laws.Row.add ..
  | .sub .. => Laws.Row.sub ..
  | .sll .. => Laws.Row.sll ..
  | .slt .. => Laws.Row.slt ..
  | .sltu .. => Laws.Row.sltu ..
  | .xor .. => Laws.Row.xor ..
  | .srl .. => Laws.Row.srl ..
  | .sra .. => Laws.Row.sra ..
  | .or .. => Laws.Row.or ..
  | .and .. => Laws.Row.and ..
  | .addw .. => Laws.Row.addw ..
  | .subw .. => Laws.Row.subw ..
  | .sllw .. => Laws.Row.sllw ..
  | .srlw .. => Laws.Row.srlw ..
  | .sraw .. => Laws.Row.sraw ..
  | .addi .. => Laws.Row.addi ..
  | .slti .. => Laws.Row.slti ..
  | .sltiu .. => Laws.Row.sltiu ..
  | .xori .. => Laws.Row.xori ..
  | .ori .. => Laws.Row.ori ..
  | .andi .. => Laws.Row.andi ..
  | .slli .. => Laws.Row.slli ..
  | .srli .. => Laws.Row.srli ..
  | .srai .. => Laws.Row.srai ..
  | .addiw .. => Laws.Row.addiw ..
  | .slliw .. => Laws.Row.slliw ..
  | .srliw .. => Laws.Row.srliw ..
  | .sraiw .. => Laws.Row.sraiw ..
  | .lui .. => Laws.Row.lui ..
  | .auipc .. => Laws.Row.auipc ..
  | .mul .. => Laws.Row.mul ..
  | .mulh .. => Laws.Row.mulh ..
  | .mulhsu .. => Laws.Row.mulhsu ..
  | .mulhu .. => Laws.Row.mulhu ..
  | .div .. => Laws.Row.div ..
  | .divu .. => Laws.Row.divu ..
  | .rem .. => Laws.Row.rem ..
  | .remu .. => Laws.Row.remu ..
  | .mulw .. => Laws.Row.mulw ..
  | .divw .. => Laws.Row.divw ..
  | .divuw .. => Laws.Row.divuw ..
  | .remw .. => Laws.Row.remw ..
  | .remuw .. => Laws.Row.remuw ..
  | .lb .. => Laws.Row.lb ..
  | .lh .. => Laws.Row.lh ..
  | .lw .. => Laws.Row.lw ..
  | .ld .. => Laws.Row.ld ..
  | .lbu .. => Laws.Row.lbu ..
  | .lhu .. => Laws.Row.lhu ..
  | .lwu .. => Laws.Row.lwu ..
  | .sb .. => Laws.Row.sb ..
  | .sh .. => Laws.Row.sh ..
  | .sw .. => Laws.Row.sw ..
  | .sd .. => Laws.Row.sd ..
  | .beq .. => Laws.Row.beq ..
  | .bne .. => Laws.Row.bne ..
  | .blt .. => Laws.Row.blt ..
  | .bge .. => Laws.Row.bge ..
  | .bltu .. => Laws.Row.bltu ..
  | .bgeu .. => Laws.Row.bgeu ..
  | .jal .. => Laws.Row.jal ..
  | .jalr .. => Laws.Row.jalr ..

theorem row_mnemonic (i : Instr) :
    opcodeRows[i.opid]?.map TableRow.mnemonic = some (Machine.mnemonic i) := by
  cases i <;> rfl

theorem row_of_opid (i : Instr) : ∃ row, opcodeRows[i.opid]? = some row :=
  (row_statement i).imp fun _ h => h.1

theorem encode_mask_of_row {i : Instr} {row : TableRow} (h : opcodeRows[i.opid]? = some row) :
    encode i &&& row.mask = row.word := by
  obtain ⟨row', hrow, -, -, -, -, -, -, -, hmask⟩ := row_statement i
  exact Option.some.inj (hrow.symm.trans h) ▸ hmask

theorem Instr.lat_eq (i : Instr) : i.lat = if i.cls = .muldiv then 2 else 1 := by
  unfold Instr.lat
  cases i.cls <;> rfl

theorem opcodeRows_length : opcodeRows.length = 62 := rfl

/-- Settles O4: the row of each opcode, with its mnemonic and the latency of its class. -/
theorem opcodeAttributes : Obligations.OpcodeAttributes := by
  refine ⟨opcodeRows_length, fun i => ?_⟩
  obtain ⟨row, hrow, hattributes⟩ := row_statement i
  have hname := row_mnemonic i
  rw [hrow] at hname
  exact ⟨(List.getElem?_eq_some_iff.1 hrow).1, i.lat_eq, row, hrow, Option.some.inj hname, hattributes⟩

/-! ## A word that matches a row -/

section
variable {v w m : BitVec 32}

/-- A word that agrees with another under a mask agrees with it in every field the mask covers. -/
theorem field_of_mask {start len : Nat} {x : BitVec len} (h : w &&& m = v &&& m)
    (hm : m.extractLsb' start len = BitVec.allOnes len) (hx : v.extractLsb' start len = x) :
    w.extractLsb' start len = x := by
  have := congrArg (BitVec.extractLsb' start len) h
  simpa only [BitVec.extractLsb'_and, hm, BitVec.and_allOnes, hx] using this

/-- A word that matches the row of an instruction decodes to an instruction of that row: the mask covers
what the decoder branches on. -/
theorem decodeWord_of_mask_eq {i : Instr} {row : TableRow} (hrow : opcodeRows[i.opid]? = some row)
    (hw : w &&& row.mask = encode i &&& row.mask) : ∃ j, decodeWord w = some j ∧ j.opid = i.opid := by
  cases i with
  | add | sub | sll | slt | sltu | xor | srl | sra | or | and | mul | mulh | mulhsu | mulhu | div | divu
  | rem | remu =>
    cases hrow
    have h0 : fieldOpcode w = _ := field_of_mask hw rfl (fieldOpcode_formR ..)
    have h3 : fieldFunct3 w = _ := field_of_mask hw rfl (fieldFunct3_formR ..)
    have h7 : fieldFunct7 w = _ := field_of_mask hw rfl (fieldFunct7_formR ..)
    rw [decodeWord_op h0, h3, h7]
    exact ⟨_, rfl, rfl⟩
  | addw | subw | sllw | srlw | sraw | mulw | divw | divuw | remw | remuw =>
    cases hrow
    have h0 : fieldOpcode w = _ := field_of_mask hw rfl (fieldOpcode_formR ..)
    have h3 : fieldFunct3 w = _ := field_of_mask hw rfl (fieldFunct3_formR ..)
    have h7 : fieldFunct7 w = _ := field_of_mask hw rfl (fieldFunct7_formR ..)
    rw [decodeWord_op32 h0, h3, h7]
    exact ⟨_, rfl, rfl⟩
  | addi | slti | sltiu | xori | ori | andi =>
    cases hrow
    have h0 : fieldOpcode w = _ := field_of_mask hw rfl (fieldOpcode_formI ..)
    have h3 : fieldFunct3 w = _ := field_of_mask hw rfl (fieldFunct3_formI ..)
    rw [decodeWord_opImm h0, h3]
    exact ⟨_, rfl, rfl⟩
  | slli | srli | srai =>
    cases hrow
    have h0 : fieldOpcode w = _ := field_of_mask hw rfl (fieldOpcode_formShift64 ..)
    have h3 : fieldFunct3 w = _ := field_of_mask hw rfl (fieldFunct3_formShift64 ..)
    have h6 : fieldFunct6 w = _ := field_of_mask hw rfl (fieldFunct6_formShift64 ..)
    rw [decodeWord_opImm h0, h3]
    unfold decodeOpImm
    rw [h6]
    exact ⟨_, rfl, rfl⟩
  | addiw =>
    cases hrow
    have h0 : fieldOpcode w = _ := field_of_mask hw rfl (fieldOpcode_formI ..)
    have h3 : fieldFunct3 w = _ := field_of_mask hw rfl (fieldFunct3_formI ..)
    rw [decodeWord_opImm32 h0, h3]
    exact ⟨_, rfl, rfl⟩
  | slliw | srliw | sraiw =>
    cases hrow
    have h0 : fieldOpcode w = _ := field_of_mask hw rfl (fieldOpcode_formShift32 ..)
    have h3 : fieldFunct3 w = _ := field_of_mask hw rfl (fieldFunct3_formShift32 ..)
    have h7 : fieldFunct7 w = _ := field_of_mask hw rfl (fieldFunct7_formShift32 ..)
    rw [decodeWord_opImm32 h0, h3]
    unfold decodeOpImm32
    rw [h7]
    exact ⟨_, rfl, rfl⟩
  | lui =>
    cases hrow
    have h0 : fieldOpcode w = _ := field_of_mask hw rfl (fieldOpcode_formU ..)
    exact ⟨_, decodeWord_lui h0, rfl⟩
  | auipc =>
    cases hrow
    have h0 : fieldOpcode w = _ := field_of_mask hw rfl (fieldOpcode_formU ..)
    exact ⟨_, decodeWord_auipc h0, rfl⟩
  | lb | lh | lw | ld | lbu | lhu | lwu =>
    cases hrow
    have h0 : fieldOpcode w = _ := field_of_mask hw rfl (fieldOpcode_formI ..)
    have h3 : fieldFunct3 w = _ := field_of_mask hw rfl (fieldFunct3_formI ..)
    rw [decodeWord_load h0, h3]
    exact ⟨_, rfl, rfl⟩
  | sb | sh | sw | sd =>
    cases hrow
    have h0 : fieldOpcode w = _ := field_of_mask hw rfl (fieldOpcode_formS ..)
    have h3 : fieldFunct3 w = _ := field_of_mask hw rfl (fieldFunct3_formS ..)
    rw [decodeWord_store h0, h3]
    exact ⟨_, rfl, rfl⟩
  | beq | bne | blt | bge | bltu | bgeu =>
    cases hrow
    have h0 : fieldOpcode w = _ := field_of_mask hw rfl (fieldOpcode_formB ..)
    have h3 : fieldFunct3 w = _ := field_of_mask hw rfl (fieldFunct3_formB ..)
    rw [decodeWord_branch h0, h3]
    exact ⟨_, rfl, rfl⟩
  | jal =>
    cases hrow
    have h0 : fieldOpcode w = _ := field_of_mask hw rfl (fieldOpcode_formJ ..)
    exact ⟨_, decodeWord_jal h0, rfl⟩
  | jalr =>
    cases hrow
    have h0 : fieldOpcode w = _ := field_of_mask hw rfl (fieldOpcode_formI ..)
    have h3 : fieldFunct3 w = _ := field_of_mask hw rfl (fieldFunct3_formI ..)
    rw [decodeWord_jalr h0, h3]
    exact ⟨_, rfl, rfl⟩

theorem exists_opid {k : Nat} (h : k < 62) : ∃ i : Instr, i.opid = k :=
  ⟨.ofOperation k 0, (by decide : ∀ k < 62, (Instr.ofOperation k 0).opid = k) k h⟩

theorem decodeWord_of_row_match {k : Nat} {row : TableRow} (hrow : opcodeRows[k]? = some row)
    (hw : w &&& row.mask = row.word) : ∃ j, decodeWord w = some j ∧ j.opid = k := by
  obtain ⟨i, rfl⟩ := exists_opid (List.getElem?_eq_some_iff.1 hrow).1
  exact decodeWord_of_mask_eq hrow (hw.trans (encode_mask_of_row hrow).symm)

end

/-- Settles O5: the words of a row are those that decode to its opcode. -/
theorem rowsPartitionWords : Obligations.RowsPartitionWords := by
  refine fun w => ⟨⟨fun hd row hmem hw => ?_, fun hno => ?_⟩, fun i k row hd hrow => ⟨fun hw => ?_, ?_⟩⟩
  · obtain ⟨k, hrow⟩ := List.mem_iff_getElem?.1 hmem
    obtain ⟨j, hj, -⟩ := decodeWord_of_row_match hrow hw
    exact Option.some_ne_none j (hj.symm.trans hd)
  · refine Option.eq_none_iff_forall_ne_some.2 fun i hd => ?_
    obtain ⟨rfl, -⟩ := encode_of_decodeWord hd
    obtain ⟨row, hrow⟩ := row_of_opid i
    exact hno row (List.mem_of_getElem? hrow) (encode_mask_of_row hrow)
  · obtain ⟨j, hj, rfl⟩ := decodeWord_of_row_match hrow hw
    rw [Option.some.inj (hd.symm.trans hj)]
  · rintro rfl
    obtain ⟨rfl, -⟩ := encode_of_decodeWord hd
    exact encode_mask_of_row hrow

/-- Settles O1: the fields of each word, read off. -/
theorem wordsDecode : Obligations.WordsDecode := by
  unfold Obligations.WordsDecode
  decide

end Sys2Proof
end

section
/-! `Exec` and the five stages, each in every case (40_pipeline_control.md R149 to R172). -/

namespace Sys2Proof.Machine

/-! ## Exec (R149) -/

/-- The class of an instruction is its opcode's, whatever its fields (30_encoding.md R113). -/
theorem cls_eq_of_operation {i j : Instr} (hop : j.opid = i.opid) (himm : j.imm = i.imm) :
    j.cls = i.cls := by
  rw [← ofOperation_cls j, hop, himm, ofOperation_cls]

section
variable (k : Collaborators) {q r : Rec}

theorem execute_of_result (hc : r.instr.cls = .alu ∨ r.instr.cls = .muldiv ∨ r.instr.cls = .jump) :
    k.execute r = { r with rdVal := k.result r.instr.opid r.instr.imm r.rs1Val r.rs2Val r.pc } := by
  unfold Collaborators.execute
  obtain hc | hc | hc := hc <;> rw [hc] <;> rfl

theorem execute_of_access (hc : r.instr.cls = .load ∨ r.instr.cls = .store) :
    k.execute r = { r with memAddr := r.rs1Val + r.instr.imm } := by
  unfold Collaborators.execute
  obtain hc | hc := hc <;> rw [hc] <;> rfl

theorem execute_of_branch (hc : r.instr.cls = .branch) :
    k.execute r = r.withOutcome (k.taken r.instr.opid r.instr.imm r.rs1Val r.rs2Val r.pc) := by
  unfold Collaborators.execute
  rw [hc]

section
variable (hop : q.instr.opid = r.instr.opid) (himm : q.instr.imm = r.instr.imm)
  (h1 : q.rs1Val = r.rs1Val) (h2 : q.rs2Val = r.rs2Val) (hpc : q.pc = r.pc)
include hop himm h1 h2 hpc

/-- `rd_val` depends on the operation, the operands and the pc alone. -/
theorem execute_rdVal_congr
    (hc : r.instr.cls = .alu ∨ r.instr.cls = .muldiv ∨ r.instr.cls = .jump) :
    (k.execute q).rdVal = (k.execute r).rdVal := by
  rw [execute_of_result k hc, execute_of_result k (by rwa [cls_eq_of_operation hop himm]), hop, himm,
    h1, h2, hpc]

/-- So does `act_taken`. -/
theorem execute_actTaken_congr (hc : r.instr.cls = .branch) :
    (k.execute q).actTaken = (k.execute r).actTaken := by
  rw [execute_of_branch k hc, execute_of_branch k ((cls_eq_of_operation hop himm).trans hc), hop, himm,
    h1, h2, hpc]
  rfl

end

end

/-- Settles O7: class by class; the reference `Exec` is the one of the reference collaborators. -/
theorem execContract : Obligations.ExecContract := by
  unfold Obligations.ExecContract
  refine fun k r => ⟨fun hc => ?_, execute_of_access k, fun hc => ?_,
    fun q hop himm h1 h2 hpc => ⟨fun hc => ?_, fun hc => ?_⟩⟩
  · rw [execute_of_result k hc]
  · rw [execute_of_branch k hc]
    rfl
  · rw [← reference_execute, ← reference_execute]
    exact ⟨execute_rdVal_congr k hop himm h1 h2 hpc hc,
      execute_rdVal_congr .reference hop himm h1 h2 hpc hc⟩
  · rw [← reference_execute, ← reference_execute]
    exact ⟨execute_actTaken_congr k hop himm h1 h2 hpc hc,
      execute_actTaken_congr .reference hop himm h1 h2 hpc hc⟩

/-! ## Writeback (R152 to R156) -/

/-- The stored registers after a retirement (R152). -/
theorem retire_x_get (r : Rec) (s : State) (j : Fin 32) : (retire r s).x.get j =
    if (r.instr.writesRd = true ∧ r.instr.rd ≠ 0#5) ∧ j.val = r.instr.rd.toNat then r.rdVal
    else s.x.get j := by
  unfold retire retireRegister
  by_cases hw : r.instr.writesRd = true ∧ r.instr.rd ≠ 0#5
  · simp [hw, setDep, writeReg, Vector.get_eq_getElem, Vector.getElem_set, eq_comm]
  · rw [if_neg hw, if_neg fun h => hw h.1]
    rfl

theorem writesRd_of_branch {i : Instr} (hc : i.cls = .branch) : i.writesRd = false := by
  revert hc
  cases i <;> simp [Instr.cls, Instr.writesRd]

/-- A conditional branch writes no register: its retirement is counted and leaves L_MW (R113, R152). -/
theorem retire_branch {r : Rec} (hc : r.instr.cls = .branch) (s : State) : retire r s =
    { s with lMW := none, stats := { s.stats with numInsts := s.stats.numInsts + 1 } } := by
  rw [retire, retireRegister, if_neg (by simp [writesRd_of_branch hc])]
  rfl

/-- Settles O14: what a retirement writes. -/
theorem retirementOfARecord : Obligations.RetirementOfARecord := by
  unfold Obligations.RetirementOfARecord
  intro s
  refine ⟨writebackStage_none, ?_⟩
  intro r hr hc t writes
  have ht : t = retire r s := writebackStage_plain hr (by simp [Rec.isBranch, hc])
  rw [ht]
  refine ⟨?_, retire_x_get r s, fun j => ?_⟩
  · rw [retire_eq]
  · have hwrites : writesReg j.val r = true ↔ writes ∧ j.val = r.instr.rd.toNat := by
      simp only [writesReg, Bool.and_eq_true, decide_eq_true_eq]
      exact and_congr_right fun _ => eq_comm
    rw [retire_dep_get]
    simp only [hwrites]
    split_ifs <;> rfl

/-- Settles O15: a mispredicted branch is counted, given to `Update`, and flushes. -/
theorem mispredictionFlushes : Obligations.MispredictionFlushes := by
  unfold Obligations.MispredictionFlushes
  refine ⟨fun _ s => writeTables_nil s, fun k s r hr hc hp ht => ?_⟩
  rw [writebackStage_mispredicted hr (by simp [Rec.isBranch, hc]) hp ht, retire_branch hc]
  rfl

/-- Settles O16: by the prediction mode. -/
theorem branchResolution : Obligations.BranchResolution := by
  unfold Obligations.BranchResolution
  intro k s r hr hc counted
  have hb : r.isBranch = true := by simp [Rec.isBranch, hc]
  refine ⟨fun hp => ?_, fun hp ht => ?_⟩
  · rw [writebackStage_resolved hr hb hp, retire_branch hc]
    rfl
  · rw [writebackStage_predicted hr hb hp ht, retire_branch hc]
    rfl

/-! ## Memory (R158, R159, R87) -/

/-- The hierarchy answers what the data memory answers, and whether a miss is outstanding (R87). -/
theorem cacheRun_of_memRun {s t : State} {o : Option Rec} (h : memRun s = .next (t, o)) :
    cacheRun s = .next (t, o, t.missInst.isSome) := by
  rw [cacheRun, h]

/-- Settles O17: a passing record, a waiting miss, and the response that is due. -/
theorem memoryStageMoves : Obligations.MemoryStageMoves := by
  unfold Obligations.MemoryStageMoves
  refine ⟨fun s r hr hw hx => ⟨fun hm hp hl hs => ?_, fun hm ht => memoryStage_idle (.inr ht) (.inr hm)⟩,
    fun s t q h => ?_, fun s h hr hm => ?_, fun s r h hr hm => ⟨fun ht => ⟨?_, ?_⟩, fun ht => ?_⟩⟩
  · rw [memoryStage_issue hp hm hw hx]
    exact issue_passive (s := { s with lXM := none }) hl hs hr hm hw
  · rw [cacheRun_of_memRun h]
    cases t.missInst <;> rfl
  · rw [cacheRun_idle (.inl (h.pend_none hm)), hm]
    rfl
  · rw [cacheRun_idle (.inr ht), hm]
    rfl
  · exact memoryStage_idle (.inr ht) (.inr (by simp [hm]))
  · obtain ⟨t, q, hrun, hstatus, hw, hx, D⟩ := h.replayed hr hm ht
    have hq : q = _ := Option.some.inj D.record
    exact ⟨t, q, hrun, by rw [hq], by rw [hq], hx, hw, memoryStage_replayed hrun hstatus hw⟩

/-! ## Execute (R160) -/

section
variable {s t : State} {k : Collaborators}

/-- With nothing in L_DX and the unit the stage does nothing, in whatever status the block is. -/
theorem executeStage_nothing (hf : s.fuInst = none) (hd : s.lDX = none) :
    executeStage s k = .next s := by
  have hissue : executeIssue s k = .next s := by rw [executeIssue, hd]
  have houtput : executeOutput s = .next s := by simp [executeOutput, fuOutput, hf]
  by_cases hr : s.status = .running
  · simp [executeStage, hissue, andThen_running hr, houtput]
  · simp [executeStage, hissue, andThen_stopped hr]

/-- A record in the unit moves to L_XM once it is finished. -/
theorem executeStage_unit {q : Rec} (hx : s.lXM = none) (hf : s.fuInst = some q)
    (hr : s.status = .running) : executeStage s k =
      .next (if s.fuExit ≤ s.tick then { s with fuInst := none, lXM := some q } else s) := by
  split_ifs with he
  · exact executeStage_output hx hf he hr
  · exact executeStage_wait hx hf (Nat.not_le.1 he) hr

/-- Settles O18: by what is in L_XM, the unit and L_DX. -/
theorem executeStageCases : Obligations.ExecuteStageCases := by
  unfold Obligations.ExecuteStageCases
  refine fun k s => ⟨fun hx => ?_, fun _ => executeStage_nothing,
    fun r hr hx hf hd => executeStage_issue hx hf hd hr, fun q hr hx hf => executeStage_unit hx hf hr⟩
  obtain ⟨q, hq⟩ := Option.ne_none_iff_exists'.1 hx
  exact executeStage_blocked hq

/-! ## Decode (R161, R162, R165, R166) -/

/-- `has_dependency(i)` (R161). -/
theorem hasDependency_iff (s : State) (i : Instr) : hasDependency s i = true ↔
    (i.readsRs1 = true ∧ i.rs1 ≠ 0#5 ∧ 0 < s.dep.get (regIndex i.rs1))
      ∨ (i.readsRs2 = true ∧ i.rs2 ≠ 0#5 ∧ 0 < s.dep.get (regIndex i.rs2)) := by
  simp only [hasDependency, Bool.or_eq_true, Bool.and_eq_true, decide_eq_true_eq, and_assoc]
  rfl

/-- The pending counts after a mark (R162). -/
theorem markPending_dep (i : Instr) (s : State) : (markPending i s).dep =
    if i.writesRd = true ∧ i.rd ≠ 0#5 then
      s.dep.set i.rd.toNat (s.dep.get (regIndex i.rd) + 1) i.rd.isLt
    else s.dep := by
  unfold markPending
  split_ifs <;> rfl

/-- Settles O19: by L_FD, L_DX and the interlock. -/
theorem decodeStageCases : Obligations.DecodeStageCases := by
  unfold Obligations.DecodeStageCases
  intro s
  refine ⟨decodeStage_empty, ?_⟩
  intro r hF hazard i
  refine ⟨fun hX => ?_, fun hz => ?_, fun hr hX hz => ?_⟩
  · obtain ⟨q, hq⟩ := Option.ne_none_iff_exists'.1 hX
    exact decodeStage_blocked hq
  · exact decodeStage_stall hF ((hasDependency_iff s r.instr).2 hz)
  · have hd : hasDependency s r.instr = false :=
      Bool.eq_false_iff.2 fun h => hz ((hasDependency_iff s r.instr).1 h)
    rw [decodeStage_admit hF hX hd hr, admit_eq, markPending_dep]
    rfl

/-- Settles O21: bit 0 is the only bit that the mask of jalr clears. -/
theorem jumpTargets : Obligations.JumpTargets := by
  unfold Obligations.JumpTargets
  refine fun r rd rs1 offset imm => ⟨fun hi => ?_, fun hi => ?_⟩
  · simp only [Rec.jumpTarget, hi]
    rfl
  · have ht : r.jumpTarget = (r.rs1Val + imm.signExtend 64) &&& ~~~1#64 := by
      simp only [Rec.jumpTarget, hi]
      rfl
    rw [ht]
    exact ⟨rfl, by simp, by simp⟩

/-! ## Fetch (R168 to R172) -/

/-- What fetch leaves of an instruction that is no conditional branch (R170). -/
theorem fetched_plain {i : Instr} (hc : i.cls ≠ .branch) (s : State) :
    fetched i s k = { s with pc := s.pc + 4#64, lFD := some (Rec.fresh i s.pc) } := by
  rw [fetched_eq, fetched_lFD]
  simp [hc, Rec.fresh]

/-- What fetch leaves of a conditional branch with prediction on (R171). -/
theorem fetched_predicted {i : Instr} (hc : i.cls = .branch) (hp : s.cfg.predEnabled = true) :
    fetched i s k =
      { s with
        pc := predictedTarget k s.tables s.pc
        lFD := some { Rec.fresh i s.pc with
          predTaken := (k.predict s.tables s.pc).1
          predTarget := predictedTarget k s.tables s.pc } } := by
  rw [fetched_eq, fetched_lFD]
  simp [hc, hp]

/-- What fetch leaves of a conditional branch with prediction off (R172). -/
theorem fetched_unpredicted {i : Instr} (hc : i.cls = .branch) (hp : s.cfg.predEnabled = false) :
    fetched i s k =
      { s with pc := s.pc + 4#64, lFD := some (Rec.fresh i s.pc), pcValid := false } := by
  rw [fetched_eq, fetched_lFD]
  simp [hc, hp, Rec.fresh]

/-- Settles O20: by whether fetch is blocked, what the source delivers, and the prediction mode. -/
theorem fetchStageCases : Obligations.FetchStageCases := by
  unfold Obligations.FetchStageCases
  refine fun k s => ⟨fetchStage_stall _, fun hF hv => ⟨fetchStage_nothing hF hv, fun i hs => ?_⟩⟩
  simp only [fetchStage_instr hF hv hs]
  refine ⟨fun hc => ?_, fun hc hp => ?_, fun hc hp => ?_, fun hc hp => ?_⟩
  · rw [fetched_plain hc]
    rfl
  · rw [fetched_predicted hc hp]
    rfl
  · rw [fetched_unpredicted hc hp]
    rfl
  · rw [fetched_predicted hc hp]
    rfl

end

end Sys2Proof.Machine
end

section
/-! The clock and the end of a run (40_pipeline_control.md R150, R180, 60_exceptions.md R301), from any state:
the stages leave the clock alone and write no status but a Fatal. -/

namespace Sys2Proof.Machine

/-- What the stages of a tick do before its clock advances: the clock stands, and the status is as it was
or a Fatal. -/
structure BeforeClock (s t : State) : Prop where
  tick : t.tick = s.tick
  status : t.status = s.status ∨ ∃ c, t.status = .fatal c

section
variable {k : Collaborators} {s t u : State} {r q : Rec}

theorem BeforeClock.of_eq (ht : t.tick = s.tick) (hs : t.status = s.status) : BeforeClock s t :=
  ⟨ht, .inl hs⟩

theorem BeforeClock.refl (s : State) : BeforeClock s s := .of_eq rfl rfl

theorem BeforeClock.trans (a : BeforeClock s t) (b : BeforeClock t u) : BeforeClock s u where
  tick := b.tick.trans a.tick
  status := b.status.elim (fun h => h ▸ a.status) .inr

/-! ### The writeback and the memory stage (R152 to R159) -/

theorem writebackStage_beforeClock (s : State) (k : Collaborators) :
    BeforeClock s (writebackStage s k) := by
  obtain hw | ⟨q, hw⟩ := Option.eq_none_or_eq_some s.lMW
  · rw [writebackStage_none hw]
    exact .refl s
  · obtain ⟨-, -, htick, -, -, -, -, -, -, -, -, hstatus, -⟩ := writebackStage_frame (k := k) hw
    exact .of_eq htick hstatus

theorem Latch.write_beforeClock {l : Latch} (h : l.write r s = .next t) : BeforeClock s t := by
  unfold Latch.write at h
  split at h
  · cases h
    cases l <;> exact .of_eq rfl rfl
  · cases h

theorem performHit_beforeClock (r : Rec) (s : State) : BeforeClock s (performHit r s).1 := by
  rw [performHit_frame]
  exact .of_eq rfl rfl

theorem performHit_answer_beforeClock
    (h : (.next (performHit r s) : RecAnswer) = .next (u, q)) : BeforeClock s u := by
  injection h with h
  have hu : (performHit r s).1 = u := congrArg Prod.fst h
  exact hu ▸ performHit_beforeClock r s

theorem loadBlock_beforeClock {a n : Nat} (h : loadBlock a n s = .next t) : BeforeClock s t := by
  unfold loadBlock at h
  split_ifs at h
  · cases h
    exact ⟨rfl, .inr ⟨_, rfl⟩⟩
  · cases h
    exact ⟨rfl, .inr ⟨_, rfl⟩⟩
  · cases h
    exact .of_eq (markAccessed_tick ..) (markAccessed_status ..)

theorem cacheAccess_beforeClock (h : cacheAccess r s = .next (u, q)) : BeforeClock s u := by
  unfold cacheAccess at h
  split_ifs at h
  · cases h
    exact ⟨rfl, .inr ⟨_, rfl⟩⟩
  · exact performHit_answer_beforeClock h
  · have hmiss : BeforeClock s (countMiss { s with missInst := some r }) := .of_eq rfl rfl
    exact hmiss.trans (loadBlock_beforeClock (withRec_next h))

theorem deliver_beforeClock {a : RecAnswer} (ha : ∀ u q, a = .next (u, q) → BeforeClock s u)
    (h : deliver a = .next t) : BeforeClock s t := by
  cases a with
  | next p =>
    obtain ⟨u, q⟩ := p
    have hu := ha u q rfl
    unfold deliver at h
    dsimp only at h
    split_ifs at h
    · exact hu.trans (Latch.write_beforeClock h)
    · cases h
      exact hu
    · cases h
      exact hu
  | fault e => cases h
  | refused e => cases h

theorem issue_beforeClock (h : issue r s = .next t) : BeforeClock s t := by
  unfold issue at h
  split at h
  · exact deliver_beforeClock (fun _ _ => cacheAccess_beforeClock) h
  · exact deliver_beforeClock (fun _ _ => cacheAccess_beforeClock) h
  all_goals exact deliver_beforeClock (fun _ _ hu => by cases hu; exact .refl s) h

theorem issueFromLatch_beforeClock (h : issueFromLatch s = .next t) : BeforeClock s t := by
  unfold issueFromLatch at h
  split at h
  · split at h
    · cases h
      exact .refl s
    · have hclear : BeforeClock s (Latch.xm.clear s) := .of_eq rfl rfl
      exact hclear.trans (issue_beforeClock h)
  · cases h
    exact .refl s

theorem replay_beforeClock (h : replay r s = .next (u, q)) : BeforeClock s u := by
  unfold replay at h
  split_ifs at h
  · cases h
    exact ⟨rfl, .inr ⟨_, rfl⟩⟩
  · exact performHit_answer_beforeClock h

theorem handleResponse_beforeClock {data : Memory} {o : Option Rec}
    (h : handleResponse data s = .next (t, o)) : BeforeClock s t := by
  unfold handleResponse at h
  split at h
  · cases h
  · next r _ =>
    split at h
    · next u q hu =>
      cases h
      have hinstall : BeforeClock s
          (installBlock r.memAddr.toNat data (writeBackVictim r.memAddr.toNat s)) :=
        .of_eq (writeBackVictim_tick ..) (writeBackVictim_status ..)
      have hrelease : BeforeClock u (releaseMiss u) := by
        unfold releaseMiss
        split <;> exact .of_eq rfl rfl
      exact (hinstall.trans (replay_beforeClock hu)).trans hrelease
    · cases h
    · cases h

theorem cacheRun_beforeClock {o : Option Rec} {b : Bool} (h : cacheRun s = .next (t, o, b)) :
    BeforeClock s t := by
  unfold cacheRun memRun at h
  split_ifs at h
  · have hdue : BeforeClock s { s with pendValid := false } := .of_eq rfl rfl
    split at h
    · next hresponse =>
      cases h
      exact hdue.trans (handleResponse_beforeClock hresponse)
    · cases h
    · cases h
  · cases h
    exact .refl s

theorem memoryStage_beforeClock (h : memoryStage s = .next t) : BeforeClock s t := by
  unfold memoryStage at h
  split at h
  · next hrun =>
    obtain ⟨v, hv, hnext⟩ := andThen_next h
    cases hv
    obtain ⟨-, h⟩ | ⟨-, rfl⟩ := hnext
    · exact (cacheRun_beforeClock hrun).trans (Latch.write_beforeClock h)
    · exact cacheRun_beforeClock hrun
  · next hrun => exact (cacheRun_beforeClock hrun).trans (issueFromLatch_beforeClock h)
  · cases h
  · cases h

/-! ### Execute, decode and fetch (R160 to R172) -/

theorem executeStage_beforeClock (hr : s.status = .running) (h : executeStage s k = .next t) :
    BeforeClock s t := by
  obtain hx | ⟨q, hx⟩ := Option.eq_none_or_eq_some s.lXM
  · obtain hf | ⟨q, hf⟩ := Option.eq_none_or_eq_some s.fuInst
    · obtain hd | ⟨r, hd⟩ := Option.eq_none_or_eq_some s.lDX
      · rw [executeStage_nothing hf hd] at h
        cases h
        exact .refl s
      · rw [executeStage_issue hx hf hd hr] at h
        cases h
        exact .of_eq rfl rfl
    · rw [executeStage_unit hx hf hr] at h
      cases h
      split <;> exact .of_eq rfl rfl
  · rw [executeStage_blocked hx] at h
    cases h
    exact .refl s

theorem decodeStage_beforeClock (hr : s.status = .running) (h : decodeStage s = .next t) :
    BeforeClock s t := by
  obtain hF | ⟨r, hF⟩ := Option.eq_none_or_eq_some s.lFD
  · rw [decodeStage_empty hF] at h
    cases h
    exact .refl s
  · obtain hX | ⟨q, hX⟩ := Option.eq_none_or_eq_some s.lDX
    · cases hd : hasDependency s r.instr with
      | true =>
        rw [decodeStage_stall hF hd] at h
        cases h
        exact .refl s
      | false =>
        rw [decodeStage_admit hF hX hd hr, admit_eq] at h
        cases h
        exact .of_eq rfl rfl
    · rw [decodeStage_blocked hX] at h
      cases h
      exact .refl s

theorem fetchStage_beforeClock {src : Word → Delivery} (h : fetchStage src s k = .next t) :
    BeforeClock s t := by
  by_cases hstall : s.lFD ≠ none ∨ s.pcValid = false
  · rw [fetchStage_stall src hstall] at h
    cases h
    exact .of_eq rfl rfl
  · obtain ⟨hF, hv⟩ : s.lFD = none ∧ s.pcValid = true := by simpa using hstall
    cases hs : src s.pc with
    | nothing =>
      rw [fetchStage_nothing hF hv hs] at h
      cases h
      exact .refl s
    | instr i =>
      rw [fetchStage_instr hF hv hs, fetched_eq] at h
      cases h
      exact .of_eq rfl rfl
    | unadmitted w => simp [fetchStage, hF, hv, hs] at h

/-! ### The tick -/

/-- How a tick ends: with a Fatal and the clock as it was, or with the clock's own statements. -/
inductive TickEnd (s t : State) : Prop
  | fatal (c : FatalCode) (status : t.status = .fatal c) (tick : t.tick = s.tick)
  | clock (u : State) (status : u.status = .running) (tick : u.tick = s.tick) (end_ : t = endOfTick u)

theorem TickEnd.of_beforeClock (a : BeforeClock s u) (h : TickEnd u t) : TickEnd s t := by
  cases h with
  | fatal c hc ht => exact .fatal c hc (ht.trans a.tick)
  | clock v hv ht e => exact .clock v hv (ht.trans a.tick) e

/-- A tick goes on after a stage, unless the stage raised a Fatal. -/
theorem TickEnd.andThen {a : Answer} {f : State → Answer} (hr : s.status = .running)
    (ha : ∀ u, a = .next u → BeforeClock s u)
    (hf : ∀ u, u.status = .running → f u = .next t → TickEnd u t)
    (h : Machine.andThen a f = .next t) : TickEnd s t := by
  obtain ⟨u, hu, ⟨hrun, h⟩ | ⟨hstop, rfl⟩⟩ := andThen_next h
  · exact (hf u hrun h).of_beforeClock (ha u hu)
  · obtain ⟨htick, hstatus | ⟨c, hc⟩⟩ := ha u hu
    · exact absurd (hstatus.trans hr) hstop
    · exact .fatal c hc htick

theorem TickEnd.restOfTickFrom {src : Word → Delivery} (hr : s.status = .running)
    (h : Machine.restOfTickFrom src s k = .next t) : TickEnd s t := by
  refine TickEnd.andThen hr (fun _ => memoryStage_beforeClock) (fun s1 hr h => ?_) h
  refine TickEnd.andThen hr (fun _ => executeStage_beforeClock hr) (fun s2 hr h => ?_) h
  refine TickEnd.andThen hr (fun _ => decodeStage_beforeClock hr) (fun s3 hr h => ?_) h
  refine TickEnd.andThen hr (fun _ => fetchStage_beforeClock) (fun s4 hr h => ?_) h
  cases h
  exact .clock s4 hr rfl rfl

theorem TickEnd.tick (hr : s.status = .running) (h : Machine.tick s k = .next t) : TickEnd s t := by
  unfold Machine.tick at h
  split_ifs at h
  obtain ⟨-, hstatus⟩ := writebackStage_lMW_status s k
  exact (TickEnd.restOfTickFrom (hstatus.trans hr) h).of_beforeClock (writebackStage_beforeClock s k)

end

/-- Settles O30: the end of a tick, and that its clock ends the run exactly if the block is drained. -/
theorem clockAndDone : Obligations.ClockAndDone := by
  unfold Obligations.ClockAndDone
  intro s t hr h
  cases TickEnd.tick hr h with
  | fatal c hc ht => exact .inl ⟨⟨c, hc⟩, ht⟩
  | clock u hu ht e =>
    subst e
    have hstatus : (endOfTick u).status = if drained u then .done else .running := by
      rw [endOfTick_status, hu]
    refine .inr ⟨by rw [endOfTick_tick, ht], ?_, ?_⟩
    · rw [hstatus]
      split <;> simp
    · simp [hstatus, drained, and_assoc]

end Sys2Proof.Machine
end

section
/-! What a step runs (40_pipeline_control.md R150, R169, R188): the meaning of the next instruction, or the tick
that ends the run. -/

namespace Sys2Proof.Machine

section
variable {k : Collaborators} {s : State} {i : Instr} {r : Rec} {w : BitVec 32} {pc : Word}

/-! ## The next instruction -/

theorem nextUp_in_flight (ho : oldest s = some r) : nextUp s = .instr r.instr := by
  rw [nextUp, ho]

theorem nextUp_fetched (ho : oldest s = none) (hv : s.pcValid = true) : nextUp s = source s s.pc := by
  rw [nextUp, ho]
  exact if_pos hv

theorem source_of_word (hw : Sparse.find? s.prog pc.toNat = some w) (hd : decodeWord w = some i) :
    source s pc = .instr i := by
  simp only [source, hw, hd]

/-- The state made for a word to be fetched has it at its pc. -/
theorem source_withFetchWord (hd : decodeWord w = some i) :
    source (s.withFetchWord 32 w.toNat) s.pc = .instr i := by
  have hfind : Sparse.find? (s.withFetchWord 32 w.toNat).prog s.pc.toNat = some w := by
    rw [State.withFetchWord, Sparse.find?_insert_self, Nat.mod_eq_of_lt w.isLt, BitVec.ofNat_toNat,
      BitVec.setWidth_eq]
  exact source_of_word hfind hd

theorem oldest_eq_none_iff : oldest s = none ↔ s.lMW = none ∧ s.missInst = none ∧ s.lXM = none
    ∧ s.fuInst = none ∧ s.lDX = none ∧ s.lFD = none := by
  simp only [oldest, Option.orElse_eq_none]

/-! ## The meaning of an instruction -/

/-- With something in flight only the oldest instruction is run. -/
theorem passage_in_flight (hr : s.status = .running) (hf : s.cfg.forwarding = false)
    (ho : oldest s = some r) : passage i s k =
      if r.instr = i then advance (patience s) s k else .refused .notNext := by
  simp [passage, hr, hf, ho]

/-- With nothing in flight the instruction is fetched in the tick under way. -/
theorem passage_fetched (hr : s.status = .running) (hf : s.cfg.forwarding = false)
    (ho : oldest s = none) (hv : s.pcValid = true) : passage i s k =
      andThen (restOfTickFrom (fun _ => .instr i) s k) fun t => advance (patience s) t k := by
  simp [passage, hr, hf, ho, hv]

/-- With L_MW empty a tick is its stages after the writeback stage. -/
theorem tick_of_lMW_none (hf : s.cfg.forwarding = false) (hw : s.lMW = none) :
    tick s k = restOfTick s k := by
  rw [tick_eq hf, writebackStage_none hw]

end

/-- Settles O42: by what is next: the oldest instruction in flight, the one at the pc, or nothing. -/
theorem stepRunsDecoded : Obligations.StepRunsDecoded := by
  unfold Obligations.StepRunsDecoded
  refine fun s hr hf => ⟨fun r ho => ?_, fun w i ho hv hw hd => ?_, fun w i ho hv hd => ?_,
    fun ho hnothing => ?_⟩
  · rw [step_running hr hf, nextUp_in_flight ho]
  · rw [step_running hr hf, nextUp_fetched ho hv, source_of_word hw hd]
  · have hnext : nextUp (s.withFetchWord 32 w.toNat) = .instr i :=
      (nextUp_fetched (s := s.withFetchWord 32 w.toNat) ho hv).trans (source_withFetchWord hd)
    rw [step_running (s := s.withFetchWord 32 w.toNat) hr hf, hnext]
  · have hnext : nextUp s = .nothing := by
      obtain hv | hw := hnothing
      · simp [nextUp, ho, hv]
      · simp [nextUp, ho, source, hw]
    obtain ⟨hlMW, -⟩ := oldest_eq_none_iff.1 ho
    rw [step_running hr hf, hnext, tick_of_lMW_none hf hlMW]
    rfl

/-- Settles O43: the oldest instruction is the one that may run. -/
theorem notNextRefused : Obligations.NotNextRefused := by
  unfold Obligations.NotNextRefused
  intro s i r hr hf ho hne
  rw [exec_eq_passage, passage_in_flight hr hf ho, if_neg hne]

end Sys2Proof.Machine
end

section
/-! Ticks and steps from a boundary that keeps the invariant: a tick completes and keeps it, a step has the
sequential effect of the next instruction and is made of whole ticks (40_pipeline_control.md R177, R181 to
R191). -/

namespace Sys2Proof.Machine

section
variable {k : Collaborators} {s s0 t : State} {i : Instr}

/-! ## A tick keeps the invariant (R182 to R191) -/

/-- A tick completes. The memory stage raises a Fatal, or the invariant goes through to the clock. -/
theorem Inv.tick_keeps (h : Inv s k) (hr : s.status = .running) :
    ∃ t, tick s k = .next t ∧ ((∃ c, t.status = .fatal c) ∨ Inv t k) := by
  obtain ⟨hw, hstatus⟩ := writebackStage_lMW_status s k
  obtain ⟨u, hu, hout⟩ := memoryStage_keeps h.retirement (hstatus.trans hr) hw
  rw [tick_eq h.noForwarding, restOfTick, restOfTickFrom_eq, hu]
  obtain ⟨hI, hrun⟩ | ⟨c, hc⟩ := hout
  · obtain ⟨v, hv, hIv, -⟩ := after_memory hI hrun (source_admitted h.retirement)
    exact ⟨_, (andThen_running hrun _).trans hv, .inr hIv⟩
  · exact ⟨u, andThen_stopped (by simp [hc]) _, .inl ⟨c, hc⟩⟩

/-! ## The sequential effect (R190) -/

theorem Effect.sequential (E : Effect k i s t) : Sequential i s t k :=
  ⟨E.regs, E.coherent, E.next⟩

theorem Effect.numInsts (E : Effect k i s t) : t.stats.numInsts = s.stats.numInsts + 1 := by
  obtain ⟨n, -, hstats⟩ := E.stats
  rw [hstats]

/-- Without an access error the passage of the next instruction ends in its retirement. -/
theorem Next.passage_effect (h : Next i s k) (he : accessError i s = none) :
    ∃ t, passage i s k = .next t ∧ Effect k i s t := by
  obtain hE | ⟨t, -, F⟩ := h.passage_spec
  · exact hE
  · obtain ⟨c, hc, -⟩ := F.error
    exact absurd (hc.symm.trans he) (Option.some_ne_none c)

/-! ## Boundaries, and nothing in flight (R169, R180) -/

theorem Boundary.inv (h : Boundary s k) : Inv s k := h.1

theorem Boundary.lMW (h : Boundary s k) : s.lMW = none := h.2.1

theorem Boundary.running (h : Boundary s k) : s.status = .running := h.2.2

theorem drained_iff : drained s = true ↔ oldest s = none := by
  rw [drained_of_tags, tags, List.map_eq_nil_iff, oldest_eq, List.head?_eq_none_iff]

/-- With nothing in flight fetch is not stopped (R156, R172). -/
theorem Quiet.pcValid (q : Quiet s k) : s.pcValid = true := by
  obtain ⟨⟨h, -, -⟩, ho⟩ := q
  rw [oldest_eq, List.head?_eq_none_iff] at ho
  rw [h.stopped, fetchStopped, ho]
  simp

/-- With nothing in flight the stages before fetch find nothing to do. -/
theorem Quiet.restOfTickFrom (q : Quiet s k) (src : Word → Delivery) :
    restOfTickFrom src s k = andThen (fetchStage src s k) fun t => .next (endOfTick t) := by
  obtain ⟨⟨h, -, hr⟩, ho⟩ := q
  obtain ⟨-, hm, hx, hf, hd, hF⟩ := oldest_eq_none_iff.1 ho
  rw [restOfTickFrom_eq, h.resting (fun _ => hx) (absurd hm), andThen_running hr, afterMemory,
    executeStage_nothing hf hd, andThen_running hr, decodeStage_empty hF, andThen_running hr]

/-- At a boundary the next instruction is there, or nothing is left to fetch. -/
theorem Boundary.nextUp_cases (h : Boundary s k) :
    (∃ i, Next i s k) ∨ (nextUp s = .nothing ∧ Quiet s k ∧ source s s.pc = .nothing) := by
  cases ho : oldest s with
  | some r => exact .inl ⟨r.instr, h, nextUp_in_flight ho⟩
  | none =>
    have q : Quiet s k := ⟨h, ho⟩
    have hnext := nextUp_fetched ho q.pcValid
    cases hs : source s s.pc with
    | nothing => exact .inr ⟨hnext.trans hs, q, rfl⟩
    | instr i => exact .inl ⟨i, h, hnext.trans hs⟩
    | unadmitted w => exact absurd hs (source_admitted h.inv s.pc w)

/-- Where fetch gets nothing and nothing is in flight, the tick under way ends the run. -/
theorem Quiet.drain (q : Quiet s k) (hs : source s s.pc = .nothing) :
    drain s k = .next { s with tick := s.tick + 1, status := .done } := by
  obtain ⟨-, -, -, -, -, hF⟩ := oldest_eq_none_iff.1 q.2
  rw [Machine.drain, restOfTick, q.restOfTickFrom, fetchStage_nothing hF q.pcValid hs,
    andThen_running q.1.running, endOfTick, if_pos (drained_iff.2 q.2)]

/-! ## The ticks of a step (R150) -/

theorem ticks_succ {n : Nat} (hr : s.status = .running) (ht : tick s k = .next t) :
    ticks (n + 1) s k = ticks n t k := by
  rw [ticks, if_pos hr, ht]

/-- The ticks that bring an instruction under way to L_MW, or raise its Fatal. `advance` runs these, and at
L_MW the writeback stage. -/
theorem Underway.ticks (U : Underway k i s0 s) {n : Nat} (hn : remaining s < n) :
    ∃ m u, ticks m s k = .next u
      ∧ ((Arrived k i s0 u ∧ Machine.advance n s k = .next (writebackStage u k))
        ∨ (Failed i s0 u ∧ Machine.advance n s k = .next u)) := by
  induction n generalizing s with
  | zero => exact absurd hn (Nat.not_lt_zero _)
  | succ n ih =>
    obtain ⟨t, ht, hout⟩ := U.tick (source_admitted U.inv)
    have htick : Machine.tick s k = .next t := (tick_of_lMW_none U.inv.noForwarding U.lMW).trans ht
    have hadvance : Machine.advance (n + 1) s k =
        andThen (.next t) fun v => Machine.advance n v k := by
      rw [Machine.advance, U.lMW, ← ht]
      rfl
    rcases hout with A | ⟨V, hlt⟩ | F
    · obtain ⟨q, hq, -⟩ := A.record
      obtain ⟨m, rfl⟩ : ∃ m, n = m + 1 := Nat.exists_eq_succ_of_ne_zero (by
        unfold remaining wait at hn
        split_ifs at hn <;> omega)
      refine ⟨1, t, ticks_succ U.status htick, .inl ⟨A, ?_⟩⟩
      rw [hadvance, andThen_running A.status, Machine.advance, hq]
    · obtain ⟨m, u, hu, hend⟩ := ih V (by omega)
      refine ⟨m + 1, u, (ticks_succ U.status htick).trans hu, ?_⟩
      rwa [hadvance, andThen_running V.status]
    · obtain ⟨c, -, hc, -⟩ := F.error
      refine ⟨1, t, ticks_succ U.status htick, .inr ⟨F, ?_⟩⟩
      rw [hadvance, andThen_stopped (by simp [hc])]

/-- The passage of the next instruction is made of whole ticks and the writeback stage that retires it. -/
theorem Next.passage_ticks (h : Next i s k) : ∃ m u, ticks m s k = .next u
    ∧ ((Arrived k i s u ∧ passage i s k = .next (writebackStage u k))
      ∨ (Failed i s u ∧ passage i s k = .next u)) := by
  obtain ⟨hI, hw, hr⟩ := h.1
  obtain ⟨r, ho, hi⟩ | ho := h.turn
  · rw [passage_in_flight hr hI.noForwarding ho, if_pos hi]
    refine (h.1.underway ho hi).ticks ?_
    unfold remaining wait patience
    split_ifs <;> omega
  · have q : Quiet s k := ⟨h.1, ho⟩
    obtain ⟨u, hu, U, hrem⟩ := h.1.fetches ho i
    have hs : source s s.pc = .instr i := (nextUp_fetched ho q.pcValid).symm.trans h.2
    have htick : tick s k = .next u := by
      rw [tick_of_lMW_none hI.noForwarding hw, restOfTick, q.restOfTickFrom, ← hu, q.restOfTickFrom,
        fetchStage, fetchStage, hs]
    rw [passage_fetched hr hI.noForwarding ho q.pcValid, hu, andThen_running U.status]
    obtain ⟨m, v, hv, hend⟩ := U.ticks (n := patience s) (by unfold patience; omega)
    exact ⟨m + 1, v, (ticks_succ hr htick).trans hv, hend⟩

end

/-- Settles O33: the stages of a tick, each of which completes. -/
theorem tickKeepsInvariant : Obligations.TickKeepsInvariant := by
  unfold Obligations.TickKeepsInvariant
  exact ⟨fun _ h hr => h.tick_keeps hr, fun _ _ h hr => h.tick_keeps hr⟩

/-- Settles O45: the passage without an access error; a meaning is the passage with the reference
collaborators. -/
theorem sequentialEffect : Obligations.SequentialEffect := by
  unfold Obligations.SequentialEffect
  refine (and_iff_right_of_imp fun key i s h he => ?_).2 fun k i s h he => ?_
  · rw [exec_eq_passage]
    exact key .reference i s h he
  · obtain ⟨t, ht, E⟩ := h.passage_effect he
    exact ⟨t, ht, E.sequential, E.boundary, E.numInsts⟩

/-- Settles O47: by what is next at the boundary, and by whether its passage retires it or fails. -/
theorem everyStepIsSequential : Obligations.EveryStepIsSequential := by
  unfold Obligations.EveryStepIsSequential
  refine (and_iff_right_of_imp fun key s h => ?_).2 fun k s h => ?_
  · rw [← stepWith_reference]
    exact key .reference s h
  · rw [stepWith_running h.running h.inv.noForwarding]
    obtain ⟨i, hi⟩ | ⟨hn, q, hs⟩ := h.nextUp_cases
    · rw [hi.2]
      obtain ⟨t, ht, E⟩ | ⟨t, ht, F⟩ := hi.passage_spec
      · exact ⟨t, ht, .inl ⟨E.boundary.running, i, hi, E.sequential⟩⟩
      · obtain ⟨c, he, hc, -⟩ := F.error
        exact ⟨t, ht, .inr (.inl ⟨c, i, hc, hi, he⟩)⟩
    · rw [hn]
      exact ⟨_, q.drain hs, .inr (.inr ⟨rfl, rfl, rfl, fun _ => rfl⟩)⟩

/-- Settles O44: the ticks of the next instruction's passage, or the one that ends the run. -/
theorem stepIsTicks : Obligations.StepIsTicks := by
  unfold Obligations.StepIsTicks
  intro s t h hstep
  rw [step_running h.running h.inv.noForwarding] at hstep
  obtain ⟨i, hi⟩ | ⟨hn, q, hs⟩ := h.nextUp_cases
  · rw [hi.2] at hstep
    replace hstep := (exec_eq_passage i s).symm.trans hstep
    obtain ⟨m, u, hu, ⟨A, he⟩ | ⟨F, he⟩⟩ := hi.passage_ticks
    · cases he.symm.trans hstep
      obtain ⟨-, hstatus⟩ := writebackStage_lMW_status u .reference
      obtain ⟨q, hq, -⟩ := A.record
      exact ⟨fun _ => ⟨m, u, hu, A.status, by simp [hq], rfl, tick_eq A.inv.noForwarding⟩,
        fun hstop => absurd (hstatus.trans A.status) hstop⟩
    · cases he.symm.trans hstep
      obtain ⟨c, -, hc, -⟩ := F.error
      exact ⟨fun hrun => by simp [hc] at hrun, fun _ => ⟨m, hu⟩⟩
  · rw [hn] at hstep
    have htick : tick s = .next t := (tick_of_lMW_none h.inv.noForwarding h.lMW).trans hstep
    cases (q.drain hs).symm.trans hstep
    exact ⟨fun hrun => Status.noConfusion hrun, fun _ => ⟨1, ticks_succ h.running htick⟩⟩

/-! ## What the sequential reading depends on (R177, R190) -/

/-- `Exec` is given by its two functions. -/
theorem execute_eq_of_functions {j k : Collaborators} (hresult : j.result = k.result)
    (htaken : j.taken = k.taken) (r : Rec) : j.execute r = k.execute r := by
  rw [Collaborators.execute, Collaborators.execute, hresult, htaken]

section
variable {j k : Collaborators} {s u : State} (i : Instr) (hregs : ∀ r, readReg s r = readReg u r)
  (hpc : archPc s = archPc u)
include hregs hpc

theorem readOperands_fresh_congr :
    readOperands s (Rec.fresh i (archPc s)) = readOperands u (Rec.fresh i (archPc u)) := by
  rw [readOperands, readOperands, hregs, hregs, hpc]

theorem seqRecord_congr (hexec : ∀ r, j.execute r = k.execute r) :
    seqRecord i s j = seqRecord i u k := by
  rw [seqRecord, seqRecord, readOperands_fresh_congr i hregs hpc, hexec]

theorem seqAddress_congr : seqAddress i s = seqAddress i u := by
  rw [seqAddress, seqAddress, seqRecord_congr i hregs hpc fun _ => rfl]

theorem seqNextPc_congr (hexec : ∀ r, j.execute r = k.execute r) :
    seqNextPc i s j = seqNextPc i u k := by
  rw [seqNextPc, seqNextPc, seqRecord_congr i hregs hpc hexec, readOperands_fresh_congr i hregs hpc,
    hpc]

theorem seqValue_congr (hexec : ∀ r, j.execute r = k.execute r)
    (hmem : ∀ a, coherentByte s a = coherentByte u a) : seqValue i s j = seqValue i u k := by
  rw [seqValue, seqValue, seqRecord_congr i hregs hpc hexec, seqAddress_congr i hregs hpc,
    coherentLE_congr fun _ _ => hmem _]

theorem seqByte_congr (hmem : ∀ a, coherentByte s a = coherentByte u a) (a : Nat) :
    seqByte i s a = seqByte i u a := by
  rw [seqByte, seqByte, storesTo, storesTo, seqAddress_congr i hregs hpc, hmem,
    seqRecord_congr i hregs hpc fun _ => rfl]

end

/-- Settles O48: both passages have the sequential effect, which reads registers, coherent memory, address
and `Exec` alone. -/
theorem resultsIndependentOfTiming : Obligations.ResultsIndependentOfTiming := by
  unfold Obligations.ResultsIndependentOfTiming
  intro j k i s u hresult htaken hs hu hregs hmem hpc hes heu
  have hexec := execute_eq_of_functions hresult htaken
  obtain ⟨t, ht, E⟩ := hs.passage_effect hes
  obtain ⟨v, hv, F⟩ := hu.passage_effect heu
  refine ⟨t, v, ht, hv, fun r => ?_, fun a => ?_, ?_⟩
  · rw [E.regs, F.regs, seqValue_congr i hregs hpc hexec hmem, hregs]
  · rw [E.coherent, F.coherent, seqByte_congr i hregs hpc hmem]
  · rw [E.next, F.next, seqNextPc_congr i hregs hpc hexec]

end Sys2Proof.Machine
end

section
/-! The integer instructions (41_integer_ops.md R200 to R245): the row of each, and its result as the words
the rules give. -/

namespace Sys2Proof.Machine

section
variable {i : Instr} {s : State} {mask word : BitVec 32} {v : Word}

/-- The value of an ALU or MULDIV instruction is what the reference `Exec` makes of its operands (R200). -/
theorem seqValue_of_execute (hc : i.cls = .alu ∨ i.cls = .muldiv) :
    seqValue i s = (readOperands s (Rec.fresh i (archPc s))).execute.rdVal := by
  rw [seqValue, if_neg (by obtain hc | hc := hc <;> simp [hc]), seqRecord, reference_execute]

theorem writesRd_of_alu_muldiv (hc : i.cls = .alu ∨ i.cls = .muldiv) : i.writesRd = true := by
  revert hc
  cases i <;> simp [Instr.cls, Instr.writesRd]

/-- The program goes on at the next address behind an ALU or MULDIV instruction (R200). -/
theorem seqNextPc_of_alu_muldiv (hc : i.cls = .alu ∨ i.cls = .muldiv) :
    seqNextPc i s = archPc s + 4#64 := by
  obtain hc | hc := hc <;> rw [seqNextPc, hc]

/-- An ALU or MULDIV instruction meets its rule once its word and its result are the rule's. -/
theorem resultRule (hc : i.cls = .alu ∨ i.cls = .muldiv) (hword : encode i &&& mask = word)
    (hv : (readOperands s (Rec.fresh i (archPc s))).execute.rdVal = v) :
    ResultRule i mask word i.cls i.lat i.readsRs1 i.readsRs2 i.rd v s :=
  have hw := writesRd_of_alu_muldiv hc
  ⟨⟨hword, rfl, rfl, rfl, rfl, hw⟩, fun h => h.writesResult (hc.imp_right .inl) hw rfl
    ((seqValue_of_execute hc).trans hv) (seqNextPc_of_alu_muldiv hc)⟩

end

/-! ## The ALU class (R203 to R232) -/

theorem boolWord_decide (p : Prop) [Decidable p] :
    boolWord (decide p) = if p then 1#64 else 0#64 := by
  by_cases hp : p <;> simp [boolWord, hp]

/-- Settles O49: shift amounts are remainders, comparisons are 1 or 0. -/
theorem registerForms64 : Obligations.RegisterForms64 := by
  unfold Obligations.RegisterForms64
  intro rd rs1 rs2 s a b rule
  exact ⟨resultRule (.inl rfl) (mask_formR ..) rfl,
    resultRule (.inl rfl) (mask_formR ..) rfl,
    resultRule (.inl rfl) (mask_formR ..) (congrArg (a <<< ·) (shamt6_eq b)),
    resultRule (.inl rfl) (mask_formR ..) (boolWord_decide (a.toInt < b.toInt)),
    resultRule (.inl rfl) (mask_formR ..) (boolWord_decide (a.toNat < b.toNat)),
    resultRule (.inl rfl) (mask_formR ..) rfl,
    resultRule (.inl rfl) (mask_formR ..) (congrArg (a >>> ·) (shamt6_eq b)),
    resultRule (.inl rfl) (mask_formR ..) (congrArg a.sshiftRight (shamt6_eq b)),
    resultRule (.inl rfl) (mask_formR ..) rfl,
    resultRule (.inl rfl) (mask_formR ..) rfl⟩

theorem low32_add (a b : Word) : low32 a + low32 b = low32 (a + b) :=
  (BitVec.setWidth_add a b (by decide)).symm

theorem low32_sub (a b : Word) : low32 a - low32 b = low32 (a - b) :=
  (setWidth32_sub a b).symm

/-- Settles O50: the low words' sum and difference are the low word of the sum and difference. -/
theorem registerForms32 : Obligations.RegisterForms32 := by
  unfold Obligations.RegisterForms32
  intro rd rs1 rs2 s a b aw rule
  exact ⟨resultRule (.inl rfl) (mask_formR ..) (congrArg sext32 (low32_add a b)),
    resultRule (.inl rfl) (mask_formR ..) (congrArg sext32 (low32_sub a b)),
    resultRule (.inl rfl) (mask_formR ..) (congrArg (fun n => sext32 (aw <<< n)) (shamt5_eq b)),
    resultRule (.inl rfl) (mask_formR ..) (congrArg (fun n => sext32 (aw >>> n)) (shamt5_eq b)),
    resultRule (.inl rfl) (mask_formR ..)
      (congrArg (fun n => sext32 (aw.sshiftRight n)) (shamt5_eq b))⟩

/-- A 6-bit shift amount reads back from the immediate that carries it (30_encoding.md R117). -/
theorem shamt6_setWidth (shamt : BitVec 6) : shamt6 (shamt.setWidth 64) = shamt.toNat := by
  rw [shamt6_eq, BitVec.toNat_setWidth]
  have := shamt.isLt
  omega

/-- So does a 5-bit one. -/
theorem shamt5_setWidth (shamt : BitVec 5) : shamt5 (shamt.setWidth 64) = shamt.toNat := by
  rw [shamt5_eq, BitVec.toNat_setWidth]
  have := shamt.isLt
  omega

/-- Settles O51: a shift amount is read back from the 64-bit immediate. -/
theorem immediateForms64 : Obligations.ImmediateForms64 := by
  unfold Obligations.ImmediateForms64
  intro rd rs1 imm12 shamt s a imm rule shift
  exact ⟨resultRule (.inl rfl) (mask_formI ..) rfl,
    resultRule (.inl rfl) (mask_formI ..) (boolWord_decide (a.toInt < imm.toInt)),
    resultRule (.inl rfl) (mask_formI ..) (boolWord_decide (a.toNat < imm.toNat)),
    resultRule (.inl rfl) (mask_formI ..) rfl,
    resultRule (.inl rfl) (mask_formI ..) rfl,
    resultRule (.inl rfl) (mask_formI ..) rfl,
    resultRule (.inl rfl) (mask_formShift64 ..) (congrArg (a <<< ·) (shamt6_setWidth shamt)),
    resultRule (.inl rfl) (mask_formShift64 ..) (congrArg (a >>> ·) (shamt6_setWidth shamt)),
    resultRule (.inl rfl) (mask_formShift64 ..) (congrArg a.sshiftRight (shamt6_setWidth shamt))⟩

/-- Settles O52: auipc's record carries its own address, which is `archPc` at its turn. -/
theorem immediateForms32AndUpper : Obligations.ImmediateForms32AndUpper := by
  unfold Obligations.ImmediateForms32AndUpper
  intro rd rs1 imm12 shamt imm20 s a aw upper shift
  exact ⟨resultRule (.inl rfl) (mask_formI ..) (congrArg sext32 (low32_add a _)),
    resultRule (.inl rfl) (mask_formShift32 ..)
      (congrArg (fun n => sext32 (aw <<< n)) (shamt5_setWidth shamt)),
    resultRule (.inl rfl) (mask_formShift32 ..)
      (congrArg (fun n => sext32 (aw >>> n)) (shamt5_setWidth shamt)),
    resultRule (.inl rfl) (mask_formShift32 ..)
      (congrArg (fun n => sext32 (aw.sshiftRight n)) (shamt5_setWidth shamt)),
    resultRule (.inl rfl) (mask_formU ..) rfl,
    resultRule (.inl rfl) (mask_formU ..) rfl⟩

/-! ## The MULDIV class (R233 to R245) -/

theorem ofInt_toNat_128 (a : Word) : BitVec.ofInt 128 a.toNat = a.setWidth 128 := by
  rw [BitVec.ofInt_natCast, BitVec.ofNat_toNat]

/-- Bits 127 to 64 of the exact product are those of the 128-bit product of the factors (R234 to R236). -/
theorem upperHalf_mul (p q : Int) :
    upperHalf (p * q) = (BitVec.ofInt 128 p * BitVec.ofInt 128 q).extractLsb' 64 64 := by
  rw [upperHalf_eq, BitVec.ofInt_mul]

theorem mulhResult_eq (a b : Word) :
    mulhResult a b = (a.signExtend 128 * b.signExtend 128).extractLsb' 64 64 := by
  rw [mulhResult, upperHalf_mul, ofInt_toInt_128, ofInt_toInt_128]

theorem mulhsuResult_eq (a b : Word) :
    mulhsuResult a b = (a.signExtend 128 * b.setWidth 128).extractLsb' 64 64 := by
  rw [mulhsuResult, upperHalf_mul, ofInt_toInt_128, ofInt_toNat_128]

theorem mulhuResult_eq (a b : Word) :
    mulhuResult a b = (a.setWidth 128 * b.setWidth 128).extractLsb' 64 64 := by
  rw [mulhuResult, upperHalf_mul, ofInt_toNat_128, ofInt_toNat_128]

/-- Settles O53: the upper halves are read from the 128-bit product. -/
theorem multiplyForms : Obligations.MultiplyForms := by
  unfold Obligations.MultiplyForms
  intro rd rs1 rs2 s a b rule
  exact ⟨resultRule (.inr rfl) (mask_formR ..) (BitVec.mul_def ..),
    resultRule (.inr rfl) (mask_formR ..) (mulhResult_eq a b),
    resultRule (.inr rfl) (mask_formR ..) (mulhsuResult_eq a b),
    resultRule (.inr rfl) (mask_formR ..) (mulhuResult_eq a b),
    resultRule (.inr rfl) (mask_formR ..) rfl⟩

/-- Settles O54: the result functions are the rules' own case distinctions. -/
theorem divideForms64 : Obligations.DivideForms64 := by
  unfold Obligations.DivideForms64
  intro rd rs1 rs2 s a b overflow rule
  exact ⟨resultRule (.inr rfl) (mask_formR ..) rfl,
    resultRule (.inr rfl) (mask_formR ..) rfl,
    resultRule (.inr rfl) (mask_formR ..) rfl,
    resultRule (.inr rfl) (mask_formR ..) rfl⟩

/-- The overflow of the 32-bit division, in words and in integers (R242, R244). -/
theorem overflow32_iff (a b : BitVec 32) :
    a = minWord32 ∧ b = allOnes32 ↔ a.toInt = -2147483648 ∧ b.toInt = -1 :=
  and_congr BitVec.toInt_inj.symm BitVec.toInt_inj.symm

theorem divwResult_eq (a b : Word) : divwResult a b =
    if low32 b = 0#32 then 0xFFFFFFFFFFFFFFFF#64
    else if (low32 a).toInt = -2147483648 ∧ (low32 b).toInt = -1 then 0xFFFFFFFF80000000#64
    else sext32 (BitVec.ofInt 32 ((low32 a).toInt.tdiv (low32 b).toInt)) := by
  simp only [divwResult, overflow32_iff]
  rfl

theorem remwResult_eq (a b : Word) : remwResult a b =
    if low32 b = 0#32 then sext32 (low32 a)
    else if (low32 a).toInt = -2147483648 ∧ (low32 b).toInt = -1 then 0#64
    else sext32 (BitVec.ofInt 32
      ((low32 a).toInt - (low32 a).toInt.tdiv (low32 b).toInt * (low32 b).toInt)) := by
  simp only [remwResult, overflow32_iff]

/-- Settles O55: the overflow's words are the integers -2^31 and -1. -/
theorem divideForms32 : Obligations.DivideForms32 := by
  unfold Obligations.DivideForms32
  intro rd rs1 rs2 s a b overflow rule
  exact ⟨resultRule (.inr rfl) (mask_formR ..) (divwResult_eq (readReg s rs1) (readReg s rs2)),
    resultRule (.inr rfl) (mask_formR ..) rfl,
    resultRule (.inr rfl) (mask_formR ..) (remwResult_eq (readReg s rs1) (readReg s rs2)),
    resultRule (.inr rfl) (mask_formR ..) rfl⟩

end Sys2Proof.Machine
end

section
/-! The loads and stores (42_memory_ops.md R260 to R275): the row of each, the value a load makes of the
coherent bytes, and the bytes a store leaves there. -/

namespace Sys2Proof.Machine

section
variable {i : Instr} {s : State} {word : BitVec 32}

/-! ## The rows of the two classes (R260) -/

theorem access_operands (hc : i.cls = .load ∨ i.cls = .store) : i.readsRs1 = true
    ∧ i.readsRs2 = decide (i.cls = .store) ∧ i.writesRd = decide (i.cls = .load) := by
  revert hc
  cases i <;> simp [Instr.cls, Instr.readsRs1, Instr.readsRs2, Instr.writesRd]

theorem spelled_load (hc : i.cls = .load) (hword : encode i &&& 0x0000707F#32 = word) :
    Spelled i 0x0000707F#32 word .load 1 true false true := by
  obtain ⟨hrs1, hrs2, hrd⟩ := access_operands (.inl hc)
  exact ⟨hword, hc, by simp [Instr.lat_eq, hc], hrs1, by simp [hrs2, hc], by simp [hrd, hc]⟩

theorem spelled_store (hc : i.cls = .store) (hword : encode i &&& 0x0000707F#32 = word) :
    Spelled i 0x0000707F#32 word .store 1 true true false := by
  obtain ⟨hrs1, hrs2, hrd⟩ := access_operands (.inr hc)
  exact ⟨hword, hc, by simp [Instr.lat_eq, hc], hrs1, by simp [hrs2, hc], by simp [hrd, hc]⟩

/-! ## The address and the source of an access (R261, R263) -/

theorem seqAddress_of_access (hc : i.cls = .load ∨ i.cls = .store) :
    seqAddress i s = (readReg s i.rs1 + i.imm).toNat := by
  rw [seqAddress, seqRecord, execute_memAddr _ _ hc]
  simp [readOperands, Rec.fresh, (access_operands hc).1]

theorem seqRecord_rs2Val (hreads : i.readsRs2 = true) :
    (seqRecord i s).rs2Val = readReg s i.rs2 := by
  rw [seqRecord, execute_rs2Val]
  simp [readOperands, Rec.fresh, hreads]

/-! ## The value of a load (20_memory.md R78) -/

/-- What a load makes of a value of its own width: the sign- or zero-extended value. -/
theorem loadValue_setWidth (hn : i.accessBytes ≤ 8) (x : BitVec (8 * i.accessBytes)) :
    loadValue i (x.setWidth 64) = if i.signedLoad then x.signExtend 64 else x.setWidth 64 := by
  have hx : (x.setWidth 64).setWidth (8 * i.accessBytes) = x :=
    (BitVec.setWidth_setWidth_of_le x (by omega)).trans (BitVec.setWidth_eq x)
  rw [loadValue, extendSigned, extendUnsigned, hx]

/-! ## One rule per class -/

/-- A load meets its rule once its word is the row's, `x` is the coherent value of its width at its address,
and `v` is `x` extended as the row says. -/
theorem loadRule {x : BitVec (8 * i.accessBytes)} {v : Word} (hc : i.cls = .load)
    (hword : encode i &&& 0x0000707F#32 = word)
    (hx : coherentLE s (readReg s i.rs1 + i.imm).toNat i.accessBytes = x.setWidth 64)
    (hv : (if i.signedLoad then x.signExtend 64 else x.setWidth 64) = v) :
    LoadRule i word i.rd (readReg s i.rs1 + i.imm).toNat i.accessBytes v s := by
  have ha := seqAddress_of_access (s := s) (.inl hc)
  have hbytes : i.accessBytes ≤ 8 := by
    have := accessBytes_cases (.inl hc : i.cls = .load ∨ i.cls = .store)
    omega
  refine ⟨spelled_load hc hword, fun h => h.loadsFrom hc rfl ha rfl ?_⟩
  rw [seqValue, if_pos hc, ha, hx, loadValue_setWidth hbytes, hv]

/-- A store meets its rule once its word is the row's. -/
theorem storeRule (hc : i.cls = .store) (hword : encode i &&& 0x0000707F#32 = word) :
    StoreRule i word (readReg s i.rs1 + i.imm).toNat i.accessBytes (readReg s i.rs2) s :=
  have hrow := spelled_store hc hword
  ⟨hrow, fun h =>
    h.storesTo hc (seqAddress_of_access (.inr hc)) rfl (seqRecord_rs2Val hrow.readsRs2)⟩

end

/-- Settles O56: the coherent bytes at the address are one value of the load's width, extended as its row
says. -/
theorem loadForms : Obligations.LoadForms := by
  unfold Obligations.LoadForms
  intro rd rs1 imm s a
  have hbyte := coherentLE_one s a
  have hhalf := coherentLE_two s a
  have hword := coherentLE_four s a
  have hdouble : coherentLE s a 8 = (coherent64 s a).setWidth 64 := by
    rw [coherentLE_eight, BitVec.setWidth_eq]
  exact ⟨loadRule rfl (mask_formI ..) hbyte rfl, loadRule rfl (mask_formI ..) hhalf rfl,
    loadRule rfl (mask_formI ..) hword rfl,
    loadRule rfl (mask_formI ..) hdouble (BitVec.setWidth_eq (coherent64 s a)),
    loadRule rfl (mask_formI ..) hbyte rfl, loadRule rfl (mask_formI ..) hhalf rfl,
    loadRule rfl (mask_formI ..) hword rfl⟩

/-- Settles O57: the bytes stored are those of the source register, from the address on. -/
theorem storeForms : Obligations.StoreForms := by
  unfold Obligations.StoreForms
  intro rs2 rs1 imm s a v
  exact ⟨storeRule rfl (mask_formS ..), storeRule rfl (mask_formS ..),
    storeRule rfl (mask_formS ..), storeRule rfl (mask_formS ..)⟩

end Sys2Proof.Machine
end

section
/-! The branches and jumps (43_control_ops.md R280 to R291): the row of each, and where the program goes on
behind it. -/

namespace Sys2Proof.Machine

section
variable {i : Instr} {s : State} {word : BitVec 32}

/-! ## The class BRANCH (R280) -/

theorem readsBoth_of_branch (hc : i.cls = .branch) : i.readsRs1 = true ∧ i.readsRs2 = true := by
  revert hc
  cases i <;> simp [Instr.cls, Instr.readsRs1, Instr.readsRs2]

theorem spelled_branch (hc : i.cls = .branch) (hword : encode i &&& 0x0000707F#32 = word) :
    Spelled i 0x0000707F#32 word .branch 1 true true false := by
  obtain ⟨hrs1, hrs2⟩ := readsBoth_of_branch hc
  exact ⟨hword, hc, by simp [Instr.lat_eq, hc], hrs1, hrs2, writesRd_of_branch hc⟩

/-- Behind a branch the program goes on at its own address plus the offset if `Exec` takes it, else plus 4
(R280). -/
theorem seqNextPc_of_branch (hc : i.cls = .branch) :
    seqNextPc i s = archPc s + if (seqRecord i s).actTaken then i.imm else 4#64 := by
  have htarget : seqNextPc i s = (seqRecord i s).actTarget := by rw [seqNextPc, hc]
  rw [htarget, seqRecord, execute_of_branch (r := readOperands s (Rec.fresh i _)) _ hc, add_ite]
  rfl

/-- A branch meets its rule once its word and its offset are the rule's and the reference `Exec` takes it
exactly if `taken`. -/
theorem branchRule {taken : Prop} [Decidable taken] {offset : BitVec 13} (hc : i.cls = .branch)
    (hword : encode i &&& 0x0000707F#32 = word) (himm : i.imm = offset.signExtend 64)
    (htaken : (readOperands s (Rec.fresh i (archPc s))).execute.actTaken = decide taken) :
    BranchRule i word taken offset s := by
  refine ⟨spelled_branch hc hword, fun h => h.branchesTo hc ?_⟩
  rw [seqNextPc_of_branch hc, seqRecord, reference_execute, htaken, himm]
  simp only [decide_eq_true_eq]

/-! ## The class JUMP (R289) -/

theorem jump_cases (hc : i.cls = .jump) :
    (∃ rd offset, i = .jal rd offset) ∨ ∃ rd rs1 imm, i = .jalr rd rs1 imm := by
  revert hc
  cases i <;> simp [Instr.cls]

theorem writesRd_of_jump (hc : i.cls = .jump) : i.writesRd = true := by
  obtain ⟨rd, offset, rfl⟩ | ⟨rd, rs1, imm, rfl⟩ := jump_cases hc <;> rfl

/-- Either jump links to the address behind its own (R290, R291). -/
theorem seqValue_of_jump (hc : i.cls = .jump) : seqValue i s = archPc s + 4#64 := by
  rw [seqValue, if_neg (by simp [hc]), seqRecord, reference_execute]
  obtain ⟨rd, offset, rfl⟩ | ⟨rd, rs1, imm, rfl⟩ := jump_cases hc <;> rfl

/-- At its turn a jump writes its link, and the program goes on at the target that decode computes from the
registers as they are then (40_pipeline_control.md R166). -/
theorem Next.jumpsTo {target : Word} (h : Next i s) (hc : i.cls = .jump)
    (htarget : (readOperands s (Rec.fresh i (archPc s))).jumpTarget = target) :
    WritesResult i i.rd (archPc s + 4#64) target s :=
  have hpc : seqNextPc i s = target := by rw [seqNextPc, hc, ← htarget]
  h.writesResult (.inr (.inr hc)) (writesRd_of_jump hc) rfl (seqValue_of_jump hc) hpc

end

/-! ## The eight rules (R283 to R291) -/

theorem bgeTaken_eq (a b : Word) : bgeTaken a b = decide (b.toInt ≤ a.toInt) := by
  rw [bgeTaken, ltSigned, ← decide_not, decide_eq_decide, not_lt]

theorem bgeuTaken_eq (a b : Word) : bgeuTaken a b = decide (b.toNat ≤ a.toNat) := by
  rw [bgeuTaken, ltUnsigned, ← decide_not, decide_eq_decide, not_lt]

/-- Settles O58: the conditions are those of the reference `Exec`, where bge and bgeu are the negations of
blt and bltu. -/
theorem branchForms : Obligations.BranchForms := by
  unfold Obligations.BranchForms
  intro rs1 rs2 offset s a b
  exact ⟨branchRule rfl (mask_formB ..) rfl rfl,
    branchRule rfl (mask_formB ..) rfl rfl,
    branchRule rfl (mask_formB ..) rfl rfl,
    branchRule rfl (mask_formB ..) rfl (bgeTaken_eq a b),
    branchRule rfl (mask_formB ..) rfl rfl,
    branchRule rfl (mask_formB ..) rfl (bgeuTaken_eq a b)⟩

/-- Settles O59: the target of jalr is computed from the registers before the link is written. -/
theorem jumpForms : Obligations.JumpForms := by
  unfold Obligations.JumpForms
  intro rd rs1 offset imm s
  exact ⟨⟨⟨mask_formJ .., rfl, rfl, rfl, rfl, rfl⟩, fun h => h.jumpsTo rfl rfl⟩,
    ⟨⟨mask_formI .., rfl, rfl, rfl, rfl, rfl⟩, fun h => h.jumpsTo rfl rfl⟩⟩

end Sys2Proof.Machine
end

section
/-! Errors and refused inputs (60_exceptions.md R301, R307, R315, R317): the Fatal of an access, a stopped
block, and what the block does not run. -/

namespace Sys2Proof.Machine

section
variable {k : Collaborators} {s t : State} {i : Instr} {c : FatalCode} {w : BitVec 32} {pc : Word}

/-! ## The Fatal of an access (R307) -/

/-- A failed passage writes nothing that a program can observe. -/
theorem Failed.fatalRaised (F : Failed i s t) (he : accessError i s = some c) :
    FatalRaised c s t := by
  obtain ⟨c', hc', hstatus, n, -, hstats⟩ := F.error
  obtain rfl : c' = c := Option.some.inj (hc'.symm.trans he)
  exact ⟨hstatus, F.cfg, F.prog, F.x, coherentByte_congr F.cfg F.blk F.img, F.img, F.blk, F.acc,
    by rw [hstats]⟩

/-- With an access error the passage of the next instruction ends in its Fatal. -/
theorem Next.passage_fatal (h : Next i s k) (he : accessError i s = some c) :
    ∃ t, passage i s k = .next t ∧ FatalRaised c s t := by
  obtain ⟨t, -, E⟩ | ⟨t, ht, F⟩ := h.passage_spec
  · exact absurd (he.symm.trans E.noError) (Option.some_ne_none c)
  · exact ⟨t, ht, F.fatalRaised he⟩

/-! ## A stopped block (R301, R317) -/

theorem ticks_stopped (hs : s.status ≠ .running) (n : Nat) : ticks n s k = .next s := by
  cases n with
  | zero => rfl
  | succ n => rw [ticks, if_neg hs]

theorem step_done (hs : s.status = .done) : step s = .next s := by
  rw [step, stepFrom, hs]

theorem step_fatal (hs : s.status = .fatal c) : step s = .fault (.fatal c) := by
  rw [step, stepFrom, hs]

/-! ## FORWARDING (R315 (b)) -/

theorem tick_forwarding (hf : s.cfg.forwarding = true) : tick s k = .refused .forwarding := by
  rw [tick, if_pos hf]

theorem step_forwarding (hr : s.status = .running) (hf : s.cfg.forwarding = true) :
    step s = .refused .forwarding := by
  simp [step, stepFrom, hr, hf]

theorem passage_forwarding (hr : s.status = .running) (hf : s.cfg.forwarding = true) :
    passage i s k = .refused .forwarding := by
  simp [passage, hr, hf]

/-! ## A word of no row (R315 (a), 30_encoding.md R120) -/

theorem source_of_no_row (hw : Sparse.find? s.prog pc.toNat = some w) (hd : decodeWord w = none) :
    source s pc = .unadmitted w := by
  simp only [source, hw, hd]

theorem fetchStage_unadmitted {src : Word → Delivery} (hF : s.lFD = none) (hv : s.pcValid = true)
    (hs : src s.pc = .unadmitted w) : fetchStage src s k = .refused (.unadmittedOp w) := by
  simp [fetchStage, hF, hv, hs]

end

/-- Settles O46: an instruction whose access is in error does not retire, and a failed passage writes
nothing. -/
theorem fatalIsPrecise : Obligations.FatalIsPrecise := by
  unfold Obligations.FatalIsPrecise
  exact ⟨fun _ _ _ h he => h.fatal he, fun _ _ _ _ h he => h.passage_fatal he⟩

/-- Settles O40: by how the block has stopped. -/
theorem terminalStates : Obligations.TerminalStates := by
  unfold Obligations.TerminalStates
  exact fun _ n => ⟨fun hs => ticks_stopped hs n, step_done, fun _ => step_fatal⟩

/-- Settles O41: FORWARDING before anything is run, and a word of no row where it is asked for. -/
theorem refusedInputs : Obligations.RefusedInputs := by
  unfold Obligations.RefusedInputs
  refine fun s hr => ⟨fun hf => ⟨step_forwarding hr hf, fun _ => tick_forwarding hf, fun i => ?_⟩,
    fun w hf ho hv hw hd => ?_, fun w hF hv hw hd => ?_⟩
  · rw [exec_eq_passage, passage_forwarding hr hf]
  · rw [step_running hr hf, nextUp_fetched ho hv, source_of_no_row hw hd]
  · exact fetchStage_unadmitted hF hv (source_of_no_row hw hd)

end Sys2Proof.Machine
end

section
/-! The end of a run: its report and its exit status (20_memory.md R90, 70_reset_and_hazards.md R349,
R351). -/

namespace Sys2Proof.Machine

/-! ## What a map with rising keys lists -/

theorem Sparse.rising_iff {β : Type} {m : List (Nat × β)} :
    Sparse.rising m = true ↔ (m.map Prod.fst).Pairwise (· < ·) := by
  induction m with
  | nil => simp [Sparse.rising]
  | cons p rest ih => simp [Sparse.rising, ih]

theorem Sparse.mem_iff_find? {β : Type} {m : List (Nat × β)} (h : Sparse.rising m = true) {a : Nat}
    {v : β} : (a, v) ∈ m ↔ Sparse.find? m a = some v := by
  refine ⟨fun hm => ?_, Sparse.mem_of_find?⟩
  induction m with
  | nil => cases hm
  | cons p rest ih =>
    simp only [Sparse.rising, Bool.and_eq_true, List.all_eq_true, decide_eq_true_eq] at h
    obtain rfl | hrest := List.mem_cons.1 hm
    · simp [Sparse.find?]
    · have hne : p.1 ≠ a := (h.1 _ hrest).ne
      rw [Sparse.find?, if_neg hne]
      exact ih h.2 hrest

/-! ## The accessed words (R90) -/

section
variable {s : State} (h : CanonicalParts s)
include h

theorem CanonicalParts.acc_rising : Sparse.rising s.acc = true :=
  (Bool.and_eq_true_iff.1 h.acc).1

theorem CanonicalParts.mem_acc_iff (k : Nat) : (k, true) ∈ s.acc ↔ accessed s k = true := by
  rw [Sparse.mem_iff_find? h.acc_rising, accessed, Sparse.get]
  cases Sparse.find? s.acc k <;> simp

theorem CanonicalParts.mem_accessedWords (a : Nat) (w : Word) :
    (a, w) ∈ accessedWords s ↔ ∃ k, accessed s k = true ∧ a = 8 * k ∧ w = imgWord s k := by
  simp [accessedWords, ← h.mem_acc_iff, @eq_comm _ a, @eq_comm _ w]

theorem CanonicalParts.accessedWords_increase :
    ((accessedWords s).map Prod.fst).Pairwise (· < ·) := by
  have hkeys : s.acc.Pairwise (fun p q => p.1 < q.1) :=
    List.pairwise_map.1 (Sparse.rising_iff.1 h.acc_rising)
  rw [accessedWords, List.map_map, List.pairwise_map]
  exact (hkeys.filter _).imp fun hlt => Nat.mul_lt_mul_of_pos_left hlt (by decide)

end

/-! ## The rates -/

theorem ratio_eq (n d : Nat) :
    ratio n d = if d = 0 then none else some ((n : Rat) / (d : Rat)) := by
  rw [ratio, Rat.mkRat_eq_div, Int.cast_natCast]

/-- A rate that is given only with prediction on. -/
theorem ratio_of_enabled (on : Bool) (n d : Nat) :
    (if on then ratio n d else none)
      = if on = true ∧ d ≠ 0 then some ((n : Rat) / (d : Rat)) else none := by
  cases on
  · simp
  · by_cases hd : d = 0 <;> simp [ratio_eq, hd]

/-- Settles O60: by the run status; the accessed words are the listed keys of a canonical map. -/
theorem endOfRunReport : Obligations.EndOfRunReport := by
  unfold Obligations.EndOfRunReport
  intro s hc
  have hparts : CanonicalParts s := (canonical_iff s).1 hc
  refine ⟨fun hs => ⟨by simp [exitStatus, hs], _, if_pos hs, rfl, rfl, rfl, ratio_eq _ _, rfl,
    ratio_of_enabled _ _ _, rfl, rfl, rfl, ratio_eq _ _, rfl, hparts.mem_accessedWords,
    hparts.accessedWords_increase⟩, fun c hs => ?_, fun hs => ?_⟩ <;> simp [report, exitStatus, hs]

end Sys2Proof.Machine
end

section
/-! The lines of the memory-state text (70_reset_and_hazards.md R334, R335): what is left of a line, its
equals sign, and its digits read both ways. -/

namespace Sys2Proof.Machine

/-! ## What is left of a line (R334 (a) to (c)) -/

theorem stripLine_cons (c : Char) (line : List Char) : stripLine (c :: line) =
    if c = '#' then [] else if c = ' ' ∨ c = '\t' then stripLine line else c :: stripLine line := by
  by_cases hcomment : c = '#'
  · simp [stripLine, hcomment]
  · by_cases hblank : c = ' ' ∨ c = '\t'
    · obtain rfl | rfl := hblank <;> simp [stripLine]
    · simp_all [stripLine]

theorem stripLine_comment (line comment : List Char) :
    stripLine (line ++ '#' :: comment) = stripLine line := by
  induction line with
  | nil => rfl
  | cons c line ih => rw [List.cons_append, stripLine_cons, stripLine_cons, ih]

theorem stripLine_blank {b : Char} (hb : b = ' ' ∨ b = '\t') (line rest : List Char) :
    stripLine (line ++ b :: rest) = stripLine (line ++ rest) := by
  induction line with
  | nil => obtain rfl | rfl := hb <;> simp [stripLine_cons]
  | cons c line ih => rw [List.cons_append, List.cons_append, stripLine_cons, stripLine_cons, ih]

/-- A line is read from what is left of it. -/
theorem parseLine_congr {l l' : List Char} (h : stripLine l = stripLine l') :
    parseLine l = parseLine l' := by
  rw [parseLine, parseLine, h]

/-! ## The equals sign -/

theorem splitAtEquals_append {left : List Char} (h : '=' ∉ left) (right : List Char) :
    splitAtEquals (left ++ '=' :: right) = some (left, right) := by
  induction left with
  | nil => rfl
  | cons c left ih =>
    obtain ⟨hc, hleft⟩ := List.ne_and_not_mem_of_not_mem_cons h
    simp [splitAtEquals, Ne.symm hc, ih hleft]

theorem splitAtEquals_none {cs : List Char} (h : '=' ∉ cs) : splitAtEquals cs = none := by
  induction cs with
  | nil => rfl
  | cons c cs ih =>
    obtain ⟨hc, hcs⟩ := List.ne_and_not_mem_of_not_mem_cons h
    simp [splitAtEquals, Ne.symm hc, ih hcs]

/-- What a line with an equals sign says, from the readings of its two sides. -/
def assigned (a : Option Nat) (v : Option Int) : MemLine :=
  match a, v with
  | some a, some v => if valueInRange v then .entry a (BitVec.ofInt 64 v) else .malformed
  | _, _ => .malformed

theorem parseLine_eq (line : List Char) : parseLine line =
    if stripLine line = [] then .blank
    else (splitAtEquals (stripLine line)).elim .malformed fun p =>
      assigned (decimal p.1) (signedDecimal p.2) := by
  unfold parseLine
  cases stripLine line with
  | nil => rfl
  | cons c cs =>
    cases h : splitAtEquals (c :: cs) with
    | none => simp [h]
    | some p =>
      simp only [h]
      rfl

theorem parseLine_equals {line left right : List Char} (hleft : '=' ∉ left)
    (h : stripLine line = left ++ '=' :: right) :
    parseLine line = assigned (decimal left) (signedDecimal right) := by
  simp [parseLine_eq, h, splitAtEquals_append hleft]

theorem parseLine_no_equals {line : List Char} (hne : stripLine line ≠ [])
    (h : '=' ∉ stripLine line) : parseLine line = .malformed := by
  simp [parseLine_eq, hne, splitAtEquals_none h]

theorem assigned_ne_blank (a : Option Nat) (v : Option Int) : assigned a v ≠ .blank := by
  unfold assigned
  split
  · split <;> simp
  · simp

theorem assigned_eq_entry {a : Option Nat} {v : Option Int} {x : Nat} {w : Word}
    (h : assigned a v = .entry x w) :
    ∃ u, a = some x ∧ v = some u ∧ valueInRange u = true ∧ BitVec.ofInt 64 u = w := by
  unfold assigned at h
  split at h
  · next u =>
    split_ifs at h with hu
    obtain ⟨rfl, hw⟩ := MemLine.entry.inj h
    exact ⟨u, rfl, rfl, hu, hw⟩
  · cases h

theorem parseLine_blank_iff (line : List Char) : parseLine line = .blank ↔ stripLine line = [] := by
  refine ⟨fun h => ?_, fun h => by simp [parseLine_eq, h]⟩
  by_contra hne
  by_cases heq : '=' ∈ stripLine line
  · obtain ⟨left, right, hs, hleft⟩ := List.eq_append_cons_of_mem heq
    exact assigned_ne_blank _ _ ((parseLine_equals hleft hs).symm.trans h)
  · exact absurd ((parseLine_no_equals hne heq).symm.trans h) (by simp)

/-- An entry has an equals sign, the address before the first one, and the value behind it. -/
theorem parseLine_entry {line : List Char} {a : Nat} {w : Word} (h : parseLine line = .entry a w) :
    ∃ left right v, stripLine line = left ++ '=' :: right ∧ decimal left = some a
      ∧ signedDecimal right = some v ∧ valueInRange v = true ∧ BitVec.ofInt 64 v = w := by
  have hne : stripLine line ≠ [] := fun hs => by simp [(parseLine_blank_iff line).2 hs] at h
  by_cases heq : '=' ∈ stripLine line
  · obtain ⟨left, right, hs, hleft⟩ := List.eq_append_cons_of_mem heq
    obtain ⟨v, ha, hv, hrange, hw⟩ := assigned_eq_entry ((parseLine_equals hleft hs).symm.trans h)
    exact ⟨left, right, v, hs, ha, hv, hrange, hw⟩
  · exact absurd ((parseLine_no_equals hne heq).symm.trans h) (by simp)

/-! ## Digits (R334 (d)) -/

/-- The character of a decimal digit. -/
def asciiDigit (d : Fin 10) : Char := Char.ofNat (48 + d.val)

/-- A number in decimal. -/
def digitText (ds : List (Fin 10)) : List Char := ds.map asciiDigit

/-- Digits read onto a number already read. -/
def numberFrom (n : Nat) (ds : List (Fin 10)) : Nat := ds.foldl (fun n d => 10 * n + d.val) n

/-- A digit is no sign, no equals sign, and nothing that is taken out of a line. -/
theorem asciiDigit_ne (d : Fin 10) : asciiDigit d ≠ '=' ∧ asciiDigit d ≠ '-' ∧ asciiDigit d ≠ '#'
    ∧ asciiDigit d ≠ ' ' ∧ asciiDigit d ≠ '\t' := by
  revert d
  decide

theorem digitOf_asciiDigit (d : Fin 10) : digitOf (asciiDigit d) = some d.val := by
  revert d
  decide

theorem digitOf_eq_some {c : Char} {n : Nat} (h : digitOf c = some n) :
    ∃ d : Fin 10, c = asciiDigit d ∧ n = d.val := by
  unfold digitOf at h
  split_ifs at h with hc
  refine ⟨⟨c.toNat - 48, by omega⟩, ?_, (Option.some.inj h).symm⟩
  rw [asciiDigit, Nat.add_sub_cancel' hc.1, Char.ofNat_toNat]

theorem digitsFrom_digitText (n : Nat) (ds : List (Fin 10)) :
    digitsFrom n (digitText ds) = some (numberFrom n ds) := by
  induction ds generalizing n with
  | nil => rfl
  | cons d ds ih =>
    rw [digitText, List.map_cons, digitsFrom, digitOf_asciiDigit]
    exact ih _

theorem digitsFrom_eq_some {n m : Nat} {cs : List Char} (h : digitsFrom n cs = some m) :
    ∃ ds, cs = digitText ds ∧ m = numberFrom n ds := by
  induction cs generalizing n with
  | nil => exact ⟨[], rfl, (Option.some.inj h).symm⟩
  | cons c cs ih =>
    rw [digitsFrom] at h
    cases hc : digitOf c with
    | none => simp [hc] at h
    | some k =>
      rw [hc] at h
      obtain ⟨d, rfl, rfl⟩ := digitOf_eq_some hc
      obtain ⟨ds, rfl, rfl⟩ := ih h
      exact ⟨d :: ds, rfl, rfl⟩

theorem decimal_digitText {ds : List (Fin 10)} (h : ds ≠ []) :
    decimal (digitText ds) = some (numberFrom 0 ds) := by
  obtain ⟨d, ds, rfl⟩ := List.exists_cons_of_ne_nil h
  exact digitsFrom_digitText 0 (d :: ds)

theorem decimal_eq_some {cs : List Char} {n : Nat} (h : decimal cs = some n) :
    ∃ ds, ds ≠ [] ∧ cs = digitText ds ∧ n = numberFrom 0 ds := by
  cases cs with
  | nil => cases h
  | cons c cs =>
    obtain ⟨ds, hcs, hn⟩ := digitsFrom_eq_some (n := 0) h
    exact ⟨ds, fun hnil => by simp [hnil, digitText] at hcs, hcs, hn⟩

theorem signedDecimal_minus (cs : List Char) :
    signedDecimal ('-' :: cs) = (decimal cs).map fun n : Nat => -(n : Int) := by
  rw [signedDecimal]
  cases decimal cs <;> rfl

theorem signedDecimal_unsigned {cs : List Char} (h : cs.head? ≠ some '-') :
    signedDecimal cs = (decimal cs).map fun n : Nat => (n : Int) := by
  unfold signedDecimal
  split
  · exact absurd rfl h
  · cases decimal cs <;> rfl

theorem signedDecimal_digitText {ds : List (Fin 10)} (h : ds ≠ []) :
    signedDecimal (digitText ds) = some (numberFrom 0 ds : Int) := by
  have hhead : (digitText ds).head? ≠ some '-' := fun hd => by
    obtain ⟨d, -, hd⟩ := List.mem_map.1 (List.mem_of_mem_head? hd)
    exact (asciiDigit_ne d).2.1 hd
  rw [signedDecimal_unsigned hhead, decimal_digitText h, Option.map_some]

theorem signedDecimal_minus_digitText {ds : List (Fin 10)} (h : ds ≠ []) :
    signedDecimal ('-' :: digitText ds) = some (-(numberFrom 0 ds : Int)) := by
  rw [signedDecimal_minus, decimal_digitText h, Option.map_some]

theorem signedDecimal_eq_some {cs : List Char} {v : Int} (h : signedDecimal cs = some v) :
    ∃ ds, ds ≠ [] ∧ ((cs = digitText ds ∧ v = numberFrom 0 ds)
      ∨ (cs = '-' :: digitText ds ∧ v = -(numberFrom 0 ds : Int))) := by
  by_cases hhead : cs.head? = some '-'
  · obtain ⟨rest, rfl⟩ := List.head?_eq_some_iff.1 hhead
    rw [signedDecimal_minus] at h
    obtain ⟨n, hn, rfl⟩ := Option.map_eq_some_iff.1 h
    obtain ⟨ds, hne, rfl, rfl⟩ := decimal_eq_some hn
    exact ⟨ds, hne, .inr ⟨rfl, rfl⟩⟩
  · rw [signedDecimal_unsigned hhead] at h
    obtain ⟨n, hn, rfl⟩ := Option.map_eq_some_iff.1 h
    obtain ⟨ds, hne, rfl, rfl⟩ := decimal_eq_some hn
    exact ⟨ds, hne, .inl ⟨rfl, rfl⟩⟩

/-! ## The lines that are entries, and their values (R335) -/

theorem valueInRange_iff (v : Int) : valueInRange v = true ↔ -2 ^ 63 ≤ v ∧ v ≤ 2 ^ 64 - 1 := by
  simp [valueInRange]

theorem valueInRange_natCast (n : Nat) : valueInRange n = true ↔ n ≤ 2 ^ 64 - 1 := by
  rw [valueInRange_iff]
  omega

theorem valueInRange_neg (n : Nat) : valueInRange (-(n : Int)) = true ↔ n ≤ 2 ^ 63 := by
  rw [valueInRange_iff]
  omega

theorem equals_not_mem_digitText (ds : List (Fin 10)) : '=' ∉ digitText ds := by
  intro h
  obtain ⟨d, -, hd⟩ := List.mem_map.1 h
  exact (asciiDigit_ne d).1 hd

theorem stripLine_digitText (ds : List (Fin 10)) (rest : List Char) :
    stripLine (digitText ds ++ rest) = digitText ds ++ stripLine rest := by
  induction ds with
  | nil => rfl
  | cons d ds ih =>
    obtain ⟨-, -, hcomment, hspace, htab⟩ := asciiDigit_ne d
    have hkept : ¬ (asciiDigit d = ' ' ∨ asciiDigit d = '\t') := not_or.2 ⟨hspace, htab⟩
    rw [digitText, List.map_cons, List.cons_append, stripLine_cons, if_neg hcomment, if_neg hkept]
    exact congrArg _ ih

theorem stripLine_digits (ds : List (Fin 10)) : stripLine (digitText ds) = digitText ds := by
  simpa [stripLine] using stripLine_digitText ds []

/-- A line of digits, an equals sign and a value is read from the two sides. -/
theorem parseLine_digits_equals (ds : List (Fin 10)) (right : List Char) :
    parseLine (digitText ds ++ '=' :: right)
      = assigned (decimal (digitText ds)) (signedDecimal (stripLine right)) := by
  refine parseLine_equals (equals_not_mem_digitText ds) ?_
  rw [stripLine_digitText, stripLine_cons, if_neg (by decide), if_neg (by decide)]

theorem parseLine_unsigned {ds es : List (Fin 10)} (hds : ds ≠ []) (hes : es ≠ []) :
    parseLine (digitText ds ++ '=' :: digitText es)
      = if numberFrom 0 es ≤ 2 ^ 64 - 1 then
          .entry (numberFrom 0 ds) (BitVec.ofNat 64 (numberFrom 0 es))
        else .malformed := by
  rw [parseLine_digits_equals, stripLine_digits, decimal_digitText hds, signedDecimal_digitText hes]
  simp only [assigned, valueInRange_natCast, BitVec.ofInt_natCast]

theorem parseLine_negative {ds es : List (Fin 10)} (hds : ds ≠ []) (hes : es ≠ []) :
    parseLine (digitText ds ++ '=' :: '-' :: digitText es)
      = if numberFrom 0 es ≤ 2 ^ 63 then
          .entry (numberFrom 0 ds) (BitVec.ofInt 64 (-(numberFrom 0 es : Int)))
        else .malformed := by
  have hright : stripLine ('-' :: digitText es) = '-' :: digitText es := by
    rw [stripLine_cons, if_neg (by decide), if_neg (by decide), stripLine_digits]
  rw [parseLine_digits_equals, hright, decimal_digitText hds, signedDecimal_minus_digitText hes]
  simp only [assigned, valueInRange_neg]

theorem parseLine_digits {ds : List (Fin 10)} (h : ds ≠ []) :
    parseLine (digitText ds) = .malformed := by
  refine parseLine_no_equals ?_ ?_ <;> rw [stripLine_digits]
  · simpa [digitText] using h
  · exact equals_not_mem_digitText ds

theorem parseLine_no_address (right : List Char) : parseLine ('=' :: right) = .malformed :=
  parseLine_digits_equals [] right

theorem parseLine_no_value {right : List Char} (ds : List (Fin 10))
    (h : signedDecimal (stripLine right) = none) :
    parseLine (digitText ds ++ '=' :: right) = .malformed := by
  rw [parseLine_digits_equals, h]
  cases decimal (digitText ds) <;> rfl

/-- What an entry says, read back from what is left of its line (R335). -/
theorem parseLine_entry_digits {line : List Char} {a : Nat} {w : Word}
    (h : parseLine line = .entry a w) :
    ∃ ds es, ds ≠ [] ∧ es ≠ [] ∧ a = numberFrom 0 ds
      ∧ ((stripLine line = digitText ds ++ '=' :: digitText es ∧ numberFrom 0 es ≤ 2 ^ 64 - 1
          ∧ w = BitVec.ofNat 64 (numberFrom 0 es))
        ∨ (stripLine line = digitText ds ++ '=' :: '-' :: digitText es ∧ numberFrom 0 es ≤ 2 ^ 63
          ∧ w = BitVec.ofInt 64 (-(numberFrom 0 es : Int)))) := by
  obtain ⟨left, right, v, hs, ha, hv, hrange, rfl⟩ := parseLine_entry h
  obtain ⟨ds, hds, rfl, rfl⟩ := decimal_eq_some ha
  obtain ⟨es, hes, ⟨rfl, rfl⟩ | ⟨rfl, rfl⟩⟩ := signedDecimal_eq_some hv
  · exact ⟨ds, es, hds, hes, rfl,
      .inl ⟨hs, (valueInRange_natCast _).1 hrange, BitVec.ofInt_natCast ..⟩⟩
  · exact ⟨ds, es, hds, hes, rfl, .inr ⟨hs, (valueInRange_neg _).1 hrange, rfl⟩⟩

/-- Settles O13: what is left of a line is cut at its first equals sign, and the numbers on both sides
are read digit by digit. -/
theorem memoryStateLines : Obligations.MemoryStateLines := by
  unfold Obligations.MemoryStateLines
  refine ⟨fun ds es hds hes => ⟨parseLine_unsigned hds hes, parseLine_negative hds hes,
      parseLine_digits hds, parseLine_no_value ds rfl, parseLine_no_address _,
      parseLine_no_value ds rfl⟩,
    fun line comment => parseLine_congr (stripLine_comment line comment),
    fun line rest => ⟨parseLine_congr (stripLine_blank (.inl rfl) line rest),
      parseLine_congr (stripLine_blank (.inr rfl) line rest)⟩,
    fun line => ⟨parseLine_blank_iff line, fun _ _ h => parseLine_entry_digits h⟩⟩

end Sys2Proof.Machine
end

section
/-! The load of the memory state (70_reset_and_hazards.md R335, R336): what a line does, and what the
lines before it have left. -/

namespace Sys2Proof.Machine

section
variable {seen : List (Nat × Word)} {line : List Char} {lines : List (List Char)} {s : State}
  {a : Nat} {v : Word}

/-! ## One line (R336) -/

theorem loadLines_blank (h : parseLine line = .blank) :
    loadLines seen (line :: lines) s = loadLines seen lines s := by
  rw [loadLines, h]

theorem loadLines_malformed (h : parseLine line = .malformed) :
    loadLines seen (line :: lines) s = raiseFatal .memstateMalformed s := by
  rw [loadLines, h]

theorem loadLines_bad_address (h : parseLine line = .entry a v)
    (ha : a % 8 ≠ 0 ∨ s.cfg.memSize < a + 8) :
    loadLines seen (line :: lines) s = raiseFatal .memstateAddr s := by
  rw [loadLines, h]
  exact if_pos ha

theorem loadLines_conflict (h : parseLine line = .entry a v) (ha : a % 8 = 0)
    (hm : a + 8 ≤ s.cfg.memSize) (hc : conflicts seen a v = true) :
    loadLines seen (line :: lines) s = raiseFatal .memstateConflict s := by
  have hgood : ¬ (a % 8 ≠ 0 ∨ s.cfg.memSize < a + 8) := by omega
  rw [loadLines, h]
  exact (if_neg hgood).trans (if_pos hc)

theorem loadLines_entry (h : parseLine line = .entry a v) (ha : a % 8 = 0)
    (hm : a + 8 ≤ s.cfg.memSize) (hc : ¬ conflicts seen a v = true) :
    loadLines seen (line :: lines) s
      = loadLines ((a, v) :: seen) lines { s with img := s.img.writeLE a 8 v } := by
  have hgood : ¬ (a % 8 ≠ 0 ∨ s.cfg.memSize < a + 8) := by omega
  rw [loadLines, h]
  exact (if_neg hgood).trans (if_neg hc)

/-- A load that ends without an error has taken its first line. -/
theorem loadLines_cons_running (h : (loadLines seen (line :: lines) s).status = .running) :
    parseLine line = .blank ∨ ∃ a v, parseLine line = .entry a v ∧ a % 8 = 0
      ∧ a + 8 ≤ s.cfg.memSize ∧ ¬ conflicts seen a v = true := by
  cases hl : parseLine line with
  | blank => exact .inl rfl
  | malformed => rw [loadLines_malformed hl] at h; cases h
  | entry a v =>
    by_cases hbad : a % 8 ≠ 0 ∨ s.cfg.memSize < a + 8
    · rw [loadLines_bad_address hl hbad] at h; cases h
    · obtain ⟨ha, hm⟩ : a % 8 = 0 ∧ a + 8 ≤ s.cfg.memSize := by omega
      by_cases hc : conflicts seen a v = true
      · rw [loadLines_conflict hl ha hm hc] at h; cases h
      · exact .inr ⟨a, v, rfl, ha, hm, hc⟩

/-! ## The lines before (R336) -/

/-- What the lines define, in their order. -/
def entriesOf (lines : List (List Char)) : List (Nat × Word) :=
  lines.filterMap fun line =>
    match parseLine line with
    | .entry a v => some (a, v)
    | _ => none

theorem mem_entriesOf : (a, v) ∈ entriesOf lines ↔ ∃ line ∈ lines, parseLine line = .entry a v := by
  simp only [entriesOf, List.mem_filterMap]
  refine exists_congr fun line => and_congr_right fun _ => ?_
  cases parseLine line <;> simp

theorem entriesOf_blank (h : parseLine line = .blank) :
    entriesOf (line :: lines) = entriesOf lines := by
  simp [entriesOf, h]

theorem entriesOf_entry (h : parseLine line = .entry a v) :
    entriesOf (line :: lines) = (a, v) :: entriesOf lines := by
  simp [entriesOf, h]

/-- The load writes the image, and its errors the status. -/
theorem loadLines_frame (seen : List (Nat × Word)) (lines : List (List Char)) (s : State) :
    loadLines seen lines s
      = { s with img := (loadLines seen lines s).img, status := (loadLines seen lines s).status } := by
  induction lines generalizing seen s with
  | nil => rfl
  | cons line lines ih =>
    rw [loadLines]
    split
    · exact ih seen s
    · rfl
    · split_ifs
      · rfl
      · rfl
      · exact ih _ _

/-- Lines that load without an error leave what they define for the lines after them. -/
theorem loadLines_append (before after : List (List Char))
    (h : (loadLines seen before s).status = .running) :
    loadLines seen (before ++ after) s
      = loadLines ((entriesOf before).reverse ++ seen) after (loadLines seen before s) := by
  induction before generalizing seen s with
  | nil => rfl
  | cons line before ih =>
    obtain hl | ⟨a, v, hl, ha, hm, hc⟩ := loadLines_cons_running h
    · rw [loadLines_blank hl] at h
      rw [List.cons_append, loadLines_blank hl, loadLines_blank hl, entriesOf_blank hl, ih h]
    · rw [loadLines_entry hl ha hm hc] at h
      rw [List.cons_append, loadLines_entry hl ha hm hc, loadLines_entry hl ha hm hc,
        entriesOf_entry hl, ih h, List.reverse_cons, List.append_assoc, List.singleton_append]

theorem conflicts_iff : conflicts seen a v = true ↔ ∃ u, (a, u) ∈ seen ∧ u ≠ v := by
  simp [conflicts]

/-- A line's address is defined with another value by one of the lines before it. -/
theorem conflicts_entriesOf (before : List (List Char)) :
    conflicts ((entriesOf before).reverse ++ []) a v = true
      ↔ ∃ l ∈ before, ∃ u, parseLine l = .entry a u ∧ u ≠ v := by
  simp only [conflicts_iff, List.append_nil, List.mem_reverse, mem_entriesOf]
  tauto

end

/-- Settles O12: the lines before leave what they define, and the line is the first that can stop the
load. -/
theorem memoryStateErrors : Obligations.MemoryStateErrors := by
  unfold Obligations.MemoryStateErrors
  intro s before after line hs hbefore
  have hcfg : (loadLines [] before s).cfg = s.cfg := by rw [loadLines_frame]
  have hall := loadLines_append before (line :: after) hbefore
  dsimp only
  refine ⟨fun hl => ?_, fun a v hl ha => ?_, fun a v hl ha hm hc => ?_, fun hl => ?_, ?_⟩
  · rw [hall, loadLines_malformed hl]; rfl
  · rw [hall, loadLines_bad_address hl (hcfg ▸ ha)]; rfl
  · rw [hall, loadLines_conflict hl ha (hcfg ▸ hm) ((conflicts_entriesOf before).2 hc)]; rfl
  · rw [loadLines_append before [line] hbefore]
    obtain hl | ⟨a, v, hl, ha, hm, hc⟩ := hl
    · rw [loadLines_blank hl]; exact hbefore
    · have hnone : ¬ conflicts ((entriesOf before).reverse ++ []) a v = true := fun h => by
        obtain ⟨l, hmem, u, hu, hne⟩ := (conflicts_entriesOf before).1 h
        exact hne (hc l hmem u hu)
      rw [loadLines_entry hl ha (hcfg ▸ hm) hnone]; exact hbefore
  · rw [loadLines_frame]

end Sys2Proof.Machine
end

section
/-! The block as built (70_reset_and_hazards.md R330, R331): the image of the memory-state text, the
reset values, and the invariant it starts in; and the collaborators it runs with by default (R348). -/

namespace Sys2Proof.Machine

/-! ## The image (10_state.md R28, R335) -/

theorem extendUnsigned_eight (v : Word) : extendUnsigned 8 v = v := by
  simp [extendUnsigned]

theorem Memory.readLE_writeLE_self (m : Memory) (a : Nat) (v : Word) :
    (m.writeLE a 8 v).readLE a 8 = v := by
  have hbytes : ∀ j < 8, (m.writeLE a 8 v).read (a + j) = byteOf v j := fun j hj => by
    rw [Memory.read_writeLE, if_pos (by omega), Nat.add_sub_cancel_left, byteOf]
  rw [Memory.readLE_of_bytes hbytes, extendUnsigned_eight]

/-- A word at another multiple of 8 is left as it is. -/
theorem Memory.readLE_writeLE_of_ne (m : Memory) {a b : Nat} (v : Word) (ha : a % 8 = 0) (hb : b % 8 = 0)
    (hne : b ≠ a) : (m.writeLE a 8 v).readLE b 8 = m.readLE b 8 := by
  refine Memory.readLE_congr fun j hj => ?_
  rw [Memory.read_writeLE, if_neg (by omega)]

/-- `m` holds at each multiple of 8 the value that `seen` defines there, and 0 where it defines none. -/
structure Holds (m : Memory) (seen : List (Nat × Word)) : Prop where
  aligned : ∀ a v, (a, v) ∈ seen → a % 8 = 0
  listed : ∀ a v, (a, v) ∈ seen → m.readLE a 8 = v
  unlisted : ∀ a, a % 8 = 0 → (∀ v, (a, v) ∉ seen) → m.readLE a 8 = 0#64

theorem holds_nil : Holds [] [] where
  aligned _ _ h := by cases h
  listed _ _ h := by cases h
  unlisted _ _ _ := by simp [Memory.readLE, Memory.read_nil]

theorem Holds.entry {m : Memory} {seen : List (Nat × Word)} (H : Holds m seen) {a : Nat} {v : Word}
    (ha : a % 8 = 0) (hc : ¬ conflicts seen a v = true) :
    Holds (m.writeLE a 8 v) ((a, v) :: seen) where
  aligned b u hb := by
    obtain h | h := List.mem_cons.1 hb
    · cases h; exact ha
    · exact H.aligned b u h
  listed b u hb := by
    by_cases hba : b = a
    · subst hba
      rw [Memory.readLE_writeLE_self]
      obtain h | h := List.mem_cons.1 hb
      · cases h; rfl
      · by_contra hne
        exact hc (conflicts_iff.2 ⟨u, h, Ne.symm hne⟩)
    · obtain h | h := List.mem_cons.1 hb
      · cases h; exact absurd rfl hba
      · rw [Memory.readLE_writeLE_of_ne m v ha (H.aligned b u h) hba]
        exact H.listed b u h
  unlisted b hb hnone := by
    have hba : b ≠ a := fun h => hnone v (h ▸ List.mem_cons_self)
    rw [Memory.readLE_writeLE_of_ne m v ha hb hba]
    exact H.unlisted b hb fun u hu => hnone u (List.mem_cons_of_mem _ hu)

theorem loadLines_holds {seen : List (Nat × Word)} {lines : List (List Char)} {s : State}
    (H : Holds s.img seen) (h : (loadLines seen lines s).status = .running) :
    Holds (loadLines seen lines s).img ((entriesOf lines).reverse ++ seen) := by
  induction lines generalizing seen s with
  | nil => exact H
  | cons line lines ih =>
    obtain hl | ⟨a, v, hl, ha, hm, hc⟩ := loadLines_cons_running h
    · rw [loadLines_blank hl] at h ⊢
      rw [entriesOf_blank hl]
      exact ih H h
    · rw [loadLines_entry hl ha hm hc] at h ⊢
      rw [entriesOf_entry hl, List.reverse_cons, List.append_assoc, List.singleton_append]
      exact ih (H.entry ha hc) h

/-! ## The block as built (R330, R331) -/

/-- The block at reset, with its registers and image loaded. -/
def State.loaded (cfg : Config) (prog : List (Nat × BitVec 32)) (x : Vector Word 32) (img : Memory) :
    State :=
  { State.allocate cfg prog with x := x, img := img }

section
variable {cfg : Config} {prog : List (Nat × BitVec 32)} {regInit x : Vector Word 32}
  {text : List Char} {img : Memory}

/-- A block built without an error is the allocated one, with the registers as given and the image of the
text. -/
theorem construct_running (h : (construct cfg prog regInit text).status = .running) :
    configError cfg = none ∧ ∃ img, Holds img (entriesOf (splitLines text)).reverse
      ∧ construct cfg prog regInit text = State.loaded cfg prog (regInit.set 0 0#64) img := by
  cases hcfg : configError cfg with
  | some code => rw [construct_error hcfg] at h; cases h
  | none =>
    rw [construct_loads hcfg] at h ⊢
    have himg := loadLines_holds holds_nil h
    have hframe := loadLines_frame [] (splitLines text) (loadRegs regInit (State.allocate cfg prog))
    rw [List.append_nil] at himg
    rw [h] at hframe
    exact ⟨rfl, _, himg, hframe⟩

/-- A block with nothing in flight, nothing outstanding and nothing cached starts in the invariant, with
any collaborators. -/
theorem loaded_boundary (hc : configError cfg = none) (hf : cfg.forwarding = false)
    (hp : (prog.all fun p => (decodeWord p.2).isSome) = true) (k : Collaborators) :
    Boundary (State.loaded cfg prog x img) k := by
  have hadmitted : admitted (State.loaded cfg prog x img) = [] := rfl
  have hflight : inFlight (State.loaded cfg prog x img) = [] := rfl
  have hgoing : fetchStopped (State.loaded cfg prog x img) = false := by
    simp [fetchStopped, hflight]
  refine ⟨{
    config := hc
    noForwarding := hf
    program := hp
    operands := by simp [hadmitted]
    results := by simp [executed, State.loaded, State.allocate]
    interlock := .nil
    depCounts := fun _ => Vector.getElem_replicate _
    chain := .nil
    follows := rfl
    stopped := by rw [hgoing]; rfl
    branchLast := by simp [hflight]
    pending := rfl
    miss := by simp [State.loaded, State.allocate]
    missAlone := fun _ => rfl
    blocks := fun _ _ => rfl }, rfl, rfl⟩

/-- The image of a text holds each entry's value at its word (R335). -/
theorem Holds.imgWord_entry {lines : List (List Char)} (H : Holds img (entriesOf lines).reverse)
    {line : List Char} (hl : line ∈ lines) {a : Nat} {v : Word} (h : parseLine line = .entry a v) :
    imgWord (State.loaded cfg prog x img) (a / 8) = v := by
  have hmem : (a, v) ∈ (entriesOf lines).reverse :=
    List.mem_reverse.2 (mem_entriesOf.2 ⟨line, hl, h⟩)
  have ha : 8 * (a / 8) = a := Nat.mul_div_cancel' (Nat.dvd_of_mod_eq_zero (H.aligned a v hmem))
  rw [imgWord, ha]
  exact H.listed a v hmem

/-- A word that no line names is 0 (R28). -/
theorem Holds.imgWord_unnamed {lines : List (List Char)} (H : Holds img (entriesOf lines).reverse)
    {k : Nat} (h : ∀ line ∈ lines, ∀ v, parseLine line ≠ .entry (8 * k) v) :
    imgWord (State.loaded cfg prog x img) k = 0#64 := by
  refine H.unlisted (8 * k) (Nat.mul_mod_right 8 k) fun v hmem => ?_
  obtain ⟨line, hl, hv⟩ := mem_entriesOf.1 (List.mem_reverse.1 hmem)
  exact h line hl v hv

/-- REG_INIT is loaded but for register 0 (10_state.md R32). -/
theorem readReg_loaded {r : Reg} (hr : r ≠ 0#5) :
    readReg (State.loaded cfg prog (regInit.set 0 0#64) img) r = regInit.get (regIndex r) := by
  rw [readReg, if_neg hr]
  have hne : (0 : Nat) ≠ r.toNat := fun h => hr (BitVec.eq_of_toNat_eq h.symm)
  exact Vector.getElem_set_ne (by decide) r.isLt hne

end

theorem Table.read_empty {t : Table} (h : t.cells = []) (k : Nat) : t.read k = 0 := by
  simp [Table.read, h, Sparse.get, Sparse.find?]

/-- Settles O9: the block built is the allocated one, with its registers and image loaded. -/
theorem resetValues : Obligations.ResetValues := by
  unfold Obligations.ResetValues
  intro cfg prog regInit text h
  obtain ⟨-, img, H, ht⟩ := construct_running h
  rw [ht]
  exact ⟨rfl, rfl, rfl, rfl, rfl, rfl, rfl, rfl, rfl, rfl, rfl, fun _ _ => rfl, rfl,
    fun _ hl _ _ he => H.imgWord_entry hl he, fun _ hk => H.imgWord_unnamed hk, fun _ => rfl,
    rfl, rfl, rfl, rfl,
    fun k => ⟨Table.read_empty rfl k, Table.read_empty rfl k, Table.read_empty rfl k⟩,
    rfl, rfl, rfl, rfl, rfl, rfl, rfl, rfl, rfl, fun _ hr => readReg_loaded hr,
    Vector.getElem_set_self _, fun _ => Vector.getElem_replicate _, rfl⟩

/-- Settles O32: the block built has nothing in flight, nothing outstanding and nothing cached. -/
theorem startKeepsInvariant : Obligations.StartKeepsInvariant := by
  unfold Obligations.StartKeepsInvariant
  intro cfg prog regInit text h hf hp
  obtain ⟨hc, img, -, ht⟩ := construct_running h
  rw [ht]
  exact loaded_boundary hc hf hp _

/-- Settles O10: the text has one line, which is blank. -/
theorem resetIsReference : Obligations.ResetIsReference := by
  unfold Obligations.ResetIsReference
  exact ⟨by decide, by decide, rfl, rfl⟩

/-- Settles O31: the reset state is a block built without an error. -/
theorem resetKeepsInvariant : Obligations.ResetKeepsInvariant := by
  unfold Obligations.ResetKeepsInvariant
  obtain ⟨hbuilt, -, hrunning, -⟩ := resetIsReference
  rw [← hbuilt] at hrunning ⊢
  exact startKeepsInvariant _ _ _ _ hrunning rfl rfl

/-- An allocated block lists nothing in its maps but its program. -/
theorem allocate_canonical {prog : List (Nat × BitVec 32)} (h : Sparse.rising prog = true)
    (cfg : Config) : CanonicalParts (State.allocate cfg prog) :=
  ⟨rfl, rfl, rfl, by simp [State.allocate], h, rfl, rfl, rfl⟩

/-- Settles O35: the reset state is an allocated block without a program. -/
theorem resetIsCanonical : Obligations.ResetIsCanonical := by
  unfold Obligations.ResetIsCanonical
  exact (canonical_iff _).2 (allocate_canonical rfl _)

/-- Settles O8: the baseline policy has no case distinction, and the machine's step and meanings are
given the reference collaborators. -/
theorem collaboratorDefaults : Obligations.CollaboratorDefaults := by
  unfold Obligations.CollaboratorDefaults
  exact ⟨fun _ _ => rfl, fun _ _ => rfl, reference_execute, exec_eq_passage,
    fun s => (stepWith_reference s).symm⟩

end Sys2Proof.Machine
end

section
/-! The invariant along the steps of a run (40_pipeline_control.md R182 to R191): at a boundary a step is the
passage of the next instruction or the tick that ends the run, and a stopped block does not move. -/

namespace Sys2Proof.Machine

section
variable {k : Collaborators} {s t : State}

/-- A stopped block steps to itself or not at all (R301, R317). -/
theorem stepWith_stopped (hs : s.status ≠ .running) (hstep : stepWith k s = .next t) : t = s := by
  unfold stepWith stepFrom at hstep
  cases hstatus : s.status with
  | running => exact absurd hstatus hs
  | done =>
    rw [hstatus] at hstep
    exact (Host.Outcome.next.inj hstep).symm
  | fatal c =>
    rw [hstatus] at hstep
    cases hstep

/-- The tick that ends a run keeps the invariant, and leaves L_MW as it was. -/
theorem Quiet.drain_keeps (q : Quiet s k) (hs : source s s.pc = .nothing)
    (hdrain : Machine.drain s k = .next t) :
    (∃ c, t.status = .fatal c) ∨ (Inv t k ∧ t.lMW = none) := by
  obtain ⟨hI, hw, hr⟩ := q.1
  have htick : tick s k = .next t := (tick_of_lMW_none hI.noForwarding hw).trans hdrain
  have hlMW : t.lMW = none := by
    cases (q.drain hs).symm.trans hdrain
    exact hw
  obtain ⟨u, hu, hout⟩ := hI.tick_keeps hr
  obtain rfl : u = t := Host.Outcome.next.inj (hu.symm.trans htick)
  exact hout.imp_right fun hIu => ⟨hIu, hlMW⟩

/-- A step from a boundary is a passage, which retires the instruction or raises a Fatal, or the last tick. -/
theorem Boundary.step_keeps (h : Boundary s k) (hstep : stepWith k s = .next t) :
    (∃ c, t.status = .fatal c) ∨ (Inv t k ∧ t.lMW = none) := by
  rw [stepWith_running h.running h.inv.noForwarding] at hstep
  obtain ⟨i, hi⟩ | ⟨hn, q, hs⟩ := h.nextUp_cases
  · rw [hi.2] at hstep
    obtain ⟨u, hu, E⟩ | ⟨u, hu, F⟩ := hi.passage_spec
    all_goals obtain rfl : u = t := Host.Outcome.next.inj (hu.symm.trans hstep)
    · exact .inr ⟨E.boundary.inv, E.boundary.lMW⟩
    · obtain ⟨c, -, hc, -⟩ := F.error
      exact .inl ⟨c, hc⟩
  · rw [hn] at hstep
    exact q.drain_keeps hs hstep

end

/-- Settles O34: a running state with L_MW empty is a boundary, a stopped one does not move; a step of the
machine is the one with the reference collaborators. -/
theorem stepKeepsInvariant : Obligations.StepKeepsInvariant := by
  unfold Obligations.StepKeepsInvariant
  refine (and_iff_right_of_imp fun key s t hI hw hstep => ?_).2 fun k s t hI hw hstep => ?_
  · exact key .reference s t hI hw ((stepWith_reference s).trans hstep)
  · by_cases hr : s.status = .running
    · exact Boundary.step_keeps ⟨hI, hw, hr⟩ hstep
    · rw [stepWith_stopped hr hstep]
      exact .inr ⟨hI, hw⟩

end Sys2Proof.Machine
end
